-- ==== Sys2Proof/Word.lean ====
section
/-! DEFINITION. The word types of the JB16: what the spec treats as bits is a bit vector; line indexes, counts and
positions are numbers. -/
namespace Sys2Proof

/-- One byte of a frame, a record or a request. -/
abbrev Byte := BitVec 8

/-- A downstream byte address (00 Conventions, R1). -/
abbrev Addr := BitVec 38

/-- A granule number: a byte address divided by 64 (00 Terms). -/
abbrev Granule := BitVec 32

/-- A page number: a byte address divided by 4096 (R23, R43). -/
abbrev Page := BitVec 26

/-- An epoch number; it wraps (00 Conventions, R89). -/
abbrev EpochNo := BitVec 32

/-- A reading of the timestamp counter; it wraps (R175). -/
abbrev Time := BitVec 32

/-- A 32-bit signature, expected value or event argument (R110, R112, R176). -/
abbrev Word32 := BitVec 32

/-- A window index, 0 to 15 (R23). -/
abbrev WinIx := Fin 16

/-- The index of an Intake Queue slot, 0 to 15 (R4). -/
abbrev SlotIx := Fin 16

/-- The index of an outstanding-request slot of the D-port, 0 to 7 (R162, R164). -/
abbrev PortIx := Fin 8

end Sys2Proof
end

