-- ==== Sys2Proof/Syntax.lean ====
section
/-! DEFINITION. The commands of the JB16: one constructor of `Instr` for each row of spec/opcode_table.json, with the
operands the row's rule names. -/
namespace Sys2Proof

/-- The direction of a request (R1, R162). -/
inductive Dir where
  | read
  | write
deriving DecidableEq, Repr

/-- A U-port request as the master presents it (R1). A READ carries no data and no mask. -/
structure Request where
  master : Fin 8
  tag    : Fin 16
  dir    : Dir
  addr   : Addr
  length : Nat
  data   : List Byte
  mask   : List Bool
deriving DecidableEq, Repr

/-- The result of an acknowledgment (R162): OK, with the bytes read for a READ and none for a WRITE, or ERROR. -/
inductive AckResult where
  | ok (data : List Byte)
  | error
deriving DecidableEq, Repr

/-- An edge on EPOCH_IN, and the polarity that selects it (R92). -/
inductive Edge where
  | rising
  | falling
deriving DecidableEq, Repr

/-- The commands: the rows of spec/opcode_table.json, in the table's order. Management arguments keep the widths of the
argument blocks (12.4). -/
inductive Instr where
  /-- UPORT_REQUEST (R3): a master presents a request. -/
  | uportRequest (r : Request)
  /-- DA_GRANT (R166): the DA grants the FREE slot `p`. -/
  | daGrant (p : PortIx)
  /-- FORWARDED_ACK (R9): slot `p`'s forwarded request is acknowledged. -/
  | forwardedAck (p : PortIx) (res : AckResult)
  /-- UNDO_RESERVATION (R69): the JW takes the reservation asked for slot `q`'s capture. -/
  | undoReservation (q : SlotIx)
  /-- OLD_GRANULE_READ_ACK (R70). -/
  | oldGranuleReadAck (p : PortIx) (res : AckResult)
  /-- UNDO_WRITE_ACK (R72). -/
  | undoWriteAck (p : PortIx) (res : AckResult)
  /-- PAD_WRITE_ACK (R55). -/
  | padWriteAck (p : PortIx) (res : AckResult)
  /-- SEAL_WRITE_ACK (R98). -/
  | sealWriteAck (p : PortIx) (res : AckResult)
  /-- OPEN_WRITE_ACK (R99). -/
  | openWriteAck (p : PortIx) (res : AckResult)
  /-- RECORD_READ_ACK (R150). -/
  | recordReadAck (p : PortIx) (res : AckResult)
  /-- RESTORE_WRITE_ACK (R149). -/
  | restoreWriteAck (p : PortIx) (res : AckResult)
  /-- DISCARDED_ACK (R172): slot `p`'s flagged request is acknowledged. -/
  | discardedAck (p : PortIx) (res : AckResult)
  /-- STRAY_ACK (R174): an acknowledgment carries the index of the FREE slot `p`. -/
  | strayAck (p : PortIx) (res : AckResult)
  /-- HOLD_LIMIT_REACHED (R17): the hold time of slot `q`'s request reaches the limit. -/
  | holdLimitReached (q : SlotIx)
  /-- EPOCH_TIMER_EXPIRY (R91). -/
  | epochTimerExpiry
  /-- EPOCH_IN_EDGE (R92). -/
  | epochInEdge (edge : Edge)
  /-- POWER_ON_RESET (R197). -/
  | powerOnReset
  /-- RESET_END (R198): reset ends, with MCS_N low when `mcsLow` (R191). -/
  | resetEnd (mcsLow : Bool)
  /-- FRAME_ENDED_EARLY (R189): MCS_N rises after the bytes given, before a command is taken. -/
  | frameEndedEarly (bytes : List Byte)
  /-- UNKNOWN_COMMAND (R190): the command byte names no command. -/
  | unknownCommand (code : Byte)
  /-- STATUS READ (R192). -/
  | statusRead
  /-- WINDOW WRITE (R32): the argument block of 12.4. -/
  | windowWrite (ix kind : Byte) (base mask : Word32) (flags quiet : Byte)
  /-- WINDOW READ (R34). -/
  | windowRead (sel ix : Byte)
  /-- APPLY (R35). -/
  | apply
  /-- APPLY CANCEL (R39). -/
  | applyCancel
  /-- CLEAR TRIP (R31): bit i stands for window i. -/
  | clearTrip (set : BitVec 16)
  /-- JOURNAL SETUP (R43). -/
  | journalSetup (base pages : Word32)
  /-- RETENTION SET (R102). -/
  | retentionSet (depth : Byte)
  /-- TIMER SET (R194). -/
  | timerSet (interval : BitVec 16) (enable : Byte)
  /-- STROBE SET (R195). -/
  | strobeSet (enable polarity : Byte)
  /-- HOLD LIMIT SET (R196). -/
  | holdLimitSet (limit : BitVec 16)
  /-- ENABLE (R81). -/
  | enable (start : EpochNo)
  /-- DISABLE (R83). -/
  | disable
  /-- SEAL (R93). -/
  | sealNow
  /-- ROLLBACK (R139). -/
  | rollback (target : EpochNo)
  /-- RELEASE (R159). -/
  | release
  /-- JOURNAL RESET (R199). -/
  | journalReset
  /-- ARM EXPECTED (R112). -/
  | armExpected (ix : Byte) (value : Word32)
  /-- EPOCH READ (R104). -/
  | epochRead (start count : Byte)
  /-- SIGNATURE READ (R115). -/
  | signatureRead (epoch : EpochNo)
  /-- EVENT READ (R180). -/
  | eventRead (count : Byte)
  /-- EVENT MASK SET (R183). -/
  | eventMaskSet (mask : Byte)
  /-- CLEAR COUNTERS (R196). -/
  | clearCounters
deriving DecidableEq, Repr

end Sys2Proof
end

