-- ==== Sys2Proof/Decode.lean ====
section
/-! DEFINITION. The management frame and its commands (R187, R189, R190, R202, 12.4): decoding of the bytes a frame
carries, and the encoder of the command rows. The opcode table gives no row any bits, so `decodeTableWord` answers
none. -/
namespace Sys2Proof

/-- Two bytes, the least significant first, as one field (00 Byte order). -/
def word16 (b0 b1 : Byte) : BitVec 16 := b1 ++ b0

/-- Four bytes, the least significant first, as one field (00 Byte order). -/
def word32 (b0 b1 b2 b3 : Byte) : BitVec 32 := (b3 ++ b2) ++ (b1 ++ b0)

/-- The bytes of a 16-bit field, the least significant first. -/
def bytes16 (x : BitVec 16) : List Byte := [x.extractLsb' 0 8, x.extractLsb' 8 8]

/-- The bytes of a 32-bit field, the least significant first. -/
def bytes32 (x : BitVec 32) : List Byte :=
  [x.extractLsb' 0 8, x.extractLsb' 8 8, x.extractLsb' 16 8, x.extractLsb' 24 8]

/-! ## Bits on the link (R186) -/

/-- The bits of a byte in the order they travel, the most significant first (R186). -/
def bitsOfByte (b : Byte) : List Bool :=
  [b.getLsbD 7, b.getLsbD 6, b.getLsbD 5, b.getLsbD 4, b.getLsbD 3, b.getLsbD 2, b.getLsbD 1, b.getLsbD 0]

/-- The complete bytes of the bits sampled on MDI since the fall of MCS_N, in groups of eight rising edges; a byte left
incomplete is dropped (R186, R189). -/
def bytesOfBits (bits : List Bool) : List Byte :=
  match bits with
  | b7 :: b6 :: b5 :: b4 :: b3 :: b2 :: b1 :: b0 :: rest =>
    (BitVec.ofBoolListBE [b7, b6, b5, b4, b3, b2, b1, b0] : BitVec 8) :: bytesOfBits rest
  | _ => []

/-! ## Frames and commands (12.4) -/

/-- The argument count of each command code (12.4); none for a byte that names no command (R190). -/
def argCount (code : Byte) : Option Nat :=
  match code with
  | 0x01#8 => some 0
  | 0x10#8 => some 12
  | 0x11#8 => some 2
  | 0x12#8 => some 0
  | 0x13#8 => some 0
  | 0x14#8 => some 2
  | 0x20#8 => some 8
  | 0x21#8 => some 1
  | 0x22#8 => some 3
  | 0x23#8 => some 2
  | 0x24#8 => some 2
  | 0x30#8 => some 4
  | 0x31#8 => some 0
  | 0x32#8 => some 0
  | 0x33#8 => some 4
  | 0x34#8 => some 0
  | 0x35#8 => some 0
  | 0x40#8 => some 5
  | 0x41#8 => some 2
  | 0x42#8 => some 4
  | 0x50#8 => some 1
  | 0x51#8 => some 1
  | 0x52#8 => some 0
  | _ => none

/-- The command that a code and exactly its argument bytes spell (12.4). -/
def commandOf (code : Byte) (args : List Byte) : Option Instr :=
  match code, args with
  | 0x01#8, [] => some .statusRead
  | 0x10#8, [ix, kind, b0, b1, b2, b3, m0, m1, m2, m3, flags, quiet] =>
    some (.windowWrite ix kind (word32 b0 b1 b2 b3) (word32 m0 m1 m2 m3) flags quiet)
  | 0x11#8, [sel, ix] => some (.windowRead sel ix)
  | 0x12#8, [] => some .apply
  | 0x13#8, [] => some .applyCancel
  | 0x14#8, [s0, s1] => some (.clearTrip (word16 s0 s1))
  | 0x20#8, [b0, b1, b2, b3, p0, p1, p2, p3] => some (.journalSetup (word32 b0 b1 b2 b3) (word32 p0 p1 p2 p3))
  | 0x21#8, [r] => some (.retentionSet r)
  | 0x22#8, [i0, i1, e] => some (.timerSet (word16 i0 i1) e)
  | 0x23#8, [e, p] => some (.strobeSet e p)
  | 0x24#8, [l0, l1] => some (.holdLimitSet (word16 l0 l1))
  | 0x30#8, [e0, e1, e2, e3] => some (.enable (word32 e0 e1 e2 e3))
  | 0x31#8, [] => some .disable
  | 0x32#8, [] => some .sealNow
  | 0x33#8, [e0, e1, e2, e3] => some (.rollback (word32 e0 e1 e2 e3))
  | 0x34#8, [] => some .release
  | 0x35#8, [] => some .journalReset
  | 0x40#8, [ix, v0, v1, v2, v3] => some (.armExpected ix (word32 v0 v1 v2 v3))
  | 0x41#8, [start, count] => some (.epochRead start count)
  | 0x42#8, [e0, e1, e2, e3] => some (.signatureRead (word32 e0 e1 e2 e3))
  | 0x50#8, [count] => some (.eventRead count)
  | 0x51#8, [mask] => some (.eventMaskSet mask)
  | 0x52#8, [] => some .clearCounters
  | _, _ => none

/-- What a frame's bytes come to when MCS_N rises (R187, R189, R190). -/
inductive FrameResult where
  /-- The command is taken at its last argument byte; later bytes are ignored (R187). -/
  | taken (c : Instr)
  /-- The command byte names no command (R190). -/
  | unknown (code : Byte)
  /-- MCS_N rose before the command was taken (R189). -/
  | early
deriving DecidableEq, Repr

/-- Decoding of a frame from its complete bytes on MDI (R187, R189, R190). -/
def decodeFrame (bytes : List Byte) : FrameResult :=
  match bytes with
  | [] => .early
  | code :: rest =>
    match argCount code with
    | none => .unknown code
    | some n =>
      match commandOf code (rest.take n) with
      | some c => .taken c
      | none => .early

/-- Decoding of a frame from the bits sampled on MDI (R186). -/
def decodeBits (bits : List Bool) : FrameResult := decodeFrame (bytesOfBits bits)

/-- The command byte and argument bytes of a management command (12.4); none for a row that is no command. -/
def encodeFrame (c : Instr) : Option (List Byte) :=
  match c with
  | .statusRead => some [0x01#8]
  | .windowWrite ix kind base mask flags quiet =>
    some (0x10#8 :: ix :: kind :: (bytes32 base ++ bytes32 mask ++ [flags, quiet]))
  | .windowRead sel ix => some [0x11#8, sel, ix]
  | .apply => some [0x12#8]
  | .applyCancel => some [0x13#8]
  | .clearTrip set => some (0x14#8 :: bytes16 set)
  | .journalSetup base pages => some (0x20#8 :: (bytes32 base ++ bytes32 pages))
  | .retentionSet depth => some [0x21#8, depth]
  | .timerSet interval enable => some (0x22#8 :: (bytes16 interval ++ [enable]))
  | .strobeSet enable polarity => some [0x23#8, enable, polarity]
  | .holdLimitSet limit => some (0x24#8 :: bytes16 limit)
  | .enable start => some (0x30#8 :: bytes32 start)
  | .disable => some [0x31#8]
  | .sealNow => some [0x32#8]
  | .rollback target => some (0x33#8 :: bytes32 target)
  | .release => some [0x34#8]
  | .journalReset => some [0x35#8]
  | .armExpected ix value => some (0x40#8 :: ix :: bytes32 value)
  | .epochRead start count => some [0x41#8, start, count]
  | .signatureRead epoch => some (0x42#8 :: bytes32 epoch)
  | .eventRead count => some [0x50#8, count]
  | .eventMaskSet mask => some [0x51#8, mask]
  | .clearCounters => some [0x52#8]
  | .unknownCommand code => some [code]
  | .uportRequest _ | .daGrant _ | .forwardedAck _ _ | .undoReservation _ | .oldGranuleReadAck _ _
  | .undoWriteAck _ _ | .padWriteAck _ _ | .sealWriteAck _ _ | .openWriteAck _ _ | .recordReadAck _ _
  | .restoreWriteAck _ _ | .discardedAck _ _ | .strayAck _ _ | .holdLimitReached _ | .epochTimerExpiry
  | .epochInEdge _ | .powerOnReset | .resetEnd _ | .frameEndedEarly _ => none

/-- The command a word spells by the opcode table's bits: the table gives no row any bits, so none. -/
def decodeTableWord (_nbits _w : Nat) : Option Instr := none

end Sys2Proof
end

