-- ==== Sys2Proof/Config.lean ====
section
/-! DEFINITION. The sizes and limits that the JB16 fixes. The spec leaves no value of a result open, so there is no
free-value constant here. -/
namespace Sys2Proof.Config

/-- Request slots of the Intake Queue (R4). -/
abbrev intakeSlots : Nat := 16

/-- Greatest number of granules in the touched set (R59). -/
abbrev touchedMax : Nat := 1024

/-- Slots of the epoch table (R87). -/
abbrev tableSlots : Nat := 64

/-- Event records the queue holds (R177). -/
abbrev eventSlots : Nat := 32

/-- Journal lines kept back from UNDO reservations (R48). -/
abbrev reserveLines : Nat := 10

/-- Length of an UNDO record in lines (R50). -/
abbrev undoLines : Nat := 5

/-- Journal lines in a 4 KiB page (R43). -/
abbrev linesPerPage : Nat := 256

/-- The seal allowance acts when fewer than this many lines are left to the ring end (R48). -/
abbrev sealLinesMax : Nat := 9

/-- Stop of the undo count and of the applied count (R52, R138). -/
abbrev count24Max : Nat := 16777215

/-- Stop of the overflow count (R62). -/
abbrev overflowMax : Nat := 65535

/-- Stop of the 8-bit saturating counters: merged, lost, discarded, failure, quiet (R96, R179, R138, R116). -/
abbrev count8Max : Nat := 255

/-- Microseconds in one unit of the epoch timer interval (R91). -/
abbrev timerUnit : Nat := 10

/-- Generator polynomial of the window signature (R110). -/
abbrev crcPoly : Word32 := 0x04C11DB7#32

/-- A fresh accumulator (R110). -/
abbrev crcFresh : Word32 := 0xFFFFFFFF#32

/-- The line field that means "none" (R42, R51, R52). -/
abbrev noLine : Word32 := 0xFFFFFFFF#32

end Sys2Proof.Config
end

