-- ==== Sys2Proof/Machine/State.lean ====
section
/-! DEFINITION. The state of the JB16, block by block, as plain data; the state after reset; the reasons to stop. -/
namespace Sys2Proof.Machine

/-! ## Window Unit (spec/02) -/

/-- The window kinds (R23), in the order of their codes (12.2). -/
inductive WinKind where
  | off
  | pass
  | journal
  | guard
  | fence
deriving DecidableEq, Repr

/-- The mismatch action of a GUARD window (R23). -/
inductive Action where
  | report
  | trip
deriving DecidableEq, Repr

/-- A window entry (R23): bit j of `base` and of `mask` is address bit 12 + j. -/
structure WinEntry where
  kind      : WinKind
  base      : Page
  mask      : Page
  readFence : Bool
  quiet     : Byte
  action    : Action
deriving DecidableEq, Repr

/-- The Window Unit's state (R23, R29, R35). -/
structure WindowUnit where
  active : Vector WinEntry 16
  staged : Vector WinEntry 16
  trip   : BitVec 16
  armed  : Bool
deriving DecidableEq, Repr

/-! ## Intake Queue (spec/01) -/

/-- The states of an occupied slot (R5). -/
inductive SlotState where
  | waiting
  | held
  | capturing
  | issued
deriving DecidableEq, Repr

/-- The capture markings (R5, R60). -/
inductive Marking where
  | capture
  | captureDup
  | noCapture
deriving DecidableEq, Repr

/-- The outcomes that can be decided before a request is served (R5). -/
inductive Decided where
  | fenced
  | tripped
  | halted
  | heldTimeout
deriving DecidableEq, Repr

/-- The record of an occupied slot (R5). `duty`: the write carries the capture duty of its granule (R65).
`captureEnded`: its capture began and has ended (R10, R12). `atPoint`: it was examined at its capture point and stays
there (R66). -/
structure Slot where
  ix           : SlotIx
  req          : Request
  state        : SlotState
  pos          : Nat
  win          : Option WinIx
  kind         : WinKind
  epoch        : Option EpochNo
  marking      : Option Marking
  holdEntry    : Option Time
  outcome      : Option Decided
  duty         : Bool
  captureEnded : Bool
  atPoint      : Bool
deriving DecidableEq, Repr

/-- The Intake Queue's state: the occupied slots in acceptance order (R4, R6), the next acceptance position, the hold
limit (R17). A slot whose index stands in no record is FREE. -/
structure Intake where
  slots     : List Slot
  nextPos   : Nat
  holdLimit : BitVec 16
deriving DecidableEq, Repr

/-! ## Capture Unit (spec/04) -/

/-- The steps of a capture (R68). -/
inductive CaptureStep where
  | reserving
  | reading
  | writing
  | waitingForRing
deriving DecidableEq, Repr

/-- A capture record (R68). `undoLine` is absent until the reservation is taken; `asked` numbers the group of
reservations that were asked for together (R46, R66). -/
structure Capture where
  slot     : SlotIx
  epoch    : EpochNo
  win      : Option WinIx
  granule  : Granule
  dup      : Bool
  step     : CaptureStep
  undoLine : Option Nat
  backLink : Option Nat
  old      : Option (List Byte)
  asked    : Nat
deriving DecidableEq, Repr

/-- The Capture Unit's state (R59, R68). -/
structure CaptureUnit where
  touched  : List Granule
  captures : List Capture
deriving DecidableEq, Repr

/-! ## Journal Writer (spec/03, spec/07) -/

/-- The journal region (R42, R43): base page and size in 4 KiB pages. -/
structure Region where
  base  : Nat
  pages : Nat
deriving DecidableEq, Repr

/-- The pressure states (R122). -/
inductive Pressure where
  | normal
  | warning
  | constrained
  | suspended
deriving DecidableEq, Repr

/-- The reasons of a suspension and of a broken mark (R87, R122). -/
inductive Reason where
  | pressure
  | media
deriving DecidableEq, Repr

/-- The compare statuses of a signature entry (R53). -/
inductive Compare where
  | notCompared
  | matched
  | mismatch
deriving DecidableEq, Repr

/-- One entry of a signature list (R53, R87). -/
structure SigEntry where
  win       : WinIx
  status    : Compare
  signature : Word32
deriving DecidableEq, Repr

/-- A seal whose SEAL record is reserved and not yet acknowledged (R97, R98): its epoch, its first line, the signature
list formed for it, and the head straight after its reservation. -/
structure SealJob where
  epoch : EpochNo
  line  : Nat
  sigs  : List SigEntry
  after : Nat
deriving DecidableEq, Repr

/-- The Journal Writer's state (R42, R44, R122). -/
structure JournalWriter where
  region   : Option Region
  head     : Nat
  tail     : Nat
  pressure : Pressure
  reason   : Option Reason
  sealJob  : Option SealJob
deriving DecidableEq, Repr

/-! ## Epoch Controller (spec/05) -/

/-- The bridge states (R80). -/
inductive Bridge where
  | passthrough
  | journaling
  | closing
  | rolling
  | halted
deriving DecidableEq, Repr

/-- The states of an epoch in the table (R87). -/
inductive EpochState where
  | opened
  | sealing
  | sealed
deriving DecidableEq, Repr

/-- An entry of the epoch table (R87). -/
structure Entry where
  number   : EpochNo
  state    : EpochState
  openLine : Option Nat
  lastUndo : Option Nat
  sealLine : Option Nat
  endLine  : Option Nat
  undos    : Nat
  overflow : Nat
  written  : BitVec 16
  broken   : Option Reason
  sigs     : Option (List SigEntry)
deriving DecidableEq, Repr

/-- The Epoch Controller's state (R80, R87, R91, R92, R96, R101). The table is in age order, oldest first. `timer` is
the time left of the running epoch timer in microseconds, absent while it is stopped. -/
structure EpochController where
  bridge         : Bridge
  table          : List Entry
  pending        : Bool
  closing        : Bool
  merged         : Nat
  retention      : Nat
  timerInterval  : BitVec 16
  timerEnable    : Bool
  timer          : Option Nat
  strobeEnable   : Bool
  strobePolarity : Edge
deriving DecidableEq, Repr

/-! ## Signature Unit (spec/06) -/

/-- An entry of a signature bank (R106). -/
structure BankEntry where
  kind       : WinKind
  action     : Action
  threshold  : Byte
  acc        : Word32
  written    : Bool
  accepted   : Bool
  expected   : Option Word32
  superseded : Bool
deriving DecidableEq, Repr

/-- A signature bank (R106). -/
structure Bank where
  epoch   : Option EpochNo
  entries : Vector BankEntry 16
deriving DecidableEq, Repr

/-- The quiet counter and the quiet state of a window (R116). -/
structure Quiet where
  counter : Nat
  dormant : Bool
deriving DecidableEq, Repr

/-- The Signature Unit's state (R106, R116). -/
structure SignatureUnit where
  openBank    : Bank
  sealingBank : Bank
  quiet       : Vector Quiet 16
deriving DecidableEq, Repr

/-! ## Rollback Engine (spec/08) -/

/-- The rollback phases (R138). FINISH lasts for one action (R154), so no state between two steps is in it. -/
inductive Phase where
  | idle
  | drain
  | walk
deriving DecidableEq, Repr

/-- The walk steps (R138). -/
inductive WalkStep where
  | reading
  | restoring
deriving DecidableEq, Repr

/-- The record in hand (R138). -/
structure Record where
  granule  : Granule
  backLink : Option Nat
  old      : List Byte
deriving DecidableEq, Repr

/-- The Rollback Engine's state (R138). -/
structure RollbackEngine where
  target    : Option EpochNo
  phase     : Phase
  walkEpoch : Option EpochNo
  walkLine  : Option Nat
  walkStep  : Option WalkStep
  inHand    : Option Record
  applied   : Nat
  discarded : Nat
  failures  : Nat
  reach     : Option EpochNo
deriving DecidableEq, Repr

/-! ## Downstream Arbiter (spec/09) -/

/-- The claimants, in the order of the fixed rotation (R166). -/
inductive Claimant where
  | forwardPath
  | capturePath
  | sealWriter
  | rollbackEngine
deriving DecidableEq, Repr

/-- The kinds of outstanding request with their owners (R163, R164). -/
inductive PortKind where
  | fwdRead (q : SlotIx)
  | fwdWrite (q : SlotIx)
  | oldRead (q : SlotIx)
  | undoWrite (q : SlotIx)
  | padWrite (line : Nat) (epoch : EpochNo)
  | sealWrite (line : Nat) (epoch : EpochNo)
  | openWrite (line : Nat) (epoch : EpochNo)
  | recordRead
  | restoreWrite
deriving DecidableEq, Repr

/-- An occupied outstanding-request slot (R164). -/
structure PortSlot where
  kind    : PortKind
  discard : Bool
deriving DecidableEq, Repr

/-- A request of the capture path's ready list (R165). -/
inductive CaptureReq where
  | oldRead (q : SlotIx)
  | undoWrite (q : SlotIx)
deriving DecidableEq, Repr

/-- A request of the seal writer's ready list (R55, R165): the record's first line and epoch, and what else its bytes
are made of. -/
inductive RecordReq where
  | pad (line : Nat) (epoch : EpochNo) (len : Nat)
  | sealRec (line : Nat) (epoch : EpochNo) (sigs : List SigEntry)
  | openRec (line : Nat) (epoch : EpochNo) (backLink : Option Nat)
deriving DecidableEq, Repr

/-- The request of the rollback engine's ready list (R149, R165). -/
inductive WalkReq where
  | recordRead (line : Nat)
  | restore (r : Record)
deriving DecidableEq, Repr

/-- The Downstream Arbiter's state (R164, R165, R166). `heldCapture` and `heldSealWriter` are the record writes held
back outside the ready lists after a JOURNAL RESET (R56, R165), in the order they were made. -/
structure Arbiter where
  slots          : Vector (Option PortSlot) 8
  forward        : List SlotIx
  capture        : List CaptureReq
  sealWriter     : List RecordReq
  rollback       : Option WalkReq
  heldCapture    : List SlotIx
  heldSealWriter : List RecordReq
  lastGranted    : Claimant
deriving DecidableEq, Repr

/-! ## Event Queue (spec/10) -/

/-- The event codes (R176, 12.2), class by class. -/
inductive EventCode where
  | warningEntered
  | warningLeft
  | constrainedEntered
  | constrainedLeft
  | suspendedEntered
  | suspendedLeft
  | epochSealed
  | epochCommitted
  | boundaryMerged
  | touchedOverflow
  | journalingEnabled
  | journalingDisabled
  | journalReset
  | rollbackDone
  | rollbackRefused
  | rollbackFailed
  | rollbackAborted
  | released
  | sigMismatch
  | windowTripped
  | windowDormant
  | windowWake
  | tableApplied
  | fenceHit
  | trippedWrite
  | holdTimeout
  | mediaFault
  | downstreamError
  | eventsLost
deriving DecidableEq, Repr

/-- An event as it is raised (R176), before it has its sequence number and timestamp. -/
structure Event where
  code   : EventCode
  win    : Option WinIx := none
  master : Option (Fin 8) := none
  epoch  : Option EpochNo := none
  arg    : Word32 := 0#32
deriving DecidableEq, Repr

/-- An event record (R176). -/
structure EventRec where
  seq   : BitVec 16
  event : Event
  time  : Time
deriving DecidableEq, Repr

/-- The Event Queue's state (R175, R177, R179, R183, R184). `evtN` is the level of EVT_N: true is high. -/
structure EventQueue where
  records : List EventRec
  seq     : BitVec 16
  lost    : Nat
  mask    : Byte
  time    : Time
  evtN    : Bool
deriving DecidableEq, Repr

/-! ## Outputs -/

/-- The U-port response statuses (R2). -/
inductive Status where
  | okay
  | malformed
  | fenced
  | tripped
  | halted
  | heldTimeout
  | downstreamError
deriving DecidableEq, Repr

/-- A U-port response (R2). -/
structure Response where
  master : Fin 8
  tag    : Fin 16
  status : Status
  data   : List Byte
deriving DecidableEq, Repr

/-- A request on the D-port (R162). -/
structure PortReq where
  slot   : PortIx
  dir    : Dir
  addr   : Addr
  length : Nat
  data   : List Byte
  mask   : List Bool
deriving DecidableEq, Repr

/-- The management statuses (R188). -/
inductive MStatus where
  | done
  | busy
  | state
  | argument
  | unknown
deriving DecidableEq, Repr

/-- The answer of a frame (R187): the argument count, which fixes the positions, the status and the response bytes. -/
structure Answer where
  args     : Nat
  status   : MStatus
  response : List Byte
deriving DecidableEq, Repr

/-- What a step drives on MDO (R186, R187, R191): nothing; 00h at every position, as in a frame that carries no answer;
or a frame's answer. -/
inductive Mdo where
  | undriven
  | zeros
  | answer (a : Answer)
deriving DecidableEq, Repr

/-! ## The whole -/

/-- The state of the bridge. `port` holds the requests that wait at the U-port (R3, R4), oldest first. `inReset`: reset
is in force (R197). `noFrame`: the MI treats the bytes before the next rise of MCS_N as no frame (R191). `uport`,
`dport` and `mdo` are what the latest step drove on the U-port, the D-port and MDO. `pending` is the queue of commands
that wait for `step`. -/
structure State where
  iq      : Intake
  wu      : WindowUnit
  cu      : CaptureUnit
  jw      : JournalWriter
  ec      : EpochController
  su      : SignatureUnit
  re      : RollbackEngine
  da      : Arbiter
  eq      : EventQueue
  port    : List Request
  inReset : Bool
  noFrame : Bool
  uport   : List Response
  dport   : List PortReq
  mdo     : Mdo
  pending : List Instr
deriving DecidableEq, Repr

/-- The reasons a command could stop the machine. The spec stops the machine nowhere: it answers every command and takes
every event, so no constructor is needed and nothing raises one. -/
inductive Fault where
deriving DecidableEq, Repr

/-- The reasons a command could be refused. -/
inductive Refusal where
  /-- Raised only by an arm of `exec` that has no meaning yet; no arm raises it. Safe: the run stops. -/
  | notModelled (mnemonic : String)
deriving DecidableEq, Repr

/-! ## Reset values -/

/-- A window entry after reset (R41). -/
def WinEntry.reset : WinEntry :=
  { kind := .off, base := 0#26, mask := 0#26, readFence := false, quiet := 0#8, action := .report }

/-- An entry of a reset bank (R106). -/
def BankEntry.reset : BankEntry :=
  { kind := .off, action := .report, threshold := 0#8, acc := Config.crcFresh, written := false, accepted := false,
    expected := none, superseded := false }

/-- A reset bank (R106). -/
def Bank.reset : Bank := { epoch := none, entries := Vector.replicate 16 BankEntry.reset }

/-- The RE's fields after power-on or pin reset (R138). -/
def RollbackEngine.reset : RollbackEngine :=
  { target := none, phase := .idle, walkEpoch := none, walkLine := none, walkStep := none, inHand := none,
    applied := 0, discarded := 0, failures := 0, reach := none }

/-- The state right after reset has ended (R21, R41, R58, R79, R105, R106, R116, R137, R138, R174, R185, R198). -/
def State.reset : State :=
  { iq := { slots := [], nextPos := 0, holdLimit := 0#16 }
    wu := { active := Vector.replicate 16 WinEntry.reset, staged := Vector.replicate 16 WinEntry.reset,
            trip := 0#16, armed := false }
    cu := { touched := [], captures := [] }
    jw := { region := none, head := 0, tail := 0, pressure := .normal, reason := none, sealJob := none }
    ec := { bridge := .passthrough, table := [], pending := false, closing := false, merged := 0, retention := 8,
            timerInterval := 1000#16, timerEnable := false, timer := none, strobeEnable := false,
            strobePolarity := .rising }
    su := { openBank := Bank.reset, sealingBank := Bank.reset,
            quiet := Vector.replicate 16 { counter := 0, dormant := false } }
    re := RollbackEngine.reset
    da := { slots := Vector.replicate 8 none, forward := [], capture := [], sealWriter := [], rollback := none,
            heldCapture := [], heldSealWriter := [], lastGranted := .rollbackEngine }
    eq := { records := [], seq := 0#16, lost := 0, mask := 0#8, time := 0#32, evtN := true }
    port := []
    inReset := false
    noFrame := false
    uport := []
    dport := []
    mdo := .undriven
    pending := [] }

end Sys2Proof.Machine
end

