-- ==== Sys2Proof/Machine/Operands.lean ====
section
/-! DEFINITION. The codes and byte layouts of spec/12: fields of arguments, records, events and entries, and the header
check of a record that is read back. -/
namespace Sys2Proof.Machine

/-! ## Codes (12.2) -/

/-- The code of a window kind. -/
def WinKind.code (k : WinKind) : Nat :=
  match k with
  | .off => 0
  | .pass => 1
  | .journal => 2
  | .guard => 3
  | .fence => 4

/-- The window kind of a code; none above 4 (R33, R202). -/
def kindOfCode (b : Byte) : Option WinKind :=
  match b with
  | 0#8 => some .off
  | 1#8 => some .pass
  | 2#8 => some .journal
  | 3#8 => some .guard
  | 4#8 => some .fence
  | _ => none

/-- The code of a bridge state. -/
def Bridge.code (b : Bridge) : Nat :=
  match b with
  | .passthrough => 0
  | .journaling => 1
  | .closing => 2
  | .rolling => 3
  | .halted => 4

/-- The code of a rollback phase. -/
def Phase.code (p : Phase) : Nat :=
  match p with
  | .idle => 0
  | .drain => 1
  | .walk => 2

/-- The code of a pressure state. -/
def Pressure.code (p : Pressure) : Nat :=
  match p with
  | .normal => 0
  | .warning => 1
  | .constrained => 2
  | .suspended => 3

/-- The code of a suspension or broken reason. -/
def Reason.code (r : Reason) : Nat :=
  match r with
  | .pressure => 1
  | .media => 2

/-- The code of an optional reason: 0 when it is absent. -/
def reasonCode (r : Option Reason) : Nat :=
  match r with
  | none => 0
  | some r => r.code

/-- The code of an epoch state; 0 is EMPTY. -/
def EpochState.code (e : EpochState) : Nat :=
  match e with
  | .opened => 1
  | .sealing => 2
  | .sealed => 3

/-- The code of a compare status (12.1). -/
def Compare.code (c : Compare) : Nat :=
  match c with
  | .notCompared => 0
  | .matched => 1
  | .mismatch => 2

/-- The causes of a commit (R103). -/
inductive Cause where
  | depth
  | forced
  | suspend
  | broken
  | close
  | rollback
deriving DecidableEq, Repr

/-- The code of a commit cause. -/
def Cause.code (c : Cause) : Nat :=
  match c with
  | .depth => 1
  | .forced => 2
  | .suspend => 3
  | .broken => 4
  | .close => 5
  | .rollback => 6

/-- The sources of a boundary request (R90). -/
inductive Source where
  | sealCommand
  | timer
  | strobe
  | disable
deriving DecidableEq, Repr

/-- The code of a merge source. -/
def Source.code (c : Source) : Nat :=
  match c with
  | .sealCommand => 1
  | .timer => 2
  | .strobe => 3
  | .disable => 4

/-- The reasons of a walk failure (R156). -/
inductive WalkFailure where
  | read
  | write
  | corrupt
deriving DecidableEq, Repr

/-- The code of a walk failure reason. -/
def WalkFailure.code (c : WalkFailure) : Nat :=
  match c with
  | .read => 1
  | .write => 2
  | .corrupt => 3

/-- The kinds of failed request a MEDIA-FAULT names (R76, R170). -/
inductive FaultKind where
  | captureRead
  | undoWrite
  | padWrite
  | sealWrite
  | openWrite
deriving DecidableEq, Repr

/-- The code of a media fault kind. -/
def FaultKind.code (c : FaultKind) : Nat :=
  match c with
  | .captureRead => 1
  | .undoWrite => 2
  | .padWrite => 3
  | .sealWrite => 4
  | .openWrite => 5

/-- The status a decided outcome is answered with (R5, R7). -/
def Decided.status (o : Decided) : Status :=
  match o with
  | .fenced => .fenced
  | .tripped => .tripped
  | .halted => .halted
  | .heldTimeout => .heldTimeout

/-- The code of a U-port response status. -/
def Status.code (t : Status) : Nat :=
  match t with
  | .okay => 0
  | .malformed => 1
  | .fenced => 2
  | .tripped => 3
  | .halted => 4
  | .heldTimeout => 5
  | .downstreamError => 6

/-- The status byte (12.2). -/
def MStatus.byte (t : MStatus) : Byte :=
  match t with
  | .done => 0x01#8
  | .busy => 0x02#8
  | .state => 0x03#8
  | .argument => 0x04#8
  | .unknown => 0x05#8

/-- Class code and code of an event (12.2). -/
def EventCode.codes (c : EventCode) : Nat × Nat :=
  match c with
  | .warningEntered => (0, 0)
  | .warningLeft => (0, 1)
  | .constrainedEntered => (0, 2)
  | .constrainedLeft => (0, 3)
  | .suspendedEntered => (0, 4)
  | .suspendedLeft => (0, 5)
  | .epochSealed => (1, 0)
  | .epochCommitted => (1, 1)
  | .boundaryMerged => (1, 2)
  | .touchedOverflow => (1, 3)
  | .journalingEnabled => (1, 4)
  | .journalingDisabled => (1, 5)
  | .journalReset => (1, 6)
  | .rollbackDone => (2, 0)
  | .rollbackRefused => (2, 1)
  | .rollbackFailed => (2, 2)
  | .rollbackAborted => (2, 3)
  | .released => (2, 4)
  | .sigMismatch => (3, 0)
  | .windowTripped => (3, 1)
  | .windowDormant => (4, 0)
  | .windowWake => (4, 1)
  | .tableApplied => (4, 2)
  | .fenceHit => (5, 0)
  | .trippedWrite => (5, 1)
  | .holdTimeout => (5, 2)
  | .mediaFault => (6, 0)
  | .downstreamError => (6, 1)
  | .eventsLost => (7, 0)

/-! ## Fields -/

/-- A number as one byte. -/
def byteOf (n : Nat) : Byte := BitVec.ofNat 8 n

/-- A flag as one bit of a byte. -/
def bitOf (b : Bool) (place : Nat) : Nat := if b then 2 ^ place else 0

/-- A line field: FFFFFFFFh when absent (R42, R104). -/
def lineField (l : Option Nat) : Word32 :=
  match l with
  | none => Config.noLine
  | some n => BitVec.ofNat 32 n

/-- A 24-bit field, the least significant byte first. -/
def bytes24 (n : Nat) : List Byte := [byteOf n, byteOf (n / 256), byteOf (n / 65536)]

/-- A packed argument of four bytes, given from bits 0 to 7 upward (12.2). -/
def packBytes (b0 b1 b2 b3 : Nat) : Word32 := word32 (byteOf b0) (byteOf b1) (byteOf b2) (byteOf b3)

/-- A packed argument of a line in bits 0 to 27 and a code in bits 28 to 31 (R156, R178). -/
def packLine (line code : Nat) : Word32 := (BitVec.ofNat 4 code ++ BitVec.ofNat 28 line : BitVec 32)

/-- A packed argument of a count in its low 24 bits and a byte above (R155, R160). -/
def packCount (count high : Nat) : Word32 := (BitVec.ofNat 8 high ++ BitVec.ofNat 24 count : BitVec 32)

/-- The page of an address as an event argument: address / 4096 (R24). -/
def pageArg (a : Addr) : Word32 := (a.extractLsb' 12 26).setWidth 32

/-! ## Journal records (12.1) -/

/-- The bytes of an OPEN record. -/
def openBytes (epoch : EpochNo) (backLink : Option Nat) : List Byte :=
  [0xA1#8, 1#8, 0#8, 0#8] ++ bytes32 epoch ++ bytes32 (lineField backLink) ++ List.replicate 4 0#8

/-- The bytes of an UNDO record. -/
def undoBytes (epoch : EpochNo) (win : Option WinIx) (dup : Bool) (backLink : Option Nat) (granule : Granule)
    (old : List Byte) : List Byte :=
  [0xA2#8, byteOf Config.undoLines, byteOf ((win.map (·.val)).getD 0), byteOf (bitOf dup 0)] ++ bytes32 epoch
    ++ bytes32 (lineField backLink) ++ bytes32 granule ++ old

/-- The eight bytes of a signature entry. -/
def SigEntry.bytes (e : SigEntry) : List Byte :=
  [byteOf e.win.val, byteOf e.status.code, 0#8, 0#8] ++ bytes32 e.signature

/-- Length of a SEAL record of `n` entries in lines (R50). -/
def sealLines (n : Nat) : Nat := 1 + (n + 1) / 2

/-- The flags byte of a SEAL record: 00h, 03h or 05h (12.1). -/
def sealFlags (broken : Option Reason) : Byte :=
  match broken with
  | none => 0x00#8
  | some .pressure => 0x03#8
  | some .media => 0x05#8

/-- The bytes of a SEAL record, the second half of its last line zero when the count is odd (R53). -/
def sealBytes (epoch : EpochNo) (broken : Option Reason) (undos overflow : Nat) (sigs : List SigEntry) : List Byte :=
  [0xA3#8, byteOf (sealLines sigs.length), byteOf sigs.length, sealFlags broken] ++ bytes32 epoch
    ++ (bytes24 undos ++ [0#8]) ++ (bytes16 (BitVec.ofNat 16 overflow) ++ [0#8, 0#8])
    ++ sigs.flatMap SigEntry.bytes ++ (if sigs.length % 2 = 1 then List.replicate 8 0#8 else [])

/-- The header line of a PAD record of `len` lines (R54). -/
def padBytes (epoch : EpochNo) (len : Nat) : List Byte :=
  [0xA4#8, byteOf len, 0#8, 0#8] ++ bytes32 epoch ++ List.replicate 8 0#8

/-- Byte `k` of a record that was read, 00h beyond its end. -/
def byteAt (data : List Byte) (k : Nat) : Byte := data.getD k 0#8

/-- The 32-bit field at offset `k`. -/
def fieldAt (data : List Byte) (k : Nat) : Word32 :=
  word32 (byteAt data k) (byteAt data (k + 1)) (byteAt data (k + 2)) (byteAt data (k + 3))

/-- The back-link field of a record header: none when FFFFFFFFh (R52). -/
def backLinkOf (data : List Byte) : Option Nat :=
  if fieldAt data 8 = Config.noLine then none else some (fieldAt data 8).toNat

/-- What a record read gives the walk: granule number, back-link and the 64 old bytes (R149, R201). -/
def recordOf (data : List Byte) : Record :=
  { granule := fieldAt data 12, backLink := backLinkOf data, old := (data.drop 16).take 64 }

/-! ## Records returned over the link (12.3) -/

/-- The 16 bytes of an event record. -/
def EventRec.bytes (r : EventRec) : List Byte :=
  bytes16 r.seq
    ++ [byteOf (r.event.code.codes.2 + 8 * r.event.code.codes.1 + bitOf r.event.win.isSome 6
          + bitOf r.event.master.isSome 7),
        byteOf (((r.event.win.map (·.val)).getD 0) + 16 * ((r.event.master.map (·.val)).getD 0)
          + bitOf r.event.epoch.isSome 7)]
    ++ bytes32 (r.event.epoch.getD 0#32) ++ bytes32 r.event.arg ++ bytes32 r.time

/-- The signature count of an EPOCH READ entry: 0 unless SEALED. -/
def Entry.sigCount (e : Entry) : Nat :=
  match e.sigs with
  | none => 0
  | some l => l.length

/-- The 32 bytes of an EPOCH READ entry, with the written set given (R104). -/
def Entry.bytes (e : Entry) (written : BitVec 16) : List Byte :=
  bytes32 e.number ++ [byteOf e.state.code, byteOf (reasonCode e.broken), byteOf e.sigCount, 0#8]
    ++ bytes32 (lineField e.openLine) ++ bytes32 (lineField e.lastUndo) ++ bytes32 (lineField e.sealLine)
    ++ bytes32 (lineField e.endLine) ++ (bytes24 e.undos ++ [0#8]) ++ bytes16 (BitVec.ofNat 16 e.overflow)
    ++ bytes16 written

/-- An EMPTY EPOCH READ entry (R104). -/
def emptyEntryBytes : List Byte := List.replicate 32 0#8

/-- The 12 bytes of a window entry at index `ix`, the layout of WINDOW WRITE (12.4). -/
def WinEntry.bytes (w : WinEntry) (ix : WinIx) : List Byte :=
  [byteOf ix.val, byteOf w.kind.code] ++ bytes32 (w.base.setWidth 32) ++ bytes32 (w.mask.setWidth 32)
    ++ [byteOf (bitOf w.readFence 0 + bitOf (decide (w.action = .trip)) 1), w.quiet]

/-! ## Arguments -/

/-- A window index argument: none above 15 (R33). -/
def winIxOf (b : Byte) : Option WinIx := if h : b.toNat < 16 then some ⟨b.toNat, h⟩ else none

/-- An enable byte: 00h clear, 01h set, no other value (R194, R195). -/
def flagOf (b : Byte) : Option Bool :=
  match b with
  | 0#8 => some false
  | 1#8 => some true
  | _ => none

/-- A polarity byte: 00h RISING, 01h FALLING, no other value (R195). -/
def polarityOf (b : Byte) : Option Edge :=
  match b with
  | 0#8 => some .rising
  | 1#8 => some .falling
  | _ => none

/-- A page field of 26 bits held in 4 bytes: none with a bit set beyond (R33, R202). -/
def pageOf (w : Word32) : Option Page := if w.toNat < 2 ^ 26 then some (w.setWidth 26) else none

/-- The window index and entry that WINDOW WRITE's arguments spell, none in each case of R33. Bits 2 to 7 of the flags
byte are ignored (R202). -/
def windowArgs (ix kind : Byte) (base mask : Word32) (flags quiet : Byte) : Option (WinIx × WinEntry) :=
  match winIxOf ix, kindOfCode kind, pageOf base, pageOf mask with
  | some i, some k, some b, some m =>
    if (flags.getLsbD 0 && k != .fence) || (flags.getLsbD 1 && k != .guard) then none
    else some (i, { kind := k, base := b, mask := m, readFence := flags.getLsbD 0, quiet := quiet,
                    action := if flags.getLsbD 1 then .trip else .report })
  | _, _, _, _ => none

/-! ## The frame's answer (R187) -/

/-- The byte on MDO at position `k` of a frame: 00h up to the turnaround, the status byte, the response bytes, then
00h. -/
def Answer.byteAt (a : Answer) (k : Nat) : Byte :=
  if k < a.args + 2 then 0#8
  else if k = a.args + 2 then a.status.byte
  else a.response.getD (k - (a.args + 3)) 0#8

/-- The bit on MDO at the `n`-th bit position of a frame, counted from the fall of MCS_N: the bytes travel most significant
bit first (R186). -/
def Answer.bitAt (a : Answer) (n : Nat) : Bool := (a.byteAt (n / 8)).getLsbD (7 - n % 8)

/-- The byte a step drives on MDO at position `k` of the bytes it stands for, none while MDO is not driven (R187, R191). -/
def Mdo.byteAt (m : Mdo) (k : Nat) : Option Byte :=
  match m with
  | .undriven => none
  | .zeros => some 0#8
  | .answer a => some (a.byteAt k)

end Sys2Proof.Machine
end

