-- ==== Sys2Proof/Machine/Flags.lean ====
section
/-! DEFINITION. What the blocks derive from the state: ring counts and thresholds, look-ups in the tables, the
conditions of the rules, the level of EVT_N. Nothing here changes the state. -/
namespace Sys2Proof.Machine

/-! ## The ring (R42, R44, R121) -/

/-- Ring lines: size × 256, 0 while the region is unset (R42, R43). -/
def State.ringLines (s : State) : Nat :=
  match s.jw.region with
  | none => 0
  | some g => g.pages * Config.linesPerPage

/-- Lines from `a` forward to `b`, modulo ring lines (00 Conventions). -/
def State.lineDist (s : State) (a b : Nat) : Nat := (b + s.ringLines - a) % s.ringLines

/-- Used lines: (head − tail) modulo ring lines (R44); 0 while the region is unset (R121). -/
def State.used (s : State) : Nat := if s.ringLines = 0 then 0 else s.lineDist s.jw.tail s.jw.head

/-- Free lines (R44). -/
def State.free (s : State) : Nat := s.ringLines - 1 - s.used

/-- A threshold count: the percentage of the ring lines, rounded down (R121). -/
def State.percent (s : State) (p : Nat) : Nat := s.ringLines * p / 100

/-- The fill (R121); 0 while the region is unset. -/
def State.fill (s : State) : Nat := 100 * s.used / s.ringLines

/-- The downstream byte address of a line (R42). -/
def State.lineAddr (s : State) (line : Nat) : Addr :=
  match s.jw.region with
  | none => BitVec.ofNat 38 (16 * line)
  | some g => BitVec.ofNat 38 (g.base * 4096 + 16 * line)

/-- The address lies in the journal region (R24). -/
def State.inRegion (s : State) (a : Addr) : Bool :=
  match s.jw.region with
  | none => false
  | some g => g.base ≤ (a.extractLsb' 12 26).toNat && (a.extractLsb' 12 26).toNat < g.base + g.pages

/-! ## Requests and slots (R3, R5, R6) -/

/-- The granule number of an address (R5). -/
def granuleOf (a : Addr) : Granule := a.extractLsb' 6 32

/-- The first byte address of a granule (R70). -/
def granuleAddr (g : Granule) : Addr := g ++ (0#6 : BitVec 6)

/-- The granule number of a slot's request (R5). -/
def Slot.granule (x : Slot) : Granule := granuleOf x.req.addr

/-- The request passes the form check (R3). -/
def formOk (r : Request) : Bool :=
  r.length != 0 && r.length ≤ 64 && (r.addr.extractLsb' 0 6).toNat + r.length ≤ 64
    && (r.dir == .read || r.mask.any id)

/-- The kinds whose writes are journaled (R11). -/
def WinKind.journaled (k : WinKind) : Bool := k == .journal || k == .guard

/-- The slot holds a request classified JOURNAL or GUARD. -/
def Slot.journaled (x : Slot) : Bool := x.kind.journaled

/-- The slot holds a WRITE. -/
def Slot.isWrite (x : Slot) : Bool := x.req.dir == .write

/-- The write is marked for a capture that has not ended (R66). -/
def Slot.needsCapture (x : Slot) : Bool :=
  (x.marking == some .capture || x.marking == some .captureDup) && !x.captureEnded

/-- The record of slot `q`, none when it is FREE (R4). -/
def State.slot? (s : State) (q : SlotIx) : Option Slot := s.iq.slots.find? (fun x => x.ix == q)

/-- The lowest FREE slot; none when all 16 are occupied (R4, log 5). -/
def State.freeSlot? (s : State) : Option SlotIx := (List.finRange 16).find? (fun q => (s.slot? q).isNone)

/-- The granule order of `g`: its occupied slots, oldest first (R6). -/
def State.order (s : State) (g : Granule) : List Slot := s.iq.slots.filter (fun x => x.granule == g)

/-- The slot is the head of its granule order (R6). -/
def State.isHead (s : State) (x : Slot) : Bool := (s.order x.granule).head?.map (·.ix) == some x.ix

/-- The U-port takes requests: reset is not in force and a slot is FREE (R4, R21). -/
def State.takesRequests (s : State) : Bool := !s.inReset && (s.freeSlot?).isSome

/-- The hold time of a HELD request (R17). -/
def State.holdTime (s : State) (x : Slot) : Word32 := s.eq.time - x.holdEntry.getD s.eq.time

/-- The slot is HELD and its hold time has reached the hold limit (R17). -/
def State.holdDue (s : State) (x : Slot) : Bool :=
  x.state == .held && s.iq.holdLimit != 0#16 && s.iq.holdLimit.toNat ≤ (s.holdTime x).toNat

/-! ## Windows (R24, R25, R29) -/

/-- The address matches the entry (R25). -/
def WinEntry.covers (w : WinEntry) (a : Addr) : Bool :=
  w.kind != .off && (a.extractLsb' 12 26 ^^^ w.base) &&& w.mask == 0#26

/-- The window that classifies an address: the lowest matching index (R25). -/
def State.window? (s : State) (a : Addr) : Option WinIx :=
  (List.finRange 16).find? (fun i => (s.wu.active[i]).covers a)

/-- The trip flag of the window is set; a request with no window index meets none (R30). -/
def State.tripped (s : State) (win : Option WinIx) : Bool :=
  match win with
  | none => false
  | some i => s.wu.trip.getLsbD i.val

/-! ## The epoch table (R87) -/

/-- The entry of an epoch number. -/
def State.entry? (s : State) (e : EpochNo) : Option Entry := s.ec.table.find? (fun x => x.number == e)

/-- The OPEN epoch's entry. -/
def State.openEntry? (s : State) : Option Entry := s.ec.table.find? (fun x => x.state == .opened)

/-- The OPEN epoch's number, when the table holds one. -/
def State.openEpoch? (s : State) : Option EpochNo := s.openEntry?.map (·.number)

/-- The SEALING epoch's entry. -/
def State.sealingEntry? (s : State) : Option Entry := s.ec.table.find? (fun x => x.state == .sealing)

/-- The epoch is in the table and marked broken. -/
def State.isBroken (s : State) (e : EpochNo) : Bool := ((s.entry? e).bind (·.broken)).isSome

/-- Number of SEALED epochs (R101). -/
def State.sealedCount (s : State) : Nat := s.ec.table.countP (fun x => x.state == .sealed)

/-- The entries from `t` to the newest, empty when the table does not hold `t` (R139, R146). -/
def State.span (s : State) (t : EpochNo) : List Entry := s.ec.table.dropWhile (fun x => x.number != t)

/-- An epoch from `t` to the newest is marked broken (R139, R146). -/
def State.spanBroken (s : State) (t : EpochNo) : Bool := (s.span t).any (fun x => x.broken.isSome)

/-- Position of an epoch in the table, counted from the oldest. -/
def State.position (s : State) (e : EpochNo) : Nat := s.ec.table.findIdx (fun x => x.number == e)

/-- `a` is newer in the table than `b` (R139, R152): position, not number. -/
def State.newer (s : State) (a b : EpochNo) : Bool := s.position b < s.position a

/-! ## The Downstream Arbiter (R56, R163, R164) -/

/-- The claimant of a request kind (R163). -/
def PortKind.claimant (k : PortKind) : Claimant :=
  match k with
  | .fwdRead _ | .fwdWrite _ => .forwardPath
  | .oldRead _ | .undoWrite _ => .capturePath
  | .padWrite _ _ | .sealWrite _ _ | .openWrite _ _ => .sealWriter
  | .recordRead | .restoreWrite => .rollbackEngine

/-- A ring request: a record write or a record read (R56). -/
def PortKind.isRing (k : PortKind) : Bool :=
  match k with
  | .undoWrite _ | .padWrite _ _ | .sealWrite _ _ | .openWrite _ _ | .recordRead => true
  | .fwdRead _ | .fwdWrite _ | .oldRead _ | .restoreWrite => false

/-- A journal record write (R144). -/
def PortKind.isRecordWrite (k : PortKind) : Bool :=
  match k with
  | .undoWrite _ | .padWrite _ _ | .sealWrite _ _ | .openWrite _ _ => true
  | .fwdRead _ | .fwdWrite _ | .oldRead _ | .recordRead | .restoreWrite => false

/-- Some occupied slot of the DA satisfies `p`. -/
def State.anyPort (s : State) (p : PortSlot → Bool) : Bool := s.da.slots.toList.any (fun o => o.any p)

/-- A ring request is outstanding (R43, R56). -/
def State.ringOutstanding (s : State) : Bool := s.anyPort (fun k => k.kind.isRing)

/-- Record writes are held back: a flagged ring request is outstanding (R56, R172). -/
def State.holdsBack (s : State) : Bool := s.anyPort (fun k => k.discard && k.kind.isRing)

/-- A slot is the rollback engine's, flagged or not, so that its next request may not be sent (R149, R164). -/
def State.walkOut (s : State) : Bool := s.anyPort (fun k => k.kind.claimant == .rollbackEngine)

/-- An OPEN or PAD write of epoch `e` is outstanding, so its SEAL write may not be sent (R55, R165). -/
def State.sealBlocked (s : State) (e : EpochNo) : Bool :=
  s.anyPort fun k => !k.discard &&
    match k.kind with
    | .padWrite _ e' | .openWrite _ e' => e' == e
    | _ => false

/-- The capture request writes a record. -/
def CaptureReq.isWrite (c : CaptureReq) : Bool :=
  match c with
  | .oldRead _ => false
  | .undoWrite _ => true

/-- A journal record write has been made and not acknowledged: on the D-port, in a ready list or held back
(R144 condition 3, log 11). -/
def State.recordWriteLeft (s : State) : Bool :=
  s.anyPort (fun k => k.kind.isRecordWrite) || s.da.capture.any CaptureReq.isWrite || !s.da.sealWriter.isEmpty
    || !s.da.heldCapture.isEmpty || !s.da.heldSealWriter.isEmpty

/-! ## Conditions of the long operations -/

/-- The writes of the SEALING epoch have all been answered or are HELD (R97). -/
def State.writesDone (s : State) (e : EpochNo) : Bool :=
  s.iq.slots.all (fun x => x.epoch != some e || x.state == .held)

/-- DRAIN waits for the answer of the request: a write assigned to an epoch and not HELD (R144), or a write whose capture has
ended, with no assignment too (R10). A write without an assignment that was ISSUED before ENABLE is not waited for, though R141
speaks of the ISSUED writes: log 23. -/
def Slot.drains (x : Slot) : Bool := (x.epoch.isSome || x.captureEnded) && x.state != .held

/-- The four conditions that end DRAIN (R144). -/
def State.drainDone (s : State) : Bool :=
  s.iq.slots.all (fun x => !x.drains)
    && s.sealingEntry?.isNone
    && !s.recordWriteLeft
    && s.iq.slots.all (fun x => x.outcome != some .halted)

/-- The header check of R150 at line `l` in the walk epoch's entry `e`. -/
def State.headerOk (s : State) (e : Entry) (l : Nat) (data : List Byte) : Bool :=
  byteAt data 0 == 0xA2#8 && byteAt data 1 == 5#8 && fieldAt data 4 == e.number
    && match backLinkOf data, e.openLine with
       | none, _ => true
       | some b, some o => b < s.ringLines && s.lineDist o b < s.lineDist o l
       | some _, none => false

/-! ## The event line (R184) -/

/-- The record's class is enabled in the mask. -/
def EventRec.enabledIn (r : EventRec) (mask : Byte) : Bool := mask.getLsbD r.event.code.codes.1

/-- The level of EVT_N: low, false, while a record of an enabled class is queued (R184). -/
def EventQueue.line (q : EventQueue) : Bool := !(q.records.any (fun r => r.enabledIn q.mask))

end Sys2Proof.Machine
end

