-- ==== Sys2Proof/Machine/Ops.lean ====
section
/-! DEFINITION. The operations the blocks share: raising an event, answering a request, changing a slot, a table entry,
a ready list; pressure, commit, entry to SUSPENDED; reservation and record writes. -/
namespace Sys2Proof.Machine

/-! ## Counting -/

/-- One more, unless at the stop (00 Conventions, saturating counters). -/
def satInc (stop n : Nat) : Nat := if n < stop then n + 1 else stop

/-! ## Events (R177, R179, R184) -/

/-- Insertion at the tail with the next sequence number and the timestamp, or a drop that is counted when the queue is
full (R177, R179). An insertion evaluates EVT_N, a drop does not (R184). -/
def EventQueue.raise (q : EventQueue) (e : Event) : EventQueue :=
  if q.records.length < Config.eventSlots then
    let q' : EventQueue :=
      { q with records := q.records ++ [{ seq := q.seq, event := e, time := q.time }], seq := q.seq + 1#16 }
    { q' with evtN := q'.line }
  else { q with lost := satInc Config.count8Max q.lost }

/-- An event raised by a block (R177). -/
def State.raise (s : State) (e : Event) : State := { s with eq := s.eq.raise e }

/-! ## Outputs -/

/-- A step drives its own outputs only (log 8). -/
def State.begin (s : State) : State := { s with uport := [], dport := [], mdo := .undriven }

/-- A response returned on the U-port (R2). -/
def State.respond (s : State) (r : Response) : State := { s with uport := s.uport ++ [r] }

/-! ## Intake Queue slots -/

/-- The record of slot `q` changed by `f`. -/
def State.setSlot (s : State) (q : SlotIx) (f : Slot → Slot) : State :=
  { s with iq := { s.iq with slots := s.iq.slots.map (fun x => if x.ix == q then f x else x) } }

/-- Every slot's record changed by `f`. -/
def State.mapSlots (s : State) (f : Slot → Slot) : State :=
  { s with iq := { s.iq with slots := s.iq.slots.map f } }

/-- Slot `q` becomes FREE (R4). -/
def State.dropSlot (s : State) (q : SlotIx) : State :=
  { s with iq := { s.iq with slots := s.iq.slots.filter (fun x => x.ix != q) } }

/-- The slot record of a request whose epoch assignment and capture marking are cleared (R14, R20, R97). That its capture
has ended stays true of it (R10). -/
def Slot.unassigned (x : Slot) : Slot :=
  { x with epoch := none, marking := none, duty := false, atPoint := false }

/-- A HELD request becomes WAITING (R14, R15, R17, R20); any other is left as it is. -/
def Slot.unheld (x : Slot) : Slot :=
  if x.state = .held then { x with state := .waiting, holdEntry := none } else x

/-- A write that stays at its capture point is to be examined again (R66). -/
def Slot.reexamined (x : Slot) : Slot := { x with atPoint := false }

/-- The request asks the DA for a forward-path slot: it joins the tail of the ready list, which holds no request twice
(R7, R165). -/
def State.askForward (s : State) (q : SlotIx) : State :=
  if q ∈ s.da.forward then s else { s with da := { s.da with forward := s.da.forward ++ [q] } }

/-- A forwarded request is withdrawn from the ready list (R167). -/
def State.withdraw (s : State) (q : SlotIx) : State :=
  { s with da := { s.da with forward := s.da.forward.filter (fun x => x != q) } }

/-- The write in slot `q` is decided TRIPPED, and TRIPPED-WRITE is raised (R30). -/
def State.decideTripped (s : State) (x : Slot) : State :=
  (s.setSlot x.ix (fun y => { y with outcome := some .tripped, atPoint := false })).raise
    { code := .trippedWrite, win := x.win, master := some x.req.master, arg := pageArg x.req.addr }

/-! ## Epoch table -/

/-- The entry of epoch `e` changed by `f`; nothing when the table does not hold it (log 22). -/
def State.setEntry (s : State) (e : EpochNo) (f : Entry → Entry) : State :=
  { s with ec := { s.ec with table := s.ec.table.map (fun x => if x.number == e then f x else x) } }

/-- A mark that is present keeps its first reason (R88). -/
def Entry.mark (r : Reason) (e : Entry) : Entry := { e with broken := some (e.broken.getD r) }

/-- Epoch `e` is marked broken when it is not yet (R88). Its writes at their capture point are then examined again
(R66). -/
def State.markBroken (s : State) (e : EpochNo) (r : Reason) : State :=
  if s.isBroken e then s
  else (s.setEntry e (Entry.mark r)).mapSlots (fun x => if x.epoch == some e then x.reexamined else x)

/-- A newly opened epoch (R81, R94, R154). -/
def Entry.fresh (e : EpochNo) : Entry :=
  { number := e, state := .opened, openLine := none, lastUndo := none, sealLine := none, endLine := none, undos := 0,
    overflow := 0, written := 0#16, broken := none, sigs := none }

/-! ## Pressure (R122 to R124) -/

/-- The pressure state is set; a change makes the writes at their capture point be examined again (R66). -/
def State.setPressure (s : State) (p : Pressure) (r : Option Reason) : State :=
  let t := { s with jw := { s.jw with pressure := p, reason := r } }
  if s.jw.pressure = p then t else t.mapSlots Slot.reexamined

/-- The state an evaluation moves to (R123). -/
def State.evaluated (s : State) : Pressure :=
  match s.jw.pressure with
  | .normal =>
    if s.percent 90 ≤ s.used then .constrained else if s.percent 75 ≤ s.used then .warning else .normal
  | .warning =>
    if s.percent 90 ≤ s.used then .constrained else if s.used < s.percent 70 then .normal else .warning
  | .constrained =>
    if s.used < s.percent 70 then .normal else if s.used < s.percent 85 then .warning else .constrained
  | .suspended => .suspended

/-- The events of a change made by an evaluation, in the order the steps are passed (R124). -/
def changeEvents (a b : Pressure) : List EventCode :=
  match a, b with
  | .normal, .warning => [.warningEntered]
  | .warning, .constrained => [.constrainedEntered]
  | .normal, .constrained => [.warningEntered, .constrainedEntered]
  | .constrained, .warning => [.constrainedLeft]
  | .warning, .normal => [.warningLeft]
  | .constrained, .normal => [.constrainedLeft, .warningLeft]
  | _, _ => []

/-- Events with the OPEN epoch's number, when there is one, and the given argument (R124). -/
def State.raiseCodes (s : State) (arg : Word32) (codes : List EventCode) : State :=
  codes.foldl (fun t c => t.raise { code := c, epoch := s.openEpoch?, arg := arg }) s

/-- An evaluation of the thresholds (R123, R124): none while SUSPENDED, and none while the region is unset (R121). -/
def State.evaluate (s : State) : State :=
  if s.jw.pressure = .suspended ∨ s.ringLines = 0 then s
  else (s.raiseCodes (BitVec.ofNat 32 s.used) (changeEvents s.jw.pressure s.evaluated)).setPressure s.evaluated none

/-- Pressure becomes NORMAL on a way into PASSTHROUGH (R86, R134): SUSPENDED-LEFT from SUSPENDED, otherwise the events
of R124. -/
def State.normalize (s : State) : State :=
  if s.jw.pressure = .suspended then
    (s.setPressure .normal none).raise { code := .suspendedLeft }
  else (s.raiseCodes (BitVec.ofNat 32 s.used) (changeEvents s.jw.pressure .normal)).setPressure .normal none

/-! ## Commit (R57, R103) -/

/-- The oldest entry is committed when it is SEALED: tail moves to its end line, it leaves the table, EPOCH-COMMITTED is
raised, and the thresholds are evaluated (R57, R103, R123). -/
def State.commitOldest (s : State) (c : Cause) : State :=
  match s.ec.table with
  | [] => s
  | e :: rest =>
    if e.state = .sealed then
      State.evaluate
        (State.raise { s with jw := { s.jw with tail := e.endLine.getD s.jw.tail }, ec := { s.ec with table := rest } }
          { code := .epochCommitted, epoch := some e.number, arg := BitVec.ofNat 32 c.code })
    else s

/-- `n` commits, oldest first (R57, R103). -/
def State.commitN (n : Nat) (s : State) (c : Cause) : State :=
  match n with
  | 0 => s
  | n + 1 => State.commitN n (s.commitOldest c) c

/-- Every SEALED epoch is committed, oldest first. -/
def State.commitSealed (s : State) (c : Cause) : State := s.commitN s.sealedCount c

/-- The SEALED epochs above the retention depth are committed, oldest first (R102, R145). -/
def State.commitExcess (s : State) (c : Cause) : State := s.commitN (s.sealedCount - s.ec.retention) c

/-! ## SUSPENDED (R128, R130) -/

/-- The argument of SUSPENDED-ENTERED (R128, 12.2). -/
def State.suspendedArg (s : State) (r : Reason) (committed : Nat) (left : Pressure) : Word32 :=
  packBytes r.code committed s.fill left.code

/-- The OPEN epoch is marked broken with the suspension reason (R128 step 2). -/
def State.markOpen (s : State) (r : Reason) : State :=
  match s.openEpoch? with
  | none => s
  | some e => s.markBroken e r

/-- Entry to SUSPENDED (R128); nothing when the state is SUSPENDED already (R130). -/
def State.enterSuspended (s : State) (r : Reason) : State :=
  if s.jw.pressure = .suspended then s
  else
    let t := ((s.setPressure .suspended (some r)).markOpen r).commitSealed .suspend
    t.raise { code := .suspendedEntered, epoch := t.openEpoch?,
              arg := t.suspendedArg r (s.ec.table.length - t.ec.table.length) s.jw.pressure }

/-- A SEAL or OPEN reservation that finds too few free lines: its epoch is marked broken, SUSPENDED is entered, and when
it is SUSPENDED already every SEALED epoch is committed in the same way (R49, R130). -/
def State.reservationFails (s : State) (e : EpochNo) : State :=
  if s.jw.pressure = .suspended then (s.markBroken e .pressure).commitSealed .suspend
  else (s.markBroken e .pressure).enterSuspended .pressure

/-! ## Reservations (R46 to R49) -/

/-- The lines of the PAD that a record of `len` lines needs in front of it (R46). -/
def State.padLines (s : State) (len : Nat) : Nat :=
  if s.ringLines - s.jw.head < len then s.ringLines - s.jw.head else 0

/-- The first line of a record of `len` lines: head, or line 0 behind a PAD (R46). -/
def State.placeLine (s : State) (len : Nat) : Nat := if s.padLines len = 0 then s.jw.head else 0

/-- The head after a record of `len` lines (R46). -/
def State.headAfter (s : State) (len : Nat) : Nat := (s.placeLine len + len) % s.ringLines

/-- The seal allowance of an UNDO reservation (R48). -/
def State.sealAllowance (s : State) : Nat :=
  if s.ringLines - s.headAfter Config.undoLines < Config.sealLinesMax then
    s.ringLines - s.headAfter Config.undoLines
  else 0

/-- The room check of an UNDO reservation (R48). -/
def State.undoRoom (s : State) : Bool :=
  Config.reserveLines + s.padLines Config.undoLines + Config.undoLines + s.sealAllowance ≤ s.free

/-- The room check of a SEAL or OPEN reservation (R49). -/
def State.recordRoom (s : State) (len : Nat) : Bool := s.padLines len + len ≤ s.free

/-- A record write of the seal writer is made: it joins the ready list, or is held back (R55, R56, R165). -/
def State.makeRecord (s : State) (w : RecordReq) : State :=
  if s.holdsBack then { s with da := { s.da with heldSealWriter := s.da.heldSealWriter ++ [w] } }
  else { s with da := { s.da with sealWriter := s.da.sealWriter ++ [w] } }

/-- The PAD in front of a record of `len` lines, on behalf of epoch `e`, is made when there is one (R46, R47, R55). -/
def State.makePad (s : State) (e : EpochNo) (len : Nat) : State :=
  if s.padLines len = 0 then s else s.makeRecord (.pad s.jw.head e (s.padLines len))

/-- Head moves past a record of `len` lines (R46 step 4). -/
def State.advanceHead (s : State) (len : Nat) : State := { s with jw := { s.jw with head := s.headAfter len } }

/-- The back-link of an OPEN record of epoch `e`: the open line of the newest other entry (R51). -/
def State.openBackLink (s : State) (e : EpochNo) : Option Nat :=
  ((s.ec.table.filter (fun x => x.number != e)).getLast?).bind (·.openLine)

/-- The OPEN record of epoch `e` is placed at head, and its write made (R45, R46, R51, R55). The epoch's writes at their
capture point are to be examined again (R66), and the thresholds are evaluated (R123). -/
def State.placeOpen (s : State) (e : EpochNo) : State :=
  State.evaluate <|
    State.mapSlots
      ((((s.advanceHead 1).setEntry e (fun x => { x with openLine := some s.jw.head })).makeRecord
        (.openRec s.jw.head e (s.openBackLink e))))
      (fun x => if x.epoch == some e then x.reexamined else x)

/-- The reservation of epoch `e`'s OPEN record (R49, R51, R99). -/
def State.reserveOpen (s : State) (e : EpochNo) : State :=
  if s.recordRoom 1 then s.placeOpen e else (s.reservationFails e).placeOpen e

/-- The SEAL record of epoch `e` is placed, with any PAD, and its writes made (R45, R46, R53, R55). -/
def State.placeSeal (s : State) (e : EpochNo) (sigs : List SigEntry) : State :=
  let len := sealLines sigs.length
  let t := (((s.makePad e len).advanceHead len).setEntry e
    (fun x => { x with sealLine := some (s.placeLine len) })).makeRecord (.sealRec (s.placeLine len) e sigs)
  let job : SealJob := { epoch := e, line := s.placeLine len, sigs := sigs, after := s.headAfter len }
  State.evaluate { t with jw := { t.jw with sealJob := some job } }

/-- The reservation of epoch `e`'s SEAL record (R49, R97 step 3). -/
def State.reserveSeal (s : State) (e : EpochNo) (sigs : List SigEntry) : State :=
  if s.recordRoom (sealLines sigs.length) then s.placeSeal e sigs else (s.reservationFails e).placeSeal e sigs

/-! ## The epoch timer (R91) -/

/-- The timer starts from its full interval when its enable flag is set, and is stopped otherwise (R91, R194). -/
def EpochController.startTimer (c : EpochController) : EpochController :=
  { c with timer := if c.timerEnable then some (c.timerInterval.toNat * Config.timerUnit) else none }

/-- The timer starts (R91). -/
def State.startTimer (s : State) : State := { s with ec := s.ec.startTimer }

/-- The timer stops (R91). -/
def State.stopTimer (s : State) : State := { s with ec := { s.ec with timer := none } }

/-! ## D-port slots (R164, R168) -/

/-- D-port slot `p` becomes FREE (R168). -/
def State.freePort (s : State) (p : PortIx) : State := { s with da := { s.da with slots := s.da.slots.set p none } }

end Sys2Proof.Machine
end

