-- ==== Sys2Proof/Machine/Signatures.lean ====
section
/-! DEFINITION. The Signature Unit: banks, the CRC feed, the work at a seal, quiet windows (spec/06), and the apply of the
staged window table (R36), which hands its changed set to it. -/
namespace Sys2Proof.Machine

/-! ## Sixteen flags -/

/-- The word of 16 flags in which bit i is `p i`. -/
def bits16 (p : WinIx → Bool) : BitVec 16 :=
  (List.finRange 16).foldl (fun b i => if p i then b ||| BitVec.twoPow 16 i.val else b) 0#16

/-- Flag `i` set. -/
def setBit (b : BitVec 16) (i : WinIx) : BitVec 16 := b ||| BitVec.twoPow 16 i.val

/-! ## The CRC (R110) -/

/-- One shift toward the most significant end, with the polynomial combined in when the bit shifted out was 1. -/
def crcShift (acc : Word32) : Word32 := if acc.msb then (acc <<< 1) ^^^ Config.crcPoly else acc <<< 1

/-- `n` shifts. -/
def crcShifts (n : Nat) (acc : Word32) : Word32 :=
  match n with
  | 0 => acc
  | n + 1 => crcShifts n (crcShift acc)

/-- One byte taken into the accumulator. -/
def crcByte (acc : Word32) (b : Byte) : Word32 := crcShifts 8 (acc ^^^ (b ++ (0#24 : BitVec 24)))

/-- Bytes taken into the accumulator in turn. -/
def crcFeed (acc : Word32) (bytes : List Byte) : Word32 := bytes.foldl crcByte acc

/-- The five address bytes of a feed, most significant first. -/
def addrBytes (a : Addr) : List Byte :=
  [(a.setWidth 40).extractLsb' 32 8, a.extractLsb' 24 8, a.extractLsb' 16 8, a.extractLsb' 8 8, a.extractLsb' 0 8]

/-- The enabled data bytes of a write, in ascending address order. -/
def enabledBytes (r : Request) : List Byte :=
  ((r.data.zip r.mask).filter (fun d => d.2)).map (fun d => d.1)

/-- The bytes a write feeds. -/
def feedBytes (r : Request) : List Byte := addrBytes r.addr ++ enabledBytes r

/-! ## Banks (R106, R107) -/

/-- The entry of window `i` changed by `f`. -/
def Bank.update (b : Bank) (i : WinIx) (f : BankEntry → BankEntry) : Bank :=
  { b with entries := b.entries.set i (f b.entries[i]) }

/-- The bank of an epoch: the one whose epoch field is that number (R108). -/
def State.bank? (s : State) (e : EpochNo) : Option Bank :=
  if s.su.openBank.epoch = some e then some s.su.openBank
  else if s.su.sealingBank.epoch = some e then some s.su.sealingBank
  else none

/-- The bank of epoch `e` changed by `f`; nothing when no bank belongs to it. -/
def State.setBank (s : State) (e : EpochNo) (f : Bank → Bank) : State :=
  if s.su.openBank.epoch = some e then { s with su := { s.su with openBank := f s.su.openBank } }
  else if s.su.sealingBank.epoch = some e then { s with su := { s.su with sealingBank := f s.su.sealingBank } }
  else s

/-- The written flags of a bank as a set (R88, R104). -/
def Bank.writtenSet (b : Bank) : BitVec 16 := bits16 (fun i => (b.entries[i]).written)

/-- A bank filled from the active table: the three at-epoch fields (R106). -/
def Bank.fill (b : Bank) (active : Vector WinEntry 16) : Bank :=
  { b with entries := Vector.ofFn fun i =>
      { b.entries[i] with kind := (active[i]).kind, action := (active[i]).action, threshold := (active[i]).quiet } }

/-- Both banks reset (R107). -/
def State.resetBanks (s : State) : State :=
  { s with su := { s.su with openBank := Bank.reset, sealingBank := Bank.reset } }

/-- The banks exchange: the OPEN bank becomes the SEALING bank, and a reset bank takes its place (R107). -/
def State.exchangeBanks (s : State) : State :=
  { s with su := { s.su with openBank := Bank.reset, sealingBank := s.su.openBank } }

/-- The OPEN bank is filled from the active table and tied to an epoch, or to none at the closing boundary (R84,
R107). -/
def State.fillOpenBank (s : State) (e : Option EpochNo) : State :=
  { s with su := { s.su with openBank := { (s.su.openBank.fill s.wu.active) with epoch := e } } }

/-! ## Feeding (R108 to R111) -/

/-- An entry after a feed: accumulator and written flag (R108, R110). -/
def BankEntry.feed (r : Request) (b : BankEntry) : BankEntry :=
  { b with acc := crcFeed b.acc (feedBytes r), written := true }

/-- A write acknowledged OK feeds its epoch's bank and joins the epoch's written set; a READ, and a write with no epoch
assignment, feed nothing (R88, R108). -/
def State.feed (s : State) (x : Slot) : State :=
  match x.isWrite, x.epoch, x.win with
  | true, some e, some i =>
    (s.setBank e (fun b => b.update i (BankEntry.feed x.req))).setEntry e
      (fun t => { t with written := setBit t.written i })
  | _, _, _ => s

/-! ## Quiet windows (R116 to R120) -/

/-- The quiet record of window `i` set. -/
def State.setQuiet (s : State) (i : WinIx) (q : Quiet) : State :=
  { s with su := { s.su with quiet := s.su.quiet.set i q } }

/-- A write of epoch `e` is taken for its window, with no decided outcome: the accepted flag of the epoch's bank is set
(R109), and a DORMANT window wakes (R119). -/
def State.takeWrite (s : State) (x : Slot) (e : EpochNo) : State :=
  match x.win with
  | none => s
  | some i =>
    let t := s.setBank e (fun b => b.update i (fun y => { y with accepted := true }))
    if (t.su.quiet[i]).dormant then
      (t.setQuiet i { counter := 0, dormant := false }).raise
        { code := .windowWake, win := some i, master := some x.req.master, epoch := some e, arg := x.granule }
    else t

/-! ## At the seal (R113, R114, R117) -/

/-- The compare status of an entry (R113). -/
def BankEntry.status (b : BankEntry) : Compare :=
  match b.expected with
  | none => .notCompared
  | some v => if v = b.acc then .matched else .mismatch

/-- The comparison of window `i` at the seal of `e`: SIG-MISMATCH, and for the action TRIP the trip flag and
WINDOW-TRIPPED (R113). -/
def State.compareWindow (s : State) (e : EpochNo) (i : WinIx) : State :=
  let b := s.su.sealingBank.entries[i]
  match b.expected with
  | none => s
  | some v =>
    if v = b.acc then s
    else
      let t := s.raise { code := .sigMismatch, win := some i, epoch := some e, arg := b.acc }
      match b.action with
      | .report => t
      | .trip =>
        State.raise { t with wu := { t.wu with trip := setBit t.wu.trip i } }
          { code := .windowTripped, win := some i, epoch := some e, arg := v }

/-- The kinds a seal counts and lists (R114, R117). -/
def BankEntry.journaled (b : BankEntry) : Bool := b.kind.journaled

/-- The quiet count of window `i` at the seal of `e` (R117, R118). -/
def State.countQuiet (s : State) (e : EpochNo) (i : WinIx) : State :=
  let b := s.su.sealingBank.entries[i]
  let o := s.su.openBank.entries[i]
  let q := s.su.quiet[i]
  if b.journaled && b.threshold != 0#8 && !b.superseded then
    if b.written then s.setQuiet i { q with counter := 0 }
    else
      let n := satInc Config.count8Max q.counter
      if b.threshold.toNat < n && !q.dormant && !o.written && !o.accepted then
        (s.setQuiet i { counter := n, dormant := true }).raise
          { code := .windowDormant, win := some i, epoch := some e, arg := BitVec.ofNat 32 n }
      else s.setQuiet i { q with counter := n }
  else s

/-- The signature list formed from the SEALING bank (R114). -/
def State.sigList (s : State) : List SigEntry :=
  (List.finRange 16).filterMap fun i =>
    let b := s.su.sealingBank.entries[i]
    if b.journaled && (!(s.su.quiet[i]).dormant || b.expected.isSome) then
      some { win := i, status := b.status, signature := b.acc }
    else none

/-- The comparisons, then the quiet counts, windows in ascending index (R113, R117). -/
def State.sealWork (s : State) (e : EpochNo) : State :=
  (List.finRange 16).foldl (fun t i => t.countQuiet e i)
    ((List.finRange 16).foldl (fun t i => t.compareWindow e i) s)

/-! ## Apply (R36, R37, R120) -/

/-- The changed set: the indexes whose active entry differs from the staged entry (R36). -/
def State.changedSet (s : State) : BitVec 16 := bits16 (fun i => s.wu.active[i] != s.wu.staged[i])

/-- The quiet record of a window after an apply (R120). -/
def Quiet.applied (changed : Bool) (q : Quiet) : Quiet := if changed then { counter := 0, dormant := false } else q

/-- The SEALING bank's entry of a window after an apply (R120). -/
def BankEntry.applied (changed : Bool) (b : BankEntry) : BankEntry := if changed then { b with superseded := true } else b

/-- The Signature Unit's part of an apply: each changed window ACTIVE with counter 0, its SEALING entry superseded
(R120). -/
def SignatureUnit.applied (u : SignatureUnit) (changed : BitVec 16) : SignatureUnit :=
  { u with
    quiet := Vector.ofFn fun i => (u.quiet[i]).applied (changed.getLsbD i.val)
    sealingBank :=
      { u.sealingBank with entries := Vector.ofFn fun i => (u.sealingBank.entries[i]).applied (changed.getLsbD i.val) } }

/-- The apply, with the epoch number TABLE-APPLIED carries (R36). -/
def State.applyTable (s : State) (e : Option EpochNo) : State :=
  State.raise
    { s with wu := { s.wu with active := s.wu.staged, armed := false }, su := s.su.applied s.changedSet }
    { code := .tableApplied, epoch := e, arg := s.changedSet.setWidth 32 }

/-- An armed apply is carried out, and nothing happens when the arm is clear (R37, R38). -/
def State.applyArmed (s : State) (e : Option EpochNo) : State := if s.wu.armed then s.applyTable e else s

end Sys2Proof.Machine
end

