-- ==== Sys2Proof/Machine/Intake.lean ====
section
/-! DEFINITION. The Intake Queue with the Window Unit's classification and the Capture Unit's lookup: acceptance of a
request (R3 to R5, R24 to R30), the touched set (R60 to R63), answers and the capture duty (R7, R65), the dealing with
heads and the capture point (R7, R66), holds and releases (R12, R14, R17). -/
namespace Sys2Proof.Machine

/-! ## The touched set and the lookup (R60 to R63) -/

/-- The capture duty for a granule in epoch `e` passes to the released write `x` of that epoch from the write behind it that
carries it (R63, R65). A duty in another epoch, kept by a write whose outcome was decided before the release, stays. -/
def State.takeDuty (s : State) (x : Slot) (e : EpochNo) : State :=
  match s.iq.slots.find? (fun y => y.granule == x.granule && y.duty && y.epoch == some e && decide (x.pos < y.pos)) with
  | none => s.setSlot x.ix (fun z => { z with marking := some .noCapture })
  | some y =>
    (s.setSlot y.ix (fun z => { z with marking := some .noCapture, duty := false })).setSlot x.ix
      (fun z => { z with marking := some .capture, duty := true })

/-- A lookup that finds a full set: the overflow is counted and, the first time in the epoch, reported (R62). -/
def State.overflowLookup (s : State) (x : Slot) (e : Entry) : State :=
  let t := (s.setEntry e.number (fun y => { y with overflow := satInc Config.overflowMax y.overflow })).setSlot x.ix
    (fun z => { z with marking := some .captureDup })
  if e.overflow = 0 then
    t.raise { code := .touchedOverflow, win := x.win, master := some x.req.master, epoch := some e.number,
              arg := x.granule }
  else t

/-- The search and the insertion of a lookup (R60, R62, R63). -/
def State.lookup (s : State) (x : Slot) (e : Entry) : State :=
  if x.granule ∈ s.cu.touched then s.takeDuty x e.number
  else if s.cu.touched.length < Config.touchedMax then
    State.setSlot { s with cu := { s.cu with touched := x.granule :: s.cu.touched } } x.ix
      (fun z => { z with marking := some .capture, duty := true })
  else s.overflowLookup x e

/-- The marking of a write assigned to the OPEN epoch `e`: a lookup, or "no capture" without one for a decided outcome, a
broken epoch, or SUSPENDED pressure, which marks the epoch broken (R60, R61, log 12). -/
def State.markWrite (s : State) (x : Slot) (e : Entry) : State :=
  let unlooked := fun (t : State) => t.setSlot x.ix (fun z => { z with marking := some .noCapture })
  if s.jw.pressure = .suspended then unlooked (s.markBroken e.number (s.jw.reason.getD .pressure))
  else if e.broken.isSome || x.outcome.isSome then unlooked s
  else s.lookup x e

/-- The write in slot `q` is assigned to the OPEN epoch and marked (R60, R61, R63, R95). One with no decided outcome
sets its accepted flag and wakes its window (R109, R119). -/
def State.assignWrite (s : State) (q : SlotIx) : State :=
  match s.slot? q, s.openEntry? with
  | some x, some e =>
    let t := s.setSlot q (fun z => { z with epoch := some e.number })
    (if x.outcome.isNone then t.takeWrite x e.number else t).markWrite x e
  | _, _ => s

/-! ## Acceptance (R3, R5, R24 to R30) -/

/-- The window index, kind and decided outcome of a request, with the event that the decision raises: the journal-region
guard, then the active table, then the trip check (R24, R25, R27, R30). -/
def State.classify (s : State) (r : Request) : Option WinIx × WinKind × Option (Decided × EventCode) :=
  if s.inRegion r.addr then (none, .pass, some (.fenced, .fenceHit))
  else
    match s.window? r.addr with
    | none => (none, .pass, none)
    | some i =>
      let w := s.wu.active[i]
      if w.kind = .fence ∧ (r.dir = .write ∨ w.readFence) then (some i, w.kind, some (.fenced, .fenceHit))
      else if r.dir = .write ∧ w.kind ≠ .fence ∧ s.tripped (some i) then (some i, w.kind, some (.tripped, .trippedWrite))
      else (some i, w.kind, none)

/-- The record of a request accepted into slot `q` (R5). -/
def State.newSlot (s : State) (q : SlotIx) (r : Request) : Slot :=
  let c := s.classify r
  { ix := q, req := r, state := .waiting, pos := s.iq.nextPos, win := c.1, kind := c.2.1, epoch := none,
    marking := none, holdEntry := none, outcome := c.2.2.map (·.1), duty := false, captureEnded := false,
    atPoint := false }

/-- What R11 calls for at acceptance of a request classified JOURNAL or GUARD with no decided outcome. -/
inductive Entrance where
  | serve
  | assign
  | hold
  | halt
deriving DecidableEq, Repr

/-- The table of R11 and R28. -/
def entrance (b : Bridge) (d : Dir) : Entrance :=
  match b, d with
  | .passthrough, _ => .serve
  | .journaling, .read => .serve
  | .journaling, .write => .assign
  | .closing, .read => .serve
  | .closing, .write => .hold
  | .rolling, _ => .hold
  | .halted, _ => .halt

/-- The request in slot `x` becomes HELD, with the timestamp as its hold entry time (R12). -/
def State.hold (s : State) (q : SlotIx) : State :=
  s.setSlot q (fun z => { z with state := .held, holdEntry := some s.eq.time, atPoint := false })

/-- A newly accepted request enters by the state of the bridge (R5, R11, R12, R15, R28, R61). -/
def State.enter (s : State) (x : Slot) : State :=
  if x.journaled then
    match x.outcome with
    | some _ => if s.ec.bridge = .journaling ∧ x.isWrite then s.assignWrite x.ix else s
    | none =>
      match entrance s.ec.bridge x.req.dir with
      | .serve => s
      | .assign => s.assignWrite x.ix
      | .hold => s.hold x.ix
      | .halt => s.setSlot x.ix (fun z => { z with outcome := some .halted })
  else s

/-- The event of a decision at acceptance (R24, R27, R30). -/
def State.classifyEvent (s : State) (r : Request) : Option Event :=
  (s.classify r).2.2.map fun d =>
    { code := d.2, win := (s.classify r).1, master := some r.master, arg := pageArg r.addr }

/-- The occupied slot of an accepted request joins the queue at the tail (R4, R6). -/
def State.pushSlot (s : State) (x : Slot) : State :=
  { s with iq := { s.iq with slots := s.iq.slots ++ [x], nextPos := s.iq.nextPos + 1 } }

/-- A well-formed request is accepted into slot `q` (R4, R5). -/
def State.accept (s : State) (q : SlotIx) (r : Request) : State :=
  let t := s.pushSlot (s.newSlot q r)
  (match s.classifyEvent r with
   | none => t
   | some ev => t.raise ev).enter (s.newSlot q r)

/-- The U-port takes one request: MALFORMED, or accepted (R3, R4). -/
def State.take (s : State) (q : SlotIx) (r : Request) : State :=
  if formOk r then s.accept q r
  else s.respond { master := r.master, tag := r.tag, status := .malformed, data := [] }

/-- The U-port takes the request that has waited longest, when it takes requests at all (R3, R4, R21, log 3). -/
def State.takePort (s : State) : State :=
  match s.port, s.freeSlot? with
  | r :: rest, some q => if s.inReset then s else State.take { s with port := rest } q r
  | _, _ => s

/-! ## Answers and the capture duty (R2, R6, R7, R65) -/

/-- A granule leaves the touched set (R65). -/
def State.untouch (s : State) (g : Granule) : State :=
  { s with cu := { s.cu with touched := s.cu.touched.filter (fun x => x != g) } }

/-- The request that receives the duty of the write `x`: the first behind it in its granule order, assigned to the same
epoch, marked "no capture", with no decided outcome (R65). -/
def State.heir? (s : State) (x : Slot) : Option Slot :=
  s.iq.slots.find? fun y =>
    y.granule == x.granule && decide (x.pos < y.pos) && y.epoch == x.epoch && y.marking == some .noCapture
      && y.outcome.isNone

/-- The duty of the write `x`, which leaves its slot from a decided outcome, passes on, or its granule leaves the set
while its epoch is OPEN (R65). R65 names the outcome HALTED, so the granule leaves the set in HALTED too, where R157 says that
the touched set does not change: log 24. The epoch is known by its number alone, so a write left over from before RELEASE counts
as one of a later OPEN epoch that carries the same number: log 25. -/
def State.passDuty (s : State) (x : Slot) : State :=
  if x.duty then
    match s.heir? x with
    | some y => s.setSlot y.ix (fun z => { z with marking := some .capture, duty := true })
    | none => if x.epoch.isSome ∧ x.epoch = s.openEpoch? then s.untouch x.granule else s
  else s

/-- The request in slot `x` is answered: its slot becomes FREE (R2, R4). -/
def State.answer (s : State) (x : Slot) (status : Status) (data : List Byte) : State :=
  (s.dropSlot x.ix).respond { master := x.req.master, tag := x.req.tag, status := status, data := data }

/-- The head `x` is answered from its decided outcome (R7, R8, R65). -/
def State.answerDecided (s : State) (x : Slot) (o : Decided) : State :=
  ((s.withdraw x.ix).answer x o.status []).passDuty x

/-! ## The capture point (R66 to R68) -/

/-- The capture of the write `x` begins: the slot becomes CAPTURING, a capture record is created, and the JW is asked for
a reservation, in the group `asked` of those asked for together (R66, R68, R69). -/
def State.beginCapture (s : State) (x : Slot) (e : EpochNo) (asked : Nat) : State :=
  let c : Capture :=
    { slot := x.ix, epoch := e, win := x.win, granule := x.granule, dup := x.marking == some .captureDup,
      step := .reserving, undoLine := none, backLink := none, old := none, asked := asked }
  State.setSlot { s with cu := { s.cu with captures := s.cu.captures ++ [c] } } x.ix
    (fun z => { z with state := .capturing, atPoint := false })

/-- The open line of an epoch in the table (R66, R67). -/
def State.openLineOf (s : State) (e : EpochNo) : Option Nat := (s.entry? e).bind (·.openLine)

/-- The examination of the write `x` of epoch `e` at its capture point, the checks in turn (R66). It takes place in the action
that makes `x` a head, acceptance among them, so that a capture can have begun where R12 speaks of a request still WAITING: log
28. -/
def State.examine (s : State) (x : Slot) (e : EpochNo) (asked : Nat) : State :=
  if s.tripped x.win then (s.decideTripped x).answerDecided x .tripped
  else if s.isBroken e then s.askForward x.ix
  else if s.jw.pressure = .suspended then (s.markBroken e (s.jw.reason.getD .pressure)).askForward x.ix
  else if (s.openLineOf e).isNone then s.setSlot x.ix (fun z => { z with atPoint := true })
  else s.beginCapture x e asked

/-! ## Dealing with heads (R7) -/

/-- A WAITING head is dealt with by its record (R7). -/
def State.dealHead (s : State) (x : Slot) (asked : Nat) : State :=
  match x.outcome with
  | some o => s.answerDecided x o
  | none =>
    if x.ix ∈ s.da.forward then s
    else
      match x.needsCapture, x.epoch with
      | true, some e => if x.atPoint then s else s.examine x e asked
      | _, _ => s.askForward x.ix

/-- Slot `q` is dealt with when it is a WAITING head. -/
def State.dealSlot (s : State) (asked : Nat) (q : SlotIx) : State :=
  match s.slot? q with
  | none => s
  | some x => if x.state = .waiting ∧ s.isHead x then s.dealHead x asked else s

/-- A number for the next group of reservations asked for together: above every group that waits (log 6). -/
def State.nextGroup (s : State) : Nat := s.cu.captures.foldl (fun n c => max n (c.asked + 1)) 0

/-- Every slot is dealt with, oldest first, so that a head that leaves makes room for the next in its order (R6, R7,
log 4). The next is examined in the same action, as R66 says, where an example under R65 lets it wait with the trip flag set:
log 26. -/
def State.serve (s : State) : State :=
  (s.iq.slots.map (·.ix)).foldl (fun t q => t.dealSlot s.nextGroup q) s

/-! ## The end of a capture (R10, R72, R75, R76) -/

/-- The capture record of slot `q`. -/
def State.capture? (s : State) (q : SlotIx) : Option Capture := s.cu.captures.find? (fun c => c.slot == q)

/-- The capture record of slot `q` changed by `f`. -/
def State.setCapture (s : State) (q : SlotIx) (f : Capture → Capture) : State :=
  { s with cu := { s.cu with captures := s.cu.captures.map (fun c => if c.slot == q then f c else c) } }

/-- The capture record of slot `q` is removed (R68). -/
def State.dropCapture (s : State) (q : SlotIx) : State :=
  { s with cu := { s.cu with captures := s.cu.captures.filter (fun c => c.slot != q) } }

/-- A write whose capture has ended: it asks for a forward-path slot, or is decided TRIPPED when its window's flag is set
(R10, R72). One that has a decided outcome already keeps it (R7). -/
def State.proceed (s : State) (x : Slot) : State :=
  if x.outcome.isSome then s else if s.tripped x.win then s.decideTripped x else s.askForward x.ix

/-- The capture of slot `q` has ended: its record is removed, the slot leaves CAPTURING, and the write proceeds (R10,
R68, R72). -/
def State.endCapture (s : State) (q : SlotIx) : State :=
  let t := (s.dropCapture q).setSlot q (fun z => { z with state := .waiting, captureEnded := true })
  match t.slot? q with
  | none => t
  | some x => t.proceed x

/-! ## The hold limit (R17, R19) -/

/-- The HELD request in slot `x` is timed out (R17). -/
def State.timeOut (s : State) (x : Slot) : State :=
  (s.setSlot x.ix (fun z => { z with state := .waiting, holdEntry := none, outcome := some .heldTimeout })).raise
    { code := .holdTimeout, win := x.win, master := some x.req.master, arg := x.granule }

/-- Slot `q` is timed out when its hold time has reached the limit (R17). -/
def State.expireSlot (s : State) (q : SlotIx) : State :=
  match s.slot? q with
  | none => s
  | some x => if s.holdDue x then s.timeOut x else s

/-- Every HELD request whose hold time has reached the limit is timed out (R19). -/
def State.expireAll (s : State) : State := (s.iq.slots.map (·.ix)).foldl (fun t q => t.expireSlot q) s

/-! ## Releases (R14) -/

/-- The HELD requests, oldest first. -/
def State.heldSlots (s : State) : List SlotIx := (s.iq.slots.filter (fun x => x.state == .held)).map (·.ix)

/-- The request in slot `q`, just released into JOURNALING: a WRITE with no epoch assignment is assigned and looked up, any
other is served (R14, R63). -/
def State.assignReleased (s : State) (q : SlotIx) : State :=
  match s.slot? q with
  | none => s
  | some x => if x.isWrite ∧ x.epoch.isNone then s.assignWrite q else s

/-- The release into JOURNALING: every HELD request becomes WAITING, changed by `f`, and the writes among them are assigned
in acceptance order (R14, R63). -/
def State.releaseJournaling (s : State) (f : Slot → Slot) : State :=
  s.heldSlots.foldl (fun t q => t.assignReleased q)
    (s.mapSlots (fun x => if x.state = .held then (f x).unheld else x))

/-- The release at the end of CLOSING: PASSTHROUGH traffic (R14). -/
def State.releasePassthrough (s : State) : State :=
  s.mapSlots (fun x => if x.state = .held then x.unassigned.unheld else x)

end Sys2Proof.Machine
end

