-- ==== Sys2Proof/Machine/Epochs.lean ====
section
/-! DEFINITION. The Epoch Controller's actions: boundary requests and boundaries (R84, R90, R94, R96), the seal from its
start to its completion (R97 to R99, R101, R133), the end of CLOSING (R86). -/
namespace Sys2Proof.Machine

/-! ## Boundaries (R84, R94) -/

/-- The table is full, so the oldest SEALED epoch is committed (R94 step 1). -/
def State.makeRoom (s : State) : State :=
  if s.ec.table.length = Config.tableSlots then s.commitOldest .depth else s

/-- An OPEN epoch becomes SEALING; any other entry is left as it is. -/
def Entry.closed (e : Entry) : Entry := if e.state = .opened then { e with state := .sealing } else e

/-- The OPEN epoch becomes SEALING (R94 step 2, R84 step 1). -/
def State.closeOpen (s : State) : State := { s with ec := { s.ec with table := s.ec.table.map Entry.closed } }

/-- A new OPEN epoch is added as the newest entry (R81, R94 step 3, R154 step 4). -/
def State.addEpoch (s : State) (e : EpochNo) : State :=
  { s with ec := { s.ec with table := s.ec.table ++ [Entry.fresh e] } }

/-- The touched set is emptied (R59). -/
def State.clearTouched (s : State) : State := { s with cu := { s.cu with touched := [] } }

/-- A boundary is taken: the OPEN epoch `e` closes and the next opens (R94). -/
def State.boundary (s : State) : State :=
  match s.openEpoch? with
  | none => s
  | some e =>
    (((((s.makeRoom.closeOpen.addEpoch (e + 1#32)).clearTouched).exchangeBanks).applyArmed (some (e + 1#32))).fillOpenBank
      (some (e + 1#32))).startTimer

/-- The bridge state is set. -/
def State.setBridge (s : State) (b : Bridge) : State := { s with ec := { s.ec with bridge := b } }

/-- The closing boundary: the OPEN epoch closes and none opens (R84). -/
def State.closingBoundary (s : State) : State :=
  ((((s.closeOpen.setBridge .closing).clearTouched.exchangeBanks).applyArmed none).fillOpenBank none).stopTimer

/-! ## Boundary requests (R83, R90, R96) -/

/-- A request while an epoch is SEALING: the pending flag is set, or the request is merged, counted and reported; DISABLE
marks the pending boundary closing (R83, R96). -/
def State.recordBoundary (s : State) (src : Source) : State :=
  let closing := s.ec.closing || src == .disable
  if s.ec.pending then
    let n := satInc Config.count8Max s.ec.merged
    State.raise { s with ec := { s.ec with merged := n, closing := closing } }
      { code := .boundaryMerged, epoch := s.openEpoch?, arg := packBytes src.code n 0 0 }
  else { s with ec := { s.ec with pending := true, closing := closing } }

/-- A boundary request in JOURNALING (R90). -/
def State.requestBoundary (s : State) (src : Source) : State :=
  if s.sealingEntry?.isSome then s.recordBoundary src
  else if src = .disable then s.closingBoundary else s.boundary

/-- A boundary request discarded in ROLLING or HALTED (R142, R157). -/
def State.discardBoundary (s : State) : State :=
  { s with re := { s.re with discarded := satInc Config.count8Max s.re.discarded } }

/-! ## The seal (R97 to R99) -/

/-- HELD writes still assigned to `e` lose their assignment, marking and duty (R97 step 1). -/
def State.loseAssignments (s : State) (e : EpochNo) : State :=
  s.mapSlots (fun x => if x.state = .held ∧ x.epoch = some e then x.unassigned else x)

/-- The seal of the SEALING epoch starts when its writes are done and it has not started: the SU's work, the signature
list, the reservation of the SEAL record (R97, R113, R114, R117). -/
def State.startSeal (s : State) : State :=
  match s.sealingEntry? with
  | none => s
  | some e =>
    if e.sealLine.isNone ∧ s.writesDone e.number then
      let t := (s.loseAssignments e.number).sealWork e.number
      t.reserveSeal e.number t.sigList
    else s

/-- Epoch `e` becomes SEALED: its end line, signature list and written set are set and EPOCH-SEALED is raised (R45, R98).
The end line and the list are those kept since the SEAL reservation. -/
def State.becomeSealed (s : State) (e : EpochNo) : State :=
  let job := s.jw.sealJob
  let t := s.setEntry e (fun x =>
    { x with
      state := .sealed
      endLine := some ((job.map (·.after)).getD s.jw.head)
      sigs := some ((job.map (·.sigs)).getD [])
      written := ((s.bank? e).map Bank.writtenSet).getD x.written })
  State.raise { t with jw := { t.jw with sealJob := none } }
    { code := .epochSealed, epoch := some e, arg := BitVec.ofNat 32 ((s.entry? e).elim 0 (·.undos)) }

/-- A broken epoch that becomes SEALED is committed at once with every older one (R98). -/
def State.commitBroken (s : State) (e : EpochNo) : State :=
  if s.isBroken e then s.commitN (s.position e + 1) .broken else s

/-- The OPEN record of the epoch just newer than the sealed one is reserved (R99). -/
def State.openNext (s : State) : State :=
  match s.openEpoch? with
  | none => s
  | some e => s.reserveOpen e

/-- The depth commit at the end of a seal, deferred in ROLLING (R101, R145). -/
def State.depthCommit (s : State) : State :=
  if s.ec.bridge ≠ .rolling ∧ s.ec.retention < s.sealedCount then s.commitOldest .depth else s

/-- Recovery from SUSPENDED at the completion of a seal (R133). -/
def State.recover (s : State) : State :=
  if s.jw.pressure = .suspended ∧ s.used < s.percent 50 then
    (s.setPressure .normal none).raise
      { code := .suspendedLeft, epoch := s.openEpoch?, arg := BitVec.ofNat 32 s.used }
  else s

/-- The pending boundary is taken at the completion of a seal (R99). -/
def State.takePending (s : State) : State :=
  if s.ec.pending then
    let t := { s with ec := { s.ec with pending := false, closing := false } }
    if s.ec.closing then t.closingBoundary else t.boundary
  else s

/-- The rest of the seal of `e` in JOURNALING and ROLLING, one action with its acknowledgment (R98, R99). -/
def State.completeSeal (s : State) (e : EpochNo) : State :=
  ((((s.commitBroken e).openNext.serve).depthCommit).recover).takePending

/-! ## The end of CLOSING (R86) -/

/-- Tail set equal to head (R44). -/
def State.emptyRing (s : State) : State := { s with jw := { s.jw with tail := s.jw.head } }

/-- The rest of the seal of the closing epoch `e` (R86 steps 2 to 6). -/
def State.endClosing (s : State) (e : EpochNo) : State :=
  let t := (s.commitSealed .close).emptyRing
  (((((t.normalize).setBridge .passthrough).resetBanks).releasePassthrough)).raise
    { code := .journalingDisabled, epoch := some e, arg := BitVec.ofNat 32 s.sealedCount }

end Sys2Proof.Machine
end

