-- ==== Sys2Proof/Machine/Walk.lean ====
section
/-! DEFINITION. The Rollback Engine's actions: the end of DRAIN, refusal, walk, FINISH, failure (R144 to R156). -/
namespace Sys2Proof.Machine

/-! ## The walk (R148, R149) -/

/-- The walk reads the record at `line` of epoch `e` (R149 step 1). -/
def State.readRecord (s : State) (e : EpochNo) (line : Nat) : State :=
  { s with
    re := { s.re with phase := .walk, walkEpoch := some e, walkLine := some line, walkStep := some .reading,
                      inHand := none }
    da := { s.da with rollback := some (.recordRead line) } }

/-- The next chain among the given entries, which stand newest first: the first with an UNDO record (R148). -/
def nextChain (es : List Entry) : Option (EpochNo × Nat) :=
  match es with
  | [] => none
  | e :: rest =>
    match e.lastUndo with
    | some l => some (e.number, l)
    | none => nextChain rest

/-! ## The end of a rollback (R145, R147, R154) -/

/-- The rollback is no longer running: phase IDLE, the target and the walk fields absent (R147, R154 step 8). -/
def RollbackEngine.ended (r : RollbackEngine) : RollbackEngine :=
  { r with target := none, phase := .idle, walkEpoch := none, walkLine := none, walkStep := none, inHand := none }

/-- The epoch number one above the newest epoch of the table (R89). -/
def State.nextNumber (s : State) : EpochNo := ((s.ec.table.getLast?).elim 0#32 (·.number)) + 1#32

/-- The older epochs stay, the target and every newer one leave the table without commits (R154 step 2). -/
def State.cutTable (s : State) (t : EpochNo) : State :=
  { s with ec := { s.ec with table := s.ec.table.takeWhile (fun x => x.number != t) } }

/-- Head set to the target's open line, then an evaluation (R154 step 1). -/
def State.cutHead (s : State) (t : EpochNo) : State :=
  State.evaluate { s with jw := { s.jw with head := (s.openLineOf t).getD s.jw.head } }

/-- FINISH of a rollback to `t` (R154), ROLLBACK-DONE as its seventh step (R155). -/
def State.finish (s : State) (t : EpochNo) : State :=
  let n := s.nextNumber
  let a := ((((s.cutHead t).cutTable t).clearTouched).addEpoch n).reserveOpen n
  let b := ((((a.resetBanks).applyArmed (some n)).fillOpenBank (some n)).startTimer).commitExcess .rollback
  let c := (b.releaseJournaling Slot.unassigned).raise
    { code := .rollbackDone, epoch := some t, arg := packCount s.re.applied s.re.discarded }
  { c.setBridge .journaling with re := c.re.ended }

/-- The end of DRAIN in ROLLBACK-REFUSED (R147): cause REMOVED, 2, when `t` has left the table, otherwise BROKEN, 1.
That REMOVED is the cause where the OPEN epoch is marked broken as well, as after R128 in DRAIN, is the model's reading: log
27. -/
def State.refuse (s : State) (t : EpochNo) : State :=
  let a := { s.setBridge .journaling with re := s.re.ended }
  ((a.commitExcess .rollback).releaseJournaling id).raise
    { code := .rollbackRefused, epoch := some t,
      arg := packBytes (if (s.entry? t).isSome then 1 else 2) s.re.discarded 0 0 }

/-- The walk goes to the next chain, or is over and FINISH follows (R148). -/
def State.walkOn (s : State) (t : EpochNo) (es : List Entry) : State :=
  match nextChain es with
  | some (e, l) => s.readRecord e l
  | none => s.finish t

/-- The entries of the span of `t` older than epoch `e`, newest first (R148). -/
def State.olderInSpan (s : State) (t e : EpochNo) : List Entry :=
  ((s.span t).takeWhile (fun x => x.number != e)).reverse

/-- DRAIN has ended: the target is judged against the table as it stands (R146). -/
def State.judge (s : State) (t : EpochNo) : State :=
  if (s.entry? t).isSome ∧ ¬ s.spanBroken t then s.walkOn t (s.span t).reverse else s.refuse t

/-- DRAIN ends when its four conditions hold together (R144). -/
def State.testDrain (s : State) : State :=
  match s.re.phase, s.re.target with
  | .drain, some t => if s.drainDone then s.judge t else s
  | _, _ => s

/-! ## Failure (R156) -/

/-- Every HELD request is decided HALTED (R15, R156 step 4). -/
def Slot.haltHeld (x : Slot) : Slot := if x.state = .held then { x.unheld with outcome := some .halted } else x

/-- A walk failure: ROLLBACK-FAILED, then HALTED (R156). -/
def State.failWalk (s : State) (why : WalkFailure) : State :=
  let t := s.raise { code := .rollbackFailed, epoch := s.re.walkEpoch,
                     arg := packLine (s.re.walkLine.getD 0) why.code }
  (({ t.setBridge .halted with
      re := { t.re.ended with applied := 0, failures := satInc Config.count8Max t.re.failures } }).mapSlots
    Slot.haltHeld).stopTimer

/-! ## What follows an action (R7, R66, R97, R144) -/

/-- The consequences that belong to the action in which they first hold: heads are dealt with, a seal whose epoch's writes
are done starts, a DRAIN whose conditions hold ends, and the heads that these leave are dealt with (log 4, log 18). -/
def State.settle (s : State) : State := ((s.serve.startSeal).serve.testDrain).serve

end Sys2Proof.Machine
end

