-- ==== Sys2Proof/Machine/Arbiter.lean ====
section
/-! DEFINITION. The Downstream Arbiter: what each claimant sends, the round-robin choice, withdrawal at the moment of a
grant, and the routing of acknowledgments (spec/09). -/
namespace Sys2Proof.Machine

/-! ## Sending (R162, R163) -/

/-- Slot `p` is occupied by a request of the given kind, which is sent downstream (R164, R166). -/
def State.send (s : State) (p : PortIx) (kind : PortKind) (r : PortReq) : State :=
  { s with
    da := { s.da with slots := s.da.slots.set p (some { kind := kind, discard := false }) }
    dport := s.dport ++ [r] }

/-- A READ on the D-port. -/
def readReq (p : PortIx) (a : Addr) (length : Nat) : PortReq :=
  { slot := p, dir := .read, addr := a, length := length, data := [], mask := [] }

/-- A WRITE on the D-port with every byte enabled (R163). -/
def writeReq (p : PortIx) (a : Addr) (data : List Byte) : PortReq :=
  { slot := p, dir := .write, addr := a, length := data.length, data := data,
    mask := List.replicate data.length true }

/-- The forwarded request of a slot: the master's address, length, data and mask, unchanged (R72, R163). -/
def forwardReq (p : PortIx) (r : Request) : PortReq :=
  { slot := p, dir := r.dir, addr := r.addr, length := r.length, data := r.data, mask := r.mask }

/-- The kind of a forwarded request (R163). -/
def forwardKind (x : Slot) : PortKind :=
  match x.req.dir with
  | .read => .fwdRead x.ix
  | .write => .fwdWrite x.ix

/-- The forwarded request of slot `x` is granted: it is sent and the slot becomes ISSUED (R7). -/
def State.sendForward (s : State) (p : PortIx) (x : Slot) : State :=
  ((s.withdraw x.ix).setSlot x.ix (fun z => { z with state := .issued })).send p (forwardKind x) (forwardReq p x.req)

/-- Forwarded WRITEs at the front of the list whose window is tripped are withdrawn and decided TRIPPED (R7, R167). -/
def State.pruneForward (qs : List SlotIx) (s : State) : State :=
  match qs with
  | [] => s
  | q :: rest =>
    match s.slot? q with
    | none => State.pruneForward rest (s.withdraw q)
    | some x =>
      if x.isWrite ∧ s.tripped x.win then State.pruneForward rest ((s.withdraw q).decideTripped x) else s

/-- The front request of the capture path (R70, R71, R68). -/
def State.sendCapture (s : State) (p : PortIx) (req : CaptureReq) : Option State :=
  match req with
  | .oldRead q =>
    (s.capture? q).map fun c =>
      (s.setCapture q (fun d => { d with step := .reading })).send p (.oldRead q)
        (readReq p (granuleAddr c.granule) 64)
  | .undoWrite q =>
    (s.capture? q).map fun c =>
      (s.setCapture q (fun d => { d with step := .writing })).send p (.undoWrite q)
        (writeReq p (s.lineAddr (c.undoLine.getD 0))
          (undoBytes c.epoch c.win c.dup c.backLink c.granule (c.old.getD [])))

/-- The bytes of a SEAL record, fixed when it is sent (R53, R97 step 4). -/
def State.sealBytesOf (s : State) (e : EpochNo) (sigs : List SigEntry) : List Byte :=
  match s.entry? e with
  | none => sealBytes e none 0 0 sigs
  | some x => sealBytes e x.broken x.undos x.overflow sigs

/-- The front request of the seal writer; a SEAL write may not be sent while its epoch's OPEN or a PAD write of its epoch is
outstanding (R55, R165). -/
def State.sendRecord (s : State) (p : PortIx) (w : RecordReq) : Option State :=
  match w with
  | .pad line e len => some (s.send p (.padWrite line e) (writeReq p (s.lineAddr line) (padBytes e len)))
  | .openRec line e link => some (s.send p (.openWrite line e) (writeReq p (s.lineAddr line) (openBytes e link)))
  | .sealRec line e sigs =>
    if s.sealBlocked e then none
    else some (s.send p (.sealWrite line e) (writeReq p (s.lineAddr line) (s.sealBytesOf e sigs)))

/-- The reach epoch when a restore write of the walk epoch is sent (R152). -/
def State.reachOnSend (s : State) : Option EpochNo :=
  match s.re.walkEpoch, s.re.reach with
  | none, r => r
  | some w, none => some w
  | some w, some r => if s.newer r w then some w else some r

/-- The request of the rollback engine (R149, R151, R152). -/
def State.sendWalk (s : State) (p : PortIx) (w : WalkReq) : State :=
  match w with
  | .recordRead line => s.send p .recordRead (readReq p (s.lineAddr line) 80)
  | .restore r =>
    State.send { s with re := { s.re with reach := s.reachOnSend } } p .restoreWrite
      (writeReq p (granuleAddr r.granule) r.old)

/-! ## The grant (R166, R167) -/

/-- The rotation from the claimant after `c` (R166). -/
def rotation (c : Claimant) : List Claimant :=
  match c with
  | .forwardPath => [.capturePath, .sealWriter, .rollbackEngine, .forwardPath]
  | .capturePath => [.sealWriter, .rollbackEngine, .forwardPath, .capturePath]
  | .sealWriter => [.rollbackEngine, .forwardPath, .capturePath, .sealWriter]
  | .rollbackEngine => [.forwardPath, .capturePath, .sealWriter, .rollbackEngine]

/-- A grant of slot `p` to claimant `c`, none when it has no request that may be sent. The rollback engine holds one slot at
most (R164), so its request waits where a JOURNAL RESET has left one flagged. -/
def State.grantTo (s : State) (p : PortIx) (c : Claimant) : Option State :=
  match c with
  | .forwardPath =>
    match s.da.forward with
    | [] => none
    | q :: _ => (s.slot? q).map (fun x => s.sendForward p x)
  | .capturePath =>
    match s.da.capture with
    | [] => none
    | r :: rest => State.sendCapture { s with da := { s.da with capture := rest } } p r
  | .sealWriter =>
    match s.da.sealWriter with
    | [] => none
    | w :: rest => State.sendRecord { s with da := { s.da with sealWriter := rest } } p w
  | .rollbackEngine =>
    match s.da.rollback with
    | none => none
    | some w => if s.walkOut then none else some (State.sendWalk { s with da := { s.da with rollback := none } } p w)

/-- The withdrawals made when claimant `c` is looked at (R167). -/
def State.prune (s : State) (c : Claimant) : State :=
  match c with
  | .forwardPath => s.pruneForward s.da.forward
  | .capturePath | .sealWriter | .rollbackEngine => s

/-- The claimants are looked at in turn, and the first that may send is granted (R166). -/
def State.grantAlong (p : PortIx) (cs : List Claimant) (s : State) : State :=
  match cs with
  | [] => s
  | c :: rest =>
    match (s.prune c).grantTo p c with
    | some t => { t with da := { t.da with lastGranted := c } }
    | none => State.grantAlong p rest (s.prune c)

/-! ## Acknowledgments (R168, R172) -/

/-- Slot `p` is occupied and not FREE. -/
def State.portSlot? (s : State) (p : PortIx) : Option PortSlot := s.da.slots[p]

/-- The record writes held back are released when no flagged ring request is left: each claimant's join its ready list in
the order they were made (R56, R71, R165). -/
def State.releaseRecords (s : State) : State :=
  if s.holdsBack then s
  else { s with da := { s.da with
           capture := s.da.capture ++ s.da.heldCapture.map CaptureReq.undoWrite
           sealWriter := s.da.sealWriter ++ s.da.heldSealWriter
           heldCapture := []
           heldSealWriter := [] } }

/-- The acknowledgment of a flagged request is dropped, and its slot becomes FREE (R168, R172). -/
def State.dropAck (s : State) (p : PortIx) : State := (s.freePort p).releaseRecords

/-- A media fault on a PAD, SEAL or OPEN write (R170). -/
def State.recordFault (s : State) (line : Nat) (e : EpochNo) (kind : FaultKind) : State :=
  (((s.markBroken e .media).raise
    { code := .mediaFault, epoch := some e, arg := packLine line kind.code })).enterSuspended .media

/-- A media fault on a capture request: the capture ends and its write proceeds uncaptured (R76). -/
def State.captureFault (s : State) (c : Capture) (kind : FaultKind) : State :=
  ((((s.markBroken c.epoch .media).raise
    { code := .mediaFault, win := c.win, epoch := some c.epoch,
      arg := packLine (c.undoLine.getD 0) kind.code })).enterSuspended .media).endCapture c.slot

end Sys2Proof.Machine
end

