-- ==== Sys2Proof/Machine/Boundaries.lean ====
section
/-! DEFINITION. The boundary sources that are no commands: EPOCH_TIMER_EXPIRY, EPOCH_IN_EDGE. -/
namespace Sys2Proof.Machine

/-- The epoch timer has run through a full interval (R91). -/
def State.timerDue (s : State) : Bool := s.ec.timer == some 0

/-- An expiry: the timer starts its next interval, and the expiry is one boundary request (R90, R91, R142). The timer runs
in JOURNALING and ROLLING only. -/
def State.expireTimer (s : State) : State :=
  match s.ec.bridge with
  | .journaling => s.startTimer.requestBoundary .timer
  | .rolling => s.startTimer.discardBoundary
  | .passthrough | .closing | .halted => s

/-- EPOCH_TIMER_EXPIRY (R91): an expiry that has come due. One that has not, or that a restart has replaced, does not take
place (R91, R194, log 2). -/
def execEpochTimerExpiry (s : State) : Host.Outcome State Fault Refusal :=
  let t := s.begin
  if t.timerDue then .next t.expireTimer.settle else .next t

/-- An edge that counts is one boundary request, discarded in ROLLING and HALTED, ignored in PASSTHROUGH and CLOSING (R90,
R92, R142, R157). -/
def State.strobe (s : State) : State :=
  match s.ec.bridge with
  | .journaling => s.requestBoundary .strobe
  | .rolling | .halted => s.discardBoundary
  | .passthrough | .closing => s

/-- EPOCH_IN_EDGE (R92): an edge of the selected polarity while the strobe is enabled; any other edge, and any edge in
reset, has no effect (R92, R197). -/
def execEpochInEdge (edge : Edge) (s : State) : Host.Outcome State Fault Refusal :=
  let t := s.begin
  if !t.inReset ∧ t.ec.strobeEnable ∧ t.ec.strobePolarity = edge then .next t.strobe.settle else .next t

end Sys2Proof.Machine
end

