-- ==== Sys2Proof/Machine/Link.lean ====
section
/-! DEFINITION. The management frame around a command (R187 to R191), and the rows of the link and of reset:
FRAME_ENDED_EARLY, UNKNOWN_COMMAND, POWER_ON_RESET, RESET_END. -/
namespace Sys2Proof.Machine

/-- What a command comes to: the state after it, its status and its response. -/
abbrev Reply := State × MStatus × List Byte

/-- The command has its effect and is answered DONE (R188). -/
def Reply.done (s : State) (response : List Byte) : Reply := (s, .done, response)

/-- The command is answered otherwise, and changes nothing (R188). -/
def Reply.not (s : State) (status : MStatus) : Reply := (s, status, [])

/-- A frame with `args` argument bytes: ignored in reset, where MDO is not driven; while the MI treats the bytes as no
frame, 00h is driven for them and their end leaves that (R191, log 10); otherwise the command is taken and answered (R187,
R188). -/
def State.frame (s : State) (args : Nat) (f : State → Reply) : State :=
  let t := s.begin
  if t.inReset then t
  else if t.noFrame then { t with noFrame := false, mdo := .zeros }
  else { (f t).1 with mdo := .answer { args := args, status := (f t).2.1, response := (f t).2.2 } }

/-- FRAME_ENDED_EARLY (R189): the bytes received are dropped, 00h having been driven for each (R187). MCS_N rises, so the
next frame is one (R191). In reset MDO is not driven. -/
def execFrameEndedEarly (_bytes : List Byte) (s : State) : Host.Outcome State Fault Refusal :=
  let t := s.begin
  if t.inReset then .next t else .next { t with noFrame := false, mdo := .zeros }

/-- UNKNOWN_COMMAND (R190): answered UNKNOWN, with no effect. -/
def execUnknownCommand (_code : Byte) (s : State) : Host.Outcome State Fault Refusal :=
  .next (s.frame 0 (fun t => Reply.not t .unknown))

/-- POWER_ON_RESET (R197): every block takes its reset values, and reset is in force. The requests that wait at the U-port
are the masters', and keep waiting (R21, log 3). -/
def execPowerOnReset (s : State) : Host.Outcome State Fault Refusal :=
  .next { State.reset with inReset := true, port := s.port, pending := s.pending }

/-- RESET_END (R198, R191): reset is no longer in force. With MCS_N low, the bytes before its next rise are no frame, and
the MI drives 00h for them. -/
def execResetEnd (mcsLow : Bool) (s : State) : Host.Outcome State Fault Refusal :=
  let t := s.begin
  if t.inReset then .next { t with inReset := false, noFrame := mcsLow, mdo := if mcsLow then .zeros else .undriven }
  else .next t

end Sys2Proof.Machine
end

