-- ==== Sys2Proof/Machine/Clock.lean ====
section
/-! DEFINITION. What the block does while no command waits: the U-port takes a request that waits there, or a microsecond
passes (log 1, log 3). -/
namespace Sys2Proof.Machine

/-- The timestamp counter counts one microsecond (R175). -/
def EventQueue.tick (q : EventQueue) : EventQueue := { q with time := q.time + 1#32 }

/-- The running epoch timer counts one microsecond (R91). -/
def EpochController.tick (c : EpochController) : EpochController := { c with timer := c.timer.map (fun n => n - 1) }

/-- The expiries that have come due: the hold limits in acceptance order, then the epoch timer (R17, R91, log 20). -/
def State.due (s : State) : List Instr :=
  ((s.iq.slots.filter s.holdDue).map (fun x => Instr.holdLimitReached x.ix))
    ++ (if s.timerDue then [Instr.epochTimerExpiry] else [])

/-- A microsecond passes, and the expiries it brings join the queue. In reset the counters stand (R197). -/
def State.tick (s : State) : State :=
  if s.inReset then s
  else
    let t := { s with eq := s.eq.tick, ec := s.ec.tick }
    { t with pending := t.pending ++ t.due }

/-- The step on an empty queue (R4, R175, log 1, log 3). -/
def State.idle (s : State) : State :=
  let t := s.begin
  if !t.port.isEmpty && t.takesRequests then t.takePort.settle else t.tick

end Sys2Proof.Machine
end

