-- ==== Sys2Proof/Machine/Capturing.lean ====
section
/-! DEFINITION. The rows of a capture: UNDO_RESERVATION, OLD_GRANULE_READ_ACK, UNDO_WRITE_ACK. -/
namespace Sys2Proof.Machine

/-! ## The reservation (R46, R48, R69, R75, R125, R130) -/

/-- The forced commit after an UNDO reservation: in CONSTRAINED at or above constrained-on, in JOURNALING or CLOSING only
(R125, R126). -/
def State.forcedCommit (s : State) : State :=
  if (s.ec.bridge = .journaling ∨ s.ec.bridge = .closing) ∧ s.jw.pressure = .constrained ∧ s.percent 90 ≤ s.used then
    s.commitOldest .forced
  else s

/-- The entry of an epoch after an UNDO reservation at `line` (R45, R52). -/
def Entry.undoAt (line : Nat) (e : Entry) : Entry :=
  { e with lastUndo := some line, undos := satInc Config.count24Max e.undos }

/-- The back-link of a new UNDO record of epoch `e`: its last-undo line so far (R52). -/
def State.undoBackLink (s : State) (e : EpochNo) : Option Nat := (s.entry? e).bind (·.lastUndo)

/-- The UNDO record is placed: PAD, head, entry, capture record, thresholds, forced commit, and the old-granule read is
made (R46, R52, R69, R70, R123, R125). -/
def State.placeUndo (s : State) (c : Capture) : State :=
  let line := s.placeLine Config.undoLines
  let t := (((s.makePad c.epoch Config.undoLines).advanceHead Config.undoLines).setEntry c.epoch
    (Entry.undoAt line)).setCapture c.slot
      (fun d => { d with undoLine := some line, backLink := s.undoBackLink c.epoch })
  let u := t.evaluate.forcedCommit
  { u with da := { u.da with capture := u.da.capture ++ [.oldRead c.slot] } }

/-- The JW takes the reservation of capture `c`: refused without a room check while SUSPENDED (R130), a reservation failure
when the room check fails (R48, R75), placed otherwise. -/
def State.reserveUndo (s : State) (c : Capture) : State :=
  if s.jw.pressure = .suspended then (s.markBroken c.epoch (s.jw.reason.getD .pressure)).endCapture c.slot
  else if s.undoRoom then s.placeUndo c
  else ((s.markBroken c.epoch .pressure).enterSuspended .pressure).endCapture c.slot

/-- The capture waits for its reservation, and no reservation asked for earlier waits (R46, log 6). -/
def State.mayReserve (s : State) (c : Capture) : Bool :=
  c.undoLine.isNone && s.cu.captures.all (fun d => d.undoLine.isSome || c.asked ≤ d.asked)

/-- UNDO_RESERVATION (R69): the JW takes the reservation of slot `q`'s capture. -/
def execUndoReservation (q : SlotIx) (s : State) : Host.Outcome State Fault Refusal :=
  let t := s.begin
  match t.capture? q with
  | none => .next t
  | some c => if t.mayReserve c then .next (t.reserveUndo c).settle else .next t

/-! ## The old granule and the UNDO record (R70 to R72, R76) -/

/-- The capture whose request of kind `k` a D-port slot holds. -/
def PortKind.oldReadOwner? (k : PortKind) : Option SlotIx :=
  match k with
  | .oldRead q => some q
  | .undoWrite _ | .fwdRead _ | .fwdWrite _ | .padWrite _ _ | .sealWrite _ _ | .openWrite _ _ | .recordRead
  | .restoreWrite => none

/-- The capture whose UNDO write a D-port slot holds. -/
def PortKind.undoWriteOwner? (k : PortKind) : Option SlotIx :=
  match k with
  | .undoWrite q => some q
  | .oldRead _ | .fwdRead _ | .fwdWrite _ | .padWrite _ _ | .sealWrite _ _ | .openWrite _ _ | .recordRead
  | .restoreWrite => none

/-- The old contents are stored and the UNDO write is made, or held back after a JOURNAL RESET (R70, R71). -/
def State.storeOld (s : State) (q : SlotIx) (data : List Byte) : State :=
  let t := s.setCapture q (fun d => { d with old := some data })
  if t.holdsBack then
    let u := t.setCapture q (fun d => { d with step := .waitingForRing })
    { u with da := { u.da with heldCapture := u.da.heldCapture ++ [q] } }
  else { t with da := { t.da with capture := t.da.capture ++ [.undoWrite q] } }

/-- The old-granule read of capture `c` is acknowledged on slot `p` (R70, R71, R76). -/
def State.ackOldRead (s : State) (p : PortIx) (c : Capture) (res : AckResult) : State :=
  match res with
  | .ok data => (s.freePort p).storeOld c.slot data
  | .error => (s.freePort p).captureFault c .captureRead

/-- The UNDO write of capture `c` is acknowledged on slot `p` (R72, R76). -/
def State.ackUndoWrite (s : State) (p : PortIx) (c : Capture) (res : AckResult) : State :=
  match res with
  | .ok _ => ((s.freePort p).setSlot c.slot (fun z => { z with duty := false })).endCapture c.slot
  | .error => (s.freePort p).captureFault c .undoWrite

/-- OLD_GRANULE_READ_ACK (R70). -/
def execOldGranuleReadAck (p : PortIx) (res : AckResult) (s : State) : Host.Outcome State Fault Refusal :=
  let t := s.begin
  match t.portSlot? p with
  | none => .next t
  | some k =>
    match k.kind.oldReadOwner?, k.discard with
    | none, _ => .next t
    | some _, true => .next (t.dropAck p).settle
    | some q, false =>
      match t.capture? q with
      | none => .next t
      | some c => .next (t.ackOldRead p c res).settle

/-- UNDO_WRITE_ACK (R72). -/
def execUndoWriteAck (p : PortIx) (res : AckResult) (s : State) : Host.Outcome State Fault Refusal :=
  let t := s.begin
  match t.portSlot? p with
  | none => .next t
  | some k =>
    match k.kind.undoWriteOwner?, k.discard with
    | none, _ => .next t
    | some _, true => .next (t.dropAck p).settle
    | some q, false =>
      match t.capture? q with
      | none => .next t
      | some c => .next (t.ackUndoWrite p c res).settle

end Sys2Proof.Machine
end

