-- ==== Sys2Proof/Machine/Downstream.lean ====
section
/-! DEFINITION. The rows of the D-port that no other block owns: DA_GRANT, FORWARDED_ACK, DISCARDED_ACK, STRAY_ACK. An
acknowledgment whose slot holds no request of the row's kind is not that row's event, and changes nothing (log 2). -/
namespace Sys2Proof.Machine

/-- DA_GRANT (R166, R167): the FREE slot `p` is granted to the next claimant in the rotation that may send. Nothing is
granted on an occupied slot, or while the reset indication is driven (R174). -/
def execDaGrant (p : PortIx) (s : State) : Host.Outcome State Fault Refusal :=
  let t := s.begin
  if t.inReset ∨ (t.portSlot? p).isSome then .next t
  else .next (t.grantAlong p (rotation t.da.lastGranted)).settle

/-- The forwarded request of slot `x` on D-port slot `p` is acknowledged (R9, R108, R169). -/
def State.ackForward (s : State) (p : PortIx) (x : Slot) (res : AckResult) : State :=
  let t := s.freePort p
  match res, x.req.dir with
  | .ok data, .read => t.answer x .okay data
  | .ok _, .write => (t.feed x).answer x .okay []
  | .error, _ =>
    (t.answer x .downstreamError []).raise
      { code := .downstreamError, win := x.win, master := some x.req.master, epoch := x.epoch, arg := x.granule }

/-- The IQ slot whose forwarded request a D-port slot holds (R164). -/
def PortKind.forwardOwner? (k : PortKind) : Option SlotIx :=
  match k with
  | .fwdRead q | .fwdWrite q => some q
  | .oldRead _ | .undoWrite _ | .padWrite _ _ | .sealWrite _ _ | .openWrite _ _ | .recordRead | .restoreWrite => none

/-- FORWARDED_ACK (R9): the master is answered OKAY or DOWNSTREAM-ERROR. -/
def execForwardedAck (p : PortIx) (res : AckResult) (s : State) : Host.Outcome State Fault Refusal :=
  let t := s.begin
  match ((t.portSlot? p).bind (fun k => k.kind.forwardOwner?)).bind t.slot? with
  | none => .next t
  | some x => .next (t.ackForward p x res).settle

/-- DISCARDED_ACK (R172): the result on a flagged slot is dropped, whatever it is, and the slot becomes FREE. -/
def execDiscardedAck (p : PortIx) (_res : AckResult) (s : State) : Host.Outcome State Fault Refusal :=
  let t := s.begin
  if (t.portSlot? p).any (·.discard) then .next (t.dropAck p).settle else .next t

/-- STRAY_ACK (R174): an acknowledgment that carries the index of a FREE slot is dropped. -/
def execStrayAck (_p : PortIx) (_res : AckResult) (s : State) : Host.Outcome State Fault Refusal := .next s.begin

end Sys2Proof.Machine
end

