-- ==== Sys2Proof/Machine/EpochCommands.lean ====
section
/-! DEFINITION. The rows that start, close, roll back and discard epochs: ENABLE, DISABLE, SEAL, ROLLBACK, RELEASE,
JOURNAL_RESET, ARM_EXPECTED. -/
namespace Sys2Proof.Machine

/-! ## ENABLE (R81) -/

/-- Head and tail at line 0 (R44). -/
def State.zeroRing (s : State) : State := { s with jw := { s.jw with head := 0, tail := 0 } }

/-- The table holds nothing (R105, R159). -/
def State.clearTable (s : State) : State := { s with ec := { s.ec with table := [] } }

/-- The seven steps of ENABLE, in order (R81). -/
def State.startJournaling (s : State) (start : EpochNo) : State :=
  let t := ((((s.clearTable.addEpoch start).setBridge .journaling).zeroRing).setPressure .normal none).clearTouched
  let u := (((t.resetBanks.applyArmed (some start)).fillOpenBank (some start)).reserveOpen start).startTimer
  u.raise { code := .journalingEnabled, epoch := some start, arg := BitVec.ofNat 32 u.ringLines }

/-- ENABLE's answers (R81). -/
def State.enable (s : State) (start : EpochNo) : Reply :=
  match s.ec.bridge with
  | .passthrough =>
    if s.jw.region.isNone then Reply.not s .state else Reply.done (s.startJournaling start) []
  | .journaling | .halted => Reply.not s .state
  | .closing | .rolling => Reply.not s .busy

/-- ENABLE (R81). -/
def execEnable (start : EpochNo) (s : State) : Host.Outcome State Fault Refusal :=
  .next (s.frame 4 (fun t => t.enable start))

/-! ## DISABLE and SEAL (R83, R93) -/

/-- DISABLE's answers (R83). -/
def State.disable (s : State) : Reply :=
  match s.ec.bridge with
  | .passthrough => Reply.done s []
  | .journaling => Reply.done (s.requestBoundary .disable).settle []
  | .closing | .rolling => Reply.not s .busy
  | .halted => Reply.not s .state

/-- DISABLE (R83). -/
def execDisable (s : State) : Host.Outcome State Fault Refusal := .next (s.frame 0 State.disable)

/-- SEAL's answers (R93). -/
def State.sealCommand (s : State) : Reply :=
  match s.ec.bridge with
  | .journaling => Reply.done (s.requestBoundary .sealCommand).settle []
  | .closing | .rolling => Reply.not s .busy
  | .passthrough | .halted => Reply.not s .state

/-- SEAL (R93). -/
def execSealNow (s : State) : Host.Outcome State Fault Refusal := .next (s.frame 0 State.sealCommand)

/-! ## ROLLBACK (R139, R140) -/

/-- The answer of ROLLBACK when it is not accepted, none when it is: the conditions of R139 in order. -/
def State.rollbackRefusal (s : State) (t : EpochNo) : Option MStatus :=
  match s.ec.bridge with
  | .passthrough | .closing => some .state
  | .rolling => some .busy
  | .journaling | .halted =>
    if s.ec.bridge = .journaling ∧ s.jw.pressure = .suspended then some .state
    else if (s.entry? t).isNone then some .argument
    else if s.spanBroken t then some .argument
    else if s.ec.bridge = .halted ∧ s.re.reach.any (fun r => s.newer t r) then some .argument
    else none

/-- The counts and the reach epoch at an acceptance: cleared from JOURNALING, kept from HALTED (R140 step 2). -/
def State.freshRollback (s : State) : State :=
  if s.ec.bridge = .journaling then { s with re := { s.re with failures := 0, discarded := 0, reach := none } } else s

/-- ROLLING, DRAIN, the target, the applied count 0 (R140 step 1). -/
def State.enterRolling (s : State) (t : EpochNo) : State :=
  { s.setBridge .rolling with re := { s.re with phase := .drain, target := some t, applied := 0 } }

/-- A pending boundary is dropped and counted (R96, R140 step 3). -/
def State.dropPending (s : State) : State :=
  if s.ec.pending then
    State.discardBoundary { s with ec := { s.ec with pending := false, closing := false } }
  else s

/-- The request is moved to HELD by an acceptance (R12, R140 step 4). A write just accepted whose capture began with its
acceptance is CAPTURING and is not moved: log 28. -/
def Slot.toHold (x : Slot) : Bool :=
  x.state == .waiting && x.journaled && x.outcome.isNone && !x.captureEnded

/-- Every such request becomes HELD and is withdrawn from the DA (R12, R140 step 4, R167). -/
def State.holdWaiting (s : State) : State :=
  ((s.iq.slots.filter Slot.toHold).map (·.ix)).foldl (fun t q => (t.withdraw q).hold q) s

/-- The acceptance of a ROLLBACK; the end of DRAIN is tested in what follows it (R140). -/
def State.acceptRollback (s : State) (t : EpochNo) : State :=
  (((s.freshRollback.enterRolling t).dropPending).holdWaiting).settle

/-- ROLLBACK (R139). -/
def execRollback (target : EpochNo) (s : State) : Host.Outcome State Fault Refusal :=
  .next (s.frame 4 (fun t =>
    match t.rollbackRefusal target with
    | some status => Reply.not t status
    | none => Reply.done (t.acceptRollback target) []))

/-! ## RELEASE (R159) -/

/-- The five steps of RELEASE, in order (R159). -/
def State.releaseJournal (s : State) : State :=
  let t := (((s.clearTable.emptyRing).normalize).resetBanks).setBridge .passthrough
  State.raise { t with re := { t.re with reach := none, discarded := 0 } }
    { code := .released, arg := BitVec.ofNat 32 s.ec.table.length }

/-- RELEASE (R159): STATE in every bridge state other than HALTED. -/
def execRelease (s : State) : Host.Outcome State Fault Refusal :=
  .next (s.frame 0 (fun t =>
    if t.ec.bridge = .halted then Reply.done t.releaseJournal [] else Reply.not t .state))

/-! ## JOURNAL RESET (R199) -/

/-- A rollback in progress is aborted, and the RE takes its JOURNAL RESET values (R138, R160). -/
def State.abortRollback (s : State) : State :=
  let t := if s.ec.bridge = .rolling then
      s.raise { code := .rollbackAborted, epoch := s.re.target, arg := packCount s.re.applied s.re.phase.code }
    else s
  { t with re := { RollbackEngine.reset with failures := s.re.failures } }

/-- A capture is abandoned: the slot leaves CAPTURING, and its write, whose capture has ended, is checked for the trip
flag (R10, R20, R78, log 17). -/
def State.abandonCapture (s : State) (q : SlotIx) : State :=
  match s.slot? q with
  | none => s
  | some x =>
    if x.state = .capturing then
      let t := s.setSlot q (fun z => { z with state := .waiting, captureEnded := true })
      if x.outcome.isNone ∧ s.tripped x.win then t.decideTripped x else t
    else s

/-- The IQ's part: captures are abandoned, every assignment and marking is cleared, HELD requests are released
(R20). -/
def State.resetIntake (s : State) : State :=
  ((s.iq.slots.map (·.ix)).foldl (fun t q => t.abandonCapture q) s).mapSlots (fun x => x.unassigned.unheld)

/-- The discard flag of a capture, seal-writer or rollback request is set (R172). -/
def PortSlot.flagged (k : PortSlot) : PortSlot :=
  { k with discard := k.discard || decide (k.kind.claimant ≠ .forwardPath) }

/-- The DA's part: the slots of the three other claimants are flagged, their ready lists and held-back record writes
withdrawn (R56, R172). -/
def Arbiter.journalReset (a : Arbiter) : Arbiter :=
  { a with
    slots := Vector.ofFn fun p => (a.slots[p]).map PortSlot.flagged
    capture := []
    sealWriter := []
    rollback := none
    heldCapture := []
    heldSealWriter := [] }

/-- The JW's part: head and tail at 0, pressure NORMAL without an event, nothing reserved (R58, R137). -/
def JournalWriter.journalReset (w : JournalWriter) : JournalWriter :=
  { w with head := 0, tail := 0, pressure := .normal, reason := none, sealJob := none }

/-- The EC's part (R105). -/
def EpochController.journalReset (c : EpochController) : EpochController :=
  { c with bridge := .passthrough, table := [], pending := false, closing := false, merged := 0, timer := none }

/-- The epoch number of JOURNAL-RESET: the OPEN epoch's, or the closing epoch's in CLOSING (R178, R199). -/
def State.resetEpoch (s : State) : Option EpochNo :=
  match s.openEpoch? with
  | some e => some e
  | none => if s.ec.bridge = .closing then s.sealingEntry?.map (·.number) else none

/-- JOURNAL RESET as one action of every block, JOURNAL-RESET last (R199). -/
def State.journalReset (s : State) : State :=
  let t := (s.abortRollback.resetIntake).resetBanks
  State.raise
    { t with
      cu := { touched := [], captures := [] }
      da := t.da.journalReset
      jw := t.jw.journalReset
      ec := t.ec.journalReset }
    { code := .journalReset, epoch := s.resetEpoch, arg := packBytes s.ec.bridge.code s.ec.table.length 0 0 }

/-- JOURNAL_RESET (R199). -/
def execJournalReset (s : State) : Host.Outcome State Fault Refusal :=
  .next (s.frame 0 (fun t => Reply.done t.journalReset.settle []))

/-! ## ARM EXPECTED (R112) -/

/-- The expected value of window `i` in the OPEN bank (R112). -/
def State.arm (s : State) (i : WinIx) (value : Word32) : State :=
  { s with su := { s.su with openBank := s.su.openBank.update i (fun b => { b with expected := some value }) } }

/-- ARM EXPECTED's answers (R112). -/
def State.armExpected (s : State) (ix : Byte) (value : Word32) : Reply :=
  if s.ec.bridge ≠ .journaling then Reply.not s .state
  else
    match winIxOf ix with
    | none => Reply.not s .argument
    | some i =>
      if (s.su.openBank.entries[i]).kind = .guard then Reply.done (s.arm i value) [] else Reply.not s .argument

/-- ARM_EXPECTED (R112). -/
def execArmExpected (ix : Byte) (value : Word32) (s : State) : Host.Outcome State Fault Refusal :=
  .next (s.frame 5 (fun t => t.armExpected ix value))

end Sys2Proof.Machine
end

