-- ==== Sys2Proof/Machine/ReadCommands.lean ====
section
/-! DEFINITION. The rows that read: STATUS_READ, EPOCH_READ, SIGNATURE_READ, EVENT_READ. -/
namespace Sys2Proof.Machine

/-! ## STATUS READ (R192, 12.3) -/

/-- The code of an edge (12.3). -/
def Edge.code (e : Edge) : Nat :=
  match e with
  | .rising => 0
  | .falling => 1

/-- Byte 5 of the status record (12.3). -/
def State.statusFlags (s : State) : Nat :=
  bitOf s.openEpoch?.isSome 0 + bitOf s.ec.pending 1 + bitOf s.ec.closing 2 + bitOf s.wu.armed 3
    + bitOf s.jw.region.isSome 4 + bitOf s.ec.timerEnable 5 + bitOf s.ec.timer.isSome 6 + bitOf s.ec.strobeEnable 7

/-- The base page field of the status record: 0 while the region is unset (R192, R202). -/
def State.basePage (s : State) : Nat :=
  match s.jw.region with
  | none => 0
  | some g => g.base

/-- The 40 bytes of the status record (R192, 12.3). -/
def State.statusBytes (s : State) : List Byte :=
  [byteOf s.ec.bridge.code, byteOf s.re.phase.code, byteOf s.jw.pressure.code, byteOf (reasonCode s.jw.reason),
   byteOf s.fill, byteOf s.statusFlags, byteOf (Edge.code s.ec.strobePolarity), byteOf s.ec.table.length]
    ++ bytes32 (s.openEpoch?.getD 0#32)
    ++ [byteOf s.ec.merged, byteOf s.eq.records.length, byteOf s.eq.lost, byteOf s.re.failures]
    ++ bytes16 s.eq.seq ++ bytes16 s.wu.trip ++ bytes32 s.eq.time
    ++ bytes32 (BitVec.ofNat 32 s.basePage) ++ bytes32 (BitVec.ofNat 32 s.ringLines)
    ++ [byteOf s.ec.retention, s.eq.mask] ++ bytes16 s.ec.timerInterval ++ bytes16 s.iq.holdLimit ++ [0#8, 0#8]

/-- STATUS_READ (R192). -/
def execStatusRead (s : State) : Host.Outcome State Fault Refusal :=
  .next (s.frame 0 (fun t => Reply.done t t.statusBytes))

/-! ## EPOCH READ (R104) -/

/-- The written set an EPOCH READ entry gives: the SU's flags of its bank for an OPEN or SEALING epoch, the entry's own
once it is SEALED (R104, log 21). -/
def State.writtenOf (s : State) (e : Entry) : BitVec 16 :=
  match e.state with
  | .sealed => e.written
  | .opened | .sealing => ((s.bank? e.number).map Bank.writtenSet).getD e.written

/-- The 32 bytes of the entry at position `p`, counted from the oldest; an EMPTY entry at or beyond the table's count
(R104). -/
def State.epochBytes (s : State) (p : Nat) : List Byte :=
  match s.ec.table[p]? with
  | none => emptyEntryBytes
  | some e => e.bytes (s.writtenOf e)

/-- The arguments of EPOCH READ are in range (R104). -/
def epochReadOk (start count : Byte) : Bool := start.toNat ≤ 63 && 1 ≤ count.toNat && count.toNat ≤ 64

/-- EPOCH READ (R104): positions wrap from 63 to 0. -/
def State.epochRead (s : State) (start count : Byte) : Reply :=
  if epochReadOk start count then
    Reply.done s ((List.range count.toNat).flatMap (fun j => s.epochBytes ((start.toNat + j) % Config.tableSlots)))
  else Reply.not s .argument

/-- EPOCH_READ (R104). -/
def execEpochRead (start count : Byte) (s : State) : Host.Outcome State Fault Refusal :=
  .next (s.frame 2 (fun t => t.epochRead start count))

/-! ## SIGNATURE READ (R115) -/

/-- The signature list of a SEALED epoch, none for any other number (R115). -/
def State.sealedSigs? (s : State) (e : EpochNo) : Option (List SigEntry) :=
  match s.entry? e with
  | none => none
  | some x => if x.state = .sealed then some (x.sigs.getD []) else none

/-- SIGNATURE READ (R115, 12.4). -/
def State.signatureRead (s : State) (e : EpochNo) : Reply :=
  match s.sealedSigs? e with
  | none => Reply.not s .argument
  | some l => Reply.done s (bytes32 e ++ [byteOf l.length] ++ l.flatMap SigEntry.bytes)

/-- SIGNATURE_READ (R115). -/
def execSignatureRead (epoch : EpochNo) (s : State) : Host.Outcome State Fault Refusal :=
  .next (s.frame 4 (fun t => t.signatureRead epoch))

/-! ## EVENT READ (R180, R181, R184) -/

/-- The `k` oldest records are removed, the EVENTS-LOST record that is then due is inserted, and EVT_N is evaluated (R180,
R181, R184). A read that removes nothing changes nothing. -/
def EventQueue.remove (q : EventQueue) (k : Nat) : EventQueue :=
  if k = 0 then q
  else
    let q' : EventQueue := { q with records := q.records.drop k }
    let r : EventQueue :=
      if q.lost = 0 then q'
      else { (q'.raise { code := .eventsLost, arg := BitVec.ofNat 32 q.lost }) with lost := 0 }
    { r with evtN := r.line }

/-- EVENT READ (R180). -/
def State.eventRead (s : State) (count : Byte) : Reply :=
  if count.toNat = 0 ∨ 32 < count.toNat then Reply.not s .argument
  else
    let k := min count.toNat s.eq.records.length
    Reply.done { s with eq := s.eq.remove k } (byteOf k :: (s.eq.records.take k).flatMap EventRec.bytes)

/-- EVENT_READ (R180). -/
def execEventRead (count : Byte) (s : State) : Host.Outcome State Fault Refusal :=
  .next (s.frame 1 (fun t => t.eventRead count))

end Sys2Proof.Machine
end

