-- ==== Sys2Proof/Machine/Records.lean ====
section
/-! DEFINITION. The rows of the seal writer's record writes: PAD_WRITE_ACK, SEAL_WRITE_ACK, OPEN_WRITE_ACK. -/
namespace Sys2Proof.Machine

/-- Line and epoch of the PAD write a D-port slot holds. -/
def PortKind.pad? (k : PortKind) : Option (Nat × EpochNo) :=
  match k with
  | .padWrite l e => some (l, e)
  | .sealWrite _ _ | .openWrite _ _ | .undoWrite _ | .oldRead _ | .fwdRead _ | .fwdWrite _ | .recordRead
  | .restoreWrite => none

/-- Line and epoch of the SEAL write a D-port slot holds. -/
def PortKind.seal? (k : PortKind) : Option (Nat × EpochNo) :=
  match k with
  | .sealWrite l e => some (l, e)
  | .padWrite _ _ | .openWrite _ _ | .undoWrite _ | .oldRead _ | .fwdRead _ | .fwdWrite _ | .recordRead
  | .restoreWrite => none

/-- Line and epoch of the OPEN write a D-port slot holds. -/
def PortKind.open? (k : PortKind) : Option (Nat × EpochNo) :=
  match k with
  | .openWrite l e => some (l, e)
  | .padWrite _ _ | .sealWrite _ _ | .undoWrite _ | .oldRead _ | .fwdRead _ | .fwdWrite _ | .recordRead
  | .restoreWrite => none

/-- The fault of a record write acknowledged ERROR (R170); nothing on OK. -/
def State.faultOnError (s : State) (l : Nat × EpochNo) (kind : FaultKind) (res : AckResult) : State :=
  match res with
  | .ok _ => s
  | .error => s.recordFault l.1 l.2 kind

/-- The SEAL record of epoch `e` is acknowledged: `e` becomes SEALED, and the rest of the seal, or of CLOSING, follows in
the same action (R86, R98, R99). -/
def State.ackSeal (s : State) (e : EpochNo) : State :=
  let t := s.becomeSealed e
  if t.ec.bridge = .closing then t.endClosing e else t.completeSeal e

/-- PAD_WRITE_ACK (R55, R170). A SEAL write that waited for it may be sent from now on (R165). -/
def execPadWriteAck (p : PortIx) (res : AckResult) (s : State) : Host.Outcome State Fault Refusal :=
  let t := s.begin
  match t.portSlot? p with
  | none => .next t
  | some k =>
    match k.kind.pad?, k.discard with
    | none, _ => .next t
    | some _, true => .next (t.dropAck p).settle
    | some l, false => .next ((t.freePort p).faultOnError l .padWrite res).settle

/-- SEAL_WRITE_ACK (R98, R99). -/
def execSealWriteAck (p : PortIx) (res : AckResult) (s : State) : Host.Outcome State Fault Refusal :=
  let t := s.begin
  match t.portSlot? p with
  | none => .next t
  | some k =>
    match k.kind.seal?, k.discard with
    | none, _ => .next t
    | some _, true => .next (t.dropAck p).settle
    | some l, false => .next (((t.freePort p).faultOnError l .sealWrite res).ackSeal l.2).settle

/-- OPEN_WRITE_ACK (R99, R170). -/
def execOpenWriteAck (p : PortIx) (res : AckResult) (s : State) : Host.Outcome State Fault Refusal :=
  let t := s.begin
  match t.portSlot? p with
  | none => .next t
  | some k =>
    match k.kind.open?, k.discard with
    | none, _ => .next t
    | some _, true => .next (t.dropAck p).settle
    | some l, false => .next ((t.freePort p).faultOnError l .openWrite res).settle

end Sys2Proof.Machine
end

