-- ==== Sys2Proof/Machine/SettingsCommands.lean ====
section
/-! DEFINITION. The rows that write settings: JOURNAL_SETUP, RETENTION_SET, TIMER_SET, STROBE_SET, HOLD_LIMIT_SET,
EVENT_MASK_SET, CLEAR_COUNTERS. -/
namespace Sys2Proof.Machine

/-! ## JOURNAL SETUP (R24, R43) -/

/-- The arguments of JOURNAL SETUP are out of range (R43). -/
def setupInvalid (base pages : Word32) : Bool :=
  pages.toNat < 16 || 262144 < pages.toNat || 67108864 < base.toNat + pages.toNat

/-- The region is set, and head and tail go to line 0 (R43, R44); the thresholds are evaluated (R44). -/
def State.setRegion (s : State) (base pages : Word32) : State :=
  State.evaluate
    { s with jw := { s.jw with region := some { base := base.toNat, pages := pages.toNat }, head := 0, tail := 0 } }

/-- The request in slot `q` is decided FENCED when it is not ISSUED, has no decided outcome and lies in the region: its
forwarded request is withdrawn, and FENCE-HIT is raised with no window index (R24, R167). -/
def State.refence (s : State) (q : SlotIx) : State :=
  match s.slot? q with
  | none => s
  | some x =>
    if x.state ≠ .issued ∧ x.outcome.isNone ∧ s.inRegion x.req.addr then
      ((s.withdraw q).setSlot q (fun z => { z.unheld with outcome := some .fenced, atPoint := false })).raise
        { code := .fenceHit, master := some x.req.master, arg := pageArg x.req.addr }
    else s

/-- The new region applied to every occupied slot, in acceptance order (R24, log 4). -/
def State.refenceAll (s : State) : State := (s.iq.slots.map (·.ix)).foldl (fun t q => t.refence q) s

/-- JOURNAL SETUP (R43): the conditions in the order of the table. -/
def State.journalSetup (s : State) (base pages : Word32) : Reply :=
  if s.ec.bridge ≠ .passthrough then Reply.not s .state
  else if setupInvalid base pages then Reply.not s .argument
  else if s.ringOutstanding then Reply.not s .busy
  else Reply.done (s.setRegion base pages).refenceAll.settle []

/-- JOURNAL_SETUP (R43). -/
def execJournalSetup (base pages : Word32) (s : State) : Host.Outcome State Fault Refusal :=
  .next (s.frame 8 (fun t => t.journalSetup base pages))

/-! ## RETENTION SET (R102) -/

/-- The retention depth is set (R102). -/
def State.setRetention (s : State) (n : Nat) : State := { s with ec := { s.ec with retention := n } }

/-- RETENTION SET: STATE in ROLLING and HALTED whatever the argument, ARGUMENT for 0 or above 63; otherwise the excess of
SEALED epochs is committed at once (R102). -/
def State.retentionSet (s : State) (depth : Byte) : Reply :=
  if s.ec.bridge = .rolling ∨ s.ec.bridge = .halted then Reply.not s .state
  else if depth.toNat = 0 ∨ 63 < depth.toNat then Reply.not s .argument
  else Reply.done ((s.setRetention depth.toNat).commitExcess .depth).settle []

/-- RETENTION_SET (R102). -/
def execRetentionSet (depth : Byte) (s : State) : Host.Outcome State Fault Refusal :=
  .next (s.frame 1 (fun t => t.retentionSet depth))

/-! ## TIMER SET (R194) -/

/-- Both timer settings are replaced. While the bridge is JOURNALING or ROLLING the timer starts a full new interval, or
stops when the enable is clear; otherwise it stays as it is (R194). -/
def State.setTimer (s : State) (interval : BitVec 16) (enable : Bool) : State :=
  let t : State := { s with ec := { s.ec with timerInterval := interval, timerEnable := enable } }
  if s.ec.bridge = .journaling ∨ s.ec.bridge = .rolling then t.startTimer else t

/-- TIMER SET: ARGUMENT for an interval of 0 or another enable byte (R194). -/
def State.timerSet (s : State) (interval : BitVec 16) (enable : Byte) : Reply :=
  match flagOf enable with
  | none => Reply.not s .argument
  | some on => if interval = 0#16 then Reply.not s .argument else Reply.done (s.setTimer interval on) []

/-- TIMER_SET (R194). -/
def execTimerSet (interval : BitVec 16) (enable : Byte) (s : State) : Host.Outcome State Fault Refusal :=
  .next (s.frame 3 (fun t => t.timerSet interval enable))

/-! ## STROBE SET (R195) -/

/-- Both EPOCH_IN settings are replaced (R195). -/
def State.setStrobe (s : State) (enable : Bool) (polarity : Edge) : State :=
  { s with ec := { s.ec with strobeEnable := enable, strobePolarity := polarity } }

/-- STROBE SET: ARGUMENT when either byte holds another value (R195). -/
def State.strobeSet (s : State) (enable polarity : Byte) : Reply :=
  match flagOf enable, polarityOf polarity with
  | some on, some edge => Reply.done (s.setStrobe on edge) []
  | _, _ => Reply.not s .argument

/-- STROBE_SET (R195). -/
def execStrobeSet (enable polarity : Byte) (s : State) : Host.Outcome State Fault Refusal :=
  .next (s.frame 2 (fun t => t.strobeSet enable polarity))

/-! ## HOLD LIMIT SET (R19, R196) -/

/-- The hold limit is set (R19). -/
def State.setHoldLimit (s : State) (limit : BitVec 16) : State := { s with iq := { s.iq with holdLimit := limit } }

/-- HOLD_LIMIT_SET (R196): the new limit acts at once on every HELD request (R19). -/
def execHoldLimitSet (limit : BitVec 16) (s : State) : Host.Outcome State Fault Refusal :=
  .next (s.frame 2 (fun t => Reply.done ((t.setHoldLimit limit).expireAll).settle []))

/-! ## EVENT MASK SET (R183, R184) -/

/-- The class mask is set and EVT_N evaluated (R183, R184). -/
def EventQueue.setMask (q : EventQueue) (mask : Byte) : EventQueue :=
  let q' : EventQueue := { q with mask := mask }
  { q' with evtN := q'.line }

/-- EVENT_MASK_SET (R183): the response is the mask as it then stands. -/
def execEventMaskSet (mask : Byte) (s : State) : Host.Outcome State Fault Refusal :=
  .next (s.frame 1 (fun t => Reply.done { t with eq := t.eq.setMask mask } [mask]))

/-! ## CLEAR COUNTERS (R196) -/

/-- The merged counter is set to 0 (R196). -/
def State.clearMerged (s : State) : State := { s with ec := { s.ec with merged := 0 } }

/-- CLEAR_COUNTERS (R196): the response is the merged counter as it stood before. -/
def execClearCounters (s : State) : Host.Outcome State Fault Refusal :=
  .next (s.frame 0 (fun t => Reply.done t.clearMerged [byteOf t.ec.merged]))

end Sys2Proof.Machine
end

