-- ==== Sys2Proof/Machine/Upstream.lean ====
section
/-! DEFINITION. The rows of the U-port: UPORT_REQUEST, HOLD_LIMIT_REACHED. -/
namespace Sys2Proof.Machine

/-- UPORT_REQUEST (R3, R4): the request joins those waiting at the port, and the port takes the one that has waited longest
when it takes requests (log 3). With nothing waiting and a FREE slot that is the request itself. -/
def execUportRequest (r : Request) (s : State) : Host.Outcome State Fault Refusal :=
  let t := s.begin
  .next (State.takePort { t with port := t.port ++ [r] }).settle

/-- HOLD_LIMIT_REACHED (R17): slot `q`'s HELD request is timed out. A request that is not HELD, or whose hold time has not
reached the limit, is passed by (R18, log 2). -/
def execHoldLimitReached (q : SlotIx) (s : State) : Host.Outcome State Fault Refusal :=
  .next (s.begin.expireSlot q).settle

end Sys2Proof.Machine
end

