-- ==== Sys2Proof/Machine/WalkAcks.lean ====
section
/-! DEFINITION. The rows of the rollback walk: RECORD_READ_ACK, RESTORE_WRITE_ACK. -/
namespace Sys2Proof.Machine

/-- The record that was read passes the header check at the walk line of the walk epoch (R150). -/
def State.recordOk (s : State) (data : List Byte) : Bool :=
  match s.re.walkEpoch.bind s.entry?, s.re.walkLine with
  | some e, some l => s.headerOk e l data
  | _, _ => false

/-- The checked record becomes the record in hand and its restore write is made (R149 steps 2 and 3). -/
def State.restoreRecord (s : State) (data : List Byte) : State :=
  { s with
    re := { s.re with walkStep := some .restoring, inHand := some (recordOf data) }
    da := { s.da with rollback := some (.restore (recordOf data)) } }

/-- A record read is acknowledged (R149, R150, R171). -/
def State.ackRecord (s : State) (res : AckResult) : State :=
  match res with
  | .error => s.failWalk .read
  | .ok data => if s.recordOk data then s.restoreRecord data else s.failWalk .corrupt

/-- The walk follows the back-link of the record in hand, or goes on to the next chain, or is over (R148, R149 step 4). -/
def State.followLink (s : State) : State :=
  match s.re.target, s.re.walkEpoch with
  | some t, some e =>
    match s.re.inHand.bind (·.backLink) with
    | some line => s.readRecord e line
    | none => State.walkOn { s with re := { s.re with inHand := none } } t (s.olderInSpan t e)
  | _, _ => s

/-- A restore write is acknowledged (R149, R152, R171). -/
def State.ackRestore (s : State) (res : AckResult) : State :=
  match res with
  | .error => s.failWalk .write
  | .ok _ => State.followLink { s with re := { s.re with applied := satInc Config.count24Max s.re.applied } }

/-- RECORD_READ_ACK (R150). -/
def execRecordReadAck (p : PortIx) (res : AckResult) (s : State) : Host.Outcome State Fault Refusal :=
  let t := s.begin
  match t.portSlot? p with
  | none => .next t
  | some k =>
    match decide (k.kind = .recordRead), k.discard with
    | false, _ => .next t
    | true, true => .next (t.dropAck p).settle
    | true, false => .next ((t.freePort p).ackRecord res).settle

/-- RESTORE_WRITE_ACK (R149). -/
def execRestoreWriteAck (p : PortIx) (res : AckResult) (s : State) : Host.Outcome State Fault Refusal :=
  let t := s.begin
  match t.portSlot? p with
  | none => .next t
  | some k =>
    match decide (k.kind = .restoreWrite), k.discard with
    | false, _ => .next t
    | true, true => .next (t.dropAck p).settle
    | true, false => .next ((t.freePort p).ackRestore res).settle

end Sys2Proof.Machine
end

