-- ==== Sys2Proof/Machine/WindowCommands.lean ====
section
/-! DEFINITION. The rows of the window tables: WINDOW_WRITE, WINDOW_READ, APPLY, APPLY_CANCEL, CLEAR_TRIP. -/
namespace Sys2Proof.Machine

/-! ## WINDOW WRITE (R32, R33) -/

/-- The staged entry at index `i` is replaced (R32). -/
def State.stage (s : State) (i : WinIx) (w : WinEntry) : State :=
  { s with wu := { s.wu with staged := s.wu.staged.set i w } }

/-- WINDOW WRITE: ARGUMENT in each case of R33, otherwise the staged entry is replaced. -/
def State.windowWrite (s : State) (ix kind : Byte) (base mask : Word32) (flags quiet : Byte) : Reply :=
  match windowArgs ix kind base mask flags quiet with
  | none => Reply.not s .argument
  | some w => Reply.done (s.stage w.1 w.2) []

/-- WINDOW_WRITE (R32). -/
def execWindowWrite (ix kind : Byte) (base mask : Word32) (flags quiet : Byte) (s : State) :
    Host.Outcome State Fault Refusal :=
  .next (s.frame 12 (fun t => t.windowWrite ix kind base mask flags quiet))

/-! ## WINDOW READ (R34) -/

/-- The two tables a WINDOW READ selects from (R34). -/
inductive Table where
  | active
  | staged
deriving DecidableEq, Repr

/-- The selector byte: 00h ACTIVE, 01h STAGED, no other value (R34, 12.4). -/
def tableOf (b : Byte) : Option Table :=
  match b with
  | 0#8 => some .active
  | 1#8 => some .staged
  | _ => none

/-- The 14 response bytes of WINDOW READ: the entry, its trip flag when ACTIVE was selected, the apply-armed flag
(R34, 12.4). -/
def State.windowBytes (s : State) (t : Table) (i : WinIx) : List Byte :=
  match t with
  | .active => (s.wu.active[i]).bytes i ++ [byteOf (bitOf (s.tripped (some i)) 0), byteOf (bitOf s.wu.armed 0)]
  | .staged => (s.wu.staged[i]).bytes i ++ [0#8, byteOf (bitOf s.wu.armed 0)]

/-- WINDOW READ: ARGUMENT for another selector or an index above 15 (R34). -/
def State.windowRead (s : State) (sel ix : Byte) : Reply :=
  match tableOf sel, winIxOf ix with
  | some t, some i => Reply.done s (s.windowBytes t i)
  | _, _ => Reply.not s .argument

/-- WINDOW_READ (R34). -/
def execWindowRead (sel ix : Byte) (s : State) : Host.Outcome State Fault Refusal :=
  .next (s.frame 2 (fun t => t.windowRead sel ix))

/-! ## APPLY and APPLY CANCEL (R35, R39) -/

/-- The arm is set or cleared (R35, R39). -/
def State.setArm (s : State) (b : Bool) : State := { s with wu := { s.wu with armed := b } }

/-- APPLY: carried out at once in PASSTHROUGH, armed in every other bridge state (R35). -/
def State.applyCommand (s : State) : State :=
  if s.ec.bridge = .passthrough then s.applyTable none else s.setArm true

/-- APPLY (R35). -/
def execApply (s : State) : Host.Outcome State Fault Refusal :=
  .next (s.frame 0 (fun t => Reply.done t.applyCommand []))

/-- APPLY_CANCEL (R39). -/
def execApplyCancel (s : State) : Host.Outcome State Fault Refusal :=
  .next (s.frame 0 (fun t => Reply.done (t.setArm false) []))

/-! ## CLEAR TRIP (R31) -/

/-- Every flag of the set is cleared (R31). -/
def State.clearTrip (s : State) (set : BitVec 16) : State :=
  { s with wu := { s.wu with trip := s.wu.trip &&& ~~~set } }

/-- CLEAR_TRIP (R31). -/
def execClearTrip (set : BitVec 16) (s : State) : Host.Outcome State Fault Refusal :=
  .next (s.frame 2 (fun t => Reply.done (t.clearTrip set) []))

end Sys2Proof.Machine
end

