-- ==== Sys2Proof/Machine/Dispatch.lean ====
section
/-! DEFINITION. The effect of each command on everything but the queue: one arm per row of the opcode table. -/
namespace Sys2Proof.Machine

def exec (i : Instr) (s : State) : Host.Outcome State Fault Refusal :=
  match i with
  | .uportRequest r => Sys2Proof.Machine.execUportRequest r s
  | .daGrant p => Sys2Proof.Machine.execDaGrant p s
  | .forwardedAck p res => Sys2Proof.Machine.execForwardedAck p res s
  | .undoReservation q => Sys2Proof.Machine.execUndoReservation q s
  | .oldGranuleReadAck p res => Sys2Proof.Machine.execOldGranuleReadAck p res s
  | .undoWriteAck p res => Sys2Proof.Machine.execUndoWriteAck p res s
  | .padWriteAck p res => Sys2Proof.Machine.execPadWriteAck p res s
  | .sealWriteAck p res => Sys2Proof.Machine.execSealWriteAck p res s
  | .openWriteAck p res => Sys2Proof.Machine.execOpenWriteAck p res s
  | .recordReadAck p res => Sys2Proof.Machine.execRecordReadAck p res s
  | .restoreWriteAck p res => Sys2Proof.Machine.execRestoreWriteAck p res s
  | .discardedAck p res => Sys2Proof.Machine.execDiscardedAck p res s
  | .strayAck p res => Sys2Proof.Machine.execStrayAck p res s
  | .holdLimitReached q => Sys2Proof.Machine.execHoldLimitReached q s
  | .epochTimerExpiry => Sys2Proof.Machine.execEpochTimerExpiry s
  | .epochInEdge edge => Sys2Proof.Machine.execEpochInEdge edge s
  | .powerOnReset => Sys2Proof.Machine.execPowerOnReset s
  | .resetEnd mcsLow => Sys2Proof.Machine.execResetEnd mcsLow s
  | .frameEndedEarly bytes => Sys2Proof.Machine.execFrameEndedEarly bytes s
  | .unknownCommand code => Sys2Proof.Machine.execUnknownCommand code s
  | .statusRead => Sys2Proof.Machine.execStatusRead s
  | .windowWrite ix kind base mask flags quiet => Sys2Proof.Machine.execWindowWrite ix kind base mask flags quiet s
  | .windowRead sel ix => Sys2Proof.Machine.execWindowRead sel ix s
  | .apply => Sys2Proof.Machine.execApply s
  | .applyCancel => Sys2Proof.Machine.execApplyCancel s
  | .clearTrip set => Sys2Proof.Machine.execClearTrip set s
  | .journalSetup base pages => Sys2Proof.Machine.execJournalSetup base pages s
  | .retentionSet depth => Sys2Proof.Machine.execRetentionSet depth s
  | .timerSet interval enable => Sys2Proof.Machine.execTimerSet interval enable s
  | .strobeSet enable polarity => Sys2Proof.Machine.execStrobeSet enable polarity s
  | .holdLimitSet limit => Sys2Proof.Machine.execHoldLimitSet limit s
  | .enable start => Sys2Proof.Machine.execEnable start s
  | .disable => Sys2Proof.Machine.execDisable s
  | .sealNow => Sys2Proof.Machine.execSealNow s
  | .rollback target => Sys2Proof.Machine.execRollback target s
  | .release => Sys2Proof.Machine.execRelease s
  | .journalReset => Sys2Proof.Machine.execJournalReset s
  | .armExpected ix value => Sys2Proof.Machine.execArmExpected ix value s
  | .epochRead start count => Sys2Proof.Machine.execEpochRead start count s
  | .signatureRead epoch => Sys2Proof.Machine.execSignatureRead epoch s
  | .eventRead count => Sys2Proof.Machine.execEventRead count s
  | .eventMaskSet mask => Sys2Proof.Machine.execEventMaskSet mask s
  | .clearCounters => Sys2Proof.Machine.execClearCounters s

end Sys2Proof.Machine
end

