-- ==== Sys2Proof/Machine/Step.lean ====
section
/-! DEFINITION. One step: the command at the front of the queue, or what the block does while none waits. -/
namespace Sys2Proof.Machine

/-- One step. With a command at the front of the queue, its effect on the state with the queue's rest; on an empty queue,
`State.idle` (log 1). -/
def step (s : State) : Host.Outcome State Fault Refusal :=
  match s.pending with
  | [] => .next s.idle
  | c :: rest => exec c { s with pending := rest }

/-- `s` with the command that a word of the opcode table spells put at the front of its queue; `s` when it spells none, as
every word does: the table gives no row any bits (log 7). -/
def State.withFetchWord (s : State) (nbits w : Nat) : State :=
  match decodeTableWord nbits w with
  | none => s
  | some c => { s with pending := c :: s.pending }

end Sys2Proof.Machine
end

