-- ==== Sys2Proof/Safety.lean ====
section
/-! DEFINITION. The properties of states that statements speak of: what the spec says holds at every moment, block by
block. -/
namespace Sys2Proof.Machine

/-! ## Event Queue (R177, R179, R184) -/

/-- At most 32 records; they carry consecutive sequence numbers that end just below the counter (R177); the lost counter
is within its range and nonzero only with a full queue (R179); EVT_N stands as R184 states. -/
structure EventQueue.Ok (q : EventQueue) : Prop where
  few         : q.records.length ≤ 32
  consecutive : ∀ i r, q.records[i]? = some r → r.seq = q.seq - BitVec.ofNat 16 (q.records.length - i)
  lost        : q.lost ≤ 255
  full        : q.lost ≠ 0 → q.records.length = 32
  line        : q.evtN = q.line

/-- Events raised in turn. -/
def EventQueue.raiseAll (q : EventQueue) (evs : List Event) : EventQueue := evs.foldl EventQueue.raise q

/-! ## Capture Unit and Journal Writer (R59, R122) -/

/-- The touched set holds no granule twice and at most 1024 (R59). -/
def CaptureUnit.TouchedOk (u : CaptureUnit) : Prop := u.touched.Nodup ∧ u.touched.length ≤ 1024

/-- The suspension reason is present exactly while the pressure state is SUSPENDED (R122). -/
def JournalWriter.PressureOk (w : JournalWriter) : Prop := w.reason.isSome ↔ w.pressure = .suspended

/-! ## Ranges (R52, R62, R87, R96, R101, R116, R138) -/

/-- The counts of an entry are within their ranges (R87). -/
def Entry.CountsOk (e : Entry) : Prop := e.undos ≤ 16777215 ∧ e.overflow ≤ 65535

/-- The saturating counters and the retention depth are within their ranges. -/
structure State.RangesOk (s : State) : Prop where
  entries   : ∀ e ∈ s.ec.table, e.CountsOk
  merged    : s.ec.merged ≤ 255
  retention : 1 ≤ s.ec.retention ∧ s.ec.retention ≤ 63
  applied   : s.re.applied ≤ 16777215
  discarded : s.re.discarded ≤ 255
  failures  : s.re.failures ≤ 255
  quiet     : ∀ i : WinIx, (s.su.quiet[i]).counter ≤ 255

/-! ## Intake Queue (R4 to R7, R12, R13, R24, R68) -/

/-- No request to the same granule was accepted before `x`: `x` is the head of its granule order (R6). -/
def State.Oldest (s : State) (x : Slot) : Prop := ∀ y ∈ s.iq.slots, y.granule = x.granule → x.pos ≤ y.pos

/-- The slots, the forward path's ready list, the capture records and the forwarded requests on the D-port agree. -/
structure State.IntakeOk (s : State) : Prop where
  /-- No slot holds two requests (R4). -/
  distinct  : (s.iq.slots.map (·.ix)).Nodup
  /-- The slots stand in acceptance order (R4, R6). -/
  order     : s.iq.slots.Pairwise (fun x y => x.pos < y.pos)
  before    : ∀ x ∈ s.iq.slots, x.pos < s.iq.nextPos
  /-- The hold entry time is present exactly while the request is HELD (R5). -/
  held      : ∀ x ∈ s.iq.slots, x.state = .held ↔ x.holdEntry.isSome
  /-- A decided outcome keeps a request out of HELD and off the D-port (R8, R13). -/
  decided   : ∀ x ∈ s.iq.slots, x.outcome.isSome → x.state = .waiting ∨ x.state = .capturing
  /-- Only heads capture or are issued (R6, R7). -/
  heads     : ∀ x ∈ s.iq.slots, x.state = .capturing ∨ x.state = .issued → s.Oldest x
  /-- Only WAITING heads with no decided outcome ask for a forward-path slot, each once (R7, R165). -/
  asked     : ∀ q ∈ s.da.forward, ∃ x ∈ s.iq.slots, x.ix = q ∧ x.state = .waiting ∧ x.outcome = none ∧ s.Oldest x
  once      : s.da.forward.Nodup
  /-- One capture record for each CAPTURING slot (R68). -/
  records   : ∀ c ∈ s.cu.captures, ∃ x ∈ s.iq.slots, x.ix = c.slot ∧ x.state = .capturing
  capturing : ∀ x ∈ s.iq.slots, x.state = .capturing → ∃ c ∈ s.cu.captures, c.slot = x.ix
  recorded  : (s.cu.captures.map (·.slot)).Nodup
  /-- A forwarded request on the D-port is its ISSUED slot's and is never flagged (R164, R172). -/
  sent      : ∀ (p : PortIx) (k : PortSlot) (q : SlotIx), s.da.slots[p] = some k → k.kind.forwardOwner? = some q →
                k.discard = false ∧ ∃ x ∈ s.iq.slots, x.ix = q ∧ x.state = .issued
  sentOnce  : ∀ (p p' : PortIx) (k k' : PortSlot) (q : SlotIx), s.da.slots[p] = some k → s.da.slots[p'] = some k' →
                k.kind.forwardOwner? = some q → k'.kind.forwardOwner? = some q → p = p'
  /-- An ISSUED request is on the D-port (R9, R164). -/
  issued    : ∀ x ∈ s.iq.slots, x.state = .issued →
                ∃ (p : PortIx) (k : PortSlot), s.da.slots[p] = some k ∧ k.kind.forwardOwner? = some x.ix
  /-- A request that may still be issued lies outside the journal region (R24). -/
  fenced    : ∀ x ∈ s.iq.slots, x.state ≠ .issued → x.outcome = none → s.inRegion x.req.addr = false

/-! ## Answers (R2, R6) -/

/-- What of a slot's record never changes while the slot is occupied (R1, R5, R26). -/
def Slot.key (x : Slot) : SlotIx × Request × Nat × Option WinIx × WinKind := (x.ix, x.req, x.pos, x.win, x.kind)

/-- A request answered, with its status and the bytes returned. -/
structure Answered where
  slot   : Slot
  status : Status
  data   : List Byte
deriving DecidableEq, Repr

/-- The response it is answered with (R2). -/
def Answered.response (a : Answered) : Response :=
  { master := a.slot.req.master, tag := a.slot.req.tag, status := a.status, data := a.data }

/-- From `s` to `t` the requests of `gone` are answered, in that order, and no other request leaves its slot: each exactly
once (R2), the requests to one granule in the order they were accepted (R6). -/
structure AnswersInOrder (s t : State) (gone : List Answered) : Prop where
  responses : t.uport = s.uport ++ gone.map Answered.response
  once      : (gone.map (fun a => a.slot.key) ++ t.iq.slots.map Slot.key).Perm (s.iq.slots.map Slot.key)
  inOrder   : gone.Pairwise (fun a b => a.slot.granule = b.slot.granule → a.slot.pos < b.slot.pos)
  ahead     : ∀ a ∈ gone, ∀ y ∈ t.iq.slots, y.granule = a.slot.granule → a.slot.pos < y.pos

/-! ## Heads (R6, R7) -/

/-- Every WAITING head has been dealt with as far as R7 deals with it at once: none has a decided outcome left unanswered,
and one with nothing to capture has asked for a forward-path slot. -/
structure State.HeadsDealt (s : State) : Prop where
  answered : ∀ x ∈ s.iq.slots, x.state = .waiting → x.outcome.isSome → ¬ s.Oldest x
  asking   : ∀ x ∈ s.iq.slots, x.state = .waiting → s.Oldest x → x.outcome = none → x.needsCapture = false →
               x.ix ∈ s.da.forward

/-! ## Commands, acknowledgments and requests -/

/-- The MI takes frames (R191). -/
def State.Listens (s : State) : Prop := s.inReset = false ∧ s.noFrame = false

/-- The state with nothing changed but the outputs, which are a frame's answer (R187, R188). -/
def State.answered (s : State) (args : Nat) (status : MStatus) (response : List Byte) : State :=
  { s with uport := [], dport := [], mdo := .answer { args := args, status := status, response := response } }

/-- The command is one of the link's (12.4): its row has a frame. -/
def IsCommand (c : Instr) : Prop := (encodeFrame c).isSome ∧ ∀ code, c ≠ .unknownCommand code

/-- The statuses that the cell of a command and a bridge state holds in the second table of section 11.2. -/
def cellStatuses (c : Instr) (b : Bridge) : List MStatus :=
  match c, b with
  | .windowWrite _ _ _ _ _ _, _ | .windowRead _ _, _ | .timerSet _ _, _ | .strobeSet _ _, _ | .epochRead _ _, _
  | .eventRead _, _ => [.done, .argument]
  | .journalSetup _ _, .passthrough => [.done, .argument, .busy]
  | .journalSetup _ _, _ => [.state]
  | .retentionSet _, .rolling | .retentionSet _, .halted => [.state]
  | .retentionSet _, _ => [.done, .argument]
  | .enable _, .passthrough => [.done, .state]
  | .enable _, .closing | .enable _, .rolling => [.busy]
  | .enable _, _ => [.state]
  | .disable, .closing | .disable, .rolling => [.busy]
  | .disable, .halted => [.state]
  | .sealNow, .closing | .sealNow, .rolling => [.busy]
  | .sealNow, .passthrough | .sealNow, .halted => [.state]
  | .rollback _, .passthrough | .rollback _, .closing => [.state]
  | .rollback _, .rolling => [.busy]
  | .rollback _, .journaling => [.done, .argument, .state]
  | .rollback _, .halted => [.done, .argument]
  | .release, .halted => [.done]
  | .release, _ => [.state]
  | .armExpected _ _, .journaling => [.done, .argument]
  | .armExpected _ _, _ => [.state]
  | .signatureRead _, .passthrough => [.argument]
  | .signatureRead _, _ => [.done, .argument]
  | .unknownCommand _, _ => [.unknown]
  | _, _ => [.done]

/-- D-port slot `p` holds an unflagged request of kind `k` (R164). -/
def State.Outstanding (s : State) (p : PortIx) (k : PortKind) : Prop :=
  s.da.slots[p] = some { kind := k, discard := false }

/-- D-port slot `p` is FREE, and the DA may grant it (R164, R174). -/
def State.Grantable (s : State) (p : PortIx) : Prop := s.inReset = false ∧ s.da.slots[p] = none

/-- The U-port takes the request presented, at slot `q`, and nothing waits there before it (R4). -/
def State.Accepts (s : State) (q : SlotIx) (r : Request) : Prop :=
  s.inReset = false ∧ s.port = [] ∧ s.freeSlot? = some q ∧ formOk r = true

/-- No slot of the D-port is the rollback engine's, flagged or not (R164). -/
def State.WalkPortFree (s : State) : Prop :=
  ∀ (p : PortIx) (k : PortSlot), s.da.slots[p] = some k → k.kind ≠ .recordRead ∧ k.kind ≠ .restoreWrite

/-- The claimant has a request that may be sent (R164, R165, R166, R167). -/
def State.CanSend (s : State) (c : Claimant) : Prop :=
  match c with
  | .forwardPath => ∃ q rest x, s.da.forward = q :: rest ∧ s.slot? q = some x ∧ ¬ (x.isWrite ∧ s.tripped x.win)
  | .capturePath => ∃ r rest, s.da.capture = r :: rest ∧
      match r with
      | .oldRead q | .undoWrite q => (s.capture? q).isSome
  | .sealWriter => ∃ w rest, s.da.sealWriter = w :: rest ∧
      match w with
      | .pad _ _ _ | .openRec _ _ _ => True
      | .sealRec _ e _ => s.sealBlocked e = false
  | .rollbackEngine => s.da.rollback.isSome ∧ s.WalkPortFree

/-- The claimant next in the rotation (R166). -/
def Claimant.succ (c : Claimant) : Claimant :=
  match c with
  | .forwardPath => .capturePath
  | .capturePath => .sealWriter
  | .sealWriter => .rollbackEngine
  | .rollbackEngine => .forwardPath

/-- A grant that looks at the claimant passes it over: it has nothing that may be sent, and no forwarded request that would
be withdrawn (R166, R167). -/
def State.PassedOver (s : State) (c : Claimant) : Prop := ¬ s.CanSend c ∧ (c = .forwardPath → s.da.forward = [])

/-- A grant comes to the claimant: it is reached in the rotation after the last granted, every one before it being passed
over (R166). -/
def State.Turn (s : State) (c : Claimant) : Prop :=
  ∀ d ∈ (rotation s.da.lastGranted).takeWhile (fun d => d != c), s.PassedOver d

/-! ## Heads left to deal with (R7, R65, R66) -/

/-- `x` is a WAITING head that is still to be dealt with, and every other WAITING head has asked for a forward-path slot. -/
def State.OnlyHead (s : State) (x : Slot) : Prop :=
  x ∈ s.iq.slots ∧ x.state = .waiting ∧ s.Oldest x ∧ x.ix ∉ s.da.forward ∧
  ∀ y ∈ s.iq.slots, y.state = .waiting → s.Oldest y → y = x ∨ y.ix ∈ s.da.forward

/-- No WAITING head is left to deal with: each has asked for a forward-path slot, or stays at its capture point (R67). -/
def State.HeadsSettled (s : State) : Prop :=
  ∀ x ∈ s.iq.slots, x.state = .waiting → s.Oldest x → x.outcome = none ∧
    (x.ix ∈ s.da.forward ∨ (x.needsCapture = true ∧ x.epoch.isSome ∧ x.atPoint = true))

/-- No seal is due: the SEALING epoch's record is reserved already, or a write of it is unanswered and not HELD (R97). -/
def State.NoSealDue (s : State) : Prop :=
  ∀ e, s.sealingEntry? = some e →
    e.sealLine.isSome ∨ ∃ x ∈ s.iq.slots, x.epoch = some e.number ∧ x.state ≠ .held

/-- `y` may receive the capture duty of `x`: it is behind it in its granule order, assigned to the same epoch, marked "no
capture", with no decided outcome (R65). -/
def State.MayInherit (s : State) (x y : Slot) : Prop :=
  y ∈ s.iq.slots ∧ y.granule = x.granule ∧ x.pos < y.pos ∧ y.epoch = x.epoch ∧ y.marking = some .noCapture ∧
  y.outcome = none

/-- `y` is the first that may receive the capture duty of `x` (R65). -/
def State.HeirOf (s : State) (x y : Slot) : Prop := s.MayInherit x y ∧ ∀ z, s.MayInherit x z → y.pos ≤ z.pos

/-! ## What statements about long operations speak of -/

/-- The state with `m` on MDO. -/
def State.withAnswer (s : State) (m : Mdo) : State := { s with mdo := m }

/-- A frame with no arguments is answered DONE with no response (R187, R188). -/
def answerDone : Answer := { args := 0, status := .done, response := [] }

/-- In `s` the command `c` is a boundary request of source `src` (R90, R91, R92), and `m` is what its frame answers. -/
def State.Requests (s : State) (c : Instr) (src : Source) (m : Mdo) : Prop :=
  match c with
  | .sealNow => s.Listens ∧ src = .sealCommand ∧ m = .answer answerDone
  | .disable => s.Listens ∧ src = .disable ∧ m = .answer answerDone
  | .epochTimerExpiry => s.ec.timer = some 0 ∧ src = .timer ∧ m = .undriven
  | .epochInEdge e => s.inReset = false ∧ s.ec.strobeEnable = true ∧ s.ec.strobePolarity = e ∧ src = .strobe ∧ m = .undriven
  | _ => False

/-- What the timer holds when it starts from its full interval (R91). -/
def State.fullTimer (s : State) : Option Nat :=
  if s.ec.timerEnable then some (s.ec.timerInterval.toNat * 10) else none

/-- The active table after an armed apply has been carried out (R36, R37). -/
def State.activeNext (s : State) : Vector WinEntry 16 := if s.wu.armed then s.wu.staged else s.wu.active

/-- The entry that a fresh OPEN bank has for a window (R106, R107). -/
def WinEntry.banked (w : WinEntry) : BankEntry :=
  { kind := w.kind, action := w.action, threshold := w.quiet, acc := 0xFFFFFFFF#32, written := false, accepted := false,
    expected := none, superseded := false }

/-- From `s` to `u` an armed staged table is applied, and the OPEN bank is a fresh one filled from the active table and tied
to epoch `e`, or to none; with the arm clear no table changes and no event comes of it (R36, R37, R107). -/
def State.AppliesAndFills (s u : State) (e : Option EpochNo) : Prop :=
  u.wu.active = s.activeNext ∧ u.wu.staged = s.wu.staged ∧ u.wu.armed = false ∧ u.wu.trip = s.wu.trip ∧
  u.su.openBank.epoch = e ∧ (∀ i : WinIx, u.su.openBank.entries[i] = s.activeNext[i].banked) ∧
  (s.wu.armed = false → u.su.quiet = s.su.quiet) ∧
  (s.wu.armed = true → ∀ i : WinIx, u.su.quiet[i] =
    if s.wu.active[i] ≠ s.wu.staged[i] then { counter := 0, dormant := false } else s.su.quiet[i])

/-- No record of the table carries a number twice (R87). -/
def State.NumbersOk (s : State) : Prop := (s.ec.table.map (·.number)).Nodup

/-- From `s` to `u` epoch `e` is marked broken; a mark that stood keeps its reason (R88). -/
def State.Breaks (s u : State) (e : EpochNo) (r : Reason) : Prop :=
  ∀ y, s.entry? e = some y → y.state ≠ .sealed → u.entry? e = some { y with broken := some (y.broken.getD r) }

/-- From `s` to `u` nothing changes around the blocks' own work: the waiting port requests, the link, reset, the queue, the
staged table, the hold limit, the event mask and the time; and nothing is sent on the D-port. -/
def State.SameAround (s u : State) : Prop :=
  u.port = s.port ∧ u.inReset = s.inReset ∧ u.noFrame = s.noFrame ∧ u.pending = s.pending ∧ u.wu.staged = s.wu.staged ∧
  u.iq.holdLimit = s.iq.holdLimit ∧ u.eq.mask = s.eq.mask ∧ u.eq.time = s.eq.time ∧ u.dport = []

/-- A slot other than `q` is as it was, but for the mark that it has been examined at its capture point. -/
def State.SameOthers (s u : State) (q : SlotIx) : Prop :=
  ∀ r, r ≠ q → (u.slot? r).map Slot.reexamined = (s.slot? r).map Slot.reexamined

/-- From `s` to `u` the capture of slot `q` has ended, and its write `x` proceeds under the trip check (R10, R72). Every other
capture and slot is as it was. -/
def State.Proceeds (s u : State) (q : SlotIx) (x : Slot) : Prop :=
  u.cu = { s.cu with captures := s.cu.captures.filter (fun c => c.slot != q) } ∧ s.SameOthers u q ∧
  ∃ y, u.slot? q = some y ∧ y.key = x.key ∧ y.epoch = x.epoch ∧ y.state = .waiting ∧ y.captureEnded = true ∧
    (s.tripped x.win = true → y.outcome = some .tripped) ∧
    (s.tripped x.win = false → y.outcome = none ∧ q ∈ u.da.forward)

/-- From `s` to `u` SUSPENDED is entered with reason `r`: the OPEN epoch is broken and every SEALED epoch, which stand before
the others, is committed (R128). In SUSPENDED already, the ring and its state stay as they are (R130). -/
def State.Suspends (s u : State) (r : Reason) : Prop :=
  (s.jw.pressure = .suspended → u.jw = s.jw ∧ u.ec.table.map (·.number) = s.ec.table.map (·.number)) ∧
  (s.jw.pressure ≠ .suspended →
    u.jw = { s.jw with pressure := .suspended, reason := some r, tail := u.jw.tail } ∧
    (∀ o, s.openEntry? = some o → s.entry? o.number = some o →
      ∃ y, u.entry? o.number = some y ∧ y.broken.isSome) ∧
    (∀ old rest, s.ec.table = old ++ rest → (∀ y ∈ old, y.state = .sealed) → (∀ y ∈ rest, y.state ≠ .sealed) →
      u.ec.table.map (·.number) = rest.map (·.number) ∧
      ∀ y l, old.getLast? = some y → y.endLine = some l → u.jw.tail = l))

/-- Capture `c` of slot `q` waits for its reservation, and none asked for earlier waits (R46, log 6). -/
def State.Reserving (s : State) (q : SlotIx) (c : Capture) : Prop :=
  s.capture? q = some c ∧ c.undoLine = none ∧ ∀ d ∈ s.cu.captures, d.undoLine = none → c.asked ≤ d.asked

/-- The PAD in front of an UNDO record (R46): 0 to 4 lines. -/
def State.undoPad (s : State) : Nat := if s.ringLines - s.jw.head < 5 then s.ringLines - s.jw.head else 0

/-- The first line of the UNDO record (R46). -/
def State.undoLine (s : State) : Nat := if s.undoPad = 0 then s.jw.head else 0

/-- The head after the UNDO record (R46). -/
def State.undoHead (s : State) : Nat := (s.undoLine + 5) % s.ringLines

/-- The seal allowance (R48). -/
def State.allowance (s : State) : Nat :=
  if s.ringLines - s.undoHead < 9 then s.ringLines - s.undoHead else 0

/-- The used lines once the UNDO record is placed (R44). -/
def State.usedAfterUndo (s : State) : Nat := State.used { s with jw := { s.jw with head := s.undoHead } }

/-- A slot is as it was, but for the mark that it has been examined at its capture point. -/
def State.SameSlots (s u : State) : Prop :=
  ∀ q, (u.slot? q).map Slot.reexamined = (s.slot? q).map Slot.reexamined

/-- A HELD write. -/
def State.HeldWrite (s : State) (x : Slot) : Prop := x ∈ s.iq.slots ∧ x.state = .held ∧ x.req.dir = .write

/-- What the writes released at FINISH meet: the epochs kept are SEALED (R87), pressure is not SUSPENDED (R146), and the new
epoch's number `n` is one that no request carries (R89). -/
def State.OpensAlone (s : State) (n : EpochNo) (kept : List Entry) : Prop :=
  s.IntakeOk ∧ s.jw.pressure ≠ .suspended ∧ (∀ y ∈ s.iq.slots, y.epoch ≠ some n) ∧ ∀ y ∈ kept, y.state = .sealed

/-- From `s` to `u` a rollback to `t` has reached FINISH (R154, R155): the epochs `kept` stay, epoch `n` opens at line `o`, and
the HELD requests are released, the writes among them into `n`. -/
structure State.FinishesTo (s u : State) (t n : EpochNo) (o applied : Nat) (kept : List Entry) : Prop where
  ec       : u.ec = { s.ec with bridge := .journaling, table := u.ec.table, timer := s.fullTimer }
  re       : u.re = { s.re with target := none, phase := .idle, walkEpoch := none, walkLine := none, walkStep := none,
                                inHand := none, applied := applied }
  head     : u.jw.head = (o + 1) % s.ringLines
  opened   : ∃ y, u.entry? n = some y ∧ y.state = .opened ∧ y.openLine = some o ∧ y.undos = 0 ∧ y.lastUndo = none
  table    : kept.countP (fun y => y.state == .sealed) ≤ s.ec.retention → u.jw.tail = s.jw.tail ∧
               u.ec.table.map (·.number) = kept.map (·.number) ++ [n]
  windows  : u.wu.active = s.activeNext ∧ u.wu.armed = false ∧ u.su.openBank.epoch = some n
  ports    : u.da.forward = s.da.forward ∧ u.da.capture = s.da.capture ∧ u.da.rollback = s.da.rollback
  record   : s.holdsBack = false → u.da.sealWriter = s.da.sealWriter ++ [.openRec o n ((kept.getLast?).bind (·.openLine))]
  released : ∀ z ∈ u.iq.slots, z.state ≠ .held
  reads    : s.IntakeOk → ∀ x ∈ s.iq.slots, x.state = .held → x.req.dir = .read →
               u.slot? x.ix = some { x with state := .waiting, holdEntry := none, epoch := none, marking := none,
                                            duty := false, atPoint := false }
  writes   : s.OpensAlone n kept → ∀ x, s.HeldWrite x →
               ((∀ y, s.HeldWrite y → y.granule = x.granule → x.pos ≤ y.pos) →
                 u.slot? x.ix = some { x with state := .waiting, holdEntry := none, epoch := some n,
                                              marking := some .capture, duty := true, atPoint := false }) ∧
               ((∃ y, s.HeldWrite y ∧ y.granule = x.granule ∧ y.pos < x.pos) →
                 u.slot? x.ix = some { x with state := .waiting, holdEntry := none, epoch := some n,
                                              marking := some .noCapture, duty := false, atPoint := false })
  others   : s.OpensAlone n kept → ∀ x ∈ s.iq.slots, x.state ≠ .held → (u.slot? x.ix).map Slot.reexamined = some x.reexamined
  touched  : s.OpensAlone n kept → ∀ g, g ∈ u.cu.touched ↔ ∃ x, s.HeldWrite x ∧ x.granule = g
  accepted : s.OpensAlone n kept → ∀ i : WinIx, (u.su.openBank.entries[i]).accepted = true ↔ ∃ x, s.HeldWrite x ∧ x.win = some i
  awake    : s.IntakeOk → ∀ (i : WinIx) (x : Slot), s.HeldWrite x → x.win = some i → (u.su.quiet[i]).dormant = false
  events   : ∃ evs, u.eq = (s.eq.raiseAll evs).raise
               { code := .rollbackDone, epoch := some t,
                 arg := (BitVec.ofNat 8 s.re.discarded ++ BitVec.ofNat 24 applied : BitVec 32) }

/-! ## The epoch table (R87 to R89, R96, R97, R101, R144) -/

/-- The request is assigned to an epoch and not done with it: it is not just waiting to be answered from a decided outcome. -/
def Slot.Live (x : Slot) : Prop := x.epoch.isSome ∧ (x.outcome = none ∨ x.state ≠ .waiting)

/-- The population of the table by bridge state: SEALED epochs, then at most one SEALING epoch, then at most one OPEN (R87). -/
def State.TableShape (s : State) : Prop :=
  ∃ old mid new : List Entry, s.ec.table = old ++ mid ++ new ∧ (∀ y ∈ old, y.state = .sealed) ∧
    (∀ y ∈ mid, y.state = .sealing) ∧ (∀ y ∈ new, y.state = .opened) ∧ mid.length ≤ 1 ∧
    match s.ec.bridge with
    | .passthrough => old = [] ∧ mid = [] ∧ new = []
    | .journaling | .rolling => new.length = 1
    | .closing => mid.length = 1 ∧ new = []
    | .halted => mid = [] ∧ new.length = 1

/-- The epochs whose SEAL write is on the D-port, in the ready list or held back. -/
def State.sealWrites (s : State) : List EpochNo :=
  (s.da.slots.toList.filterMap (fun o => match o with
    | some { kind := .sealWrite _ e, discard := false } => some e
    | _ => none)) ++
  (s.da.sealWriter ++ s.da.heldSealWriter).filterMap (fun w => match w with
    | .sealRec _ e _ => some e
    | .pad _ _ _ | .openRec _ _ _ => none)

/-- The number of requests of the walk that are on the D-port, unflagged, or wait to be sent (R149). -/
def State.walkRequests (s : State) : Nat :=
  s.da.slots.toList.countP (fun o => match o with
    | some { kind := .recordRead, discard := false } | some { kind := .restoreWrite, discard := false } => true
    | _ => false) + (if s.da.rollback.isSome then 1 else 0)

/-- The SEALING epoch's seal has started: its SEAL record is reserved (R97). -/
def State.SealStarted (s : State) (e : EpochNo) : Prop :=
  ∃ y ∈ s.ec.table, y.number = e ∧ y.state = .sealing ∧ y.sealLine.isSome

/-- What holds of the epoch table and of all that refers to it. -/
structure State.TableOk (s : State) : Prop where
  few      : s.ec.table.length ≤ 64
  shape    : s.TableShape
  /-- Numbers increase in table order, counted forward from the oldest (R89). -/
  order    : ∀ first rest, s.ec.table = first :: rest →
               s.ec.table.Pairwise (fun x y => (x.number - first.number).toNat < (y.number - first.number).toNat)
  /-- At most R epochs are SEALED; in ROLLING and HALTED one more may be, or is still to be (R101, R145). -/
  depth    : if s.ec.bridge = .rolling ∨ s.ec.bridge = .halted then
               s.sealedCount + (if s.sealingEntry?.isSome then 1 else 0) ≤ s.ec.retention + 1
             else s.sealedCount ≤ s.ec.retention
  pending  : s.ec.pending = true → s.ec.bridge = .journaling ∧ s.sealingEntry?.isSome
  closing  : s.ec.closing = true → s.ec.pending = true
  phase    : s.re.phase ≠ .idle ↔ s.ec.bridge = .rolling
  target   : s.re.phase ≠ .idle → s.re.target.isSome
  /-- A request not done with its epoch is of the OPEN epoch, or of the SEALING epoch before its seal starts (R97). -/
  live     : ∀ x ∈ s.iq.slots, x.Live → ∃ y ∈ s.ec.table, x.epoch = some y.number ∧ y.state ≠ .sealed ∧ y.sealLine = none
  /-- A capture is of its request's epoch, whose OPEN record is reserved (R67, R68). -/
  capture  : ∀ c ∈ s.cu.captures, (∃ x ∈ s.iq.slots, x.ix = c.slot ∧ x.epoch = some c.epoch) ∧
               ∃ y ∈ s.ec.table, y.number = c.epoch ∧ y.openLine.isSome
  /-- One SEAL record is being written at most, that of the SEALING epoch (R97, R98). -/
  sealOnce : s.sealWrites.length ≤ 1 ∧ ∀ e ∈ s.sealWrites, s.SealStarted e
  sealJob  : (∀ y ∈ s.ec.table, y.state = .sealing → y.sealLine.isSome → ∃ job, s.jw.sealJob = some job ∧
               job.epoch = y.number ∧ y.sealLine = some job.line) ∧
             ∀ job, s.jw.sealJob = some job → s.SealStarted job.epoch
  /-- DRAIN has left no seal, no record write and no capture behind (R144), and the target stands in the table (R146). -/
  walk     : s.re.phase = .walk → s.sealingEntry? = none ∧ (∃ y ∈ s.ec.table, s.re.target = some y.number) ∧
               ∀ x ∈ s.iq.slots, x.Live → x.state = .held
  /-- The walk has one request out at a time, and none is out without a walk (R149). -/
  walking  : s.walkRequests ≤ 1 ∧ (s.walkRequests = 1 → s.re.phase = .walk)
  /-- The rollback engine holds at most one slot of the D-port, flagged or not (R164). -/
  walkPort : s.da.slots.toList.countP (fun o => o.any (fun k => decide (k.kind = .recordRead ∨ k.kind = .restoreWrite))) ≤ 1
  quiet    : s.re.phase = .walk ∨ s.ec.bridge = .halted → s.recordWriteLeft = false ∧ s.cu.captures = []
  /-- Outside JOURNALING, CLOSING and ROLLING no request is assigned and undecided (R14, R15, R20). -/
  done     : s.ec.bridge = .passthrough ∨ s.ec.bridge = .halted → ∀ x ∈ s.iq.slots, ¬ x.Live

/-! ## The ring (R44, R45, R48, R49) -/

/-- The extents of the entries lie end to end from line `a` to head: each begins where the one before ends, an entry without an
end line reaches to head, and one without an open line is empty (R45). -/
def ExtentsFrom (head : Nat) : Nat → List Entry → Prop
  | a, [] => a = head
  | a, y :: rest =>
    match y.openLine with
    | none => a = head ∧ rest = []
    | some l => l = a ∧ ExtentsFrom head (y.endLine.getD head) rest

/-- The number of lines of an entry's extent (R45). -/
def State.extent (s : State) (y : Entry) : Nat :=
  match y.openLine with
  | none => 0
  | some l => s.lineDist l (y.endLine.getD s.jw.head)

/-- The seal allowance at head as it stands (R48). -/
def State.allowanceNow (s : State) : Nat := if s.ringLines - s.jw.head < 9 then s.ringLines - s.jw.head else 0

/-- What holds of the ring and of the line fields of the table. -/
structure State.RingOk (s : State) : Prop where
  region  : (∀ g, s.jw.region = some g → 16 ≤ g.pages) ∧ (s.ec.bridge ≠ .passthrough → s.jw.region.isSome)
  /-- Head and tail are lines of the ring, so that used stays below the ring lines (R44). -/
  inside  : if s.jw.region = none then s.jw.head = 0 ∧ s.jw.tail = 0
            else s.jw.head < s.ringLines ∧ s.jw.tail < s.ringLines
  lines   : ∀ y ∈ s.ec.table, (∀ l, y.openLine = some l → l < s.ringLines) ∧ (∀ l, y.lastUndo = some l → l < s.ringLines) ∧
              (∀ l, y.sealLine = some l → l < s.ringLines) ∧ (∀ l, y.endLine = some l → l < s.ringLines)
  /-- Which line fields are present (R45, R87). -/
  present : ∀ y ∈ s.ec.table, match y.state with
              | .sealed => y.openLine.isSome ∧ y.sealLine.isSome ∧ y.endLine.isSome ∧ y.sigs.isSome
              | .sealing => y.openLine.isSome ∧ y.endLine = none
              | .opened => y.sealLine = none ∧ y.endLine = none ∧ (y.openLine = none ↔ s.sealingEntry?.isSome) ∧
                  (y.openLine = none → y.lastUndo = none)
  /-- The lines from tail to head are exactly the extents of the table's epochs, end to end, and none overruns another (R45). -/
  extents : ExtentsFrom s.jw.head s.jw.tail s.ec.table
  used    : (s.ec.table.map s.extent).sum = s.used
  nonempty : ∀ y ∈ s.ec.table, y.openLine.isSome → 1 ≤ s.extent y
  /-- Between its reservation and its acknowledgment a SEAL record is the last of the ring (R97, R98). -/
  after   : ∀ job, s.jw.sealJob = some job → job.after = s.jw.head
  /-- After an UNDO reservation ten lines and the seal allowance stay free for the epoch's SEAL (R48). -/
  reserve : ∀ y ∈ s.ec.table, y.state ≠ .sealed → y.sealLine = none → y.lastUndo.isSome → 10 + s.allowanceNow ≤ s.free
  /-- An epoch with no UNDO record is one line long until its seal (R49). -/
  short   : ∀ y ∈ s.ec.table, y.state ≠ .sealed → y.sealLine = none → y.openLine.isSome → y.lastUndo = none → s.extent y = 1

/-! ## The write-ahead law (R64, R65) -/

/-- Of an epoch in the table that is not marked broken, no request is on its way downstream, or asks to be, that still has a
record to wait for; and a capture that has ended has discharged the duty. -/
structure State.AheadOk (s : State) : Prop where
  duty  : ∀ x ∈ s.iq.slots, x.duty = true → x.marking = some .capture ∧ x.epoch.isSome
  sent  : ∀ x ∈ s.iq.slots, x.ix ∈ s.da.forward ∨ x.state = .issued → ∀ y ∈ s.ec.table, x.epoch = some y.number →
            y.broken = none → x.needsCapture = false ∧ x.duty = false
  ended : ∀ x ∈ s.iq.slots, x.captureEnded = true → x.outcome = none → ∀ y ∈ s.ec.table, x.epoch = some y.number →
            y.broken = none → x.duty = false

/-- What holds of the epochs, the ring and the write-ahead law at every moment. -/
structure State.EpochsOk (s : State) : Prop where
  table : s.TableOk
  ring  : s.RingOk
  ahead : s.AheadOk

/-- The next epoch number is none of the table's: fewer than 2^32 have been given out since the oldest entry was opened
(R89). -/
def State.NumberLeft (s : State) : Prop := ∀ y ∈ s.ec.table, y.number ≠ s.nextNumber

/-! ## The whole -/

/-- What holds of the bridge at every moment. -/
structure State.Ok (s : State) : Prop where
  events   : s.eq.Ok
  touched  : s.cu.TouchedOk
  pressure : s.jw.PressureOk
  ranges   : s.RangesOk
  intake   : s.IntakeOk

end Sys2Proof.Machine
end

