-- ==== Sys2Proof/WellFormed.lean ====
section
/-! DEFINITION. Which terms of `Instr` stand for an event that can occur: a request whose data and mask agree with its
length (R1), an acknowledgment whose data have the length its row's request asked for (R162, R163), a frame that did end
early (R189), a command byte that names no command (R190). Management arguments are never ill-formed: a bad one is
answered ARGUMENT. -/
namespace Sys2Proof

/-- A READ carries no data and no mask, a WRITE length bytes of each (R1). -/
def Request.wf (r : Request) : Bool :=
  match r.dir with
  | .read => r.data.isEmpty && r.mask.isEmpty
  | .write => r.data.length == r.length && r.mask.length == r.length

/-- An OK result carries exactly `n` bytes; ERROR carries none (R162). -/
def AckResult.wf (n : Nat) (res : AckResult) : Bool :=
  match res with
  | .ok data => data.length == n
  | .error => true

/-- The check of one command. -/
def Instr.wf (c : Instr) : Bool :=
  match c with
  | .uportRequest r => r.wf
  | .forwardedAck _ (.ok data) => data.length ≤ 64
  | .forwardedAck _ .error => true
  | .oldGranuleReadAck _ res => res.wf 64
  | .recordReadAck _ res => res.wf 80
  | .undoWriteAck _ res | .padWriteAck _ res | .sealWriteAck _ res | .openWriteAck _ res
  | .restoreWriteAck _ res => res.wf 0
  | .frameEndedEarly bytes => decodeFrame bytes == .early
  | .unknownCommand code => argCount code == none
  | .daGrant _ | .undoReservation _ | .discardedAck _ _ | .strayAck _ _ | .holdLimitReached _ | .epochTimerExpiry
  | .epochInEdge _ | .powerOnReset | .resetEnd _ | .statusRead | .windowWrite _ _ _ _ _ _ | .windowRead _ _
  | .apply | .applyCancel | .clearTrip _ | .journalSetup _ _ | .retentionSet _ | .timerSet _ _ | .strobeSet _ _
  | .holdLimitSet _ | .enable _ | .disable | .sealNow | .rollback _ | .release | .journalReset | .armExpected _ _
  | .epochRead _ _ | .signatureRead _ | .eventRead _ | .eventMaskSet _ | .clearCounters => true

end Sys2Proof
end

