-- ==== Sys2Proof/Certificates/Slice0/Obligations.lean ====
section
/-! DEFINITION. The statements for the provers. Where an action has consequences beyond its own effect (heads dealt with, a
seal that starts, a DRAIN that ends), the conclusion names the state that the effect itself leaves and applies
`State.settle` to it. -/

open Sys2Proof Sys2Proof.Machine

/-! ## The queue, time and reset -/

/-- A step takes the command at the front of the queue and runs it on the state with the queue's rest. -/
def Obligations.StepTakesFrontCommand : Prop :=
  ∀ (c : Instr) (rest : List Instr) (s : State), s.pending = c :: rest → step s = exec c { s with pending := rest }

/-- With an empty queue, out of reset and with no request that the U-port could take, a step is one microsecond: the
timestamp counter and the running epoch timer count it, the expiries that come due join the queue, and nothing else changes.
Where a request waits at the U-port and a slot is FREE, the step takes the one that has waited longest, as UPORT_REQUEST takes it
with nothing waiting, and the others keep waiting. That the idle step is the microsecond is the model's choice (log 1), as are the
order of the expiries (log 20) and that of the requests that wait (log 3). -/
def Obligations.IdleStepIsAMicrosecond : Prop :=
  (∀ (s : State) (r : Request) (rest : List Request), s.pending = [] → s.inReset = false → s.port = r :: rest →
    s.freeSlot?.isSome →
    ∃ t : State, exec (.uportRequest r) { s with port := [] } = .next t ∧ step s = .next { t with port := rest }) ∧
  (∀ s : State, s.pending = [] → s.inReset = false → (s.port = [] ∨ s.freeSlot? = none) →
    step s = .next
      { s with
        uport := []
        dport := []
        mdo := .undriven
        eq := { s.eq with time := s.eq.time + 1#32 }
        ec := { s.ec with timer := s.ec.timer.map (fun n => n - 1) }
        pending :=
          ((s.iq.slots.filter (fun x => decide (x.state = .held ∧ s.iq.holdLimit ≠ 0#16 ∧
              s.iq.holdLimit.toNat ≤ ((s.eq.time + 1#32) - x.holdEntry.getD (s.eq.time + 1#32)).toNat))).map
            (fun x => Instr.holdLimitReached x.ix))
          ++ (if s.ec.timer = some 0 ∨ s.ec.timer = some 1 then [Instr.epochTimerExpiry] else []) })

/-- Every setting, counter, flag, table and queue right after reset. The last eight values, from the position given to the first
request on, are the model's choices (logs 3, 5, 7, 8). -/
def Obligations.ResetValues : Prop :=
  (∀ i : WinIx, State.reset.wu.active[i] =
      { kind := .off, base := 0#26, mask := 0#26, readFence := false, quiet := 0#8, action := .report }) ∧
  (∀ i : WinIx, State.reset.wu.staged[i] = State.reset.wu.active[i]) ∧
  State.reset.wu.trip = 0#16 ∧ State.reset.wu.armed = false ∧
  State.reset.iq.slots = [] ∧ State.reset.iq.holdLimit = 0#16 ∧
  State.reset.cu.touched = [] ∧ State.reset.cu.captures = [] ∧
  State.reset.jw.region = none ∧ State.reset.ringLines = 0 ∧ State.reset.jw.head = 0 ∧ State.reset.jw.tail = 0 ∧
  State.reset.jw.pressure = .normal ∧ State.reset.jw.reason = none ∧
  State.reset.ec.bridge = .passthrough ∧ State.reset.ec.table = [] ∧ State.reset.ec.pending = false ∧
  State.reset.ec.closing = false ∧ State.reset.ec.merged = 0 ∧ State.reset.ec.retention = 8 ∧
  State.reset.ec.timerInterval = 1000#16 ∧ State.reset.ec.timerEnable = false ∧ State.reset.ec.timer = none ∧
  State.reset.ec.strobeEnable = false ∧ State.reset.ec.strobePolarity = .rising ∧
  (∀ i : WinIx, State.reset.su.openBank.entries[i] =
      { kind := .off, action := .report, threshold := 0#8, acc := 0xFFFFFFFF#32, written := false, accepted := false,
        expected := none, superseded := false }) ∧
  State.reset.su.openBank.epoch = none ∧ State.reset.su.sealingBank = State.reset.su.openBank ∧
  (∀ i : WinIx, State.reset.su.quiet[i] = { counter := 0, dormant := false }) ∧
  State.reset.re.target = none ∧ State.reset.re.phase = .idle ∧ State.reset.re.walkEpoch = none ∧
  State.reset.re.walkLine = none ∧ State.reset.re.walkStep = none ∧ State.reset.re.inHand = none ∧
  State.reset.re.applied = 0 ∧ State.reset.re.discarded = 0 ∧ State.reset.re.failures = 0 ∧ State.reset.re.reach = none ∧
  (∀ p : PortIx, State.reset.da.slots[p] = none) ∧ State.reset.da.forward = [] ∧ State.reset.da.capture = [] ∧
  State.reset.da.sealWriter = [] ∧ State.reset.da.rollback = none ∧ State.reset.da.lastGranted = .rollbackEngine ∧
  State.reset.eq.records = [] ∧ State.reset.eq.seq = 0#16 ∧ State.reset.eq.lost = 0 ∧ State.reset.eq.mask = 0#8 ∧
  State.reset.eq.time = 0#32 ∧ State.reset.eq.evtN = true ∧
  State.reset.jw.sealJob = none ∧ State.reset.da.heldCapture = [] ∧ State.reset.da.heldSealWriter = [] ∧
  State.reset.iq.nextPos = 0 ∧ State.reset.port = [] ∧ State.reset.inReset = false ∧ State.reset.noFrame = false ∧
  State.reset.uport = [] ∧ State.reset.dport = [] ∧ State.reset.mdo = .undriven ∧ State.reset.pending = []

/-- POWER_ON_RESET gives every block its reset values whatever it held, and puts reset in force; RESET_END ends it, and with MCS_N
low the bytes before its next rise are no frame and read 00h on MDO. While reset is in force no command is taken and none
answered, MDO is not driven, no request is granted, no edge counts, time stands, and a request presented waits at the port. That
the masters' waiting requests and the queue stay over the reset is the model's choice (log 3), as is that RESET_END outside reset
changes nothing (log 2). -/
def Obligations.Reset : Prop :=
  ((∀ s : State, exec .powerOnReset s = .next { State.reset with inReset := true, port := s.port, pending := s.pending }) ∧
    (∀ (s : State) (mcsLow : Bool), s.inReset = true →
      exec (.resetEnd mcsLow) s =
        .next { s with inReset := false, noFrame := mcsLow, uport := [], dport := [],
                       mdo := if mcsLow then .zeros else .undriven }) ∧
    (∀ (s : State) (mcsLow : Bool), s.inReset = false →
      exec (.resetEnd mcsLow) s = .next { s with uport := [], dport := [], mdo := .undriven })) ∧
  (∀ s : State, s.inReset = true →
      (∀ c : Instr, (encodeFrame c).isSome → exec c s = .next s.begin) ∧
      (∀ bytes, exec (.frameEndedEarly bytes) s = .next s.begin) ∧
      (∀ p, exec (.daGrant p) s = .next s.begin) ∧
      (∀ e, exec (.epochInEdge e) s = .next s.begin) ∧
      (s.pending = [] → step s = .next s.begin) ∧
      (∀ r, s.iq.slots = [] → s.ec.table = [] → s.re.phase = .idle →
        exec (.uportRequest r) s = .next { s.begin with port := s.port ++ [r] }))

/-! ## The management link -/

/-- A frame that ends before its command is taken has no effect, and reads 00h; one whose command byte names no command is answered
UNKNOWN two bytes on, with no effect; and the frame that a reset cut into is no frame, and reads 00h (R189, R190, R191). That the
row standing for such a frame, or for one that ends early, is also its end, after which frames are taken again, is the model's
reading (log 10). -/
def Obligations.FramesWithoutACommand : Prop :=
  ∀ s : State, s.inReset = false →
    (∀ bytes, exec (.frameEndedEarly bytes) s = .next { s.begin with noFrame := false, mdo := .zeros }) ∧
    (∀ code, s.noFrame = false → exec (.unknownCommand code) s = .next (s.answered 0 .unknown [])) ∧
    (∀ c : Instr, (encodeFrame c).isSome → s.noFrame = true →
      exec c s = .next { s.begin with noFrame := false, mdo := .zeros })

/-- A command answered BUSY, STATE, ARGUMENT or UNKNOWN changes no state, raises no event and has no response. -/
def Obligations.RefusedCommandChangesNothing : Prop :=
  ∀ (c : Instr) (s : State), (encodeFrame c).isSome → s.Listens →
    ∃ t a, exec c s = .next t ∧ t.mdo = .answer a ∧
      (a.status = .done ∨ (t = { s with uport := [], dport := [], mdo := .answer a } ∧ a.response = []))

/-- Each command is taken in every bridge state, and answered with a status of its cell in the table of section 11.2. -/
def Obligations.StatusByBridgeState : Prop :=
  ∀ (c : Instr) (s : State), (encodeFrame c).isSome → s.Listens → (s.ec.bridge = .passthrough → s.ec.table = []) →
    ∃ t a, exec c s = .next t ∧ t.mdo = .answer a ∧ a.status ∈ cellStatuses c s.ec.bridge

/-- A frame of the command byte and the argument bytes of 12.4, whatever bytes follow them, is taken as that command with
every argument as it was: no bit of an argument is dropped. -/
def Obligations.FrameRoundTrip : Prop :=
  ∀ (c : Instr) (bytes extra : List Byte), IsCommand c → encodeFrame c = some bytes →
    decodeFrame (bytes ++ extra) = .taken c

/-- Bytes travel most significant bit first, and a byte left incomplete is dropped. A frame that ends anywhere before its last
argument byte is complete is no command, and frames written out from 12.4 are read as the commands they spell. -/
def Obligations.FramesRead : Prop :=
  (∀ (c : Instr) (bytes : List Byte) (n : Nat), IsCommand c → encodeFrame c = some bytes → n < bytes.length →
      decodeFrame (bytes.take n) = .early) ∧
  (∀ (bytes : List Byte) (part : List Bool), part.length < 8 →
      bytesOfBits (bytes.flatMap (fun b => (List.range 8).map (fun k => b.getLsbD (7 - k))) ++ part) = bytes) ∧
  (decodeFrame [0x01#8] = .taken .statusRead ∧
    decodeFrame [0x10#8, 0x03#8, 0x04#8, 0x00#8, 0x00#8, 0x01#8, 0x00#8, 0xF0#8, 0xFF#8, 0xFF#8, 0x03#8, 0x01#8, 0x07#8] =
      .taken (.windowWrite 3#8 4#8 0x00010000#32 0x03FFFFF0#32 1#8 7#8) ∧
    decodeFrame [0x20#8, 0x00#8, 0x00#8, 0x04#8, 0x00#8, 0x10#8, 0x00#8, 0x00#8, 0x00#8] =
      .taken (.journalSetup 0x00040000#32 16#32) ∧
    decodeFrame [0x22#8, 0x2C#8, 0x01#8, 0x01#8] = .taken (.timerSet 300#16 1#8) ∧
    decodeFrame [0x33#8, 0x1F#8, 0x00#8, 0x00#8, 0x00#8, 0xAA#8] = .taken (.rollback 31#32) ∧
    decodeFrame [0x50#8, 0x02#8] = .taken (.eventRead 2#8) ∧
    decodeFrame [0x50#8] = .early ∧
    decodeFrame [0xFF#8, 0x01#8] = .unknown 0xFF#8 ∧
    decodeFrame [0x00#8] = .unknown 0x00#8)

/-- The answer's bytes on MDO: 00h up to and with the turnaround, the status byte at position a + 2, the response bytes from
a + 3, and 00h after them; no status is encoded as 00h; each byte travels most significant bit first. Bytes that carry no
answer read 00h, and outside them MDO is not driven. -/
def Obligations.AnswerPositions : Prop :=
  ∀ a : Answer,
    (∀ k, k ≤ a.args + 1 → a.byteAt k = 0x00#8) ∧
    a.byteAt (a.args + 2) = (match a.status with
      | .done => 0x01#8
      | .busy => 0x02#8
      | .state => 0x03#8
      | .argument => 0x04#8
      | .unknown => 0x05#8) ∧
    (∀ j b, a.response[j]? = some b → a.byteAt (a.args + 3 + j) = b) ∧
    (∀ j, a.response.length ≤ j → a.byteAt (a.args + 3 + j) = 0x00#8) ∧
    (∀ k j, j < 8 → a.bitAt (8 * k + j) = (a.byteAt k).getLsbD (7 - j)) ∧
    (∀ k, (Mdo.answer a).byteAt k = some (a.byteAt k) ∧ Mdo.zeros.byteAt k = some 0x00#8 ∧ Mdo.undriven.byteAt k = none)

/-! ## Window tables -/

/-- WINDOW WRITE with valid arguments replaces one staged entry by the fields given, and nothing else; in each case of R33 it
is answered ARGUMENT and the staged entry is unchanged. Neither what the window overlaps nor a quiet threshold makes it refuse.
A frame that ends before the twelve bytes are complete has no effect, and reads 00h. -/
def Obligations.WindowWrite : Prop :=
  (∀ (s : State) (ix kind : Byte) (base mask : Word32) (flags quiet : Byte), s.Listens →
    ((15 < ix.toNat ∨ 4 < kind.toNat ∨ 2 ^ 26 ≤ base.toNat ∨ 2 ^ 26 ≤ mask.toNat ∨
        (flags.getLsbD 0 = true ∧ kind ≠ 4#8) ∨ (flags.getLsbD 1 = true ∧ kind ≠ 3#8)) →
      exec (.windowWrite ix kind base mask flags quiet) s = .next (s.answered 12 .argument [])) ∧
    (¬ (15 < ix.toNat ∨ 4 < kind.toNat ∨ 2 ^ 26 ≤ base.toNat ∨ 2 ^ 26 ≤ mask.toNat ∨
        (flags.getLsbD 0 = true ∧ kind ≠ 4#8) ∨ (flags.getLsbD 1 = true ∧ kind ≠ 3#8)) →
      ∃ (i : WinIx) (w : WinEntry), i.val = ix.toNat ∧ w.kind.code = kind.toNat ∧ w.base.toNat = base.toNat ∧
        w.mask.toNat = mask.toNat ∧ w.readFence = flags.getLsbD 0 ∧ w.quiet = quiet ∧
        (w.action = .trip ↔ flags.getLsbD 1 = true) ∧
        exec (.windowWrite ix kind base mask flags quiet) s =
          .next ({ s with wu := { s.wu with staged := s.wu.staged.set i w } }.answered 12 .done []))) ∧
  (∀ args : List Byte, args.length < 12 → decodeFrame (0x10#8 :: args) = .early) ∧
  (∀ (s : State) (bytes : List Byte), s.Listens → exec (.frameEndedEarly bytes) s = .next { s.begin with mdo := .zeros })

/-- WINDOW READ gives the entry's six fields in WINDOW WRITE's layout, the trip flag of the index when ACTIVE was selected and
00h when STAGED was, and the apply-armed flag; ARGUMENT for another selector or an index above 15. It changes no state. -/
def Obligations.WindowRead : Prop :=
  ∀ (s : State) (sel ix : Byte), s.Listens →
    ((1 < sel.toNat ∨ 15 < ix.toNat) → exec (.windowRead sel ix) s = .next (s.answered 2 .argument [])) ∧
    (∀ i : WinIx, i.val = ix.toNat → sel.toNat ≤ 1 →
      let w := if sel = 0#8 then s.wu.active[i] else s.wu.staged[i]
      exec (.windowRead sel ix) s = .next (s.answered 2 .done
        [ix, BitVec.ofNat 8 w.kind.code,
         w.base.extractLsb' 0 8, w.base.extractLsb' 8 8, w.base.extractLsb' 16 8, (w.base.extractLsb' 24 2).setWidth 8,
         w.mask.extractLsb' 0 8, w.mask.extractLsb' 8 8, w.mask.extractLsb' 16 8, (w.mask.extractLsb' 24 2).setWidth 8,
         BitVec.ofNat 8 ((if w.readFence then 1 else 0) + (if w.action = .trip then 2 else 0)), w.quiet,
         if sel = 0#8 ∧ s.wu.trip.getLsbD i.val = true then 1#8 else 0#8,
         if s.wu.armed then 1#8 else 0#8]))

/-- What WINDOW WRITE has written, WINDOW READ of the staged table returns byte for byte, but for bits 2 to 7 of the flags
byte, which it returns as zero (R202). -/
def Obligations.WindowWriteThenRead : Prop :=
  ∀ (s t : State) (a : Answer) (ix kind : Byte) (base mask : Word32) (flags quiet : Byte), s.Listens →
    exec (.windowWrite ix kind base mask flags quiet) s = .next t → t.mdo = .answer a → a.status = .done →
    exec (.windowRead 1#8 ix) t = .next (t.answered 2 .done
      ([ix, kind] ++ bytes32 base ++ bytes32 mask ++ [flags &&& 3#8, quiet, 0#8, if s.wu.armed then 1#8 else 0#8]))

/-- APPLY: in PASSTHROUGH the staged table becomes the active one at once, the arm is left clear, each window whose entry
changed becomes ACTIVE with counter 0 and is superseded in the SEALING bank, and TABLE-APPLIED is raised with the changed set
and no epoch number; in every other bridge state the arm is set and nothing else changes. -/
def Obligations.Apply : Prop :=
  (∀ s : State, s.Listens → s.ec.bridge ≠ .passthrough →
    exec .apply s = .next ({ s with wu := { s.wu with armed := true } }.answered 0 .done [])) ∧
  (∀ s : State, s.Listens → s.ec.bridge = .passthrough →
    ∃ (u : SignatureUnit) (changed : BitVec 16),
      (∀ i : WinIx, changed.getLsbD i.val = true ↔ s.wu.active[i] ≠ s.wu.staged[i]) ∧
      u.openBank = s.su.openBank ∧ u.sealingBank.epoch = s.su.sealingBank.epoch ∧
      (∀ i : WinIx, u.quiet[i] = if s.wu.active[i] ≠ s.wu.staged[i] then { counter := 0, dormant := false }
                                 else s.su.quiet[i]) ∧
      (∀ i : WinIx, u.sealingBank.entries[i] =
        if s.wu.active[i] ≠ s.wu.staged[i] then { s.su.sealingBank.entries[i] with superseded := true }
        else s.su.sealingBank.entries[i]) ∧
      exec .apply s = .next
        ({ s with
           wu := { s.wu with active := s.wu.staged, armed := false }
           su := u
           eq := s.eq.raise { code := .tableApplied, arg := changed.setWidth 32 } }.answered 0 .done []))

/-- APPLY CANCEL clears the arm, is answered DONE in every bridge state, and changes nothing else, neither table; with the arm
clear it has no effect, and APPLY arms the staged entries again. Where the arm would be applied after it, nothing is applied;
where the arm was applied first, the cancel finds it clear. -/
def Obligations.ApplyCancel : Prop :=
  (∀ s : State, s.Listens → exec .applyCancel s = .next ({ s with wu := { s.wu with armed := false } }.answered 0 .done [])) ∧
  (∀ s : State, s.Listens → s.wu.armed = false → exec .applyCancel s = .next (s.answered 0 .done [])) ∧
  (∀ (s : State) (e : Option EpochNo), s.wu.armed = false → s.applyArmed e = s) ∧
  (∀ (s : State) (e : Option EpochNo), s.wu.armed = true →
    (s.applyArmed e).wu.active = s.wu.staged ∧ (s.applyArmed e).wu.staged = s.wu.staged ∧
    (s.applyArmed e).wu.armed = false ∧
    ∃ arg, (s.applyArmed e).eq = s.eq.raise { code := .tableApplied, epoch := e, arg := arg }) ∧
  (∀ s t : State, s.Listens → s.ec.bridge ≠ .passthrough → exec .applyCancel s = .next t →
    ∃ u, exec .apply t = .next u ∧ u.wu = { s.wu with armed := true })

/-! ## Classification -/

/-- An address matches an entry when the kind is not OFF and it agrees with the base in every bit the mask selects; bits 0 to
11 take no part, and an empty mask matches every address. The lowest matching index classifies the request with its kind; with
no match the request has no window index and kind PASS. -/
def Obligations.WindowMatching : Prop :=
  (∀ (w : WinEntry) (a : Addr), w.covers a = true ↔
    w.kind ≠ .off ∧ ∀ j, j < 26 → w.mask.getLsbD j = true → a.getLsbD (12 + j) = w.base.getLsbD j) ∧
  (∀ (w : WinEntry) (a b : Addr), (∀ j, 12 ≤ j → a.getLsbD j = b.getLsbD j) → w.covers a = w.covers b) ∧
  (∀ (w : WinEntry) (a : Addr), w.kind ≠ .off → w.mask = 0#26 → w.covers a = true) ∧
  (∀ (s : State) (r : Request) (i : WinIx), s.inRegion r.addr = false →
    s.wu.active[i].covers r.addr = true → (∀ j : WinIx, j < i → s.wu.active[j].covers r.addr = false) →
    (s.classify r).1 = some i ∧ (s.classify r).2.1 = s.wu.active[i].kind) ∧
  (∀ (s : State) (r : Request), (∀ i : WinIx, s.wu.active[i].covers r.addr = false) →
    (s.classify r).1 = none ∧ (s.classify r).2.1 = .pass)

/-- The journal-region guard comes first: a request inside the region has no window index and kind PASS and is decided FENCED with
a FENCE-HIT, whatever the active table and the trip flags hold; an unset region contains nothing. Outside it FENCE refuses writes,
and reads when the read fence is set, each with a FENCE-HIT; a set trip flag refuses the writes of every other kind with a
TRIPPED-WRITE; reads never meet a trip flag; a request that no window matches meets none. Nothing else is decided, and then no
event is raised. -/
def Obligations.DecisionsAtAcceptance : Prop :=
  ((∀ (s : State) (g : Region) (r : Request), s.jw.region = some g →
      (s.inRegion r.addr = true ↔ g.base * 4096 ≤ r.addr.toNat ∧ r.addr.toNat < (g.base + g.pages) * 4096)) ∧
    (∀ (s : State) (a : Addr), s.jw.region = none → s.inRegion a = false) ∧
    (∀ (s : State) (r : Request), s.inRegion r.addr = true →
      s.classify r = (none, .pass, some (.fenced, .fenceHit)) ∧
      s.classifyEvent r = some { code := .fenceHit, master := some r.master,
                                 arg := BitVec.ofNat 32 (r.addr.toNat / 4096) })) ∧
  (∀ (s : State) (r : Request) (i : WinIx), s.inRegion r.addr = false → (s.classify r).1 = some i →
      (s.wu.active[i].kind = .fence → (r.dir = .write ∨ s.wu.active[i].readFence = true) →
        s.classifyEvent r = some { code := .fenceHit, win := some i, master := some r.master,
                                   arg := BitVec.ofNat 32 (r.addr.toNat / 4096) } ∧
        (s.classify r).2.2 = some (.fenced, .fenceHit)) ∧
      (s.wu.active[i].kind = .fence → r.dir = .read → s.wu.active[i].readFence = false →
        (s.classify r).2.2 = none ∧ s.classifyEvent r = none) ∧
      (s.wu.active[i].kind ≠ .fence → r.dir = .write → s.wu.trip.getLsbD i.val = true →
        s.classifyEvent r = some { code := .trippedWrite, win := some i, master := some r.master,
                                   arg := BitVec.ofNat 32 (r.addr.toNat / 4096) } ∧
        (s.classify r).2.2 = some (.tripped, .trippedWrite)) ∧
      (s.wu.active[i].kind ≠ .fence → (r.dir = .read ∨ s.wu.trip.getLsbD i.val = false) →
        (s.classify r).2.2 = none ∧ s.classifyEvent r = none)) ∧
  (∀ (s : State) (r : Request), s.inRegion r.addr = false → (s.classify r).1 = none →
      (s.classify r).2.2 = none ∧ s.classifyEvent r = none)

/-! ## The U-port and the Intake Queue -/

/-- A request that fails the form check is answered MALFORMED at once, straight from the U-port, whatever windows and region
say: it takes no slot and no position and raises no event. While all 16 slots are occupied no request is taken, and the request
waits at the port (the waiting list itself is the model's choice, log 3). -/
def Obligations.MalformedAndBackPressure : Prop :=
  (∀ (s : State) (q : SlotIx) (r : Request), s.inReset = false → s.port = [] → s.freeSlot? = some q →
    (r.length = 0 ∨ 64 < r.length ∨ 64 < r.addr.toNat % 64 + r.length ∨ (r.dir = .write ∧ ∀ b ∈ r.mask, b = false)) →
    exec (.uportRequest r) s = .next (State.settle
      { s with uport := [{ master := r.master, tag := r.tag, status := .malformed, data := [] }], dport := [],
               mdo := .undriven })) ∧
  (∀ (s : State) (r : Request), s.freeSlot? = none →
    exec (.uportRequest r) s = .next (State.settle
      { s with port := s.port ++ [r], uport := [], dport := [], mdo := .undriven }))

/-- A request whose kind is not JOURNAL or GUARD, or that is served as PASS traffic in PASSTHROUGH, or a JOURNAL or GUARD READ in
JOURNALING or CLOSING, or one with a decided outcome where no write is assigned: accepted WAITING at the tail, with the next
position, its classification and any decided outcome, with no epoch assignment and no marking; its only event is that of its
decision. A JOURNAL or GUARD request with no decided outcome, a WRITE in CLOSING or any in ROLLING, is HELD at acceptance with the
timestamp as its hold entry time and no epoch assignment; in HALTED it is decided HALTED. -/
def Obligations.AcceptedOutsideAnEpoch : Prop :=
  (∀ (s : State) (q : SlotIx) (r : Request), s.Accepts q r →
      ((s.classify r).2.1.journaled = false ∨ s.ec.bridge = .passthrough ∨
        (r.dir = .read ∧ (s.ec.bridge = .journaling ∨ s.ec.bridge = .closing)) ∨
        ((s.classify r).2.2.isSome ∧ (s.ec.bridge ≠ .journaling ∨ r.dir = .read))) →
      exec (.uportRequest r) s = .next (State.settle
        { s with
          uport := []
          dport := []
          mdo := .undriven
          iq := { s.iq with
            slots := s.iq.slots ++
              [{ ix := q, req := r, state := .waiting, pos := s.iq.nextPos, win := (s.classify r).1,
                 kind := (s.classify r).2.1, epoch := none, marking := none, holdEntry := none,
                 outcome := (s.classify r).2.2.map (fun d => d.1), duty := false, captureEnded := false, atPoint := false }]
            nextPos := s.iq.nextPos + 1 }
          eq := match s.classifyEvent r with
            | none => s.eq
            | some e => s.eq.raise e })) ∧
  (∀ (s : State) (q : SlotIx) (r : Request), s.Accepts q r → (s.classify r).2.1.journaled = true →
      (s.classify r).2.2 = none →
      let taken := fun (state : SlotState) (entry : Option Time) (outcome : Option Decided) =>
        ({ s with
           uport := []
           dport := []
           mdo := .undriven
           iq := { s.iq with
             slots := s.iq.slots ++
               [{ ix := q, req := r, state := state, pos := s.iq.nextPos, win := (s.classify r).1,
                  kind := (s.classify r).2.1, epoch := none, marking := none, holdEntry := entry, outcome := outcome,
                  duty := false, captureEnded := false, atPoint := false }]
             nextPos := s.iq.nextPos + 1 } } : State)
      ((s.ec.bridge = .rolling ∨ (s.ec.bridge = .closing ∧ r.dir = .write)) →
        exec (.uportRequest r) s = .next (taken .held (some s.eq.time) none).settle) ∧
      (s.ec.bridge = .halted → exec (.uportRequest r) s = .next (taken .waiting none (some .halted)).settle))

/-- A JOURNAL or GUARD write with no decided outcome accepted in JOURNALING, the OPEN epoch unbroken and pressure not SUSPENDED:
assigned to the OPEN epoch and looked up. Its granule absent from a set that is not full: "capture" with the capture duty, and the
granule joins. Its granule absent from a full set: "capture, DUP-POSSIBLE" without a duty, the set is unchanged, the overflow is
counted, and the first of the epoch raises TOUCHED-OVERFLOW. Its granule present: "no capture", without a duty. It sets its window's
accepted flag, and wakes the window, with a WINDOW-WAKE, when that is DORMANT. WINDOW-WAKE comes first: the model's choice (log
13). -/
def Obligations.JournaledWriteLookedUp : Prop :=
  ∀ (s : State) (q : SlotIx) (r : Request) (e : Entry), s.Accepts q r → s.ec.bridge = .journaling → r.dir = .write →
    (s.classify r).2.1.journaled = true → (s.classify r).2.2 = none → s.openEntry? = some e → e.broken = none →
    s.jw.pressure ≠ .suspended → (∀ x ∈ s.iq.slots, x.pos < s.iq.nextPos) →
    let g := granuleOf r.addr
    let win := (s.classify r).1
    let absent := decide (g ∉ s.cu.touched)
    let room := decide (s.cu.touched.length < 1024)
    let wakes := match win with
      | some i => (s.su.quiet[i]).dormant
      | none => false
    let event := fun (code : EventCode) =>
      ({ code := code, win := win, master := some r.master, epoch := some e.number, arg := g } : Event)
    ∃ u : State, exec (.uportRequest r) s = .next u.settle ∧
      s.SameAround u ∧ u.uport = [] ∧
      u.iq.nextPos = s.iq.nextPos + 1 ∧ u.cu.captures = s.cu.captures ∧ u.jw = s.jw ∧ u.da = s.da ∧ u.re = s.re ∧
      u.wu = s.wu ∧
      u.eq = s.eq.raiseAll ((if wakes then [event .windowWake] else []) ++
        (if absent && !room && e.overflow == 0 then [event .touchedOverflow] else [])) ∧
      u.iq.slots = s.iq.slots ++
        [{ ix := q, req := r, state := .waiting, pos := s.iq.nextPos, win := win, kind := (s.classify r).2.1,
           epoch := some e.number,
           marking := some (if !absent then .noCapture else if room then .capture else .captureDup),
           holdEntry := none, outcome := none, duty := absent && room, captureEnded := false, atPoint := false }] ∧
      u.slot? q = u.iq.slots.getLast? ∧
      u.cu.touched = (if absent && room then g :: s.cu.touched else s.cu.touched) ∧
      u.ec = (if absent && !room then
          { s.ec with table := s.ec.table.map (fun y => if y.number = e.number then
              { y with overflow := if y.overflow < 65535 then y.overflow + 1 else 65535 } else y) }
        else s.ec) ∧
      (∀ i, win = some i → u.su.quiet[i] = if wakes then { counter := 0, dormant := false } else s.su.quiet[i]) ∧
      (∀ i, win = some i → s.su.openBank.epoch = some e.number →
        u.su.openBank.entries[i] = { s.su.openBank.entries[i] with accepted := true } ∧
        u.su.sealingBank = s.su.sealingBank) ∧
      (∀ i, win ≠ some i → u.su.quiet[i] = s.su.quiet[i] ∧
        u.su.openBank.entries[i] = s.su.openBank.entries[i] ∧ u.su.sealingBank.entries[i] = s.su.sealingBank.entries[i])

/-- A JOURNAL or GUARD write accepted in JOURNALING while pressure is SUSPENDED, into a broken epoch, or with a decided outcome is
assigned to the OPEN epoch and marked "no capture" without a lookup; while SUSPENDED the OPEN epoch is marked broken first, with the
reason of the suspension. That the mark is also made for a write decided TRIPPED is the model's reading (log 12). -/
def Obligations.UncapturedWhenNotLookedUp : Prop :=
  ∀ (s : State) (q : SlotIx) (r : Request) (e : Entry), s.Accepts q r → s.ec.bridge = .journaling → r.dir = .write →
    (s.classify r).2.1.journaled = true → s.openEntry? = some e →
    (s.jw.pressure = .suspended ∨ e.broken.isSome ∨ (s.classify r).2.2.isSome) →
    ∃ u : State, exec (.uportRequest r) s = .next u.settle ∧ s.SameAround u ∧ u.uport = [] ∧ u.cu = s.cu ∧
      u.jw = s.jw ∧ u.da = s.da ∧ u.re = s.re ∧ u.wu = s.wu ∧ u.iq.nextPos = s.iq.nextPos + 1 ∧ s.SameOthers u q ∧
      u.ec = { s.ec with table := u.ec.table } ∧
      (∃ x, u.slot? q = some x ∧ x.req = r ∧ x.state = .waiting ∧ x.epoch = some e.number ∧
        x.marking = some .noCapture ∧ x.outcome = (s.classify r).2.2.map (fun d => d.1)) ∧
      (s.jw.pressure ≠ .suspended → u.ec = s.ec) ∧
      (s.jw.pressure = .suspended → s.entry? e.number = some e → ∃ y, u.entry? e.number = some y ∧
        y = { e with broken := some (e.broken.getD (s.jw.reason.getD .pressure)) })

/-- HOLD_LIMIT_REACHED: a HELD request whose hold time has reached the limit leaves HELD for WAITING with the decided outcome
HELD-TIMEOUT, its hold entry time cleared, and HOLD-TIMEOUT is raised. Where it is not HELD, the limit is 0, or its hold time has
not reached it, no expiry takes place (the row then changes nothing: log 2). -/
def Obligations.HoldTimeout : Prop :=
  ∀ (s : State) (q : SlotIx) (x : Slot), s.slot? q = some x →
    (x.state = .held → s.iq.holdLimit ≠ 0#16 →
      s.iq.holdLimit.toNat ≤ (s.eq.time - x.holdEntry.getD s.eq.time).toNat →
      exec (.holdLimitReached q) s = .next (State.settle
        { s with
          uport := []
          dport := []
          mdo := .undriven
          iq := { s.iq with slots := s.iq.slots.map (fun y => if y.ix = q then
            { y with state := .waiting, holdEntry := none, outcome := some .heldTimeout } else y) }
          eq := s.eq.raise { code := .holdTimeout, win := x.win, master := some x.req.master, arg := x.granule } })) ∧
    ((x.state ≠ .held ∨ s.iq.holdLimit = 0#16 ∨
        (s.eq.time - x.holdEntry.getD s.eq.time).toNat < s.iq.holdLimit.toNat) →
      exec (.holdLimitReached q) s = .next s.begin.settle)

/-! ## The downstream port -/

/-- The nine kinds of request a grant sends, each with the direction, address, length, data and mask of R163, when the turn is its
claimant's, whichever claimants the rotation passes over before it, a rollback request being sent only while no slot is the rollback
engine's. The granted slot is occupied by it, unflagged, it leaves its ready list, its claimant becomes the last granted, a
forwarded request's slot is ISSUED, a capture's step moves on, a restore write moves the reach epoch to the walk epoch when that is
older; nothing else changes. -/
def Obligations.GrantShapes : Prop :=
  ∀ (s : State) (p : PortIx), s.Grantable p →
    let sends := fun (a : Arbiter) (c : Claimant) (k : PortKind) (dir : Dir) (addr : Addr) (length : Nat) (data : List Byte)
        (mask : List Bool) =>
      ({ s with
         uport := []
         mdo := .undriven
         dport := [{ slot := p, dir := dir, addr := addr, length := length, data := data, mask := mask }]
         da := { a with slots := s.da.slots.set p (some { kind := k, discard := false }), lastGranted := c } } : State)
    let stepped := fun (q : SlotIx) (st : CaptureStep) =>
      { s.cu with captures := s.cu.captures.map (fun d => if d.slot = q then { d with step := st } else d) }
    (∀ q rest x, s.da.forward = q :: rest → s.slot? q = some x → ¬ (x.req.dir = .write ∧ s.tripped x.win) →
      s.Turn .forwardPath →
      exec (.daGrant p) s = .next (State.settle
        { sends { s.da with forward := s.da.forward.filter (fun y => y != q) } .forwardPath
            (match x.req.dir with | .read => .fwdRead q | .write => .fwdWrite q) x.req.dir x.req.addr x.req.length x.req.data
            x.req.mask with
          iq := { s.iq with slots := s.iq.slots.map (fun y => if y.ix = q then { y with state := .issued } else y) } })) ∧
    (∀ q rest c, s.da.capture = .oldRead q :: rest → s.capture? q = some c → s.Turn .capturePath →
      exec (.daGrant p) s = .next (State.settle
        { sends { s.da with capture := rest } .capturePath (.oldRead q) .read (c.granule ++ (0#6 : BitVec 6)) 64 [] [] with
          cu := stepped q .reading })) ∧
    (∀ q rest c line old, s.da.capture = .undoWrite q :: rest → s.capture? q = some c → c.undoLine = some line →
      c.old = some old → old.length = 64 → s.Turn .capturePath →
      exec (.daGrant p) s = .next (State.settle
        { sends { s.da with capture := rest } .capturePath (.undoWrite q) .write (s.lineAddr line) 80
            (undoBytes c.epoch c.win c.dup c.backLink c.granule old) (List.replicate 80 true) with
          cu := stepped q .writing })) ∧
    (∀ line e len rest, s.da.sealWriter = .pad line e len :: rest → s.Turn .sealWriter →
      exec (.daGrant p) s = .next (State.settle
        (sends { s.da with sealWriter := rest } .sealWriter (.padWrite line e) .write (s.lineAddr line) 16 (padBytes e len)
          (List.replicate 16 true)))) ∧
    (∀ line e link rest, s.da.sealWriter = .openRec line e link :: rest → s.Turn .sealWriter →
      exec (.daGrant p) s = .next (State.settle
        (sends { s.da with sealWriter := rest } .sealWriter (.openWrite line e) .write (s.lineAddr line) 16 (openBytes e link)
          (List.replicate 16 true)))) ∧
    (∀ line e sigs rest y, s.da.sealWriter = .sealRec line e sigs :: rest → s.Turn .sealWriter →
      s.entry? e = some y → s.sealBlocked e = false →
      exec (.daGrant p) s = .next (State.settle
        (sends { s.da with sealWriter := rest } .sealWriter (.sealWrite line e) .write (s.lineAddr line)
          (16 * (1 + (sigs.length + 1) / 2)) (sealBytes e y.broken y.undos y.overflow sigs)
          (List.replicate (16 * (1 + (sigs.length + 1) / 2)) true)))) ∧
    (∀ line, s.da.rollback = some (.recordRead line) → s.WalkPortFree → s.Turn .rollbackEngine →
      exec (.daGrant p) s = .next (State.settle
        (sends { s.da with rollback := none } .rollbackEngine .recordRead .read (s.lineAddr line) 80 [] []))) ∧
    (∀ rec w, s.da.rollback = some (.restore rec) → rec.old.length = 64 → s.re.walkEpoch = some w →
      s.WalkPortFree → s.Turn .rollbackEngine →
      exec (.daGrant p) s = .next (State.settle
        { sends { s.da with rollback := none } .rollbackEngine .restoreWrite .write (rec.granule ++ (0#6 : BitVec 6)) 64 rec.old
            (List.replicate 64 true) with
          re := { s.re with reach := match s.re.reach with
            | none => some w
            | some r => if s.ec.table.findIdx (fun y => y.number == w) < s.ec.table.findIdx (fun y => y.number == r)
                then some w else some r } }))

/-- Round-robin: the grant goes to the first claimant after the last granted, in the fixed rotation, that has a request that may be
sent (a rollback request may not while the rollback engine holds a slot, flagged or not), however many it passes over, and that
claimant becomes the last granted; with nothing to send at all, nothing is sent and the last-granted claimant stands; an occupied
slot is not granted. A forwarded WRITE in front of the list whose window is tripped is withdrawn at the moment of the grant, decided
TRIPPED with a TRIPPED-WRITE, and not sent; the grant goes on as if it had never asked: to the next forward request, and with none
left round the rotation; with nothing left to send the slot stays FREE. -/
def Obligations.GrantRotation : Prop :=
  (∀ (s : State) (p : PortIx), s.inReset = false →
    (∀ c : Claimant, s.da.slots[p] = none → s.Turn c → s.CanSend c →
      ∃ t, exec (.daGrant p) s = .next t ∧ t.da.lastGranted = c ∧ t.dport.length = 1) ∧
    (s.da.slots[p] = none → (∀ c : Claimant, s.PassedOver c) → exec (.daGrant p) s = .next s.begin.settle) ∧
    (s.da.slots[p] ≠ none → exec (.daGrant p) s = .next s.begin)) ∧
  (∀ (s : State) (p : PortIx) (q : SlotIx) (rest : List SlotIx) (x : Slot), s.Grantable p → s.Turn .forwardPath →
    s.da.forward = q :: rest → s.da.forward.Nodup → s.slot? q = some x → x.req.dir = .write → s.tripped x.win = true →
    let withdrawn : State :=
      { s with
        uport := []
        dport := []
        mdo := .undriven
        da := { s.da with forward := rest }
        iq := { s.iq with slots := s.iq.slots.map (fun y => if y.ix = q then
          { y with outcome := some .tripped, atPoint := false } else y) }
        eq := s.eq.raise { code := .trippedWrite, win := x.win, master := some x.req.master,
                           arg := BitVec.ofNat 32 (x.req.addr.toNat / 4096) } }
    exec (.daGrant p) s = exec (.daGrant p) withdrawn ∧
    (rest = [] → (∀ c, c ≠ .forwardPath → s.PassedOver c) → exec (.daGrant p) s = .next withdrawn.settle))

/-! ## What holds of the epochs, the ring and what is issued -/

/-- Every step keeps `State.EpochsOk`: the table's order, states and numbers by bridge state, at most 64 entries with one OPEN and
one SEALING, the retention depth, one SEAL write at most, a walk with its target and nothing else under way, one slot of the D-port
at most that is the rollback engine's, the requests assigned to live epochs only; head and tail lines of the ring, the extents end
to end from tail to head without overrunning, ten lines and the seal allowance kept for a seal; and no request on its way of an
unbroken epoch whose UNDO record is still awaited. The one premise on numbers is R89's own: fewer than 2^32 given out since the
oldest entry was opened. -/
def Obligations.EpochsAndRingKept : Prop :=
  ∀ s t : State, s.Ok → s.EpochsOk → s.NumberLeft → step s = .next t → t.EpochsOk

/-- The laws of what is issued. No grant sends a U-port write to a window whose trip flag is set, and none sends a U-port access to
an address inside the journal region. No grant sends a write of an unbroken epoch that carries a capture duty, or whose capture has
not ended; in an unbroken epoch a capture ends only with its UNDO record acknowledged OK, and the duty for a granule then ends;
before that it stays with a write to the granule, unless no write is left there that could be sent without it. -/
def Obligations.NoFencedRequestIsIssued : Prop :=
  (∀ (s : State) (p : PortIx), s.IntakeOk → s.Grantable p →
    ∃ t, exec (.daGrant p) s = .next t ∧
      ∀ k q, t.da.slots[p] = some k → k.kind.forwardOwner? = some q →
        ∃ x ∈ s.iq.slots, x.ix = q ∧ (x.req.dir = .write → s.tripped x.win = false) ∧
          s.inRegion x.req.addr = false) ∧
  (∀ (s : State) (p : PortIx), s.Ok → s.EpochsOk → s.Grantable p →
    ∃ t, exec (.daGrant p) s = .next t ∧
      ∀ k q, t.da.slots[p] = some k → k.kind.forwardOwner? = some q →
        ∃ x ∈ s.iq.slots, x.ix = q ∧ ∀ y ∈ s.ec.table, x.epoch = some y.number → y.broken = none → x.duty = false ∧
          (x.marking = some .capture ∨ x.marking = some .captureDup → x.captureEnded = true)) ∧
  (∀ (s t : State) (c : Instr) (x : Slot) (e : EpochNo) (y : Entry), s.Ok → s.EpochsOk → s.NumberLeft →
    exec c s = .next t → x ∈ s.iq.slots → x.epoch = some e → t.entry? e = some y → y.broken = none →
    let acknowledged := ∃ p data, c = .undoWriteAck p (.ok data) ∧ s.Outstanding p (.undoWrite x.ix)
    (∀ z ∈ t.iq.slots, z.key = x.key → z.epoch = some e → x.captureEnded = false → z.captureEnded = true →
      acknowledged) ∧
    (x.duty = true →
      (∃ z ∈ t.iq.slots, z.duty = true ∧ z.epoch = some e ∧ z.granule = x.granule) ∨
      (∀ z ∈ t.iq.slots, z.granule = x.granule → z.epoch = some e → z.marking = some .noCapture → z.outcome.isSome) ∨
      acknowledged))

/-! ## The acknowledgments of the downstream port -/

/-- FORWARDED_ACK: the D-port slot becomes FREE and the master is answered in the same action: OKAY with the bytes for a READ, OKAY
for a WRITE, whose feed takes place, and DOWNSTREAM-ERROR with its event for either. Where neither bank belongs to the write's
epoch, which no run reaches, nothing is fed and the entry's written set alone is joined: the model's choice (logs 21, 22). -/
def Obligations.ForwardedAckAnswers : Prop :=
  ∀ (s : State) (p : PortIx) (k : PortSlot) (q : SlotIx) (x : Slot), s.da.slots[p] = some k →
    k.kind.forwardOwner? = some q → s.slot? q = some x →
    let left := fun (status : Status) (data : List Byte) =>
      ({ s with
         da := { s.da with slots := s.da.slots.set p none }
         iq := { s.iq with slots := s.iq.slots.filter (fun y => decide (y.ix ≠ q)) }
         uport := [{ master := x.req.master, tag := x.req.tag, status := status, data := data }]
         dport := []
         mdo := .undriven } : State)
    let fed := fun (b : Bank) (i : WinIx) =>
      { b.entries[i] with acc := crcFeed b.entries[i].acc (feedBytes x.req), written := true }
    let joined := fun (e : EpochNo) (i : WinIx) =>
      { s.ec with table := s.ec.table.map (fun y => if y.number = e then
          { y with written := y.written ||| BitVec.twoPow 16 i.val } else y) }
    (∀ data, x.req.dir = .read → exec (.forwardedAck p (.ok data)) s = .next (left .okay data).settle) ∧
    (∀ data, x.req.dir = .write → (x.epoch = none ∨ x.win = none) →
      exec (.forwardedAck p (.ok data)) s = .next (left .okay []).settle) ∧
    (∀ data e i, x.req.dir = .write → x.epoch = some e → x.win = some i → s.su.openBank.epoch = some e →
      exec (.forwardedAck p (.ok data)) s = .next (State.settle
        { left .okay [] with
          su := { s.su with openBank := { s.su.openBank with entries := s.su.openBank.entries.set i (fed s.su.openBank i) } }
          ec := joined e i })) ∧
    (∀ data e i, x.req.dir = .write → x.epoch = some e → x.win = some i → s.su.openBank.epoch ≠ some e →
      s.su.sealingBank.epoch = some e →
      exec (.forwardedAck p (.ok data)) s = .next (State.settle
        { left .okay [] with
          su := { s.su with
            sealingBank := { s.su.sealingBank with entries := s.su.sealingBank.entries.set i (fed s.su.sealingBank i) } }
          ec := joined e i })) ∧
    (∀ data e i, x.req.dir = .write → x.epoch = some e → x.win = some i → s.su.openBank.epoch ≠ some e →
      s.su.sealingBank.epoch ≠ some e →
      exec (.forwardedAck p (.ok data)) s = .next (State.settle { left .okay [] with ec := joined e i })) ∧
    exec (.forwardedAck p .error) s = .next (State.settle
      { left .downstreamError [] with
        eq := s.eq.raise { code := .downstreamError, win := x.win, master := some x.req.master, epoch := x.epoch,
                           arg := x.granule } })

/-- An acknowledgment whose slot carries the discard flag is dropped, OK or ERROR: the slot becomes FREE, no block sees the result,
and once no flagged ring request is left the record writes held back join their ready lists in the order they were made. One that
carries the index of a FREE slot is dropped and changes nothing. Both hold whichever row brings the acknowledgment. -/
def Obligations.DroppedAcks : Prop :=
  (∀ (s : State) (p : PortIx) (k : PortKind) (res : AckResult), s.da.slots[p] = some { kind := k, discard := true } →
      ∃ a : Arbiter, a.slots = s.da.slots.set p none ∧ a.forward = s.da.forward ∧ a.rollback = s.da.rollback ∧
        a.lastGranted = s.da.lastGranted ∧
        ((∃ p' k', p' ≠ p ∧ s.da.slots[p'] = some k' ∧ k'.discard = true ∧ k'.kind.isRing = true) →
          a.capture = s.da.capture ∧ a.sealWriter = s.da.sealWriter ∧ a.heldCapture = s.da.heldCapture ∧
          a.heldSealWriter = s.da.heldSealWriter) ∧
        ((∀ p' k', p' ≠ p → s.da.slots[p'] = some k' → ¬ (k'.discard = true ∧ k'.kind.isRing = true)) →
          a.capture = s.da.capture ++ s.da.heldCapture.map .undoWrite ∧
          a.sealWriter = s.da.sealWriter ++ s.da.heldSealWriter ∧ a.heldCapture = [] ∧ a.heldSealWriter = []) ∧
        ∀ c : Instr,
          (c = .discardedAck p res ∨ (c = .oldGranuleReadAck p res ∧ ∃ q, k = .oldRead q) ∨
            (c = .undoWriteAck p res ∧ ∃ q, k = .undoWrite q) ∨ (c = .padWriteAck p res ∧ ∃ l e, k = .padWrite l e) ∨
            (c = .sealWriteAck p res ∧ ∃ l e, k = .sealWrite l e) ∨
            (c = .openWriteAck p res ∧ ∃ l e, k = .openWrite l e) ∨ (c = .recordReadAck p res ∧ k = .recordRead) ∨
            (c = .restoreWriteAck p res ∧ k = .restoreWrite)) →
          exec c s = .next (State.settle { s with da := a, uport := [], dport := [], mdo := .undriven })) ∧
  (∀ (s : State) (p : PortIx) (res : AckResult), s.da.slots[p] = none →
      ∀ c ∈ [Instr.strayAck p res, .forwardedAck p res, .oldGranuleReadAck p res, .undoWriteAck p res, .padWriteAck p res,
             .sealWriteAck p res, .openWriteAck p res, .recordReadAck p res, .restoreWriteAck p res, .discardedAck p res],
        exec c s = .next s.begin)

/-! ## Captures -/

/-- UNDO_RESERVATION with room: the record goes at head, or at line 0 behind a PAD that fills the ring's end; head moves past it;
the entry's last-undo line and undo count move on; the capture record takes the line and the back-link; the old-granule read and
any PAD write are made. The thresholds give the pressure state and its events: at 90 percent used CONSTRAINED, and then in JOURNALING
or CLOSING the oldest SEALED epoch is committed, FORCED, and the thresholds are evaluated again. Ten lines and the seal allowance
stay free. -/
def Obligations.UndoReservationPlaces : Prop :=
  ∀ (s : State) (q : SlotIx) (c : Capture) (e : Entry), s.Reserving q c → s.jw.pressure ≠ .suspended →
    10 + s.undoPad + 5 + s.allowance ≤ s.free → s.entry? c.epoch = some e → e.state ≠ .sealed →
    ∃ u : State, exec (.undoReservation q) s = .next u.settle ∧
      u.jw = { s.jw with head := s.undoHead, tail := u.jw.tail, pressure := u.jw.pressure, reason := none } ∧
      u.entry? c.epoch = some { e with lastUndo := some s.undoLine,
                                       undos := if e.undos < 16777215 then e.undos + 1 else 16777215 } ∧
      u.cu = { s.cu with captures := s.cu.captures.map (fun d => if d.slot = q then
        { d with undoLine := some s.undoLine, backLink := e.lastUndo } else d) } ∧
      u.da = { s.da with capture := s.da.capture ++ [.oldRead q], sealWriter := u.da.sealWriter,
                         heldSealWriter := u.da.heldSealWriter } ∧
      (s.undoPad = 0 → u.da.sealWriter = s.da.sealWriter ∧ u.da.heldSealWriter = s.da.heldSealWriter) ∧
      (s.undoPad ≠ 0 → s.holdsBack = false →
        u.da.sealWriter = s.da.sealWriter ++ [.pad s.jw.head c.epoch s.undoPad] ∧
        u.da.heldSealWriter = s.da.heldSealWriter) ∧
      (s.undoPad ≠ 0 → s.holdsBack = true →
        u.da.sealWriter = s.da.sealWriter ∧
        u.da.heldSealWriter = s.da.heldSealWriter ++ [.pad s.jw.head c.epoch s.undoPad]) ∧
      ((s.usedAfterUndo < s.percent 90 ∨ (s.ec.bridge ≠ .journaling ∧ s.ec.bridge ≠ .closing) ∨
          (∀ y rest, s.ec.table = y :: rest → y.state ≠ .sealed)) →
        u.jw.tail = s.jw.tail ∧ u.ec.table.map (·.number) = s.ec.table.map (·.number)) ∧
      (∀ y rest l, s.percent 90 ≤ s.usedAfterUndo → (s.ec.bridge = .journaling ∨ s.ec.bridge = .closing) →
        s.ec.table = y :: rest → y.state = .sealed → y.endLine = some l →
        u.jw.tail = l ∧ u.ec.table.map (·.number) = rest.map (·.number)) ∧
      (s.jw.head < s.ringLines → s.jw.tail < s.ringLines → u.jw.tail = s.jw.tail → 10 + s.allowance ≤ u.free) ∧
      (s.usedAfterUndo < s.percent 90 →
        let n := s.usedAfterUndo
        let after := match s.jw.pressure with
          | .normal => if s.percent 75 ≤ n then .warning else .normal
          | .warning => if n < s.percent 70 then .normal else .warning
          | .constrained => if n < s.percent 70 then .normal else if n < s.percent 85 then .warning else .constrained
          | .suspended => Pressure.suspended
        u.jw.pressure = after ∧
        u.eq = s.eq.raiseAll (List.map (fun code => { code := code, epoch := s.openEpoch?, arg := BitVec.ofNat 32 n })
          (match s.jw.pressure, after with
            | .normal, .warning => [.warningEntered]
            | .warning, .normal => [.warningLeft]
            | .constrained, .warning => [.constrainedLeft]
            | .constrained, .normal => [.constrainedLeft, .warningLeft]
            | _, _ => []))) ∧
      (s.percent 90 ≤ s.usedAfterUndo →
        let event := fun (n : Nat) (code : EventCode) =>
          ({ code := code, epoch := s.openEpoch?, arg := BitVec.ofNat 32 n } : Event)
        let entered := List.map (event s.usedAfterUndo) (match s.jw.pressure with
          | .normal => [.warningEntered, .constrainedEntered]
          | .warning => [.constrainedEntered]
          | .constrained | .suspended => [])
        (((s.ec.bridge ≠ .journaling ∧ s.ec.bridge ≠ .closing) ∨ (∀ y rest, s.ec.table = y :: rest → y.state ≠ .sealed)) →
          u.jw.pressure = .constrained ∧ u.eq = s.eq.raiseAll entered) ∧
        (∀ y rest l, (s.ec.bridge = .journaling ∨ s.ec.bridge = .closing) → s.ec.table = y :: rest → y.state = .sealed →
          y.endLine = some l →
          let m := (s.undoHead + s.ringLines - l) % s.ringLines
          u.jw.pressure = (if m < s.percent 70 then .normal else if m < s.percent 85 then .warning else .constrained) ∧
          u.eq = s.eq.raiseAll (entered ++ [{ code := .epochCommitted, epoch := some y.number, arg := 2#32 }] ++
            List.map (event m) (if m < s.percent 70 then [.constrainedLeft, .warningLeft]
              else if m < s.percent 85 then [.constrainedLeft] else [])))) ∧
      s.SameAround u ∧ s.SameSlots u ∧ u.su = s.su ∧ u.wu = s.wu ∧ u.re = s.re ∧
      u.ec = { s.ec with table := u.ec.table }

/-- UNDO_RESERVATION without room is a reservation failure: nothing is placed, the epoch is marked broken PRESSURE, SUSPENDED is
entered with its event, and the write proceeds uncaptured. In SUSPENDED it is refused without a room check: the epoch is marked
broken with the suspension's reason, and neither an event nor the pressure comes of it. -/
def Obligations.UndoReservationRefused : Prop :=
  ∀ (s : State) (q : SlotIx) (c : Capture) (x : Slot), s.Reserving q c → s.slot? q = some x → x.outcome = none →
    (s.jw.pressure = .suspended →
      ∃ u : State, exec (.undoReservation q) s = .next u.settle ∧ s.Proceeds u q x ∧
        s.Breaks u c.epoch (s.jw.reason.getD .pressure) ∧ u.jw = s.jw ∧ u.su = s.su ∧ u.wu = s.wu ∧ u.re = s.re ∧
        s.SameAround u ∧ u.da = { s.da with forward := u.da.forward } ∧ u.ec = { s.ec with table := u.ec.table } ∧
        u.ec.table.map (·.number) = s.ec.table.map (·.number) ∧
        (s.tripped x.win = false → u.eq = s.eq) ∧
        (s.tripped x.win = true → u.eq = s.eq.raise
          { code := .trippedWrite, win := x.win, master := some x.req.master,
            arg := BitVec.ofNat 32 (x.req.addr.toNat / 4096) })) ∧
    (s.jw.pressure ≠ .suspended → s.free < 10 + s.undoPad + 5 + s.allowance →
      ∃ u : State, exec (.undoReservation q) s = .next u.settle ∧ s.Proceeds u q x ∧ s.Breaks u c.epoch .pressure ∧
        s.Suspends u .pressure ∧ u.su = s.su ∧ u.wu = s.wu ∧ u.re = s.re ∧ s.SameAround u ∧
        u.da = { s.da with forward := u.da.forward } ∧ u.ec = { s.ec with table := u.ec.table } ∧
        (s.tripped x.win = false → ∀ old rest, s.ec.table = old ++ rest → (∀ y ∈ old, y.state = .sealed) →
          (∀ y ∈ rest, y.state ≠ .sealed) →
          u.eq = (s.eq.raiseAll (old.map (fun y =>
              { code := .epochCommitted, epoch := some y.number, arg := 3#32 }))).raise
            { code := .suspendedEntered, epoch := s.openEpoch?,
              arg := word32 1#8 (BitVec.ofNat 8 old.length) (BitVec.ofNat 8 u.fill)
                       (BitVec.ofNat 8 s.jw.pressure.code) }))

/-- OLD_GRANULE_READ_ACK OK stores the bytes and makes the UNDO write, which is held back while a flagged ring request is
outstanding, the step then WAITING-FOR-RING. UNDO_WRITE_ACK OK discharges the duty and removes the capture record: with the trip
flag clear the write asks for a forward-path slot, with it set it is decided TRIPPED with the event. -/
def Obligations.CaptureAcks : Prop :=
  (∀ (s : State) (p : PortIx) (q : SlotIx) (c : Capture) (data : List Byte), s.Outstanding p (.oldRead q) →
    s.capture? q = some c →
    let stored := fun (f : Capture → Capture) =>
      { s.cu with captures := s.cu.captures.map (fun d => if d.slot = q then f { d with old := some data } else d) }
    (s.holdsBack = false →
      exec (.oldGranuleReadAck p (.ok data)) s = .next (State.settle
        { s with
          uport := []
          dport := []
          mdo := .undriven
          cu := stored id
          da := { s.da with slots := s.da.slots.set p none, capture := s.da.capture ++ [.undoWrite q] } })) ∧
    (s.holdsBack = true →
      exec (.oldGranuleReadAck p (.ok data)) s = .next (State.settle
        { s with
          uport := []
          dport := []
          mdo := .undriven
          cu := stored (fun d => { d with step := .waitingForRing })
          da := { s.da with slots := s.da.slots.set p none, heldCapture := s.da.heldCapture ++ [q] } }))) ∧
  (∀ (s : State) (p : PortIx) (q : SlotIx) (c : Capture) (x : Slot) (data : List Byte), s.Outstanding p (.undoWrite q) →
    s.capture? q = some c → s.slot? q = some x → x.outcome = none →
    ∃ u : State, exec (.undoWriteAck p (.ok data)) s = .next u.settle ∧ s.Proceeds u q x ∧
      (∀ y, u.slot? q = some y → y.duty = false ∧ y.marking = x.marking) ∧ (∀ r, r ≠ q → u.slot? r = s.slot? r) ∧
      u.ec = s.ec ∧ u.jw = s.jw ∧ u.su = s.su ∧ u.wu = s.wu ∧ u.re = s.re ∧ s.SameAround u ∧
      u.da = { s.da with slots := s.da.slots.set p none, forward := u.da.forward } ∧
      (s.tripped x.win = false → u.eq = s.eq) ∧
      (s.tripped x.win = true → u.eq = s.eq.raise
        { code := .trippedWrite, win := x.win, master := some x.req.master,
          arg := BitVec.ofNat 32 (x.req.addr.toNat / 4096) }))

/-- ERROR on a capture's old-granule read or UNDO write is a media fault: the epoch is marked broken MEDIA, MEDIA-FAULT carries
epoch, window, UNDO line and kind, SUSPENDED is entered unless it stands, and the write proceeds uncaptured. -/
def Obligations.CaptureMediaFaults : Prop :=
  ∀ (s : State) (p : PortIx) (q : SlotIx) (c : Capture) (x : Slot) (row : Instr) (kind : BitVec 4),
    s.capture? q = some c → s.slot? q = some x → x.outcome = none →
    ((s.Outstanding p (.oldRead q) ∧ row = .oldGranuleReadAck p .error ∧ kind = 1#4) ∨
      (s.Outstanding p (.undoWrite q) ∧ row = .undoWriteAck p .error ∧ kind = 2#4)) →
    ∃ (u : State) (evs : List Event), exec row s = .next u.settle ∧ s.Proceeds u q x ∧ s.Breaks u c.epoch .media ∧
      s.Suspends u .media ∧
      u.eq = (s.eq.raise { code := .mediaFault, win := c.win, epoch := some c.epoch,
                           arg := (kind ++ BitVec.ofNat 28 (c.undoLine.getD 0) : BitVec 32) }).raiseAll evs ∧
      u.su = s.su ∧ u.wu = s.wu ∧ u.re = s.re ∧ s.SameAround u ∧ u.ec = { s.ec with table := u.ec.table } ∧
      u.da = { s.da with slots := s.da.slots.set p none, forward := u.da.forward }

/-! ## Record writes and seals -/

/-- PAD_WRITE_ACK and OPEN_WRITE_ACK: OK frees the D-port slot and changes nothing else; ERROR marks the record's epoch broken
MEDIA, raises MEDIA-FAULT with the line and the kind, and enters SUSPENDED unless it stands. -/
def Obligations.PadAndOpenAcks : Prop :=
  ∀ (s : State) (p : PortIx) (l : Nat) (e : EpochNo),
    (∀ (row : Instr) (data : List Byte),
      ((s.Outstanding p (.padWrite l e) ∧ row = .padWriteAck p (.ok data)) ∨
        (s.Outstanding p (.openWrite l e) ∧ row = .openWriteAck p (.ok data))) →
      exec row s = .next (State.settle
        { s with uport := [], dport := [], mdo := .undriven, da := { s.da with slots := s.da.slots.set p none } })) ∧
    (∀ (row : Instr) (kind : BitVec 4),
      ((s.Outstanding p (.padWrite l e) ∧ row = .padWriteAck p .error ∧ kind = 3#4) ∨
        (s.Outstanding p (.openWrite l e) ∧ row = .openWriteAck p .error ∧ kind = 5#4)) →
      ∃ (u : State) (evs : List Event), exec row s = .next u.settle ∧ s.Breaks u e .media ∧ s.Suspends u .media ∧
        u.eq = (s.eq.raise { code := .mediaFault, epoch := some e,
                             arg := (kind ++ BitVec.ofNat 28 l : BitVec 32) }).raiseAll evs ∧
        s.SameSlots u ∧ u.cu = s.cu ∧ u.su = s.su ∧ u.wu = s.wu ∧ u.re = s.re ∧ s.SameAround u ∧
        u.ec = { s.ec with table := u.ec.table } ∧ u.da = { s.da with slots := s.da.slots.set p none })

/-- SEAL_WRITE_ACK in JOURNALING or ROLLING: the epoch becomes SEALED with the end line and list kept since its reservation and the
bank's written set, EPOCH-SEALED is raised with its undo count, the OPEN record of the next epoch takes one line at head with its
back-link, the writes at their capture point are examined, and a pending boundary is taken. With more SEALED epochs than the depth
the oldest is committed, DEPTH, but in ROLLING. A broken epoch is committed at once with every older one, BROKEN. An OPEN record
that finds no room breaks its epoch, enters SUSPENDED and is placed all the same. SUSPENDED is left when the ring is under half
full. The written set where no bank belongs to the epoch is the entry's own: the model's choice (logs 21, 22). -/
def Obligations.SealWriteAck : Prop :=
  ∀ (s : State) (p : PortIx) (l : Nat) (e : EpochNo) (x o : Entry), s.Outstanding p (.sealWrite l e) →
    s.ec.bridge ≠ .closing → s.NumbersOk → s.entry? e = some x → x.state = .sealing → s.openEntry? = some o →
    let sealed : Event := { code := .epochSealed, epoch := some e, arg := BitVec.ofNat 32 x.undos }
    let committed := fun (cause : Word32) (y : Entry) =>
      ({ code := .epochCommitted, epoch := some y.number, arg := cause } : Event)
    (∀ data job, x.broken = none → s.jw.sealJob = some job → s.jw.head < s.ringLines → 1 ≤ s.free →
      (s.sealedCount < s.ec.retention ∨ s.ec.bridge = .rolling) → s.ec.table.length < 64 →
      ∃ (u : State) (evs : List Event), exec (.sealWriteAck p (.ok data)) s = .next u.settle ∧
        u.eq = (s.eq.raise sealed).raiseAll evs ∧
        (∃ y, u.entry? e = some y ∧ y.state = .sealed ∧ y.endLine = some job.after ∧ y.sigs = some job.sigs ∧
          y.undos = x.undos ∧ y.written = ((s.bank? e).map Bank.writtenSet).getD x.written) ∧
        (∃ z, u.entry? o.number = some z ∧ z.openLine = some s.jw.head ∧
          z.state = if s.ec.pending then .sealing else .opened) ∧
        u.jw.head = (s.jw.head + 1) % s.ringLines ∧ u.jw.tail = s.jw.tail ∧ u.jw.sealJob = none ∧ u.ec.pending = false ∧
        u.re = s.re ∧ s.SameAround u ∧ u.da.slots = s.da.slots.set p none ∧
        (let link := ((s.ec.table.filter (fun y => y.number != o.number)).getLast?).bind (·.openLine)
         (s.holdsBack = false → u.da.sealWriter = s.da.sealWriter ++ [.openRec s.jw.head o.number link] ∧
           u.da.heldSealWriter = s.da.heldSealWriter) ∧
         (s.holdsBack = true → u.da.sealWriter = s.da.sealWriter ∧
           u.da.heldSealWriter = s.da.heldSealWriter ++ [.openRec s.jw.head o.number link])) ∧
        (∀ y ∈ u.iq.slots, y.epoch = some o.number → y.atPoint = false) ∧
        (s.ec.pending = false → u.ec = { s.ec with table := u.ec.table } ∧ u.wu = s.wu ∧ u.su = s.su ∧
          u.ec.table.map (·.number) = s.ec.table.map (·.number)) ∧
        (s.ec.pending = true → u.ec.closing = false) ∧
        (s.ec.pending = true → s.ec.closing = false → u.ec.bridge = s.ec.bridge ∧
          u.openEpoch? = some (o.number + 1#32) ∧ u.cu.touched = []) ∧
        (s.ec.pending = true → s.ec.closing = true → u.ec.bridge = .closing ∧ u.openEntry? = none ∧
          u.cu.touched = [] ∧ u.ec.timer = none)) ∧
    (∀ data job y rest line, x.broken = none → s.jw.sealJob = some job → 1 ≤ s.free → s.ec.bridge ≠ .rolling →
      s.ec.pending = false → s.ec.retention ≤ s.sealedCount → s.ec.table = y :: rest → y.state = .sealed →
      y.endLine = some line →
      ∃ (u : State) (evs : List Event), exec (.sealWriteAck p (.ok data)) s = .next u.settle ∧
        u.eq = (s.eq.raise sealed).raiseAll evs ∧
        evs.filter (fun ev => ev.code = .epochCommitted) = [committed 1#32 y] ∧
        u.ec.table.map (·.number) = rest.map (·.number) ∧ u.jw.tail = line ∧
        u.ec = { s.ec with table := u.ec.table } ∧ s.SameAround u ∧ u.re = s.re ∧ u.wu = s.wu ∧ u.su = s.su) ∧
    (∀ data job old rest, x.broken.isSome → s.jw.sealJob = some job → job.after = s.jw.head → 2 ≤ s.ringLines →
      s.ec.pending = false → s.ec.table = old ++ x :: rest → (∀ y ∈ old, y.state = .sealed) →
      (∀ y ∈ rest, y.state ≠ .sealed) →
      ∃ (u : State) (evs : List Event), exec (.sealWriteAck p (.ok data)) s = .next u.settle ∧
        u.eq = (s.eq.raise sealed).raiseAll evs ∧
        evs.filter (fun ev => ev.code = .epochCommitted) = (old ++ [x]).map (committed 4#32) ∧
        u.ec.table.map (·.number) = rest.map (·.number) ∧ u.jw.tail = s.jw.head ∧
        u.jw.head = (s.jw.head + 1) % s.ringLines ∧ (∃ z, u.entry? o.number = some z ∧ z.openLine = some s.jw.head) ∧
        u.ec = { s.ec with table := u.ec.table } ∧ s.SameAround u ∧ u.re = s.re ∧ u.wu = s.wu ∧ u.su = s.su) ∧
    (∀ data job old rest, x.broken = none → s.jw.sealJob = some job → job.after = s.jw.head → s.jw.head < s.ringLines →
      s.free = 0 → s.ec.pending = false → s.ec.table = old ++ x :: rest → (∀ y ∈ old, y.state = .sealed) →
      (∀ y ∈ rest, y.state ≠ .sealed) →
      ∃ (u : State) (evs : List Event), exec (.sealWriteAck p (.ok data)) s = .next u.settle ∧
        evs.filter (fun ev => ev.code = .epochCommitted) = (old ++ [x]).map (committed 3#32) ∧
        (s.jw.pressure ≠ .suspended → ∃ evs',
          u.eq = (((s.eq.raise sealed).raiseAll evs).raise
            { code := .suspendedEntered, epoch := some o.number,
              arg := word32 1#8 (BitVec.ofNat 8 (old.length + 1)) 0#8 (BitVec.ofNat 8 s.jw.pressure.code) }).raiseAll evs') ∧
        (s.jw.pressure = .suspended → ∃ evs', u.eq = ((s.eq.raise sealed).raiseAll evs).raiseAll evs' ∧
          ∀ ev ∈ evs', ev.code ≠ .suspendedEntered) ∧
        (∃ z, u.entry? o.number = some z ∧ z.broken = some (o.broken.getD .pressure) ∧ z.openLine = some s.jw.head) ∧
        u.ec.table.map (·.number) = rest.map (·.number) ∧ u.jw.tail = s.jw.head ∧
        u.jw.head = (s.jw.head + 1) % s.ringLines ∧ u.ec = { s.ec with table := u.ec.table } ∧ s.SameAround u ∧
        u.re = s.re ∧ u.wu = s.wu ∧ u.su = s.su) ∧
    (∀ data, s.jw.pressure = .suspended → 1 ≤ s.free → s.ec.pending = false →
      ∃ (u : State) (evs : List Event), exec (.sealWriteAck p (.ok data)) s = .next u.settle ∧
        (u.used < u.percent 50 → u.jw.pressure = .normal ∧ u.jw.reason = none ∧
          u.eq = ((s.eq.raise sealed).raiseAll evs).raise
            { code := .suspendedLeft, epoch := u.openEpoch?, arg := BitVec.ofNat 32 u.used }) ∧
        (u.percent 50 ≤ u.used → u.jw.pressure = .suspended ∧ u.jw.reason = s.jw.reason ∧
          u.eq = (s.eq.raise sealed).raiseAll evs) ∧
        (∀ ev ∈ evs, ev.code ≠ .suspendedLeft) ∧ s.SameAround u ∧ u.re = s.re ∧ u.wu = s.wu ∧ u.su = s.su) ∧
    (∀ old rest, s.ec.table = old ++ x :: rest → (∀ y ∈ old, y.state = .sealed) → (∀ y ∈ rest, y.state ≠ .sealed) →
      s.ec.pending = false →
      ∃ (u : State) (evs : List Event), exec (.sealWriteAck p .error) s = .next u.settle ∧
        u.eq = (s.eq.raise { code := .mediaFault, epoch := some e,
                             arg := (4#4 ++ BitVec.ofNat 28 l : BitVec 32) }).raiseAll evs ∧
        u.ec = { s.ec with table := u.ec.table } ∧ u.ec.table.map (·.number) = rest.map (·.number) ∧ s.SameAround u ∧
        u.re = s.re ∧ u.wu = s.wu ∧ u.su = s.su ∧ u.da.slots = s.da.slots.set p none)

/-- SEAL_WRITE_ACK in CLOSING, OK or ERROR: every epoch is committed, the ring is empty, pressure is NORMAL, the bridge is in
PASSTHROUGH, both banks are reset, the HELD requests are released without an assignment, and JOURNALING-DISABLED is the last
event, with the number of epochs committed when the acknowledgment is OK. -/
def Obligations.ClosingEnds : Prop :=
  ∀ (s : State) (p : PortIx) (l : Nat) (e : EpochNo) (x : Entry) (res : AckResult), s.Outstanding p (.sealWrite l e) →
    s.ec.bridge = .closing → s.entry? e = some x → (∀ y ∈ s.ec.table, y.number = e ∨ y.state = .sealed) →
    ∃ (u : State) (evs : List Event) (n : Nat), exec (.sealWriteAck p res) s = .next u.settle ∧
      u.ec = { s.ec with table := [], bridge := .passthrough } ∧
      u.jw = { s.jw with tail := s.jw.head, pressure := .normal, reason := none, sealJob := none } ∧
      u.su = { s.su with openBank := Bank.reset, sealingBank := Bank.reset } ∧ s.SameAround u ∧
      u.da = { s.da with slots := s.da.slots.set p none } ∧
      (∀ q y, s.slot? q = some y → y.state ≠ .held → (u.slot? q).map Slot.reexamined = some y.reexamined) ∧
      (∀ q y, s.slot? q = some y → y.state = .held →
        u.slot? q = some { y with state := .waiting, holdEntry := none, epoch := none, marking := none, duty := false,
                                  atPoint := false }) ∧
      (∀ y ∈ u.iq.slots, y.state ≠ .held) ∧ u.wu = s.wu ∧ u.cu = s.cu ∧ u.re = s.re ∧
      u.eq = (s.eq.raiseAll evs).raise { code := .journalingDisabled, epoch := some e, arg := BitVec.ofNat 32 n } ∧
      (res ≠ .error → n = s.ec.table.length)

/-! ## Boundaries -/

/-- SEAL, a timer expiry and an edge that counts, in JOURNALING with no epoch SEALING, take a boundary: the OPEN epoch becomes
SEALING, the next number opens behind it with nothing reserved, the touched set is emptied, the banks exchange, an armed table is
applied with the new number, and the timer restarts. In a full table the oldest SEALED epoch is committed first, with cause
DEPTH. -/
def Obligations.BoundaryTaken : Prop :=
  ∀ (s : State) (c : Instr) (src : Source) (m : Mdo) (o : Entry), s.Requests c src m → src ≠ .disable →
    s.ec.bridge = .journaling → s.sealingEntry? = none → s.openEntry? = some o →
    let closed := fun (y : Entry) => if y.state = .opened then { y with state := .sealing } else y
    (s.ec.table.length < 64 →
      ∃ u : State, exec c s = .next (u.settle.withAnswer m) ∧
        u.ec = { s.ec with table := s.ec.table.map closed ++ [Entry.fresh (o.number + 1#32)], timer := s.fullTimer } ∧
        u.cu = { s.cu with touched := [] } ∧ s.AppliesAndFills u (some (o.number + 1#32)) ∧
        u.su.sealingBank.epoch = s.su.openBank.epoch ∧
        (∀ i : WinIx, u.su.sealingBank.entries[i] =
          if s.wu.armed ∧ s.wu.active[i] ≠ s.wu.staged[i] then { s.su.openBank.entries[i] with superseded := true }
          else s.su.openBank.entries[i]) ∧
        (s.wu.armed = false → u.eq = s.eq) ∧
        (s.wu.armed = true → ∃ changed, u.eq = s.eq.raise
          { code := .tableApplied, epoch := some (o.number + 1#32), arg := changed }) ∧
        u.iq = s.iq ∧ u.jw = s.jw ∧ u.re = s.re ∧ u.da = s.da ∧ s.SameAround u) ∧
    (∀ y rest, s.ec.table = y :: rest → s.ec.table.length = 64 → y.state = .sealed →
      ∃ (u : State) (evs : List Event), exec c s = .next (u.settle.withAnswer m) ∧
        u.ec.table = rest.map closed ++ [Entry.fresh (o.number + 1#32)] ∧ u.jw.head = s.jw.head ∧
        u.jw.tail = y.endLine.getD s.jw.tail ∧ u.cu = { s.cu with touched := [] } ∧
        s.AppliesAndFills u (some (o.number + 1#32)) ∧ s.SameSlots u ∧ u.re = s.re ∧ u.da = s.da ∧ s.SameAround u ∧
        u.eq = (s.eq.raise { code := .epochCommitted, epoch := some y.number, arg := 1#32 }).raiseAll evs)

/-- A boundary request of any source while an epoch is SEALING: with the pending flag clear it sets the flag; with it set it
counts as merged and raises BOUNDARY-MERGED with its source and the counter. DISABLE marks the pending boundary closing. A timer
expiry also starts the next interval. Nothing else changes. -/
def Obligations.BoundaryWhileSealing : Prop :=
  ∀ (s : State) (c : Instr) (src : Source) (m : Mdo), s.Requests c src m → s.ec.bridge = .journaling →
    s.sealingEntry?.isSome →
    let n := if s.ec.merged < 255 then s.ec.merged + 1 else 255
    let after : State :=
      { s with
        uport := []
        dport := []
        mdo := .undriven
        ec := { s.ec with
          pending := true
          closing := s.ec.closing || decide (src = .disable)
          timer := if src = .timer then s.fullTimer else s.ec.timer } }
    (s.ec.pending = false → exec c s = .next (after.settle.withAnswer m)) ∧
    (s.ec.pending = true → exec c s = .next (State.withAnswer (State.settle
      { after with
        ec := { after.ec with merged := n }
        eq := s.eq.raise
          { code := .boundaryMerged, epoch := s.openEpoch?,
            arg := word32 (match src with | .sealCommand => 1#8 | .timer => 2#8 | .strobe => 3#8 | .disable => 4#8)
                     (BitVec.ofNat 8 n) 0#8 0#8 } }) m))

/-- DISABLE in JOURNALING with no epoch SEALING takes the closing boundary: no epoch opens, the bridge is CLOSING, the OPEN bank
belongs to no epoch, a TABLE-APPLIED carries no epoch, the timer stops. DISABLE and SEAL are refused, or have no effect, in the
other bridge states as R83 and R93 state. -/
def Obligations.DisableAndSeal : Prop :=
  ∀ s : State, s.Listens →
    (s.ec.bridge = .journaling → s.sealingEntry? = none →
      ∃ u : State, exec .disable s = .next (u.settle.withAnswer (.answer answerDone)) ∧
        u.ec = { s.ec with
          bridge := .closing
          table := s.ec.table.map (fun y => if y.state = .opened then { y with state := .sealing } else y)
          timer := none } ∧
        u.cu = { s.cu with touched := [] } ∧ s.AppliesAndFills u none ∧
        u.su.sealingBank.epoch = s.su.openBank.epoch ∧
        (s.wu.armed = false → u.su.sealingBank = s.su.openBank ∧ u.eq = s.eq) ∧
        (s.wu.armed = true → ∃ changed, u.eq = s.eq.raise { code := .tableApplied, arg := changed }) ∧
        u.iq = s.iq ∧ u.jw = s.jw ∧ u.re = s.re ∧ u.da = s.da ∧ s.SameAround u) ∧
    (s.ec.bridge = .passthrough → exec .disable s = .next (s.answered 0 .done []) ∧
      exec .sealNow s = .next (s.answered 0 .state [])) ∧
    ((s.ec.bridge = .closing ∨ s.ec.bridge = .rolling) → exec .disable s = .next (s.answered 0 .busy []) ∧
      exec .sealNow s = .next (s.answered 0 .busy [])) ∧
    (s.ec.bridge = .halted → exec .disable s = .next (s.answered 0 .state []) ∧
      exec .sealNow s = .next (s.answered 0 .state []))

/-- Requests that take no boundary: a timer expiry in ROLLING and an edge that counts in ROLLING or HALTED are discarded and
counted; an edge in PASSTHROUGH or CLOSING is ignored; an edge of the other polarity, or with the strobe disabled, and an expiry
that is not due have no effect (that last row then changes nothing: log 2). -/
def Obligations.DiscardedAndIgnoredRequests : Prop :=
  ∀ s : State,
    let counted := { s.re with discarded := if s.re.discarded < 255 then s.re.discarded + 1 else 255 }
    (s.ec.timer = some 0 → s.ec.bridge = .rolling →
      exec .epochTimerExpiry s = .next (State.settle
        { s with uport := [], dport := [], mdo := .undriven, re := counted, ec := { s.ec with timer := s.fullTimer } })) ∧
    (s.ec.timer ≠ some 0 → exec .epochTimerExpiry s = .next s.begin) ∧
    (∀ e, s.inReset = false → s.ec.strobeEnable = true → s.ec.strobePolarity = e →
      (s.ec.bridge = .rolling ∨ s.ec.bridge = .halted) →
      exec (.epochInEdge e) s = .next (State.settle
        { s with uport := [], dport := [], mdo := .undriven, re := counted })) ∧
    (∀ e, s.inReset = false → s.ec.strobeEnable = true → s.ec.strobePolarity = e →
      (s.ec.bridge = .passthrough ∨ s.ec.bridge = .closing) → exec (.epochInEdge e) s = .next s.begin.settle) ∧
    (∀ e, (s.ec.strobeEnable = false ∨ s.ec.strobePolarity ≠ e) → exec (.epochInEdge e) s = .next s.begin)

/-- What follows an action at once leaves the staged table, the region, the settings, the merged counter, the D-port's slots, the
waiting port requests, the link, reset and the queue as they are, and only appends to the event queue. With no head left to deal
with, no seal due and no DRAIN nothing follows. A WAITING head is dealt with by its record: one with a decided outcome is answered,
and its capture duty passes to the first request behind it that may have it, or its granule leaves the set of the OPEN epoch, in
HALTED too (log 24), the epoch being known by its number (log 25); one with nothing to capture asks for a forward-path slot; one at
its capture point is examined: TRIPPED, uncaptured in a broken epoch, uncaptured while SUSPENDED, which breaks its epoch, left
waiting while its epoch has no OPEN record, or its capture begins, in the action that makes it a head, acceptance too (log 28). (A
head that leaves makes the next a head in the same action, log 26; several heads are taken in the order of log 4, and reservations
asked together form a group, log 6.) A seal whose epoch's writes are done starts: the SU's work is done and its SEAL record, with
any PAD, reserved and written. -/
def Obligations.ConsequencesOfAnAction : Prop :=
  ∀ s : State,
    (s.settle.wu.staged = s.wu.staged ∧ s.settle.jw.region = s.jw.region ∧ s.settle.ec.retention = s.ec.retention ∧
      s.settle.ec.timerInterval = s.ec.timerInterval ∧ s.settle.ec.timerEnable = s.ec.timerEnable ∧
      s.settle.ec.strobeEnable = s.ec.strobeEnable ∧ s.settle.ec.strobePolarity = s.ec.strobePolarity ∧
      s.settle.ec.merged = s.ec.merged ∧ s.settle.iq.holdLimit = s.iq.holdLimit ∧ s.settle.iq.nextPos = s.iq.nextPos ∧
      s.settle.da.slots = s.da.slots ∧ s.settle.da.lastGranted = s.da.lastGranted ∧ s.settle.port = s.port ∧
      s.settle.inReset = s.inReset ∧ s.settle.noFrame = s.noFrame ∧ s.settle.dport = s.dport ∧ s.settle.mdo = s.mdo ∧
      s.settle.pending = s.pending ∧ ∃ evs, s.settle.eq = s.eq.raiseAll evs) ∧
    ((∀ x ∈ s.iq.slots, x.state ≠ .waiting) ∨ (s.IntakeOk ∧ s.HeadsSettled) → s.re.phase ≠ .drain → s.NoSealDue →
      s.settle = s) ∧
    (∀ x : Slot, s.IntakeOk → s.OnlyHead x →
      let answered := fun (o : Decided) =>
        ({ s with
           uport := s.uport ++ [{ master := x.req.master, tag := x.req.tag, data := [],
                                  status := match o with
                                    | .fenced => .fenced
                                    | .tripped => .tripped
                                    | .halted => .halted
                                    | .heldTimeout => .heldTimeout }]
           iq := { s.iq with slots := s.iq.slots.filter (fun y => decide (y.ix ≠ x.ix)) } } : State)
      let becomes := fun (z : Slot) => { s.iq with slots := s.iq.slots.map (fun y => if y.ix = x.ix then z else y) }
      let asks := { s.da with forward := s.da.forward ++ [x.ix] }
      (∀ o, x.outcome = some o →
        (x.duty = false → s.settle = (answered o).settle) ∧
        (∀ y, x.duty = true → s.HeirOf x y → s.settle = State.settle
          { answered o with iq := { s.iq with
              slots := (s.iq.slots.filter (fun z => decide (z.ix ≠ x.ix))).map (fun z => if z.ix = y.ix then
                { z with marking := some .capture, duty := true } else z) } }) ∧
        (x.duty = true → (∀ y, ¬ s.MayInherit x y) → x.epoch.isSome → x.epoch = s.openEpoch? → s.settle = State.settle
          { answered o with cu := { s.cu with touched := s.cu.touched.filter (fun g => decide (g ≠ x.granule)) } }) ∧
        (x.duty = true → (∀ y, ¬ s.MayInherit x y) → (x.epoch = none ∨ x.epoch ≠ s.openEpoch?) →
          s.settle = (answered o).settle)) ∧
      (x.outcome = none → (x.needsCapture = false ∨ x.epoch = none) → s.settle = State.settle { s with da := asks }) ∧
      (∀ e, x.outcome = none → x.needsCapture = true → x.epoch = some e → x.atPoint = false →
        (s.tripped x.win = true → s.settle = State.settle
          { s with
            iq := becomes { x with outcome := some .tripped }
            eq := s.eq.raise { code := .trippedWrite, win := x.win, master := some x.req.master,
                               arg := BitVec.ofNat 32 (x.req.addr.toNat / 4096) } }) ∧
        (s.tripped x.win = false → s.isBroken e = true → s.settle = State.settle { s with da := asks }) ∧
        (s.tripped x.win = false → s.isBroken e = false → s.jw.pressure = .suspended → s.settle = State.settle
          { s with
            ec := { s.ec with table := s.ec.table.map (fun y => if y.number = e then
              { y with broken := some (y.broken.getD (s.jw.reason.getD .pressure)) } else y) }
            iq := { s.iq with slots := s.iq.slots.map (fun y => if y.epoch = some e then { y with atPoint := false } else y) }
            da := asks }) ∧
        (s.tripped x.win = false → s.isBroken e = false → s.jw.pressure ≠ .suspended → s.openLineOf e = none →
          s.settle = State.settle { s with iq := becomes { x with atPoint := true } }) ∧
        (s.tripped x.win = false → s.isBroken e = false → s.jw.pressure ≠ .suspended → (s.openLineOf e).isSome →
          s.settle = State.settle
            { s with
              iq := becomes { x with state := .capturing }
              cu := { s.cu with captures := s.cu.captures ++
                [{ slot := x.ix, epoch := e, win := x.win, granule := x.granule,
                   dup := decide (x.marking = some .captureDup), step := .reserving, undoLine := none, backLink := none,
                   old := none, asked := s.nextGroup }] } }))) ∧
    (∀ e, (∀ x ∈ s.iq.slots, x.state ≠ .waiting) → s.re.phase ≠ .drain → s.sealingEntry? = some e →
      s.entry? e.number = some e → e.sealLine = none →
      (∀ x ∈ s.iq.slots, x.epoch = some e.number → x.state = .held) → s.jw.head < s.ringLines → 17 ≤ s.free →
      let w := s.sealWork e.number
      let sigs := w.sigList
      let len := 1 + (sigs.length + 1) / 2
      let pad := if s.ringLines - s.jw.head < len then s.ringLines - s.jw.head else 0
      let line := if pad = 0 then s.jw.head else 0
      let writes := (if pad = 0 then [] else [RecordReq.pad s.jw.head e.number pad]) ++ [.sealRec line e.number sigs]
      s.settle.jw.head = (line + len) % s.ringLines ∧
      s.settle.jw.sealJob = some { epoch := e.number, line := line, sigs := sigs, after := s.settle.jw.head } ∧
      (s.settle.entry? e.number).map (·.sealLine) = some (some line) ∧
      (s.holdsBack = false → s.settle.da = { s.da with sealWriter := s.da.sealWriter ++ writes }) ∧
      (s.holdsBack = true → s.settle.da = { s.da with heldSealWriter := s.da.heldSealWriter ++ writes }) ∧
      (∀ x ∈ s.settle.iq.slots, x.epoch ≠ some e.number) ∧ s.settle.wu = w.wu ∧ s.settle.su = w.su ∧
      ∃ evs, s.settle.eq = w.eq.raiseAll evs ∧ ∀ ev ∈ evs, ev.code.codes.1 = 0)

/-! ## Enabling, retention -/

/-- ENABLE: in PASSTHROUGH with a region set one OPEN epoch of the number given, its OPEN record at line 0, an empty ring but for
it, NORMAL pressure, an empty touched set, banks filled from the active table with an armed table applied first, the timer started,
and JOURNALING-ENABLED with the line count; STATE or BUSY otherwise, with no effect. -/
def Obligations.Enable : Prop :=
  ∀ (s : State) (start : EpochNo), s.Listens →
    (∀ g, s.ec.bridge = .passthrough → s.jw.region = some g → 16 ≤ g.pages →
      ∃ u : State, exec (.enable start) s = .next (u.withAnswer (.answer { args := 4, status := .done, response := [] })) ∧
        u.ec = { s.ec with
          bridge := .journaling
          table := [{ number := start, state := .opened, openLine := some 0, lastUndo := none, sealLine := none,
                      endLine := none, undos := 0, overflow := 0, written := 0#16, broken := none, sigs := none }]
          timer := s.fullTimer } ∧
        u.jw = { s.jw with head := 1, tail := 0, pressure := .normal, reason := none } ∧
        u.cu = { s.cu with touched := [] } ∧ s.AppliesAndFills u (some start) ∧
        (s.wu.armed = false → u.su.sealingBank = Bank.reset) ∧
        (s.holdsBack = false → u.da = { s.da with sealWriter := s.da.sealWriter ++ [.openRec 0 start none] }) ∧
        (s.holdsBack = true → u.da = { s.da with heldSealWriter := s.da.heldSealWriter ++ [.openRec 0 start none] }) ∧
        (s.wu.armed = false → u.eq = s.eq.raise
          { code := .journalingEnabled, epoch := some start, arg := BitVec.ofNat 32 (g.pages * 256) }) ∧
        (s.wu.armed = true → ∃ changed,
          u.eq = (s.eq.raise { code := .tableApplied, epoch := some start, arg := changed }).raise
            { code := .journalingEnabled, epoch := some start, arg := BitVec.ofNat 32 (g.pages * 256) }) ∧
        s.SameSlots u ∧ u.re = s.re ∧ s.SameAround u) ∧
    (s.ec.bridge = .passthrough → s.jw.region = none → exec (.enable start) s = .next (s.answered 4 .state [])) ∧
    ((s.ec.bridge = .journaling ∨ s.ec.bridge = .halted) → exec (.enable start) s = .next (s.answered 4 .state [])) ∧
    ((s.ec.bridge = .closing ∨ s.ec.bridge = .rolling) → exec (.enable start) s = .next (s.answered 4 .busy []))

/-- RETENTION SET: STATE in ROLLING and HALTED whatever the argument; ARGUMENT for 0 and above 63; otherwise DONE with the new
depth, and the SEALED epochs beyond it are committed at once, oldest first. -/
def Obligations.RetentionSet : Prop :=
  ∀ (s : State) (depth : Byte), s.Listens →
    ((s.ec.bridge = .rolling ∨ s.ec.bridge = .halted) → exec (.retentionSet depth) s = .next (s.answered 1 .state [])) ∧
    (s.ec.bridge ≠ .rolling → s.ec.bridge ≠ .halted → (depth.toNat = 0 ∨ 63 < depth.toNat) →
      exec (.retentionSet depth) s = .next (s.answered 1 .argument [])) ∧
    (s.ec.bridge ≠ .rolling → s.ec.bridge ≠ .halted → 1 ≤ depth.toNat → depth.toNat ≤ 63 →
      (s.sealedCount ≤ depth.toNat →
        exec (.retentionSet depth) s = .next (State.withAnswer (State.settle
          { s with uport := [], dport := [], mdo := .undriven, ec := { s.ec with retention := depth.toNat } })
          (.answer { args := 1, status := .done, response := [] }))) ∧
      (∀ old y rest l, s.ec.table = old ++ y :: rest → (∀ z ∈ old, z.state = .sealed) → y.state = .sealed →
        s.sealedCount = depth.toNat + (old.length + 1) → y.endLine = some l →
        ∃ u : State, exec (.retentionSet depth) s =
            .next (u.settle.withAnswer (.answer { args := 1, status := .done, response := [] })) ∧
          u.ec = { s.ec with retention := depth.toNat, table := rest } ∧ u.jw.head = s.jw.head ∧ u.jw.tail = l ∧
          (∃ evs, u.eq = s.eq.raiseAll evs ∧
            (evs.filter (fun ev => ev.code = .epochCommitted)) =
              (old ++ [y]).map (fun z => { code := .epochCommitted, epoch := some z.number, arg := 1#32 })) ∧
          s.SameSlots u ∧ u.cu = s.cu ∧ u.su = s.su ∧ u.wu = s.wu ∧ u.re = s.re ∧ u.da = s.da ∧ s.SameAround u))

/-! ## Rollback -/

/-- ROLLBACK: the conditions of R139 in its order, the first that holds giving the answer, and an answer other than DONE having no
effect. -/
def Obligations.RollbackAnswers : Prop :=
  ∀ (s : State) (t : EpochNo), s.Listens →
    let brokenInSpan := ∃ y ∈ s.ec.table.dropWhile (fun y => y.number != t), y.broken.isSome
    let tooNew := ∃ r, s.re.reach = some r ∧
      s.ec.table.findIdx (fun y => y.number == r) < s.ec.table.findIdx (fun y => y.number == t)
    let refused := fun (status : MStatus) => exec (.rollback t) s = .next (s.answered 4 status [])
    ((s.ec.bridge = .passthrough ∨ s.ec.bridge = .closing) → refused .state) ∧
    (s.ec.bridge = .rolling → refused .busy) ∧
    (s.ec.bridge = .journaling → s.jw.pressure = .suspended → refused .state) ∧
    ((s.ec.bridge = .journaling ∧ s.jw.pressure ≠ .suspended ∨ s.ec.bridge = .halted) →
      ((∀ y ∈ s.ec.table, y.number ≠ t) → refused .argument) ∧
      ((∃ y ∈ s.ec.table, y.number = t) → brokenInSpan → refused .argument) ∧
      ((∃ y ∈ s.ec.table, y.number = t) → ¬ brokenInSpan → s.ec.bridge = .halted → tooNew → refused .argument) ∧
      ((∃ y ∈ s.ec.table, y.number = t) → ¬ brokenInSpan → (s.ec.bridge = .halted → ¬ tooNew) →
        ∃ u : State, exec (.rollback t) s = .next u ∧ u.mdo = .answer { args := 4, status := .done, response := [] }))

/-- A ROLLBACK that is accepted: ROLLING, DRAIN, the target and applied count 0; the counts and the reach epoch start anew from
JOURNALING and are kept from HALTED; a pending boundary is dropped and counted; every WAITING JOURNAL or GUARD request with no
decided outcome, but for a write whose capture has ended, is HELD with the timestamp and withdrawn (a write whose capture began with
its acceptance is CAPTURING, and stays: log 28); no event is raised. -/
def Obligations.RollbackAccepted : Prop :=
  ∀ (s : State) (t : EpochNo), s.Listens → s.IntakeOk → (∃ y ∈ s.ec.table, y.number = t) →
    (∀ y ∈ s.ec.table.dropWhile (fun y => y.number != t), y.broken = none) →
    (s.ec.bridge = .journaling ∧ s.jw.pressure ≠ .suspended ∨ s.ec.bridge = .halted ∧ ∀ r, s.re.reach = some r →
      s.ec.table.findIdx (fun y => y.number == t) ≤ s.ec.table.findIdx (fun y => y.number == r)) →
    let moves := fun (x : Slot) => decide (x.state = .waiting ∧ (x.kind = .journal ∨ x.kind = .guard) ∧ x.outcome = none ∧
      x.captureEnded = false)
    let base := if s.ec.bridge = .journaling then 0 else s.re.discarded
    ∃ u : State, exec (.rollback t) s =
        .next (u.settle.withAnswer (.answer { args := 4, status := .done, response := [] })) ∧
      u.ec = { s.ec with bridge := .rolling, pending := false, closing := if s.ec.pending then false else s.ec.closing } ∧
      u.re = { s.re with
        phase := .drain
        target := some t
        applied := 0
        failures := if s.ec.bridge = .journaling then 0 else s.re.failures
        discarded := if s.ec.pending then (if base < 255 then base + 1 else 255) else base
        reach := if s.ec.bridge = .journaling then none else s.re.reach } ∧
      u.iq = { s.iq with slots := s.iq.slots.map (fun x => if moves x then
        { x with state := .held, holdEntry := some s.eq.time, atPoint := false } else x) } ∧
      u.da = { s.da with forward := s.da.forward.filter (fun q => s.iq.slots.all (fun x => x.ix != q || !moves x)) } ∧
      u.eq = s.eq ∧ u.jw = s.jw ∧ u.cu = s.cu ∧ u.su = s.su ∧ u.wu = s.wu ∧ s.SameAround u

/-- DRAIN ends when no write of an epoch, and none whose capture has ended, is unanswered but HELD ones (one ISSUED before ENABLE is
not waited for: log 23), no epoch is SEALING, no record write is left (log 11), and no request decided HALTED is unanswered; while
one of these fails it waits. With the target in the table and its span unbroken, the walk starts at the newest UNDO record of the
span, and with no such record FINISH follows at once; otherwise ROLLBACK-REFUSED ends the rollback, BROKEN or REMOVED (REMOVED where
both hold: log 27), and releases the HELD requests: those with an assignment keep it, and a write with none is assigned to the OPEN
epoch, uncaptured where that is broken or pressure SUSPENDED, otherwise looked up, taking the duty over from a write behind it. -/
def Obligations.DrainEnds : Prop :=
  (∀ s : State, s.re.phase = .drain → s.IntakeOk → s.HeadsSettled → s.NoSealDue →
    ((∃ x ∈ s.iq.slots, (x.epoch.isSome ∨ x.captureEnded = true) ∧ x.state ≠ .held) ∨ s.sealingEntry?.isSome ∨ s.recordWriteLeft = true ∨
      (∃ x ∈ s.iq.slots, x.outcome = some .halted)) →
    s.settle = s) ∧
  ∀ (s : State) (t : EpochNo), s.re.phase = .drain → s.re.target = some t →
    (∀ x ∈ s.iq.slots, x.state ≠ .waiting ∧ (x.epoch = none ∧ x.captureEnded = false ∨ x.state = .held) ∧
      x.outcome ≠ some .halted) →
    s.sealingEntry? = none → s.recordWriteLeft = false →
    (∀ (x w : Entry) (o : Nat) (kept : List Entry),
      (∀ z ∈ s.ec.table.dropWhile (fun z => z.number != t), z.broken = none ∧ z.lastUndo = none) →
      kept = s.ec.table.takeWhile (fun y => y.number != t) → s.entry? t = some x →
      x.openLine = some o → s.ec.table.getLast? = some w → (∀ y ∈ kept, y.number ≠ w.number + 1#32) →
      o < s.ringLines → (o + s.ringLines - s.jw.tail) % s.ringLines + 2 ≤ s.ringLines →
      ∃ u : State, s.settle = u.serve ∧ s.FinishesTo u t (w.number + 1#32) o s.re.applied kept ∧ u.da.slots = s.da.slots ∧
        u.port = s.port ∧ u.uport = s.uport) ∧
    (∀ older newer y l, s.ec.table.dropWhile (fun z => z.number != t) = older ++ y :: newer →
      (∀ z ∈ older ++ y :: newer, z.broken = none) → (∀ z ∈ newer, z.lastUndo = none) → y.lastUndo = some l →
      s.settle =
        { s with
          re := { s.re with phase := .walk, walkEpoch := some y.number, walkLine := some l, walkStep := some .reading,
                            inHand := none }
          da := { s.da with rollback := some (.recordRead l) } }) ∧
    (((∀ y ∈ s.ec.table, y.number ≠ t) ∨ ∃ y ∈ s.ec.table.dropWhile (fun z => z.number != t), y.broken.isSome) →
      ∃ (u : State) (evs : List Event), s.settle = u.serve ∧
        u.ec = { s.ec with bridge := .journaling, table := u.ec.table } ∧ u.da = s.da ∧ u.port = s.port ∧
        u.re = { s.re with target := none, phase := .idle, walkEpoch := none, walkLine := none, walkStep := none,
                           inHand := none } ∧
        u.eq = (s.eq.raiseAll evs).raise
          { code := .rollbackRefused, epoch := some t,
            arg := word32 (if s.ec.table.any (fun y => y.number == t) then 1#8 else 2#8)
                     (BitVec.ofNat 8 s.re.discarded) 0#8 0#8 } ∧
        (∀ x ∈ u.iq.slots, x.state ≠ .held) ∧ u.jw.head = s.jw.head ∧ u.wu = s.wu ∧
        (s.sealedCount ≤ s.ec.retention → u.jw.tail = s.jw.tail ∧
          u.ec.table.map (·.number) = s.ec.table.map (·.number)) ∧
        (∀ y, s.IntakeOk → s.openEntry? = some y →
          let after := fun (x : Slot) => { x with state := .waiting, holdEntry := none, atPoint := false }
          (y.broken.isSome ∨ s.jw.pressure = .suspended → u.cu = s.cu ∧ ∀ x ∈ s.iq.slots,
            (x.state = .held → (x.req.dir = .read ∨ x.epoch.isSome) →
              (u.slot? x.ix).map Slot.reexamined = some (after x)) ∧
            (x.state = .held → x.req.dir = .write → x.epoch = none →
              (u.slot? x.ix).map Slot.reexamined = some
                { after x with epoch := some y.number, marking := some .noCapture })) ∧
          (y.broken = none → s.jw.pressure ≠ .suspended → ∀ x, s.HeldWrite x → x.epoch = none →
            (∀ x', s.HeldWrite x' → x'.epoch = none → x' = x) →
            let behind := fun (z : Slot) => z ∈ s.iq.slots ∧ z.granule = x.granule ∧ z.duty = true ∧
              z.epoch = some y.number ∧ x.pos < z.pos
            (x.granule ∉ s.cu.touched → s.cu.touched.length < 1024 → u.cu.touched = x.granule :: s.cu.touched ∧
              (u.slot? x.ix).map Slot.reexamined = some
                { after x with epoch := some y.number, marking := some .capture, duty := true }) ∧
            (x.granule ∉ s.cu.touched → 1024 ≤ s.cu.touched.length → u.cu.touched = s.cu.touched ∧
              (u.slot? x.ix).map Slot.reexamined = some
                { after x with epoch := some y.number, marking := some .captureDup }) ∧
            (x.granule ∈ s.cu.touched → (∀ z, ¬ behind z) → u.cu.touched = s.cu.touched ∧
              (u.slot? x.ix).map Slot.reexamined = some
                { after x with epoch := some y.number, marking := some .noCapture }) ∧
            (∀ z, x.granule ∈ s.cu.touched → behind z → (∀ z', behind z' → z' = z) → u.cu.touched = s.cu.touched ∧
              (u.slot? x.ix).map Slot.reexamined = some
                { after x with epoch := some y.number, marking := some .capture, duty := true } ∧
              ∃ z', u.slot? z.ix = some z' ∧ z'.key = z.key ∧ z'.marking = some .noCapture ∧ z'.duty = false))))

/-- RECORD_READ_ACK OK with a header that passes the check makes the restore write of the record; OK with one that fails, and
ERROR, and ERROR on a restore write, fail the walk: ROLLBACK-FAILED with the walk epoch, line and reason, the failure count, HALTED,
the HELD requests decided HALTED, the timer stopped, the table and the ring kept. -/
def Obligations.RecordReadAck : Prop :=
  ∀ (s : State) (p : PortIx) (e : EpochNo) (l o : Nat) (y : Entry), s.re.walkEpoch = some e →
    s.re.walkLine = some l → s.entry? e = some y → y.openLine = some o →
    let passes := fun (data : List Byte) =>
      data.getD 0 0#8 = 0xA2#8 ∧ data.getD 1 0#8 = 5#8 ∧
      word32 (data.getD 4 0#8) (data.getD 5 0#8) (data.getD 6 0#8) (data.getD 7 0#8) = e ∧
      (let b := word32 (data.getD 8 0#8) (data.getD 9 0#8) (data.getD 10 0#8) (data.getD 11 0#8)
       b = 0xFFFFFFFF#32 ∨ (b.toNat < s.ringLines ∧
         (b.toNat + s.ringLines - o) % s.ringLines < (l + s.ringLines - o) % s.ringLines))
    let failed := fun (why : BitVec 4) =>
      ({ s with
         uport := []
         dport := []
         mdo := .undriven
         da := { s.da with slots := s.da.slots.set p none }
         ec := { s.ec with bridge := .halted, timer := none }
         re := { s.re with
           target := none
           phase := .idle
           walkEpoch := none
           walkLine := none
           walkStep := none
           inHand := none
           applied := 0
           failures := if s.re.failures < 255 then s.re.failures + 1 else 255 }
         iq := { s.iq with slots := s.iq.slots.map (fun x => if x.state = .held then
           { x with state := .waiting, holdEntry := none, outcome := some .halted } else x) }
         eq := s.eq.raise { code := .rollbackFailed, epoch := some e, arg := (why ++ BitVec.ofNat 28 l : BitVec 32) } } :
        State)
    (∀ data, s.Outstanding p .recordRead → passes data →
      let rec' : Record :=
        { granule := word32 (data.getD 12 0#8) (data.getD 13 0#8) (data.getD 14 0#8) (data.getD 15 0#8)
          backLink := (let b := word32 (data.getD 8 0#8) (data.getD 9 0#8) (data.getD 10 0#8) (data.getD 11 0#8)
                       if b = 0xFFFFFFFF#32 then none else some b.toNat)
          old := (data.drop 16).take 64 }
      exec (.recordReadAck p (.ok data)) s = .next (State.settle
        { s with
          uport := []
          dport := []
          mdo := .undriven
          re := { s.re with walkStep := some .restoring, inHand := some rec' }
          da := { s.da with slots := s.da.slots.set p none, rollback := some (.restore rec') } })) ∧
    (∀ data, s.Outstanding p .recordRead → ¬ passes data →
      exec (.recordReadAck p (.ok data)) s = .next (failed 3#4).settle) ∧
    (s.Outstanding p .recordRead → exec (.recordReadAck p .error) s = .next (failed 1#4).settle) ∧
    (s.Outstanding p .restoreWrite → exec (.restoreWriteAck p .error) s = .next (failed 2#4).settle)

/-- RESTORE_WRITE_ACK OK counts the restore and goes on: to the record the back-link names; at the end of a chain to the newest
older epoch of the span with an UNDO record; and when none is left to FINISH, which cuts the ring back to the target's open line,
removes the target and every newer epoch, opens the number after the newest, releases the HELD requests, the reads without an
assignment, the writes into the new epoch and its emptied set, the oldest of each granule to be captured, and raises ROLLBACK-DONE
with both counts. -/
def Obligations.RestoreWriteAck : Prop :=
  ∀ (s : State) (p : PortIx) (t e : EpochNo) (data : List Byte), s.Outstanding p .restoreWrite →
    s.re.target = some t → s.re.walkEpoch = some e →
    let applied := if s.re.applied < 16777215 then s.re.applied + 1 else 16777215
    let span := (s.ec.table.dropWhile (fun y => y.number != t)).takeWhile (fun y => y.number != e)
    let reads := fun (e' : EpochNo) (l : Nat) =>
      ({ s with
         uport := []
         dport := []
         mdo := .undriven
         re := { s.re with phase := .walk, walkEpoch := some e', walkLine := some l, walkStep := some .reading,
                           inHand := none, applied := applied }
         da := { s.da with slots := s.da.slots.set p none, rollback := some (.recordRead l) } } : State)
    (∀ r b, s.re.inHand = some r → r.backLink = some b →
      exec (.restoreWriteAck p (.ok data)) s = .next (reads e b).settle) ∧
    (∀ r older y newer l, s.re.inHand = some r → r.backLink = none → span = older ++ y :: newer →
      (∀ z ∈ newer, z.lastUndo = none) → y.lastUndo = some l →
      exec (.restoreWriteAck p (.ok data)) s = .next (reads y.number l).settle) ∧
    (∀ (r : Record) (x w : Entry) (o : Nat) (kept : List Entry), s.re.inHand = some r → r.backLink = none →
      (∀ z ∈ span, z.lastUndo = none) → kept = s.ec.table.takeWhile (fun y => y.number != t) → s.entry? t = some x →
      x.openLine = some o → s.ec.table.getLast? = some w → (∀ y ∈ kept, y.number ≠ w.number + 1#32) →
      o < s.ringLines → (o + s.ringLines - s.jw.tail) % s.ringLines + 2 ≤ s.ringLines →
      ∃ u : State, exec (.restoreWriteAck p (.ok data)) s = .next u.settle ∧
        s.FinishesTo u t (w.number + 1#32) o applied kept ∧ s.SameAround u ∧ u.da.slots = s.da.slots.set p none)

/-- RELEASE in HALTED empties the table and the ring, leaves pressure NORMAL with the events of the change, resets both banks, and
raises RELEASED with the number of epochs removed; in every other bridge state it is answered STATE. -/
def Obligations.Release : Prop :=
  ∀ s : State, s.Listens →
    (s.ec.bridge = .halted →
      ∃ u : State, exec .release s = .next (u.withAnswer (.answer answerDone)) ∧
        u.ec = { s.ec with table := [], bridge := .passthrough } ∧
        u.jw = { s.jw with tail := s.jw.head, pressure := .normal, reason := none } ∧
        u.su = { s.su with openBank := Bank.reset, sealingBank := Bank.reset } ∧
        u.re = { s.re with reach := none, discarded := 0 } ∧
        u.eq = (s.eq.raiseAll (match s.jw.pressure with
          | .normal => []
          | .warning => [{ code := .warningLeft }]
          | .constrained => [{ code := .constrainedLeft }, { code := .warningLeft }]
          | .suspended => [{ code := .suspendedLeft }])).raise
            { code := .released, arg := BitVec.ofNat 32 s.ec.table.length } ∧
        s.SameSlots u ∧ u.cu = s.cu ∧ u.wu = s.wu ∧ u.da = s.da ∧ s.SameAround u) ∧
    (s.ec.bridge ≠ .halted → exec .release s = .next (s.answered 0 .state []))

/-- JOURNAL RESET in every bridge state: every assignment and marking is cleared, HELD and CAPTURING requests are WAITING, decided
outcomes and ISSUED requests stay; captures, touched set, table, banks and the three other claimants' lists are emptied and their
D-port slots flagged; head and tail are 0, pressure NORMAL; the settings and the region stay; ROLLBACK-ABORTED comes first in
ROLLING and JOURNAL-RESET last. A TRIPPED-WRITE may stand between them: the model's order (log 17). -/
def Obligations.JournalReset : Prop :=
  ∀ s : State, s.Listens →
    ∃ (u : State) (evs : List Event), exec .journalReset s = .next (u.settle.withAnswer (.answer answerDone)) ∧
      u.ec = { s.ec with bridge := .passthrough, table := [], pending := false, closing := false, merged := 0,
                         timer := none } ∧
      u.jw = { s.jw with head := 0, tail := 0, pressure := .normal, reason := none, sealJob := none } ∧
      u.cu = { touched := [], captures := [] } ∧
      u.su = { s.su with openBank := Bank.reset, sealingBank := Bank.reset } ∧ u.wu = s.wu ∧ s.SameAround u ∧
      u.re = { target := none, phase := .idle, walkEpoch := none, walkLine := none, walkStep := none, inHand := none,
               applied := 0, discarded := 0, failures := s.re.failures, reach := none } ∧
      u.da.forward = s.da.forward ∧ u.da.capture = [] ∧ u.da.sealWriter = [] ∧ u.da.rollback = none ∧
      u.da.heldCapture = [] ∧ u.da.heldSealWriter = [] ∧ u.da.lastGranted = s.da.lastGranted ∧
      (∀ p : PortIx, s.da.slots[p] = none → u.da.slots[p] = none) ∧
      (∀ (p : PortIx) (k : PortSlot), s.da.slots[p] = some k →
        u.da.slots[p] = some (if k.kind.forwardOwner?.isSome then k else { k with discard := true })) ∧
      (∀ q x, s.slot? q = some x → ∃ y, u.slot? q = some y ∧ y.key = x.key ∧ y.epoch = none ∧ y.marking = none ∧
        (x.state = .issued → y.state = .issued) ∧ (x.state ≠ .issued → y.state = .waiting) ∧
        (x.outcome.isSome → y.outcome = x.outcome) ∧
        (x.outcome = none → x.state ≠ .capturing ∨ s.tripped x.win = false → y.outcome = none)) ∧
      (∀ ev ∈ evs, ev.code = .trippedWrite) ∧
      u.eq = (((if s.ec.bridge = .rolling then s.eq.raise
            { code := .rollbackAborted, epoch := s.re.target,
              arg := (BitVec.ofNat 8 (match s.re.phase with | .idle => 0 | .drain => 1 | .walk => 2)
                       ++ BitVec.ofNat 24 s.re.applied : BitVec 32) }
          else s.eq).raiseAll evs).raise
        { code := .journalReset
          epoch := match s.openEntry? with
            | some o => some o.number
            | none => if s.ec.bridge = .closing then s.sealingEntry?.map (·.number) else none
          arg := word32 (match s.ec.bridge with
              | .passthrough => 0#8 | .journaling => 1#8 | .closing => 2#8 | .rolling => 3#8 | .halted => 4#8)
            (BitVec.ofNat 8 s.ec.table.length) 0#8 0#8 })

/-! ## Events -/

/-- EVENT READ: ARGUMENT outside 1 to 32; otherwise the lesser of the count and the records held is removed from the head and
returned, oldest first; when a record was removed and the lost counter is not 0, an EVENTS-LOST record with the counter follows at
the tail and the counter returns to 0; the line is evaluated. A read that removes nothing changes nothing. -/
def Obligations.EventRead : Prop :=
  ∀ (s : State) (count : Byte), s.Listens → s.eq.records.length ≤ 32 →
    ((count.toNat = 0 ∨ 32 < count.toNat) → exec (.eventRead count) s = .next (s.answered 1 .argument [])) ∧
    (1 ≤ count.toNat → count.toNat ≤ 32 → s.eq.records = [] →
      exec (.eventRead count) s = .next (s.answered 1 .done [0#8])) ∧
    (1 ≤ count.toNat → count.toNat ≤ 32 → s.eq.records ≠ [] →
      let k := min count.toNat s.eq.records.length
      ∃ q : EventQueue,
        exec (.eventRead count) s = .next (State.answered { s with eq := q } 1 .done
          (BitVec.ofNat 8 k :: (s.eq.records.take k).flatMap EventRec.bytes)) ∧
        q.lost = 0 ∧ q.mask = s.eq.mask ∧ q.time = s.eq.time ∧
        (s.eq.lost = 0 → q.records = s.eq.records.drop k ∧ q.seq = s.eq.seq) ∧
        (s.eq.lost ≠ 0 → q.seq = s.eq.seq + 1#16 ∧
          q.records = s.eq.records.drop k ++
            [{ seq := s.eq.seq, time := s.eq.time,
               event := { code := .eventsLost, win := none, master := none, epoch := none,
                          arg := BitVec.ofNat 32 s.eq.lost } }]) ∧
        (q.evtN = true ↔ ∀ r ∈ q.records, q.mask.getLsbD r.event.code.codes.1 = false))

/-- An event raised into fewer than 32 records is inserted at the tail with the sequence counter and the timestamp, the counter
moves on, and the line is evaluated; into a full queue it is dropped and counted, and nothing else changes. EVENT MASK SET takes any
mask, answers with it, and evaluates the line. -/
def Obligations.EventsAndLine : Prop :=
  (∀ (q : EventQueue) (e : Event), q.records.length < 32 →
    (q.raise e).records = q.records ++ [{ seq := q.seq, event := e, time := q.time }] ∧ (q.raise e).seq = q.seq + 1#16 ∧
    (q.raise e).lost = q.lost ∧ (q.raise e).mask = q.mask ∧ (q.raise e).time = q.time ∧
    ((q.raise e).evtN = true ↔ ∀ r ∈ (q.raise e).records, q.mask.getLsbD r.event.code.codes.1 = false)) ∧
  (∀ (q : EventQueue) (e : Event), 32 ≤ q.records.length →
    q.raise e = { q with lost := if q.lost < 255 then q.lost + 1 else 255 }) ∧
  (∀ (s : State) (mask : Byte), s.Listens →
    ∃ line : Bool, (line = true ↔ ∀ r ∈ s.eq.records, mask.getLsbD r.event.code.codes.1 = false) ∧
      exec (.eventMaskSet mask) s = .next (State.answered { s with eq := { s.eq with mask := mask, evtN := line } } 1 .done
        [mask]))

/-! ## Settings, arms and reads -/

/-- JOURNAL SETUP: STATE, then ARGUMENT, then BUSY, in that order; otherwise the region is set, head and tail go to line 0, and
every request inside the region that is not ISSUED and has no decided outcome is decided FENCED and withdrawn, with one FENCE-HIT of
its master and page for each, no other event, and the other slots as they were. That several FENCE-HIT stand in acceptance order is
the model's choice (log 4). -/
def Obligations.JournalSetup : Prop :=
  ∀ (s : State) (base pages : Word32), s.Listens →
    let invalid := pages.toNat < 16 ∨ 262144 < pages.toNat ∨ 67108864 < base.toNat + pages.toNat
    let busy := ∃ (p : PortIx) (k : PortSlot), s.da.slots[p] = some k ∧ k.kind.isRing = true
    (s.ec.bridge ≠ .passthrough → exec (.journalSetup base pages) s = .next (s.answered 8 .state [])) ∧
    (s.ec.bridge = .passthrough → invalid → exec (.journalSetup base pages) s = .next (s.answered 8 .argument [])) ∧
    (s.ec.bridge = .passthrough → ¬ invalid → busy →
      exec (.journalSetup base pages) s = .next (s.answered 8 .busy [])) ∧
    (s.ec.bridge = .passthrough → ¬ invalid → ¬ busy → s.IntakeOk → s.jw.pressure = .normal →
      let hit := fun (x : Slot) => decide (x.state ≠ .issued ∧ x.outcome = none ∧
        base.toNat * 4096 ≤ x.req.addr.toNat ∧ x.req.addr.toNat < (base.toNat + pages.toNat) * 4096)
      ∃ u : State, exec (.journalSetup base pages) s =
          .next (u.settle.withAnswer (.answer { args := 8, status := .done, response := [] })) ∧
        u.jw = { s.jw with region := some { base := base.toNat, pages := pages.toNat }, head := 0, tail := 0,
                           reason := none } ∧
        u.ringLines = pages.toNat * 256 ∧
        u.eq = s.eq.raiseAll ((s.iq.slots.filter hit).map (fun x =>
          { code := .fenceHit, win := none, master := some x.req.master, epoch := none,
            arg := BitVec.ofNat 32 (x.req.addr.toNat / 4096) })) ∧
        (∀ q x, s.slot? q = some x →
          (hit x = true → q ∉ u.da.forward ∧ ∃ y, u.slot? q = some y ∧ y.key = x.key ∧ y.outcome = some .fenced ∧
            y.state ≠ .held) ∧
          (hit x = false → u.slot? q = some x)) ∧
        u.ec = s.ec ∧ u.cu = s.cu ∧ u.su = s.su ∧ u.wu = s.wu ∧ u.re = s.re ∧
        u.da = { s.da with forward := u.da.forward } ∧ s.SameAround u)

/-- TIMER SET, STROBE SET, HOLD LIMIT SET, CLEAR TRIP and CLEAR COUNTERS: ARGUMENT outside their ranges, and otherwise the
settings given, the timer starting or stopping only in JOURNALING and ROLLING, a new hold limit acting at once on each HELD
request, the trip flags of the set cleared and no other, and the merged counter answered and set to 0. That several HOLD-TIMEOUT of
one new limit stand in acceptance order is the model's choice (log 4). -/
def Obligations.Settings : Prop :=
  ∀ s : State, s.Listens →
    (∀ (interval : BitVec 16) (enable : Byte),
      ((interval = 0#16 ∨ 1 < enable.toNat) → exec (.timerSet interval enable) s = .next (s.answered 3 .argument [])) ∧
      (interval ≠ 0#16 → enable.toNat ≤ 1 →
        exec (.timerSet interval enable) s = .next (State.answered
          { s with ec := { s.ec with
              timerInterval := interval
              timerEnable := decide (enable = 1#8)
              timer := if s.ec.bridge = .journaling ∨ s.ec.bridge = .rolling then
                  (if enable = 1#8 then some (interval.toNat * 10) else none)
                else s.ec.timer } } 3 .done []))) ∧
    (∀ enable polarity : Byte,
      ((1 < enable.toNat ∨ 1 < polarity.toNat) →
        exec (.strobeSet enable polarity) s = .next (s.answered 2 .argument [])) ∧
      (enable.toNat ≤ 1 → polarity.toNat ≤ 1 →
        exec (.strobeSet enable polarity) s = .next (State.answered
          { s with ec := { s.ec with
              strobeEnable := decide (enable = 1#8)
              strobePolarity := if polarity = 1#8 then .falling else .rising } } 2 .done []))) ∧
    (∀ limit : BitVec 16,
      let due := fun (x : Slot) => decide (x.state = .held ∧ limit ≠ 0#16 ∧
        limit.toNat ≤ (s.eq.time - x.holdEntry.getD s.eq.time).toNat)
      s.IntakeOk →
      exec (.holdLimitSet limit) s = .next (State.withAnswer (State.settle
        { s with
          uport := []
          dport := []
          mdo := .undriven
          iq := { s.iq with
            holdLimit := limit
            slots := s.iq.slots.map (fun x => if due x then
              { x with state := .waiting, holdEntry := none, outcome := some .heldTimeout } else x) }
          eq := s.eq.raiseAll ((s.iq.slots.filter due).map (fun x =>
            { code := .holdTimeout, win := x.win, master := some x.req.master, arg := x.granule })) })
        (.answer { args := 2, status := .done, response := [] }))) ∧
    (∀ set : BitVec 16, ∃ trip : BitVec 16,
      (∀ i : WinIx, trip.getLsbD i.val = (s.wu.trip.getLsbD i.val && !set.getLsbD i.val)) ∧
      exec (.clearTrip set) s = .next ({ s with wu := { s.wu with trip := trip } }.answered 2 .done [])) ∧
    exec .clearCounters s = .next (State.answered { s with ec := { s.ec with merged := 0 } } 0 .done
      [BitVec.ofNat 8 s.ec.merged])

/-- ARM EXPECTED: STATE outside JOURNALING, ARGUMENT for an index above 15 or a window that is not GUARD in the OPEN bank, and
otherwise the value becomes that entry's expected value, and nothing else changes. -/
def Obligations.ArmExpected : Prop :=
  ∀ (s : State) (ix : Byte) (value : Word32), s.Listens →
    (s.ec.bridge ≠ .journaling → exec (.armExpected ix value) s = .next (s.answered 5 .state [])) ∧
    (s.ec.bridge = .journaling → 15 < ix.toNat →
      exec (.armExpected ix value) s = .next (s.answered 5 .argument [])) ∧
    (∀ i : WinIx, s.ec.bridge = .journaling → i.val = ix.toNat →
      (s.su.openBank.entries[i].kind ≠ .guard →
        exec (.armExpected ix value) s = .next (s.answered 5 .argument [])) ∧
      (s.su.openBank.entries[i].kind = .guard →
        exec (.armExpected ix value) s = .next (State.answered
          { s with su := { s.su with openBank := { s.su.openBank with
              entries := s.su.openBank.entries.set i { s.su.openBank.entries[i] with expected := some value } } } }
          5 .done [])))

/-- STATUS READ, EPOCH READ and SIGNATURE READ change no state. Their responses are the status record of 12.3; the entries from the
start position on, wrapping from 63 to 0, EMPTY beyond the table; the signature list of a SEALED epoch. ARGUMENT outside their
ranges and for an epoch that is not SEALED. The written set of an OPEN or SEALING epoch to which no bank belongs is the entry's own:
the model's choice (log 21). -/
def Obligations.Reads : Prop :=
  ∀ s : State, s.Listens →
    exec .statusRead s = .next (s.answered 0 .done
      ([(match s.ec.bridge with
         | .passthrough => 0#8 | .journaling => 1#8 | .closing => 2#8 | .rolling => 3#8 | .halted => 4#8),
        (match s.re.phase with | .idle => 0#8 | .drain => 1#8 | .walk => 2#8),
        (match s.jw.pressure with | .normal => 0#8 | .warning => 1#8 | .constrained => 2#8 | .suspended => 3#8),
        (match s.jw.reason with | none => 0#8 | some .pressure => 1#8 | some .media => 2#8),
        BitVec.ofNat 8 s.fill,
        BitVec.ofNat 8
          ((if s.openEntry?.isSome then 1 else 0) + (if s.ec.pending then 2 else 0) + (if s.ec.closing then 4 else 0)
            + (if s.wu.armed then 8 else 0) + (if s.jw.region.isSome then 16 else 0)
            + (if s.ec.timerEnable then 32 else 0) + (if s.ec.timer.isSome then 64 else 0)
            + (if s.ec.strobeEnable then 128 else 0)),
        (match s.ec.strobePolarity with | .rising => 0#8 | .falling => 1#8),
        BitVec.ofNat 8 s.ec.table.length]
      ++ bytes32 ((s.openEntry?.map (·.number)).getD 0#32)
      ++ [BitVec.ofNat 8 s.ec.merged, BitVec.ofNat 8 s.eq.records.length, BitVec.ofNat 8 s.eq.lost,
          BitVec.ofNat 8 s.re.failures]
      ++ bytes16 s.eq.seq ++ bytes16 s.wu.trip ++ bytes32 s.eq.time
      ++ bytes32 (BitVec.ofNat 32 ((s.jw.region.map (·.base)).getD 0)) ++ bytes32 (BitVec.ofNat 32 s.ringLines)
      ++ [BitVec.ofNat 8 s.ec.retention, s.eq.mask] ++ bytes16 s.ec.timerInterval ++ bytes16 s.iq.holdLimit
      ++ [0#8, 0#8])) ∧
    (∀ start count : Byte,
      ((63 < start.toNat ∨ count.toNat = 0 ∨ 64 < count.toNat) →
        exec (.epochRead start count) s = .next (s.answered 2 .argument [])) ∧
      (start.toNat ≤ 63 → 1 ≤ count.toNat → count.toNat ≤ 64 →
        ∃ bytes : List Byte, exec (.epochRead start count) s = .next (s.answered 2 .done bytes) ∧
          bytes.length = 32 * count.toNat ∧
          ∀ j, j < count.toNat →
            (∀ e, s.ec.table[(start.toNat + j) % 64]? = some e →
              (bytes.drop (32 * j)).take 32 =
                bytes32 e.number
                ++ [(match e.state with | .opened => 1#8 | .sealing => 2#8 | .sealed => 3#8),
                    (match e.broken with | none => 0#8 | some .pressure => 1#8 | some .media => 2#8),
                    BitVec.ofNat 8 ((e.sigs.map List.length).getD 0), 0#8]
                ++ bytes32 ((e.openLine.map (BitVec.ofNat 32)).getD 0xFFFFFFFF#32)
                ++ bytes32 ((e.lastUndo.map (BitVec.ofNat 32)).getD 0xFFFFFFFF#32)
                ++ bytes32 ((e.sealLine.map (BitVec.ofNat 32)).getD 0xFFFFFFFF#32)
                ++ bytes32 ((e.endLine.map (BitVec.ofNat 32)).getD 0xFFFFFFFF#32)
                ++ [BitVec.ofNat 8 e.undos, BitVec.ofNat 8 (e.undos / 256), BitVec.ofNat 8 (e.undos / 65536), 0#8]
                ++ bytes16 (BitVec.ofNat 16 e.overflow)
                ++ bytes16 (match e.state with
                    | .sealed => e.written
                    | .opened | .sealing => ((s.bank? e.number).map Bank.writtenSet).getD e.written)) ∧
            (s.ec.table[(start.toNat + j) % 64]? = none →
              (bytes.drop (32 * j)).take 32 = List.replicate 32 0#8))) ∧
    (∀ e : EpochNo,
      ((∀ x, s.entry? e = some x → x.state ≠ .sealed) →
        exec (.signatureRead e) s = .next (s.answered 4 .argument [])) ∧
      (∀ x l, s.entry? e = some x → x.state = .sealed → x.sigs = some l →
        exec (.signatureRead e) s = .next (s.answered 4 .done
          (bytes32 e ++ [BitVec.ofNat 8 l.length] ++ l.flatMap (fun g =>
            [BitVec.ofNat 8 g.win.val, (match g.status with | .notCompared => 0#8 | .matched => 1#8 | .mismatch => 2#8),
             0#8, 0#8] ++ bytes32 g.signature)))))

/-- The window signature: a fresh accumulator is FFFFFFFFh; a feed is the five address bytes, most significant first, and the
enabled data bytes in ascending address order, 6 to 69 bytes; each byte is combined into the top of the accumulator, which is then
shifted eight times, the polynomial combined in where a 1 was shifted out; a feed continues from the one before. Equal addresses,
enables and enabled data feed equal bytes. At a seal (R113, R117, R118, R114) the SEALING bank gives everything: each armed window is
compared, a mismatch raising SIG-MISMATCH and, for the action TRIP, setting the trip flag with a WINDOW-TRIPPED; then each JOURNAL or
GUARD window with a threshold that is not superseded is counted, 0 after a written epoch, and goes DORMANT, with a WINDOW-DORMANT,
above its threshold unless the OPEN bank has taken a write for it; then the list is formed of the JOURNAL and GUARD windows that are
ACTIVE or armed. -/
def Obligations.SignatureCrc : Prop :=
  (∀ i : WinIx, Bank.reset.entries[i].acc = 0xFFFFFFFF#32) ∧
  (∀ r : Request, feedBytes r =
    [(r.addr.extractLsb' 32 6).setWidth 8, r.addr.extractLsb' 24 8, r.addr.extractLsb' 16 8, r.addr.extractLsb' 8 8,
     r.addr.extractLsb' 0 8] ++
    (List.range r.data.length).filterMap (fun k => if r.mask.getD k false then r.data[k]? else none)) ∧
  (∀ r : Request, r.wf = true → formOk r = true → r.dir = .write →
    6 ≤ (feedBytes r).length ∧ (feedBytes r).length ≤ 69) ∧
  (∀ (acc : Word32) (b : Byte), crcByte acc b =
    (List.range 8).foldl (fun a _ => if a.getLsbD 31 then (a <<< 1) ^^^ 0x04C11DB7#32 else a <<< 1)
      (acc ^^^ ((b.setWidth 32 : Word32) <<< 24))) ∧
  (∀ (acc : Word32) (b : Byte) (rest : List Byte), crcFeed acc (b :: rest) = crcFeed (crcByte acc b) rest) ∧
  (∀ (acc : Word32) (l m : List Byte), crcFeed acc (l ++ m) = crcFeed (crcFeed acc l) m) ∧
  (∀ r r' : Request, r.addr = r'.addr → (∀ k, r.mask.getD k false = r'.mask.getD k false) →
    (∀ k, r.mask.getD k false = true → r.data[k]? = r'.data[k]?) → feedBytes r = feedBytes r') ∧
  (∀ (s : State) (e : EpochNo),
    let bank := fun (i : WinIx) => s.su.sealingBank.entries[i]
    let opened := fun (i : WinIx) => s.su.openBank.entries[i]
    let quiet := fun (i : WinIx) => s.su.quiet[i]
    let listed : WinIx → Bool := fun i => decide ((bank i).kind = .journal ∨ (bank i).kind = .guard)
    let misses : WinIx → Bool := fun i => match (bank i).expected with
      | some v => decide (v ≠ (bank i).acc)
      | none => false
    let counts : WinIx → Bool := fun i => listed i && decide ((bank i).threshold ≠ 0#8) && !(bank i).superseded
    let count : WinIx → Nat := fun i => if (bank i).written then 0 else
      if (quiet i).counter < 255 then (quiet i).counter + 1 else 255
    let sleeps : WinIx → Bool := fun i => counts i && !(bank i).written && decide ((bank i).threshold.toNat < count i) &&
      !(quiet i).dormant && !(opened i).written && !(opened i).accepted
    let t := s.sealWork e
    t = { s with wu := { s.wu with trip := t.wu.trip }, su := { s.su with quiet := t.su.quiet }, eq := t.eq } ∧
    (∀ i : WinIx, t.wu.trip.getLsbD i.val =
      (s.wu.trip.getLsbD i.val || (misses i && decide ((bank i).action = .trip)))) ∧
    (∀ i : WinIx, t.su.quiet[i] =
      if counts i then { counter := count i, dormant := (quiet i).dormant || sleeps i } else quiet i) ∧
    t.eq = s.eq.raiseAll
      ((List.finRange 16).flatMap (fun i => if misses i then
          { code := .sigMismatch, win := some i, epoch := some e, arg := (bank i).acc } ::
            (if (bank i).action = .trip then
              [{ code := .windowTripped, win := some i, epoch := some e, arg := ((bank i).expected).getD 0#32 }] else [])
        else []) ++
      (List.finRange 16).flatMap (fun i => if sleeps i then
          [{ code := .windowDormant, win := some i, epoch := some e, arg := BitVec.ofNat 32 (count i) }] else [])) ∧
    t.sigList = (List.finRange 16).filterMap (fun i =>
      if listed i && (!(t.su.quiet[i]).dormant || (bank i).expected.isSome) then
        some { win := i, signature := (bank i).acc,
               status := match (bank i).expected with
                 | none => .notCompared
                 | some v => if v = (bank i).acc then .matched else .mismatch }
      else none))

/-! ## What holds at every moment -/

/-- Every step keeps `State.Ok`: consecutive sequence numbers, the lost counter nonzero only with a full queue, EVT_N at its level;
the touched set without repetition and at most 1024; the suspension reason present exactly while SUSPENDED; every count in its
range; the slots, capture records, forward list and forwarded requests in agreement, no request inside the region left to issue. -/
def Obligations.OkKept : Prop := ∀ s t : State, s.Ok → step s = .next t → t.Ok

/-- What every step keeps holds right after reset. -/
def Obligations.OkAtReset : Prop := State.reset.Ok ∧ State.reset.HeadsDealt ∧ State.reset.EpochsOk

/-- After every step each WAITING head has been dealt with: none has a decided outcome left unanswered, and one with nothing to
capture has asked for a forward-path slot. -/
def Obligations.HeadsDealtKept : Prop :=
  ∀ s t : State, s.IntakeOk → s.HeadsDealt → step s = .next t → t.HeadsDealt

/-- Each command answers each request at most once, in its granule order; every other request stays in its slot with its record of
R5 unchanged in what never changes. UPORT_REQUEST may add one request, behind all others, or answer one MALFORMED before that.
POWER_ON_RESET alone ends requests unanswered. -/
def Obligations.AnswersOnceInOrder : Prop :=
  (∀ (s t : State) (c : Instr), s.IntakeOk → (∀ r, c ≠ .uportRequest r) → c ≠ .powerOnReset → exec c s = .next t →
    ∃ gone, AnswersInOrder s.begin t gone) ∧
  (∀ (s t : State) (r : Request), s.IntakeOk → exec (.uportRequest r) s = .next t →
    ∃ (m : State) (gone : List Answered), AnswersInOrder m t gone ∧
      ((m.uport = [] ∧ m.iq.slots.map Slot.key = s.iq.slots.map Slot.key) ∨
        (∃ r', r' ∈ s.port ++ [r] ∧ m.iq.slots.map Slot.key = s.iq.slots.map Slot.key ∧
          m.uport = [{ master := r'.master, tag := r'.tag, status := .malformed, data := [] }]) ∨
        (m.uport = [] ∧ ∃ x : Slot, m.iq.slots.map Slot.key = s.iq.slots.map Slot.key ++ [x.key] ∧
          x.pos = s.iq.nextPos ∧ (∀ y ∈ s.iq.slots, y.ix ≠ x.ix) ∧ x.req ∈ s.port ++ [r])))
end

