-- ==== Sys2Proof/Laws/State.lean ====
section
/-! SUPPORT. For each update of the state, what it makes of each field: true by unfolding, so that no proof unfolds a record
update. -/
namespace Sys2Proof.Machine.State

/-! ## raise -/

@[simp] theorem raise_iq (s : State) (e : Event) : (s.raise e).iq = s.iq := rfl
@[simp] theorem raise_wu (s : State) (e : Event) : (s.raise e).wu = s.wu := rfl
@[simp] theorem raise_cu (s : State) (e : Event) : (s.raise e).cu = s.cu := rfl
@[simp] theorem raise_jw (s : State) (e : Event) : (s.raise e).jw = s.jw := rfl
@[simp] theorem raise_ec (s : State) (e : Event) : (s.raise e).ec = s.ec := rfl
@[simp] theorem raise_su (s : State) (e : Event) : (s.raise e).su = s.su := rfl
@[simp] theorem raise_re (s : State) (e : Event) : (s.raise e).re = s.re := rfl
@[simp] theorem raise_da (s : State) (e : Event) : (s.raise e).da = s.da := rfl
@[simp] theorem raise_eq (s : State) (e : Event) : (s.raise e).eq = s.eq.raise e := rfl
@[simp] theorem raise_port (s : State) (e : Event) : (s.raise e).port = s.port := rfl
@[simp] theorem raise_inReset (s : State) (e : Event) : (s.raise e).inReset = s.inReset := rfl
@[simp] theorem raise_noFrame (s : State) (e : Event) : (s.raise e).noFrame = s.noFrame := rfl
@[simp] theorem raise_uport (s : State) (e : Event) : (s.raise e).uport = s.uport := rfl
@[simp] theorem raise_dport (s : State) (e : Event) : (s.raise e).dport = s.dport := rfl
@[simp] theorem raise_mdo (s : State) (e : Event) : (s.raise e).mdo = s.mdo := rfl
@[simp] theorem raise_pending (s : State) (e : Event) : (s.raise e).pending = s.pending := rfl

/-! ## begin -/

@[simp] theorem begin_iq (s : State) : (s.begin).iq = s.iq := rfl
@[simp] theorem begin_wu (s : State) : (s.begin).wu = s.wu := rfl
@[simp] theorem begin_cu (s : State) : (s.begin).cu = s.cu := rfl
@[simp] theorem begin_jw (s : State) : (s.begin).jw = s.jw := rfl
@[simp] theorem begin_ec (s : State) : (s.begin).ec = s.ec := rfl
@[simp] theorem begin_su (s : State) : (s.begin).su = s.su := rfl
@[simp] theorem begin_re (s : State) : (s.begin).re = s.re := rfl
@[simp] theorem begin_da (s : State) : (s.begin).da = s.da := rfl
@[simp] theorem begin_eq (s : State) : (s.begin).eq = s.eq := rfl
@[simp] theorem begin_port (s : State) : (s.begin).port = s.port := rfl
@[simp] theorem begin_inReset (s : State) : (s.begin).inReset = s.inReset := rfl
@[simp] theorem begin_noFrame (s : State) : (s.begin).noFrame = s.noFrame := rfl
@[simp] theorem begin_uport (s : State) : (s.begin).uport = [] := rfl
@[simp] theorem begin_dport (s : State) : (s.begin).dport = [] := rfl
@[simp] theorem begin_mdo (s : State) : (s.begin).mdo = .undriven := rfl
@[simp] theorem begin_pending (s : State) : (s.begin).pending = s.pending := rfl

/-! ## respond -/

@[simp] theorem respond_iq (s : State) (r : Response) : (s.respond r).iq = s.iq := rfl
@[simp] theorem respond_wu (s : State) (r : Response) : (s.respond r).wu = s.wu := rfl
@[simp] theorem respond_cu (s : State) (r : Response) : (s.respond r).cu = s.cu := rfl
@[simp] theorem respond_jw (s : State) (r : Response) : (s.respond r).jw = s.jw := rfl
@[simp] theorem respond_ec (s : State) (r : Response) : (s.respond r).ec = s.ec := rfl
@[simp] theorem respond_su (s : State) (r : Response) : (s.respond r).su = s.su := rfl
@[simp] theorem respond_re (s : State) (r : Response) : (s.respond r).re = s.re := rfl
@[simp] theorem respond_da (s : State) (r : Response) : (s.respond r).da = s.da := rfl
@[simp] theorem respond_eq (s : State) (r : Response) : (s.respond r).eq = s.eq := rfl
@[simp] theorem respond_port (s : State) (r : Response) : (s.respond r).port = s.port := rfl
@[simp] theorem respond_inReset (s : State) (r : Response) : (s.respond r).inReset = s.inReset := rfl
@[simp] theorem respond_noFrame (s : State) (r : Response) : (s.respond r).noFrame = s.noFrame := rfl
@[simp] theorem respond_uport (s : State) (r : Response) : (s.respond r).uport = s.uport ++ [r] := rfl
@[simp] theorem respond_dport (s : State) (r : Response) : (s.respond r).dport = s.dport := rfl
@[simp] theorem respond_mdo (s : State) (r : Response) : (s.respond r).mdo = s.mdo := rfl
@[simp] theorem respond_pending (s : State) (r : Response) : (s.respond r).pending = s.pending := rfl

/-! ## setSlot -/

@[simp] theorem setSlot_iq (s : State) (q : SlotIx) (f : Slot → Slot) : (s.setSlot q f).iq = { s.iq with slots := s.iq.slots.map (fun x => if x.ix == q then f x else x) } := rfl
@[simp] theorem setSlot_wu (s : State) (q : SlotIx) (f : Slot → Slot) : (s.setSlot q f).wu = s.wu := rfl
@[simp] theorem setSlot_cu (s : State) (q : SlotIx) (f : Slot → Slot) : (s.setSlot q f).cu = s.cu := rfl
@[simp] theorem setSlot_jw (s : State) (q : SlotIx) (f : Slot → Slot) : (s.setSlot q f).jw = s.jw := rfl
@[simp] theorem setSlot_ec (s : State) (q : SlotIx) (f : Slot → Slot) : (s.setSlot q f).ec = s.ec := rfl
@[simp] theorem setSlot_su (s : State) (q : SlotIx) (f : Slot → Slot) : (s.setSlot q f).su = s.su := rfl
@[simp] theorem setSlot_re (s : State) (q : SlotIx) (f : Slot → Slot) : (s.setSlot q f).re = s.re := rfl
@[simp] theorem setSlot_da (s : State) (q : SlotIx) (f : Slot → Slot) : (s.setSlot q f).da = s.da := rfl
@[simp] theorem setSlot_eq (s : State) (q : SlotIx) (f : Slot → Slot) : (s.setSlot q f).eq = s.eq := rfl
@[simp] theorem setSlot_port (s : State) (q : SlotIx) (f : Slot → Slot) : (s.setSlot q f).port = s.port := rfl
@[simp] theorem setSlot_inReset (s : State) (q : SlotIx) (f : Slot → Slot) : (s.setSlot q f).inReset = s.inReset := rfl
@[simp] theorem setSlot_noFrame (s : State) (q : SlotIx) (f : Slot → Slot) : (s.setSlot q f).noFrame = s.noFrame := rfl
@[simp] theorem setSlot_uport (s : State) (q : SlotIx) (f : Slot → Slot) : (s.setSlot q f).uport = s.uport := rfl
@[simp] theorem setSlot_dport (s : State) (q : SlotIx) (f : Slot → Slot) : (s.setSlot q f).dport = s.dport := rfl
@[simp] theorem setSlot_mdo (s : State) (q : SlotIx) (f : Slot → Slot) : (s.setSlot q f).mdo = s.mdo := rfl
@[simp] theorem setSlot_pending (s : State) (q : SlotIx) (f : Slot → Slot) : (s.setSlot q f).pending = s.pending := rfl

/-! ## mapSlots -/

@[simp] theorem mapSlots_iq (s : State) (f : Slot → Slot) : (s.mapSlots f).iq = { s.iq with slots := s.iq.slots.map f } := rfl
@[simp] theorem mapSlots_wu (s : State) (f : Slot → Slot) : (s.mapSlots f).wu = s.wu := rfl
@[simp] theorem mapSlots_cu (s : State) (f : Slot → Slot) : (s.mapSlots f).cu = s.cu := rfl
@[simp] theorem mapSlots_jw (s : State) (f : Slot → Slot) : (s.mapSlots f).jw = s.jw := rfl
@[simp] theorem mapSlots_ec (s : State) (f : Slot → Slot) : (s.mapSlots f).ec = s.ec := rfl
@[simp] theorem mapSlots_su (s : State) (f : Slot → Slot) : (s.mapSlots f).su = s.su := rfl
@[simp] theorem mapSlots_re (s : State) (f : Slot → Slot) : (s.mapSlots f).re = s.re := rfl
@[simp] theorem mapSlots_da (s : State) (f : Slot → Slot) : (s.mapSlots f).da = s.da := rfl
@[simp] theorem mapSlots_eq (s : State) (f : Slot → Slot) : (s.mapSlots f).eq = s.eq := rfl
@[simp] theorem mapSlots_port (s : State) (f : Slot → Slot) : (s.mapSlots f).port = s.port := rfl
@[simp] theorem mapSlots_inReset (s : State) (f : Slot → Slot) : (s.mapSlots f).inReset = s.inReset := rfl
@[simp] theorem mapSlots_noFrame (s : State) (f : Slot → Slot) : (s.mapSlots f).noFrame = s.noFrame := rfl
@[simp] theorem mapSlots_uport (s : State) (f : Slot → Slot) : (s.mapSlots f).uport = s.uport := rfl
@[simp] theorem mapSlots_dport (s : State) (f : Slot → Slot) : (s.mapSlots f).dport = s.dport := rfl
@[simp] theorem mapSlots_mdo (s : State) (f : Slot → Slot) : (s.mapSlots f).mdo = s.mdo := rfl
@[simp] theorem mapSlots_pending (s : State) (f : Slot → Slot) : (s.mapSlots f).pending = s.pending := rfl

/-! ## dropSlot -/

@[simp] theorem dropSlot_iq (s : State) (q : SlotIx) : (s.dropSlot q).iq = { s.iq with slots := s.iq.slots.filter (fun x => x.ix != q) } := rfl
@[simp] theorem dropSlot_wu (s : State) (q : SlotIx) : (s.dropSlot q).wu = s.wu := rfl
@[simp] theorem dropSlot_cu (s : State) (q : SlotIx) : (s.dropSlot q).cu = s.cu := rfl
@[simp] theorem dropSlot_jw (s : State) (q : SlotIx) : (s.dropSlot q).jw = s.jw := rfl
@[simp] theorem dropSlot_ec (s : State) (q : SlotIx) : (s.dropSlot q).ec = s.ec := rfl
@[simp] theorem dropSlot_su (s : State) (q : SlotIx) : (s.dropSlot q).su = s.su := rfl
@[simp] theorem dropSlot_re (s : State) (q : SlotIx) : (s.dropSlot q).re = s.re := rfl
@[simp] theorem dropSlot_da (s : State) (q : SlotIx) : (s.dropSlot q).da = s.da := rfl
@[simp] theorem dropSlot_eq (s : State) (q : SlotIx) : (s.dropSlot q).eq = s.eq := rfl
@[simp] theorem dropSlot_port (s : State) (q : SlotIx) : (s.dropSlot q).port = s.port := rfl
@[simp] theorem dropSlot_inReset (s : State) (q : SlotIx) : (s.dropSlot q).inReset = s.inReset := rfl
@[simp] theorem dropSlot_noFrame (s : State) (q : SlotIx) : (s.dropSlot q).noFrame = s.noFrame := rfl
@[simp] theorem dropSlot_uport (s : State) (q : SlotIx) : (s.dropSlot q).uport = s.uport := rfl
@[simp] theorem dropSlot_dport (s : State) (q : SlotIx) : (s.dropSlot q).dport = s.dport := rfl
@[simp] theorem dropSlot_mdo (s : State) (q : SlotIx) : (s.dropSlot q).mdo = s.mdo := rfl
@[simp] theorem dropSlot_pending (s : State) (q : SlotIx) : (s.dropSlot q).pending = s.pending := rfl

/-! ## pushSlot -/

@[simp] theorem pushSlot_iq (s : State) (x : Slot) : (s.pushSlot x).iq = { s.iq with slots := s.iq.slots ++ [x], nextPos := s.iq.nextPos + 1 } := rfl
@[simp] theorem pushSlot_wu (s : State) (x : Slot) : (s.pushSlot x).wu = s.wu := rfl
@[simp] theorem pushSlot_cu (s : State) (x : Slot) : (s.pushSlot x).cu = s.cu := rfl
@[simp] theorem pushSlot_jw (s : State) (x : Slot) : (s.pushSlot x).jw = s.jw := rfl
@[simp] theorem pushSlot_ec (s : State) (x : Slot) : (s.pushSlot x).ec = s.ec := rfl
@[simp] theorem pushSlot_su (s : State) (x : Slot) : (s.pushSlot x).su = s.su := rfl
@[simp] theorem pushSlot_re (s : State) (x : Slot) : (s.pushSlot x).re = s.re := rfl
@[simp] theorem pushSlot_da (s : State) (x : Slot) : (s.pushSlot x).da = s.da := rfl
@[simp] theorem pushSlot_eq (s : State) (x : Slot) : (s.pushSlot x).eq = s.eq := rfl
@[simp] theorem pushSlot_port (s : State) (x : Slot) : (s.pushSlot x).port = s.port := rfl
@[simp] theorem pushSlot_inReset (s : State) (x : Slot) : (s.pushSlot x).inReset = s.inReset := rfl
@[simp] theorem pushSlot_noFrame (s : State) (x : Slot) : (s.pushSlot x).noFrame = s.noFrame := rfl
@[simp] theorem pushSlot_uport (s : State) (x : Slot) : (s.pushSlot x).uport = s.uport := rfl
@[simp] theorem pushSlot_dport (s : State) (x : Slot) : (s.pushSlot x).dport = s.dport := rfl
@[simp] theorem pushSlot_mdo (s : State) (x : Slot) : (s.pushSlot x).mdo = s.mdo := rfl
@[simp] theorem pushSlot_pending (s : State) (x : Slot) : (s.pushSlot x).pending = s.pending := rfl

/-! ## withdraw -/

@[simp] theorem withdraw_iq (s : State) (q : SlotIx) : (s.withdraw q).iq = s.iq := rfl
@[simp] theorem withdraw_wu (s : State) (q : SlotIx) : (s.withdraw q).wu = s.wu := rfl
@[simp] theorem withdraw_cu (s : State) (q : SlotIx) : (s.withdraw q).cu = s.cu := rfl
@[simp] theorem withdraw_jw (s : State) (q : SlotIx) : (s.withdraw q).jw = s.jw := rfl
@[simp] theorem withdraw_ec (s : State) (q : SlotIx) : (s.withdraw q).ec = s.ec := rfl
@[simp] theorem withdraw_su (s : State) (q : SlotIx) : (s.withdraw q).su = s.su := rfl
@[simp] theorem withdraw_re (s : State) (q : SlotIx) : (s.withdraw q).re = s.re := rfl
@[simp] theorem withdraw_da (s : State) (q : SlotIx) : (s.withdraw q).da = { s.da with forward := s.da.forward.filter (fun x => x != q) } := rfl
@[simp] theorem withdraw_eq (s : State) (q : SlotIx) : (s.withdraw q).eq = s.eq := rfl
@[simp] theorem withdraw_port (s : State) (q : SlotIx) : (s.withdraw q).port = s.port := rfl
@[simp] theorem withdraw_inReset (s : State) (q : SlotIx) : (s.withdraw q).inReset = s.inReset := rfl
@[simp] theorem withdraw_noFrame (s : State) (q : SlotIx) : (s.withdraw q).noFrame = s.noFrame := rfl
@[simp] theorem withdraw_uport (s : State) (q : SlotIx) : (s.withdraw q).uport = s.uport := rfl
@[simp] theorem withdraw_dport (s : State) (q : SlotIx) : (s.withdraw q).dport = s.dport := rfl
@[simp] theorem withdraw_mdo (s : State) (q : SlotIx) : (s.withdraw q).mdo = s.mdo := rfl
@[simp] theorem withdraw_pending (s : State) (q : SlotIx) : (s.withdraw q).pending = s.pending := rfl

/-! ## freePort -/

@[simp] theorem freePort_iq (s : State) (p : PortIx) : (s.freePort p).iq = s.iq := rfl
@[simp] theorem freePort_wu (s : State) (p : PortIx) : (s.freePort p).wu = s.wu := rfl
@[simp] theorem freePort_cu (s : State) (p : PortIx) : (s.freePort p).cu = s.cu := rfl
@[simp] theorem freePort_jw (s : State) (p : PortIx) : (s.freePort p).jw = s.jw := rfl
@[simp] theorem freePort_ec (s : State) (p : PortIx) : (s.freePort p).ec = s.ec := rfl
@[simp] theorem freePort_su (s : State) (p : PortIx) : (s.freePort p).su = s.su := rfl
@[simp] theorem freePort_re (s : State) (p : PortIx) : (s.freePort p).re = s.re := rfl
@[simp] theorem freePort_da (s : State) (p : PortIx) : (s.freePort p).da = { s.da with slots := s.da.slots.set p none } := rfl
@[simp] theorem freePort_eq (s : State) (p : PortIx) : (s.freePort p).eq = s.eq := rfl
@[simp] theorem freePort_port (s : State) (p : PortIx) : (s.freePort p).port = s.port := rfl
@[simp] theorem freePort_inReset (s : State) (p : PortIx) : (s.freePort p).inReset = s.inReset := rfl
@[simp] theorem freePort_noFrame (s : State) (p : PortIx) : (s.freePort p).noFrame = s.noFrame := rfl
@[simp] theorem freePort_uport (s : State) (p : PortIx) : (s.freePort p).uport = s.uport := rfl
@[simp] theorem freePort_dport (s : State) (p : PortIx) : (s.freePort p).dport = s.dport := rfl
@[simp] theorem freePort_mdo (s : State) (p : PortIx) : (s.freePort p).mdo = s.mdo := rfl
@[simp] theorem freePort_pending (s : State) (p : PortIx) : (s.freePort p).pending = s.pending := rfl

/-! ## setEntry -/

@[simp] theorem setEntry_iq (s : State) (e : EpochNo) (f : Entry → Entry) : (s.setEntry e f).iq = s.iq := rfl
@[simp] theorem setEntry_wu (s : State) (e : EpochNo) (f : Entry → Entry) : (s.setEntry e f).wu = s.wu := rfl
@[simp] theorem setEntry_cu (s : State) (e : EpochNo) (f : Entry → Entry) : (s.setEntry e f).cu = s.cu := rfl
@[simp] theorem setEntry_jw (s : State) (e : EpochNo) (f : Entry → Entry) : (s.setEntry e f).jw = s.jw := rfl
@[simp] theorem setEntry_ec (s : State) (e : EpochNo) (f : Entry → Entry) : (s.setEntry e f).ec = { s.ec with table := s.ec.table.map (fun x => if x.number == e then f x else x) } := rfl
@[simp] theorem setEntry_su (s : State) (e : EpochNo) (f : Entry → Entry) : (s.setEntry e f).su = s.su := rfl
@[simp] theorem setEntry_re (s : State) (e : EpochNo) (f : Entry → Entry) : (s.setEntry e f).re = s.re := rfl
@[simp] theorem setEntry_da (s : State) (e : EpochNo) (f : Entry → Entry) : (s.setEntry e f).da = s.da := rfl
@[simp] theorem setEntry_eq (s : State) (e : EpochNo) (f : Entry → Entry) : (s.setEntry e f).eq = s.eq := rfl
@[simp] theorem setEntry_port (s : State) (e : EpochNo) (f : Entry → Entry) : (s.setEntry e f).port = s.port := rfl
@[simp] theorem setEntry_inReset (s : State) (e : EpochNo) (f : Entry → Entry) : (s.setEntry e f).inReset = s.inReset := rfl
@[simp] theorem setEntry_noFrame (s : State) (e : EpochNo) (f : Entry → Entry) : (s.setEntry e f).noFrame = s.noFrame := rfl
@[simp] theorem setEntry_uport (s : State) (e : EpochNo) (f : Entry → Entry) : (s.setEntry e f).uport = s.uport := rfl
@[simp] theorem setEntry_dport (s : State) (e : EpochNo) (f : Entry → Entry) : (s.setEntry e f).dport = s.dport := rfl
@[simp] theorem setEntry_mdo (s : State) (e : EpochNo) (f : Entry → Entry) : (s.setEntry e f).mdo = s.mdo := rfl
@[simp] theorem setEntry_pending (s : State) (e : EpochNo) (f : Entry → Entry) : (s.setEntry e f).pending = s.pending := rfl

/-! ## closeOpen -/

@[simp] theorem closeOpen_iq (s : State) : (s.closeOpen).iq = s.iq := rfl
@[simp] theorem closeOpen_wu (s : State) : (s.closeOpen).wu = s.wu := rfl
@[simp] theorem closeOpen_cu (s : State) : (s.closeOpen).cu = s.cu := rfl
@[simp] theorem closeOpen_jw (s : State) : (s.closeOpen).jw = s.jw := rfl
@[simp] theorem closeOpen_ec (s : State) : (s.closeOpen).ec = { s.ec with table := s.ec.table.map Entry.closed } := rfl
@[simp] theorem closeOpen_su (s : State) : (s.closeOpen).su = s.su := rfl
@[simp] theorem closeOpen_re (s : State) : (s.closeOpen).re = s.re := rfl
@[simp] theorem closeOpen_da (s : State) : (s.closeOpen).da = s.da := rfl
@[simp] theorem closeOpen_eq (s : State) : (s.closeOpen).eq = s.eq := rfl
@[simp] theorem closeOpen_port (s : State) : (s.closeOpen).port = s.port := rfl
@[simp] theorem closeOpen_inReset (s : State) : (s.closeOpen).inReset = s.inReset := rfl
@[simp] theorem closeOpen_noFrame (s : State) : (s.closeOpen).noFrame = s.noFrame := rfl
@[simp] theorem closeOpen_uport (s : State) : (s.closeOpen).uport = s.uport := rfl
@[simp] theorem closeOpen_dport (s : State) : (s.closeOpen).dport = s.dport := rfl
@[simp] theorem closeOpen_mdo (s : State) : (s.closeOpen).mdo = s.mdo := rfl
@[simp] theorem closeOpen_pending (s : State) : (s.closeOpen).pending = s.pending := rfl

/-! ## addEpoch -/

@[simp] theorem addEpoch_iq (s : State) (e : EpochNo) : (s.addEpoch e).iq = s.iq := rfl
@[simp] theorem addEpoch_wu (s : State) (e : EpochNo) : (s.addEpoch e).wu = s.wu := rfl
@[simp] theorem addEpoch_cu (s : State) (e : EpochNo) : (s.addEpoch e).cu = s.cu := rfl
@[simp] theorem addEpoch_jw (s : State) (e : EpochNo) : (s.addEpoch e).jw = s.jw := rfl
@[simp] theorem addEpoch_ec (s : State) (e : EpochNo) : (s.addEpoch e).ec = { s.ec with table := s.ec.table ++ [Entry.fresh e] } := rfl
@[simp] theorem addEpoch_su (s : State) (e : EpochNo) : (s.addEpoch e).su = s.su := rfl
@[simp] theorem addEpoch_re (s : State) (e : EpochNo) : (s.addEpoch e).re = s.re := rfl
@[simp] theorem addEpoch_da (s : State) (e : EpochNo) : (s.addEpoch e).da = s.da := rfl
@[simp] theorem addEpoch_eq (s : State) (e : EpochNo) : (s.addEpoch e).eq = s.eq := rfl
@[simp] theorem addEpoch_port (s : State) (e : EpochNo) : (s.addEpoch e).port = s.port := rfl
@[simp] theorem addEpoch_inReset (s : State) (e : EpochNo) : (s.addEpoch e).inReset = s.inReset := rfl
@[simp] theorem addEpoch_noFrame (s : State) (e : EpochNo) : (s.addEpoch e).noFrame = s.noFrame := rfl
@[simp] theorem addEpoch_uport (s : State) (e : EpochNo) : (s.addEpoch e).uport = s.uport := rfl
@[simp] theorem addEpoch_dport (s : State) (e : EpochNo) : (s.addEpoch e).dport = s.dport := rfl
@[simp] theorem addEpoch_mdo (s : State) (e : EpochNo) : (s.addEpoch e).mdo = s.mdo := rfl
@[simp] theorem addEpoch_pending (s : State) (e : EpochNo) : (s.addEpoch e).pending = s.pending := rfl

/-! ## cutTable -/

@[simp] theorem cutTable_iq (s : State) (e : EpochNo) : (s.cutTable e).iq = s.iq := rfl
@[simp] theorem cutTable_wu (s : State) (e : EpochNo) : (s.cutTable e).wu = s.wu := rfl
@[simp] theorem cutTable_cu (s : State) (e : EpochNo) : (s.cutTable e).cu = s.cu := rfl
@[simp] theorem cutTable_jw (s : State) (e : EpochNo) : (s.cutTable e).jw = s.jw := rfl
@[simp] theorem cutTable_ec (s : State) (e : EpochNo) : (s.cutTable e).ec = { s.ec with table := s.ec.table.takeWhile (fun x => x.number != e) } := rfl
@[simp] theorem cutTable_su (s : State) (e : EpochNo) : (s.cutTable e).su = s.su := rfl
@[simp] theorem cutTable_re (s : State) (e : EpochNo) : (s.cutTable e).re = s.re := rfl
@[simp] theorem cutTable_da (s : State) (e : EpochNo) : (s.cutTable e).da = s.da := rfl
@[simp] theorem cutTable_eq (s : State) (e : EpochNo) : (s.cutTable e).eq = s.eq := rfl
@[simp] theorem cutTable_port (s : State) (e : EpochNo) : (s.cutTable e).port = s.port := rfl
@[simp] theorem cutTable_inReset (s : State) (e : EpochNo) : (s.cutTable e).inReset = s.inReset := rfl
@[simp] theorem cutTable_noFrame (s : State) (e : EpochNo) : (s.cutTable e).noFrame = s.noFrame := rfl
@[simp] theorem cutTable_uport (s : State) (e : EpochNo) : (s.cutTable e).uport = s.uport := rfl
@[simp] theorem cutTable_dport (s : State) (e : EpochNo) : (s.cutTable e).dport = s.dport := rfl
@[simp] theorem cutTable_mdo (s : State) (e : EpochNo) : (s.cutTable e).mdo = s.mdo := rfl
@[simp] theorem cutTable_pending (s : State) (e : EpochNo) : (s.cutTable e).pending = s.pending := rfl

/-! ## setBridge -/

@[simp] theorem setBridge_iq (s : State) (b : Bridge) : (s.setBridge b).iq = s.iq := rfl
@[simp] theorem setBridge_wu (s : State) (b : Bridge) : (s.setBridge b).wu = s.wu := rfl
@[simp] theorem setBridge_cu (s : State) (b : Bridge) : (s.setBridge b).cu = s.cu := rfl
@[simp] theorem setBridge_jw (s : State) (b : Bridge) : (s.setBridge b).jw = s.jw := rfl
@[simp] theorem setBridge_ec (s : State) (b : Bridge) : (s.setBridge b).ec = { s.ec with bridge := b } := rfl
@[simp] theorem setBridge_su (s : State) (b : Bridge) : (s.setBridge b).su = s.su := rfl
@[simp] theorem setBridge_re (s : State) (b : Bridge) : (s.setBridge b).re = s.re := rfl
@[simp] theorem setBridge_da (s : State) (b : Bridge) : (s.setBridge b).da = s.da := rfl
@[simp] theorem setBridge_eq (s : State) (b : Bridge) : (s.setBridge b).eq = s.eq := rfl
@[simp] theorem setBridge_port (s : State) (b : Bridge) : (s.setBridge b).port = s.port := rfl
@[simp] theorem setBridge_inReset (s : State) (b : Bridge) : (s.setBridge b).inReset = s.inReset := rfl
@[simp] theorem setBridge_noFrame (s : State) (b : Bridge) : (s.setBridge b).noFrame = s.noFrame := rfl
@[simp] theorem setBridge_uport (s : State) (b : Bridge) : (s.setBridge b).uport = s.uport := rfl
@[simp] theorem setBridge_dport (s : State) (b : Bridge) : (s.setBridge b).dport = s.dport := rfl
@[simp] theorem setBridge_mdo (s : State) (b : Bridge) : (s.setBridge b).mdo = s.mdo := rfl
@[simp] theorem setBridge_pending (s : State) (b : Bridge) : (s.setBridge b).pending = s.pending := rfl

/-! ## startTimer -/

@[simp] theorem startTimer_iq (s : State) : (s.startTimer).iq = s.iq := rfl
@[simp] theorem startTimer_wu (s : State) : (s.startTimer).wu = s.wu := rfl
@[simp] theorem startTimer_cu (s : State) : (s.startTimer).cu = s.cu := rfl
@[simp] theorem startTimer_jw (s : State) : (s.startTimer).jw = s.jw := rfl
@[simp] theorem startTimer_ec (s : State) : (s.startTimer).ec = s.ec.startTimer := rfl
@[simp] theorem startTimer_su (s : State) : (s.startTimer).su = s.su := rfl
@[simp] theorem startTimer_re (s : State) : (s.startTimer).re = s.re := rfl
@[simp] theorem startTimer_da (s : State) : (s.startTimer).da = s.da := rfl
@[simp] theorem startTimer_eq (s : State) : (s.startTimer).eq = s.eq := rfl
@[simp] theorem startTimer_port (s : State) : (s.startTimer).port = s.port := rfl
@[simp] theorem startTimer_inReset (s : State) : (s.startTimer).inReset = s.inReset := rfl
@[simp] theorem startTimer_noFrame (s : State) : (s.startTimer).noFrame = s.noFrame := rfl
@[simp] theorem startTimer_uport (s : State) : (s.startTimer).uport = s.uport := rfl
@[simp] theorem startTimer_dport (s : State) : (s.startTimer).dport = s.dport := rfl
@[simp] theorem startTimer_mdo (s : State) : (s.startTimer).mdo = s.mdo := rfl
@[simp] theorem startTimer_pending (s : State) : (s.startTimer).pending = s.pending := rfl

/-! ## stopTimer -/

@[simp] theorem stopTimer_iq (s : State) : (s.stopTimer).iq = s.iq := rfl
@[simp] theorem stopTimer_wu (s : State) : (s.stopTimer).wu = s.wu := rfl
@[simp] theorem stopTimer_cu (s : State) : (s.stopTimer).cu = s.cu := rfl
@[simp] theorem stopTimer_jw (s : State) : (s.stopTimer).jw = s.jw := rfl
@[simp] theorem stopTimer_ec (s : State) : (s.stopTimer).ec = { s.ec with timer := none } := rfl
@[simp] theorem stopTimer_su (s : State) : (s.stopTimer).su = s.su := rfl
@[simp] theorem stopTimer_re (s : State) : (s.stopTimer).re = s.re := rfl
@[simp] theorem stopTimer_da (s : State) : (s.stopTimer).da = s.da := rfl
@[simp] theorem stopTimer_eq (s : State) : (s.stopTimer).eq = s.eq := rfl
@[simp] theorem stopTimer_port (s : State) : (s.stopTimer).port = s.port := rfl
@[simp] theorem stopTimer_inReset (s : State) : (s.stopTimer).inReset = s.inReset := rfl
@[simp] theorem stopTimer_noFrame (s : State) : (s.stopTimer).noFrame = s.noFrame := rfl
@[simp] theorem stopTimer_uport (s : State) : (s.stopTimer).uport = s.uport := rfl
@[simp] theorem stopTimer_dport (s : State) : (s.stopTimer).dport = s.dport := rfl
@[simp] theorem stopTimer_mdo (s : State) : (s.stopTimer).mdo = s.mdo := rfl
@[simp] theorem stopTimer_pending (s : State) : (s.stopTimer).pending = s.pending := rfl

/-! ## discardBoundary -/

@[simp] theorem discardBoundary_iq (s : State) : (s.discardBoundary).iq = s.iq := rfl
@[simp] theorem discardBoundary_wu (s : State) : (s.discardBoundary).wu = s.wu := rfl
@[simp] theorem discardBoundary_cu (s : State) : (s.discardBoundary).cu = s.cu := rfl
@[simp] theorem discardBoundary_jw (s : State) : (s.discardBoundary).jw = s.jw := rfl
@[simp] theorem discardBoundary_ec (s : State) : (s.discardBoundary).ec = s.ec := rfl
@[simp] theorem discardBoundary_su (s : State) : (s.discardBoundary).su = s.su := rfl
@[simp] theorem discardBoundary_re (s : State) : (s.discardBoundary).re = { s.re with discarded := satInc Config.count8Max s.re.discarded } := rfl
@[simp] theorem discardBoundary_da (s : State) : (s.discardBoundary).da = s.da := rfl
@[simp] theorem discardBoundary_eq (s : State) : (s.discardBoundary).eq = s.eq := rfl
@[simp] theorem discardBoundary_port (s : State) : (s.discardBoundary).port = s.port := rfl
@[simp] theorem discardBoundary_inReset (s : State) : (s.discardBoundary).inReset = s.inReset := rfl
@[simp] theorem discardBoundary_noFrame (s : State) : (s.discardBoundary).noFrame = s.noFrame := rfl
@[simp] theorem discardBoundary_uport (s : State) : (s.discardBoundary).uport = s.uport := rfl
@[simp] theorem discardBoundary_dport (s : State) : (s.discardBoundary).dport = s.dport := rfl
@[simp] theorem discardBoundary_mdo (s : State) : (s.discardBoundary).mdo = s.mdo := rfl
@[simp] theorem discardBoundary_pending (s : State) : (s.discardBoundary).pending = s.pending := rfl

/-! ## advanceHead -/

@[simp] theorem advanceHead_iq (s : State) (n : Nat) : (s.advanceHead n).iq = s.iq := rfl
@[simp] theorem advanceHead_wu (s : State) (n : Nat) : (s.advanceHead n).wu = s.wu := rfl
@[simp] theorem advanceHead_cu (s : State) (n : Nat) : (s.advanceHead n).cu = s.cu := rfl
@[simp] theorem advanceHead_jw (s : State) (n : Nat) : (s.advanceHead n).jw = { s.jw with head := s.headAfter n } := rfl
@[simp] theorem advanceHead_ec (s : State) (n : Nat) : (s.advanceHead n).ec = s.ec := rfl
@[simp] theorem advanceHead_su (s : State) (n : Nat) : (s.advanceHead n).su = s.su := rfl
@[simp] theorem advanceHead_re (s : State) (n : Nat) : (s.advanceHead n).re = s.re := rfl
@[simp] theorem advanceHead_da (s : State) (n : Nat) : (s.advanceHead n).da = s.da := rfl
@[simp] theorem advanceHead_eq (s : State) (n : Nat) : (s.advanceHead n).eq = s.eq := rfl
@[simp] theorem advanceHead_port (s : State) (n : Nat) : (s.advanceHead n).port = s.port := rfl
@[simp] theorem advanceHead_inReset (s : State) (n : Nat) : (s.advanceHead n).inReset = s.inReset := rfl
@[simp] theorem advanceHead_noFrame (s : State) (n : Nat) : (s.advanceHead n).noFrame = s.noFrame := rfl
@[simp] theorem advanceHead_uport (s : State) (n : Nat) : (s.advanceHead n).uport = s.uport := rfl
@[simp] theorem advanceHead_dport (s : State) (n : Nat) : (s.advanceHead n).dport = s.dport := rfl
@[simp] theorem advanceHead_mdo (s : State) (n : Nat) : (s.advanceHead n).mdo = s.mdo := rfl
@[simp] theorem advanceHead_pending (s : State) (n : Nat) : (s.advanceHead n).pending = s.pending := rfl

/-! ## emptyRing -/

@[simp] theorem emptyRing_iq (s : State) : (s.emptyRing).iq = s.iq := rfl
@[simp] theorem emptyRing_wu (s : State) : (s.emptyRing).wu = s.wu := rfl
@[simp] theorem emptyRing_cu (s : State) : (s.emptyRing).cu = s.cu := rfl
@[simp] theorem emptyRing_jw (s : State) : (s.emptyRing).jw = { s.jw with tail := s.jw.head } := rfl
@[simp] theorem emptyRing_ec (s : State) : (s.emptyRing).ec = s.ec := rfl
@[simp] theorem emptyRing_su (s : State) : (s.emptyRing).su = s.su := rfl
@[simp] theorem emptyRing_re (s : State) : (s.emptyRing).re = s.re := rfl
@[simp] theorem emptyRing_da (s : State) : (s.emptyRing).da = s.da := rfl
@[simp] theorem emptyRing_eq (s : State) : (s.emptyRing).eq = s.eq := rfl
@[simp] theorem emptyRing_port (s : State) : (s.emptyRing).port = s.port := rfl
@[simp] theorem emptyRing_inReset (s : State) : (s.emptyRing).inReset = s.inReset := rfl
@[simp] theorem emptyRing_noFrame (s : State) : (s.emptyRing).noFrame = s.noFrame := rfl
@[simp] theorem emptyRing_uport (s : State) : (s.emptyRing).uport = s.uport := rfl
@[simp] theorem emptyRing_dport (s : State) : (s.emptyRing).dport = s.dport := rfl
@[simp] theorem emptyRing_mdo (s : State) : (s.emptyRing).mdo = s.mdo := rfl
@[simp] theorem emptyRing_pending (s : State) : (s.emptyRing).pending = s.pending := rfl

/-! ## untouch -/

@[simp] theorem untouch_iq (s : State) (g : Granule) : (s.untouch g).iq = s.iq := rfl
@[simp] theorem untouch_wu (s : State) (g : Granule) : (s.untouch g).wu = s.wu := rfl
@[simp] theorem untouch_cu (s : State) (g : Granule) : (s.untouch g).cu = { s.cu with touched := s.cu.touched.filter (fun x => x != g) } := rfl
@[simp] theorem untouch_jw (s : State) (g : Granule) : (s.untouch g).jw = s.jw := rfl
@[simp] theorem untouch_ec (s : State) (g : Granule) : (s.untouch g).ec = s.ec := rfl
@[simp] theorem untouch_su (s : State) (g : Granule) : (s.untouch g).su = s.su := rfl
@[simp] theorem untouch_re (s : State) (g : Granule) : (s.untouch g).re = s.re := rfl
@[simp] theorem untouch_da (s : State) (g : Granule) : (s.untouch g).da = s.da := rfl
@[simp] theorem untouch_eq (s : State) (g : Granule) : (s.untouch g).eq = s.eq := rfl
@[simp] theorem untouch_port (s : State) (g : Granule) : (s.untouch g).port = s.port := rfl
@[simp] theorem untouch_inReset (s : State) (g : Granule) : (s.untouch g).inReset = s.inReset := rfl
@[simp] theorem untouch_noFrame (s : State) (g : Granule) : (s.untouch g).noFrame = s.noFrame := rfl
@[simp] theorem untouch_uport (s : State) (g : Granule) : (s.untouch g).uport = s.uport := rfl
@[simp] theorem untouch_dport (s : State) (g : Granule) : (s.untouch g).dport = s.dport := rfl
@[simp] theorem untouch_mdo (s : State) (g : Granule) : (s.untouch g).mdo = s.mdo := rfl
@[simp] theorem untouch_pending (s : State) (g : Granule) : (s.untouch g).pending = s.pending := rfl

/-! ## clearTouched -/

@[simp] theorem clearTouched_iq (s : State) : (s.clearTouched).iq = s.iq := rfl
@[simp] theorem clearTouched_wu (s : State) : (s.clearTouched).wu = s.wu := rfl
@[simp] theorem clearTouched_cu (s : State) : (s.clearTouched).cu = { s.cu with touched := [] } := rfl
@[simp] theorem clearTouched_jw (s : State) : (s.clearTouched).jw = s.jw := rfl
@[simp] theorem clearTouched_ec (s : State) : (s.clearTouched).ec = s.ec := rfl
@[simp] theorem clearTouched_su (s : State) : (s.clearTouched).su = s.su := rfl
@[simp] theorem clearTouched_re (s : State) : (s.clearTouched).re = s.re := rfl
@[simp] theorem clearTouched_da (s : State) : (s.clearTouched).da = s.da := rfl
@[simp] theorem clearTouched_eq (s : State) : (s.clearTouched).eq = s.eq := rfl
@[simp] theorem clearTouched_port (s : State) : (s.clearTouched).port = s.port := rfl
@[simp] theorem clearTouched_inReset (s : State) : (s.clearTouched).inReset = s.inReset := rfl
@[simp] theorem clearTouched_noFrame (s : State) : (s.clearTouched).noFrame = s.noFrame := rfl
@[simp] theorem clearTouched_uport (s : State) : (s.clearTouched).uport = s.uport := rfl
@[simp] theorem clearTouched_dport (s : State) : (s.clearTouched).dport = s.dport := rfl
@[simp] theorem clearTouched_mdo (s : State) : (s.clearTouched).mdo = s.mdo := rfl
@[simp] theorem clearTouched_pending (s : State) : (s.clearTouched).pending = s.pending := rfl

/-! ## setCapture -/

@[simp] theorem setCapture_iq (s : State) (q : SlotIx) (f : Capture → Capture) : (s.setCapture q f).iq = s.iq := rfl
@[simp] theorem setCapture_wu (s : State) (q : SlotIx) (f : Capture → Capture) : (s.setCapture q f).wu = s.wu := rfl
@[simp] theorem setCapture_cu (s : State) (q : SlotIx) (f : Capture → Capture) : (s.setCapture q f).cu = { s.cu with captures := s.cu.captures.map (fun c => if c.slot == q then f c else c) } := rfl
@[simp] theorem setCapture_jw (s : State) (q : SlotIx) (f : Capture → Capture) : (s.setCapture q f).jw = s.jw := rfl
@[simp] theorem setCapture_ec (s : State) (q : SlotIx) (f : Capture → Capture) : (s.setCapture q f).ec = s.ec := rfl
@[simp] theorem setCapture_su (s : State) (q : SlotIx) (f : Capture → Capture) : (s.setCapture q f).su = s.su := rfl
@[simp] theorem setCapture_re (s : State) (q : SlotIx) (f : Capture → Capture) : (s.setCapture q f).re = s.re := rfl
@[simp] theorem setCapture_da (s : State) (q : SlotIx) (f : Capture → Capture) : (s.setCapture q f).da = s.da := rfl
@[simp] theorem setCapture_eq (s : State) (q : SlotIx) (f : Capture → Capture) : (s.setCapture q f).eq = s.eq := rfl
@[simp] theorem setCapture_port (s : State) (q : SlotIx) (f : Capture → Capture) : (s.setCapture q f).port = s.port := rfl
@[simp] theorem setCapture_inReset (s : State) (q : SlotIx) (f : Capture → Capture) : (s.setCapture q f).inReset = s.inReset := rfl
@[simp] theorem setCapture_noFrame (s : State) (q : SlotIx) (f : Capture → Capture) : (s.setCapture q f).noFrame = s.noFrame := rfl
@[simp] theorem setCapture_uport (s : State) (q : SlotIx) (f : Capture → Capture) : (s.setCapture q f).uport = s.uport := rfl
@[simp] theorem setCapture_dport (s : State) (q : SlotIx) (f : Capture → Capture) : (s.setCapture q f).dport = s.dport := rfl
@[simp] theorem setCapture_mdo (s : State) (q : SlotIx) (f : Capture → Capture) : (s.setCapture q f).mdo = s.mdo := rfl
@[simp] theorem setCapture_pending (s : State) (q : SlotIx) (f : Capture → Capture) : (s.setCapture q f).pending = s.pending := rfl

/-! ## dropCapture -/

@[simp] theorem dropCapture_iq (s : State) (q : SlotIx) : (s.dropCapture q).iq = s.iq := rfl
@[simp] theorem dropCapture_wu (s : State) (q : SlotIx) : (s.dropCapture q).wu = s.wu := rfl
@[simp] theorem dropCapture_cu (s : State) (q : SlotIx) : (s.dropCapture q).cu = { s.cu with captures := s.cu.captures.filter (fun c => c.slot != q) } := rfl
@[simp] theorem dropCapture_jw (s : State) (q : SlotIx) : (s.dropCapture q).jw = s.jw := rfl
@[simp] theorem dropCapture_ec (s : State) (q : SlotIx) : (s.dropCapture q).ec = s.ec := rfl
@[simp] theorem dropCapture_su (s : State) (q : SlotIx) : (s.dropCapture q).su = s.su := rfl
@[simp] theorem dropCapture_re (s : State) (q : SlotIx) : (s.dropCapture q).re = s.re := rfl
@[simp] theorem dropCapture_da (s : State) (q : SlotIx) : (s.dropCapture q).da = s.da := rfl
@[simp] theorem dropCapture_eq (s : State) (q : SlotIx) : (s.dropCapture q).eq = s.eq := rfl
@[simp] theorem dropCapture_port (s : State) (q : SlotIx) : (s.dropCapture q).port = s.port := rfl
@[simp] theorem dropCapture_inReset (s : State) (q : SlotIx) : (s.dropCapture q).inReset = s.inReset := rfl
@[simp] theorem dropCapture_noFrame (s : State) (q : SlotIx) : (s.dropCapture q).noFrame = s.noFrame := rfl
@[simp] theorem dropCapture_uport (s : State) (q : SlotIx) : (s.dropCapture q).uport = s.uport := rfl
@[simp] theorem dropCapture_dport (s : State) (q : SlotIx) : (s.dropCapture q).dport = s.dport := rfl
@[simp] theorem dropCapture_mdo (s : State) (q : SlotIx) : (s.dropCapture q).mdo = s.mdo := rfl
@[simp] theorem dropCapture_pending (s : State) (q : SlotIx) : (s.dropCapture q).pending = s.pending := rfl

/-! ## setQuiet -/

@[simp] theorem setQuiet_iq (s : State) (i : WinIx) (q : Quiet) : (s.setQuiet i q).iq = s.iq := rfl
@[simp] theorem setQuiet_wu (s : State) (i : WinIx) (q : Quiet) : (s.setQuiet i q).wu = s.wu := rfl
@[simp] theorem setQuiet_cu (s : State) (i : WinIx) (q : Quiet) : (s.setQuiet i q).cu = s.cu := rfl
@[simp] theorem setQuiet_jw (s : State) (i : WinIx) (q : Quiet) : (s.setQuiet i q).jw = s.jw := rfl
@[simp] theorem setQuiet_ec (s : State) (i : WinIx) (q : Quiet) : (s.setQuiet i q).ec = s.ec := rfl
@[simp] theorem setQuiet_su (s : State) (i : WinIx) (q : Quiet) : (s.setQuiet i q).su = { s.su with quiet := s.su.quiet.set i q } := rfl
@[simp] theorem setQuiet_re (s : State) (i : WinIx) (q : Quiet) : (s.setQuiet i q).re = s.re := rfl
@[simp] theorem setQuiet_da (s : State) (i : WinIx) (q : Quiet) : (s.setQuiet i q).da = s.da := rfl
@[simp] theorem setQuiet_eq (s : State) (i : WinIx) (q : Quiet) : (s.setQuiet i q).eq = s.eq := rfl
@[simp] theorem setQuiet_port (s : State) (i : WinIx) (q : Quiet) : (s.setQuiet i q).port = s.port := rfl
@[simp] theorem setQuiet_inReset (s : State) (i : WinIx) (q : Quiet) : (s.setQuiet i q).inReset = s.inReset := rfl
@[simp] theorem setQuiet_noFrame (s : State) (i : WinIx) (q : Quiet) : (s.setQuiet i q).noFrame = s.noFrame := rfl
@[simp] theorem setQuiet_uport (s : State) (i : WinIx) (q : Quiet) : (s.setQuiet i q).uport = s.uport := rfl
@[simp] theorem setQuiet_dport (s : State) (i : WinIx) (q : Quiet) : (s.setQuiet i q).dport = s.dport := rfl
@[simp] theorem setQuiet_mdo (s : State) (i : WinIx) (q : Quiet) : (s.setQuiet i q).mdo = s.mdo := rfl
@[simp] theorem setQuiet_pending (s : State) (i : WinIx) (q : Quiet) : (s.setQuiet i q).pending = s.pending := rfl

/-! ## resetBanks -/

@[simp] theorem resetBanks_iq (s : State) : (s.resetBanks).iq = s.iq := rfl
@[simp] theorem resetBanks_wu (s : State) : (s.resetBanks).wu = s.wu := rfl
@[simp] theorem resetBanks_cu (s : State) : (s.resetBanks).cu = s.cu := rfl
@[simp] theorem resetBanks_jw (s : State) : (s.resetBanks).jw = s.jw := rfl
@[simp] theorem resetBanks_ec (s : State) : (s.resetBanks).ec = s.ec := rfl
@[simp] theorem resetBanks_su (s : State) : (s.resetBanks).su = { s.su with openBank := Bank.reset, sealingBank := Bank.reset } := rfl
@[simp] theorem resetBanks_re (s : State) : (s.resetBanks).re = s.re := rfl
@[simp] theorem resetBanks_da (s : State) : (s.resetBanks).da = s.da := rfl
@[simp] theorem resetBanks_eq (s : State) : (s.resetBanks).eq = s.eq := rfl
@[simp] theorem resetBanks_port (s : State) : (s.resetBanks).port = s.port := rfl
@[simp] theorem resetBanks_inReset (s : State) : (s.resetBanks).inReset = s.inReset := rfl
@[simp] theorem resetBanks_noFrame (s : State) : (s.resetBanks).noFrame = s.noFrame := rfl
@[simp] theorem resetBanks_uport (s : State) : (s.resetBanks).uport = s.uport := rfl
@[simp] theorem resetBanks_dport (s : State) : (s.resetBanks).dport = s.dport := rfl
@[simp] theorem resetBanks_mdo (s : State) : (s.resetBanks).mdo = s.mdo := rfl
@[simp] theorem resetBanks_pending (s : State) : (s.resetBanks).pending = s.pending := rfl

/-! ## exchangeBanks -/

@[simp] theorem exchangeBanks_iq (s : State) : (s.exchangeBanks).iq = s.iq := rfl
@[simp] theorem exchangeBanks_wu (s : State) : (s.exchangeBanks).wu = s.wu := rfl
@[simp] theorem exchangeBanks_cu (s : State) : (s.exchangeBanks).cu = s.cu := rfl
@[simp] theorem exchangeBanks_jw (s : State) : (s.exchangeBanks).jw = s.jw := rfl
@[simp] theorem exchangeBanks_ec (s : State) : (s.exchangeBanks).ec = s.ec := rfl
@[simp] theorem exchangeBanks_su (s : State) : (s.exchangeBanks).su = { s.su with openBank := Bank.reset, sealingBank := s.su.openBank } := rfl
@[simp] theorem exchangeBanks_re (s : State) : (s.exchangeBanks).re = s.re := rfl
@[simp] theorem exchangeBanks_da (s : State) : (s.exchangeBanks).da = s.da := rfl
@[simp] theorem exchangeBanks_eq (s : State) : (s.exchangeBanks).eq = s.eq := rfl
@[simp] theorem exchangeBanks_port (s : State) : (s.exchangeBanks).port = s.port := rfl
@[simp] theorem exchangeBanks_inReset (s : State) : (s.exchangeBanks).inReset = s.inReset := rfl
@[simp] theorem exchangeBanks_noFrame (s : State) : (s.exchangeBanks).noFrame = s.noFrame := rfl
@[simp] theorem exchangeBanks_uport (s : State) : (s.exchangeBanks).uport = s.uport := rfl
@[simp] theorem exchangeBanks_dport (s : State) : (s.exchangeBanks).dport = s.dport := rfl
@[simp] theorem exchangeBanks_mdo (s : State) : (s.exchangeBanks).mdo = s.mdo := rfl
@[simp] theorem exchangeBanks_pending (s : State) : (s.exchangeBanks).pending = s.pending := rfl

/-! ## fillOpenBank -/

@[simp] theorem fillOpenBank_iq (s : State) (e : Option EpochNo) : (s.fillOpenBank e).iq = s.iq := rfl
@[simp] theorem fillOpenBank_wu (s : State) (e : Option EpochNo) : (s.fillOpenBank e).wu = s.wu := rfl
@[simp] theorem fillOpenBank_cu (s : State) (e : Option EpochNo) : (s.fillOpenBank e).cu = s.cu := rfl
@[simp] theorem fillOpenBank_jw (s : State) (e : Option EpochNo) : (s.fillOpenBank e).jw = s.jw := rfl
@[simp] theorem fillOpenBank_ec (s : State) (e : Option EpochNo) : (s.fillOpenBank e).ec = s.ec := rfl
@[simp] theorem fillOpenBank_su (s : State) (e : Option EpochNo) : (s.fillOpenBank e).su = { s.su with openBank := { (s.su.openBank.fill s.wu.active) with epoch := e } } := rfl
@[simp] theorem fillOpenBank_re (s : State) (e : Option EpochNo) : (s.fillOpenBank e).re = s.re := rfl
@[simp] theorem fillOpenBank_da (s : State) (e : Option EpochNo) : (s.fillOpenBank e).da = s.da := rfl
@[simp] theorem fillOpenBank_eq (s : State) (e : Option EpochNo) : (s.fillOpenBank e).eq = s.eq := rfl
@[simp] theorem fillOpenBank_port (s : State) (e : Option EpochNo) : (s.fillOpenBank e).port = s.port := rfl
@[simp] theorem fillOpenBank_inReset (s : State) (e : Option EpochNo) : (s.fillOpenBank e).inReset = s.inReset := rfl
@[simp] theorem fillOpenBank_noFrame (s : State) (e : Option EpochNo) : (s.fillOpenBank e).noFrame = s.noFrame := rfl
@[simp] theorem fillOpenBank_uport (s : State) (e : Option EpochNo) : (s.fillOpenBank e).uport = s.uport := rfl
@[simp] theorem fillOpenBank_dport (s : State) (e : Option EpochNo) : (s.fillOpenBank e).dport = s.dport := rfl
@[simp] theorem fillOpenBank_mdo (s : State) (e : Option EpochNo) : (s.fillOpenBank e).mdo = s.mdo := rfl
@[simp] theorem fillOpenBank_pending (s : State) (e : Option EpochNo) : (s.fillOpenBank e).pending = s.pending := rfl

/-! ## send -/

@[simp] theorem send_iq (s : State) (p : PortIx) (k : PortKind) (r : PortReq) : (s.send p k r).iq = s.iq := rfl
@[simp] theorem send_wu (s : State) (p : PortIx) (k : PortKind) (r : PortReq) : (s.send p k r).wu = s.wu := rfl
@[simp] theorem send_cu (s : State) (p : PortIx) (k : PortKind) (r : PortReq) : (s.send p k r).cu = s.cu := rfl
@[simp] theorem send_jw (s : State) (p : PortIx) (k : PortKind) (r : PortReq) : (s.send p k r).jw = s.jw := rfl
@[simp] theorem send_ec (s : State) (p : PortIx) (k : PortKind) (r : PortReq) : (s.send p k r).ec = s.ec := rfl
@[simp] theorem send_su (s : State) (p : PortIx) (k : PortKind) (r : PortReq) : (s.send p k r).su = s.su := rfl
@[simp] theorem send_re (s : State) (p : PortIx) (k : PortKind) (r : PortReq) : (s.send p k r).re = s.re := rfl
@[simp] theorem send_da (s : State) (p : PortIx) (k : PortKind) (r : PortReq) : (s.send p k r).da = { s.da with slots := s.da.slots.set p (some { kind := k, discard := false }) } := rfl
@[simp] theorem send_eq (s : State) (p : PortIx) (k : PortKind) (r : PortReq) : (s.send p k r).eq = s.eq := rfl
@[simp] theorem send_port (s : State) (p : PortIx) (k : PortKind) (r : PortReq) : (s.send p k r).port = s.port := rfl
@[simp] theorem send_inReset (s : State) (p : PortIx) (k : PortKind) (r : PortReq) : (s.send p k r).inReset = s.inReset := rfl
@[simp] theorem send_noFrame (s : State) (p : PortIx) (k : PortKind) (r : PortReq) : (s.send p k r).noFrame = s.noFrame := rfl
@[simp] theorem send_uport (s : State) (p : PortIx) (k : PortKind) (r : PortReq) : (s.send p k r).uport = s.uport := rfl
@[simp] theorem send_dport (s : State) (p : PortIx) (k : PortKind) (r : PortReq) : (s.send p k r).dport = s.dport ++ [r] := rfl
@[simp] theorem send_mdo (s : State) (p : PortIx) (k : PortKind) (r : PortReq) : (s.send p k r).mdo = s.mdo := rfl
@[simp] theorem send_pending (s : State) (p : PortIx) (k : PortKind) (r : PortReq) : (s.send p k r).pending = s.pending := rfl

/-! ## stage -/

@[simp] theorem stage_iq (s : State) (i : WinIx) (w : WinEntry) : (s.stage i w).iq = s.iq := rfl
@[simp] theorem stage_wu (s : State) (i : WinIx) (w : WinEntry) : (s.stage i w).wu = { s.wu with staged := s.wu.staged.set i w } := rfl
@[simp] theorem stage_cu (s : State) (i : WinIx) (w : WinEntry) : (s.stage i w).cu = s.cu := rfl
@[simp] theorem stage_jw (s : State) (i : WinIx) (w : WinEntry) : (s.stage i w).jw = s.jw := rfl
@[simp] theorem stage_ec (s : State) (i : WinIx) (w : WinEntry) : (s.stage i w).ec = s.ec := rfl
@[simp] theorem stage_su (s : State) (i : WinIx) (w : WinEntry) : (s.stage i w).su = s.su := rfl
@[simp] theorem stage_re (s : State) (i : WinIx) (w : WinEntry) : (s.stage i w).re = s.re := rfl
@[simp] theorem stage_da (s : State) (i : WinIx) (w : WinEntry) : (s.stage i w).da = s.da := rfl
@[simp] theorem stage_eq (s : State) (i : WinIx) (w : WinEntry) : (s.stage i w).eq = s.eq := rfl
@[simp] theorem stage_port (s : State) (i : WinIx) (w : WinEntry) : (s.stage i w).port = s.port := rfl
@[simp] theorem stage_inReset (s : State) (i : WinIx) (w : WinEntry) : (s.stage i w).inReset = s.inReset := rfl
@[simp] theorem stage_noFrame (s : State) (i : WinIx) (w : WinEntry) : (s.stage i w).noFrame = s.noFrame := rfl
@[simp] theorem stage_uport (s : State) (i : WinIx) (w : WinEntry) : (s.stage i w).uport = s.uport := rfl
@[simp] theorem stage_dport (s : State) (i : WinIx) (w : WinEntry) : (s.stage i w).dport = s.dport := rfl
@[simp] theorem stage_mdo (s : State) (i : WinIx) (w : WinEntry) : (s.stage i w).mdo = s.mdo := rfl
@[simp] theorem stage_pending (s : State) (i : WinIx) (w : WinEntry) : (s.stage i w).pending = s.pending := rfl

/-! ## setArm -/

@[simp] theorem setArm_iq (s : State) (b : Bool) : (s.setArm b).iq = s.iq := rfl
@[simp] theorem setArm_wu (s : State) (b : Bool) : (s.setArm b).wu = { s.wu with armed := b } := rfl
@[simp] theorem setArm_cu (s : State) (b : Bool) : (s.setArm b).cu = s.cu := rfl
@[simp] theorem setArm_jw (s : State) (b : Bool) : (s.setArm b).jw = s.jw := rfl
@[simp] theorem setArm_ec (s : State) (b : Bool) : (s.setArm b).ec = s.ec := rfl
@[simp] theorem setArm_su (s : State) (b : Bool) : (s.setArm b).su = s.su := rfl
@[simp] theorem setArm_re (s : State) (b : Bool) : (s.setArm b).re = s.re := rfl
@[simp] theorem setArm_da (s : State) (b : Bool) : (s.setArm b).da = s.da := rfl
@[simp] theorem setArm_eq (s : State) (b : Bool) : (s.setArm b).eq = s.eq := rfl
@[simp] theorem setArm_port (s : State) (b : Bool) : (s.setArm b).port = s.port := rfl
@[simp] theorem setArm_inReset (s : State) (b : Bool) : (s.setArm b).inReset = s.inReset := rfl
@[simp] theorem setArm_noFrame (s : State) (b : Bool) : (s.setArm b).noFrame = s.noFrame := rfl
@[simp] theorem setArm_uport (s : State) (b : Bool) : (s.setArm b).uport = s.uport := rfl
@[simp] theorem setArm_dport (s : State) (b : Bool) : (s.setArm b).dport = s.dport := rfl
@[simp] theorem setArm_mdo (s : State) (b : Bool) : (s.setArm b).mdo = s.mdo := rfl
@[simp] theorem setArm_pending (s : State) (b : Bool) : (s.setArm b).pending = s.pending := rfl

/-! ## clearTrip -/

@[simp] theorem clearTrip_iq (s : State) (set : BitVec 16) : (s.clearTrip set).iq = s.iq := rfl
@[simp] theorem clearTrip_wu (s : State) (set : BitVec 16) : (s.clearTrip set).wu = { s.wu with trip := s.wu.trip &&& ~~~set } := rfl
@[simp] theorem clearTrip_cu (s : State) (set : BitVec 16) : (s.clearTrip set).cu = s.cu := rfl
@[simp] theorem clearTrip_jw (s : State) (set : BitVec 16) : (s.clearTrip set).jw = s.jw := rfl
@[simp] theorem clearTrip_ec (s : State) (set : BitVec 16) : (s.clearTrip set).ec = s.ec := rfl
@[simp] theorem clearTrip_su (s : State) (set : BitVec 16) : (s.clearTrip set).su = s.su := rfl
@[simp] theorem clearTrip_re (s : State) (set : BitVec 16) : (s.clearTrip set).re = s.re := rfl
@[simp] theorem clearTrip_da (s : State) (set : BitVec 16) : (s.clearTrip set).da = s.da := rfl
@[simp] theorem clearTrip_eq (s : State) (set : BitVec 16) : (s.clearTrip set).eq = s.eq := rfl
@[simp] theorem clearTrip_port (s : State) (set : BitVec 16) : (s.clearTrip set).port = s.port := rfl
@[simp] theorem clearTrip_inReset (s : State) (set : BitVec 16) : (s.clearTrip set).inReset = s.inReset := rfl
@[simp] theorem clearTrip_noFrame (s : State) (set : BitVec 16) : (s.clearTrip set).noFrame = s.noFrame := rfl
@[simp] theorem clearTrip_uport (s : State) (set : BitVec 16) : (s.clearTrip set).uport = s.uport := rfl
@[simp] theorem clearTrip_dport (s : State) (set : BitVec 16) : (s.clearTrip set).dport = s.dport := rfl
@[simp] theorem clearTrip_mdo (s : State) (set : BitVec 16) : (s.clearTrip set).mdo = s.mdo := rfl
@[simp] theorem clearTrip_pending (s : State) (set : BitVec 16) : (s.clearTrip set).pending = s.pending := rfl

/-! ## applyTable -/

@[simp] theorem applyTable_iq (s : State) (e : Option EpochNo) : (s.applyTable e).iq = s.iq := rfl
@[simp] theorem applyTable_wu (s : State) (e : Option EpochNo) : (s.applyTable e).wu = { s.wu with active := s.wu.staged, armed := false } := rfl
@[simp] theorem applyTable_cu (s : State) (e : Option EpochNo) : (s.applyTable e).cu = s.cu := rfl
@[simp] theorem applyTable_jw (s : State) (e : Option EpochNo) : (s.applyTable e).jw = s.jw := rfl
@[simp] theorem applyTable_ec (s : State) (e : Option EpochNo) : (s.applyTable e).ec = s.ec := rfl
@[simp] theorem applyTable_su (s : State) (e : Option EpochNo) : (s.applyTable e).su = s.su.applied s.changedSet := rfl
@[simp] theorem applyTable_re (s : State) (e : Option EpochNo) : (s.applyTable e).re = s.re := rfl
@[simp] theorem applyTable_da (s : State) (e : Option EpochNo) : (s.applyTable e).da = s.da := rfl
@[simp] theorem applyTable_eq (s : State) (e : Option EpochNo) : (s.applyTable e).eq = s.eq.raise { code := .tableApplied, epoch := e, arg := s.changedSet.setWidth 32 } := rfl
@[simp] theorem applyTable_port (s : State) (e : Option EpochNo) : (s.applyTable e).port = s.port := rfl
@[simp] theorem applyTable_inReset (s : State) (e : Option EpochNo) : (s.applyTable e).inReset = s.inReset := rfl
@[simp] theorem applyTable_noFrame (s : State) (e : Option EpochNo) : (s.applyTable e).noFrame = s.noFrame := rfl
@[simp] theorem applyTable_uport (s : State) (e : Option EpochNo) : (s.applyTable e).uport = s.uport := rfl
@[simp] theorem applyTable_dport (s : State) (e : Option EpochNo) : (s.applyTable e).dport = s.dport := rfl
@[simp] theorem applyTable_mdo (s : State) (e : Option EpochNo) : (s.applyTable e).mdo = s.mdo := rfl
@[simp] theorem applyTable_pending (s : State) (e : Option EpochNo) : (s.applyTable e).pending = s.pending := rfl

/-! ## setRetention -/

@[simp] theorem setRetention_iq (s : State) (n : Nat) : (s.setRetention n).iq = s.iq := rfl
@[simp] theorem setRetention_wu (s : State) (n : Nat) : (s.setRetention n).wu = s.wu := rfl
@[simp] theorem setRetention_cu (s : State) (n : Nat) : (s.setRetention n).cu = s.cu := rfl
@[simp] theorem setRetention_jw (s : State) (n : Nat) : (s.setRetention n).jw = s.jw := rfl
@[simp] theorem setRetention_ec (s : State) (n : Nat) : (s.setRetention n).ec = { s.ec with retention := n } := rfl
@[simp] theorem setRetention_su (s : State) (n : Nat) : (s.setRetention n).su = s.su := rfl
@[simp] theorem setRetention_re (s : State) (n : Nat) : (s.setRetention n).re = s.re := rfl
@[simp] theorem setRetention_da (s : State) (n : Nat) : (s.setRetention n).da = s.da := rfl
@[simp] theorem setRetention_eq (s : State) (n : Nat) : (s.setRetention n).eq = s.eq := rfl
@[simp] theorem setRetention_port (s : State) (n : Nat) : (s.setRetention n).port = s.port := rfl
@[simp] theorem setRetention_inReset (s : State) (n : Nat) : (s.setRetention n).inReset = s.inReset := rfl
@[simp] theorem setRetention_noFrame (s : State) (n : Nat) : (s.setRetention n).noFrame = s.noFrame := rfl
@[simp] theorem setRetention_uport (s : State) (n : Nat) : (s.setRetention n).uport = s.uport := rfl
@[simp] theorem setRetention_dport (s : State) (n : Nat) : (s.setRetention n).dport = s.dport := rfl
@[simp] theorem setRetention_mdo (s : State) (n : Nat) : (s.setRetention n).mdo = s.mdo := rfl
@[simp] theorem setRetention_pending (s : State) (n : Nat) : (s.setRetention n).pending = s.pending := rfl

/-! ## setStrobe -/

@[simp] theorem setStrobe_iq (s : State) (b : Bool) (d : Edge) : (s.setStrobe b d).iq = s.iq := rfl
@[simp] theorem setStrobe_wu (s : State) (b : Bool) (d : Edge) : (s.setStrobe b d).wu = s.wu := rfl
@[simp] theorem setStrobe_cu (s : State) (b : Bool) (d : Edge) : (s.setStrobe b d).cu = s.cu := rfl
@[simp] theorem setStrobe_jw (s : State) (b : Bool) (d : Edge) : (s.setStrobe b d).jw = s.jw := rfl
@[simp] theorem setStrobe_ec (s : State) (b : Bool) (d : Edge) : (s.setStrobe b d).ec = { s.ec with strobeEnable := b, strobePolarity := d } := rfl
@[simp] theorem setStrobe_su (s : State) (b : Bool) (d : Edge) : (s.setStrobe b d).su = s.su := rfl
@[simp] theorem setStrobe_re (s : State) (b : Bool) (d : Edge) : (s.setStrobe b d).re = s.re := rfl
@[simp] theorem setStrobe_da (s : State) (b : Bool) (d : Edge) : (s.setStrobe b d).da = s.da := rfl
@[simp] theorem setStrobe_eq (s : State) (b : Bool) (d : Edge) : (s.setStrobe b d).eq = s.eq := rfl
@[simp] theorem setStrobe_port (s : State) (b : Bool) (d : Edge) : (s.setStrobe b d).port = s.port := rfl
@[simp] theorem setStrobe_inReset (s : State) (b : Bool) (d : Edge) : (s.setStrobe b d).inReset = s.inReset := rfl
@[simp] theorem setStrobe_noFrame (s : State) (b : Bool) (d : Edge) : (s.setStrobe b d).noFrame = s.noFrame := rfl
@[simp] theorem setStrobe_uport (s : State) (b : Bool) (d : Edge) : (s.setStrobe b d).uport = s.uport := rfl
@[simp] theorem setStrobe_dport (s : State) (b : Bool) (d : Edge) : (s.setStrobe b d).dport = s.dport := rfl
@[simp] theorem setStrobe_mdo (s : State) (b : Bool) (d : Edge) : (s.setStrobe b d).mdo = s.mdo := rfl
@[simp] theorem setStrobe_pending (s : State) (b : Bool) (d : Edge) : (s.setStrobe b d).pending = s.pending := rfl

/-! ## setHoldLimit -/

@[simp] theorem setHoldLimit_iq (s : State) (n : BitVec 16) : (s.setHoldLimit n).iq = { s.iq with holdLimit := n } := rfl
@[simp] theorem setHoldLimit_wu (s : State) (n : BitVec 16) : (s.setHoldLimit n).wu = s.wu := rfl
@[simp] theorem setHoldLimit_cu (s : State) (n : BitVec 16) : (s.setHoldLimit n).cu = s.cu := rfl
@[simp] theorem setHoldLimit_jw (s : State) (n : BitVec 16) : (s.setHoldLimit n).jw = s.jw := rfl
@[simp] theorem setHoldLimit_ec (s : State) (n : BitVec 16) : (s.setHoldLimit n).ec = s.ec := rfl
@[simp] theorem setHoldLimit_su (s : State) (n : BitVec 16) : (s.setHoldLimit n).su = s.su := rfl
@[simp] theorem setHoldLimit_re (s : State) (n : BitVec 16) : (s.setHoldLimit n).re = s.re := rfl
@[simp] theorem setHoldLimit_da (s : State) (n : BitVec 16) : (s.setHoldLimit n).da = s.da := rfl
@[simp] theorem setHoldLimit_eq (s : State) (n : BitVec 16) : (s.setHoldLimit n).eq = s.eq := rfl
@[simp] theorem setHoldLimit_port (s : State) (n : BitVec 16) : (s.setHoldLimit n).port = s.port := rfl
@[simp] theorem setHoldLimit_inReset (s : State) (n : BitVec 16) : (s.setHoldLimit n).inReset = s.inReset := rfl
@[simp] theorem setHoldLimit_noFrame (s : State) (n : BitVec 16) : (s.setHoldLimit n).noFrame = s.noFrame := rfl
@[simp] theorem setHoldLimit_uport (s : State) (n : BitVec 16) : (s.setHoldLimit n).uport = s.uport := rfl
@[simp] theorem setHoldLimit_dport (s : State) (n : BitVec 16) : (s.setHoldLimit n).dport = s.dport := rfl
@[simp] theorem setHoldLimit_mdo (s : State) (n : BitVec 16) : (s.setHoldLimit n).mdo = s.mdo := rfl
@[simp] theorem setHoldLimit_pending (s : State) (n : BitVec 16) : (s.setHoldLimit n).pending = s.pending := rfl

/-! ## clearMerged -/

@[simp] theorem clearMerged_iq (s : State) : (s.clearMerged).iq = s.iq := rfl
@[simp] theorem clearMerged_wu (s : State) : (s.clearMerged).wu = s.wu := rfl
@[simp] theorem clearMerged_cu (s : State) : (s.clearMerged).cu = s.cu := rfl
@[simp] theorem clearMerged_jw (s : State) : (s.clearMerged).jw = s.jw := rfl
@[simp] theorem clearMerged_ec (s : State) : (s.clearMerged).ec = { s.ec with merged := 0 } := rfl
@[simp] theorem clearMerged_su (s : State) : (s.clearMerged).su = s.su := rfl
@[simp] theorem clearMerged_re (s : State) : (s.clearMerged).re = s.re := rfl
@[simp] theorem clearMerged_da (s : State) : (s.clearMerged).da = s.da := rfl
@[simp] theorem clearMerged_eq (s : State) : (s.clearMerged).eq = s.eq := rfl
@[simp] theorem clearMerged_port (s : State) : (s.clearMerged).port = s.port := rfl
@[simp] theorem clearMerged_inReset (s : State) : (s.clearMerged).inReset = s.inReset := rfl
@[simp] theorem clearMerged_noFrame (s : State) : (s.clearMerged).noFrame = s.noFrame := rfl
@[simp] theorem clearMerged_uport (s : State) : (s.clearMerged).uport = s.uport := rfl
@[simp] theorem clearMerged_dport (s : State) : (s.clearMerged).dport = s.dport := rfl
@[simp] theorem clearMerged_mdo (s : State) : (s.clearMerged).mdo = s.mdo := rfl
@[simp] theorem clearMerged_pending (s : State) : (s.clearMerged).pending = s.pending := rfl

/-! ## clearTable -/

@[simp] theorem clearTable_iq (s : State) : (s.clearTable).iq = s.iq := rfl
@[simp] theorem clearTable_wu (s : State) : (s.clearTable).wu = s.wu := rfl
@[simp] theorem clearTable_cu (s : State) : (s.clearTable).cu = s.cu := rfl
@[simp] theorem clearTable_jw (s : State) : (s.clearTable).jw = s.jw := rfl
@[simp] theorem clearTable_ec (s : State) : (s.clearTable).ec = { s.ec with table := [] } := rfl
@[simp] theorem clearTable_su (s : State) : (s.clearTable).su = s.su := rfl
@[simp] theorem clearTable_re (s : State) : (s.clearTable).re = s.re := rfl
@[simp] theorem clearTable_da (s : State) : (s.clearTable).da = s.da := rfl
@[simp] theorem clearTable_eq (s : State) : (s.clearTable).eq = s.eq := rfl
@[simp] theorem clearTable_port (s : State) : (s.clearTable).port = s.port := rfl
@[simp] theorem clearTable_inReset (s : State) : (s.clearTable).inReset = s.inReset := rfl
@[simp] theorem clearTable_noFrame (s : State) : (s.clearTable).noFrame = s.noFrame := rfl
@[simp] theorem clearTable_uport (s : State) : (s.clearTable).uport = s.uport := rfl
@[simp] theorem clearTable_dport (s : State) : (s.clearTable).dport = s.dport := rfl
@[simp] theorem clearTable_mdo (s : State) : (s.clearTable).mdo = s.mdo := rfl
@[simp] theorem clearTable_pending (s : State) : (s.clearTable).pending = s.pending := rfl

/-! ## zeroRing -/

@[simp] theorem zeroRing_iq (s : State) : (s.zeroRing).iq = s.iq := rfl
@[simp] theorem zeroRing_wu (s : State) : (s.zeroRing).wu = s.wu := rfl
@[simp] theorem zeroRing_cu (s : State) : (s.zeroRing).cu = s.cu := rfl
@[simp] theorem zeroRing_jw (s : State) : (s.zeroRing).jw = { s.jw with head := 0, tail := 0 } := rfl
@[simp] theorem zeroRing_ec (s : State) : (s.zeroRing).ec = s.ec := rfl
@[simp] theorem zeroRing_su (s : State) : (s.zeroRing).su = s.su := rfl
@[simp] theorem zeroRing_re (s : State) : (s.zeroRing).re = s.re := rfl
@[simp] theorem zeroRing_da (s : State) : (s.zeroRing).da = s.da := rfl
@[simp] theorem zeroRing_eq (s : State) : (s.zeroRing).eq = s.eq := rfl
@[simp] theorem zeroRing_port (s : State) : (s.zeroRing).port = s.port := rfl
@[simp] theorem zeroRing_inReset (s : State) : (s.zeroRing).inReset = s.inReset := rfl
@[simp] theorem zeroRing_noFrame (s : State) : (s.zeroRing).noFrame = s.noFrame := rfl
@[simp] theorem zeroRing_uport (s : State) : (s.zeroRing).uport = s.uport := rfl
@[simp] theorem zeroRing_dport (s : State) : (s.zeroRing).dport = s.dport := rfl
@[simp] theorem zeroRing_mdo (s : State) : (s.zeroRing).mdo = s.mdo := rfl
@[simp] theorem zeroRing_pending (s : State) : (s.zeroRing).pending = s.pending := rfl

/-! ## arm -/

@[simp] theorem arm_iq (s : State) (i : WinIx) (v : Word32) : (s.arm i v).iq = s.iq := rfl
@[simp] theorem arm_wu (s : State) (i : WinIx) (v : Word32) : (s.arm i v).wu = s.wu := rfl
@[simp] theorem arm_cu (s : State) (i : WinIx) (v : Word32) : (s.arm i v).cu = s.cu := rfl
@[simp] theorem arm_jw (s : State) (i : WinIx) (v : Word32) : (s.arm i v).jw = s.jw := rfl
@[simp] theorem arm_ec (s : State) (i : WinIx) (v : Word32) : (s.arm i v).ec = s.ec := rfl
@[simp] theorem arm_su (s : State) (i : WinIx) (v : Word32) : (s.arm i v).su = { s.su with openBank := s.su.openBank.update i (fun b => { b with expected := some v }) } := rfl
@[simp] theorem arm_re (s : State) (i : WinIx) (v : Word32) : (s.arm i v).re = s.re := rfl
@[simp] theorem arm_da (s : State) (i : WinIx) (v : Word32) : (s.arm i v).da = s.da := rfl
@[simp] theorem arm_eq (s : State) (i : WinIx) (v : Word32) : (s.arm i v).eq = s.eq := rfl
@[simp] theorem arm_port (s : State) (i : WinIx) (v : Word32) : (s.arm i v).port = s.port := rfl
@[simp] theorem arm_inReset (s : State) (i : WinIx) (v : Word32) : (s.arm i v).inReset = s.inReset := rfl
@[simp] theorem arm_noFrame (s : State) (i : WinIx) (v : Word32) : (s.arm i v).noFrame = s.noFrame := rfl
@[simp] theorem arm_uport (s : State) (i : WinIx) (v : Word32) : (s.arm i v).uport = s.uport := rfl
@[simp] theorem arm_dport (s : State) (i : WinIx) (v : Word32) : (s.arm i v).dport = s.dport := rfl
@[simp] theorem arm_mdo (s : State) (i : WinIx) (v : Word32) : (s.arm i v).mdo = s.mdo := rfl
@[simp] theorem arm_pending (s : State) (i : WinIx) (v : Word32) : (s.arm i v).pending = s.pending := rfl

end Sys2Proof.Machine.State
end

