-- ==== Sys2Proof/Laws/Calm.lean ====
section
/-! SUPPORT. `Calm s t`: the whole frame of the operations on the table, the pressure and the commits. They touch the entries,
the tail, the pressure with its reason, the marks of examined writes and the event queue, and nothing else. -/
namespace Sys2Proof.Machine

/-- What marks, pressure changes and commits may change, and that all else is as it was. -/
structure Calm (s t : State) : Prop where
  wu      : t.wu = s.wu
  cu      : t.cu = s.cu
  su      : t.su = s.su
  re      : t.re = s.re
  da      : t.da = s.da
  ec      : t.ec = { s.ec with table := t.ec.table }
  jw      : t.jw = { s.jw with tail := t.jw.tail, pressure := t.jw.pressure, reason := t.jw.reason }
  iq      : t.iq = { s.iq with slots := t.iq.slots }
  slots   : t.iq.slots.map Slot.reexamined = s.iq.slots.map Slot.reexamined
  events  : ∃ evs, t.eq = s.eq.raiseAll evs
  port    : t.port = s.port
  inReset : t.inReset = s.inReset
  noFrame : t.noFrame = s.noFrame
  uport   : t.uport = s.uport
  dport   : t.dport = s.dport
  mdo     : t.mdo = s.mdo
  pending : t.pending = s.pending

theorem Calm.refl (s : State) : Calm s s :=
  ⟨rfl, rfl, rfl, rfl, rfl, rfl, rfl, rfl, rfl, ⟨[], rfl⟩, rfl, rfl, rfl, rfl, rfl, rfl, rfl⟩

theorem Calm.trans {s t u : State} (h : Calm s t) (k : Calm t u) : Calm s u where
  wu := k.wu.trans h.wu
  cu := k.cu.trans h.cu
  su := k.su.trans h.su
  re := k.re.trans h.re
  da := k.da.trans h.da
  ec := by rw [k.ec, h.ec]
  jw := by rw [k.jw, h.jw]
  iq := by rw [k.iq, h.iq]
  slots := k.slots.trans h.slots
  events := by
    obtain ⟨a, ha⟩ := h.events
    obtain ⟨b, hb⟩ := k.events
    exact ⟨a ++ b, by rw [hb, ha]; simp [EventQueue.raiseAll]⟩
  port := k.port.trans h.port
  inReset := k.inReset.trans h.inReset
  noFrame := k.noFrame.trans h.noFrame
  uport := k.uport.trans h.uport
  dport := k.dport.trans h.dport
  mdo := k.mdo.trans h.mdo
  pending := k.pending.trans h.pending

theorem Calm.foldl {α : Type} (f : State → α → State) (h : ∀ s a, Calm s (f s a)) (l : List α) (s : State) :
    Calm s (l.foldl f s) := by
  induction l generalizing s with
  | nil => exact Calm.refl s
  | cons a l ih => exact (h s a).trans (ih (f s a))

/-- Records that differ in the mark alone stand in the same slots. -/
theorem slot?_reexamined {l m : List Slot} (h : l.map Slot.reexamined = m.map Slot.reexamined) (q : SlotIx) :
    (l.find? (fun x => x.ix == q)).map Slot.reexamined = (m.find? (fun x => x.ix == q)).map Slot.reexamined := by
  induction l generalizing m with
  | nil => cases m with
    | nil => rfl
    | cons b m => simp at h
  | cons a l ih => cases m with
    | nil => simp at h
    | cons b m =>
      simp only [List.map_cons, List.cons.injEq] at h
      have hix : a.reexamined.ix = b.reexamined.ix := congrArg Slot.ix h.1
      change a.ix = b.ix at hix
      simp only [List.find?_cons, hix]
      split
      · simp [h.1]
      · exact ih h.2

theorem Calm.sameSlots {s t : State} (h : Calm s t) : s.SameSlots t := fun q => slot?_reexamined h.slots q

theorem State.raise_calm (s : State) (e : Event) : Calm s (s.raise e) :=
  ⟨rfl, rfl, rfl, rfl, rfl, rfl, rfl, rfl, rfl, ⟨[e], rfl⟩, rfl, rfl, rfl, rfl, rfl, rfl, rfl⟩

theorem State.raiseCodes_calm (s : State) (arg : Word32) (codes : List EventCode) : Calm s (s.raiseCodes arg codes) :=
  Calm.foldl _ (fun t _ => t.raise_calm _) codes s

theorem State.setEntry_calm (s : State) (e : EpochNo) (f : Entry → Entry) : Calm s (s.setEntry e f) :=
  ⟨rfl, rfl, rfl, rfl, rfl, rfl, rfl, rfl, rfl, ⟨[], rfl⟩, rfl, rfl, rfl, rfl, rfl, rfl, rfl⟩

/-- Some of the writes at their capture point are to be examined again. -/
theorem Calm.reexamine (s : State) {f : Slot → Slot} (hf : ∀ x, (f x).reexamined = x.reexamined) :
    Calm s (s.mapSlots f) := by
  refine ⟨rfl, rfl, rfl, rfl, rfl, rfl, rfl, rfl, ?_, ⟨[], rfl⟩, rfl, rfl, rfl, rfl, rfl, rfl, rfl⟩
  simp only [State.mapSlots_iq, List.map_map]
  exact List.map_congr_left (fun x _ => hf x)

theorem State.markBroken_calm (s : State) (e : EpochNo) (r : Reason) : Calm s (s.markBroken e r) := by
  unfold State.markBroken
  split
  · exact Calm.refl s
  · refine (s.setEntry_calm e _).trans (Calm.reexamine _ (fun x => ?_))
    split <;> rfl

theorem State.setPressure_calm (s : State) (p : Pressure) (r : Option Reason) : Calm s (s.setPressure p r) := by
  have h : Calm s { s with jw := { s.jw with pressure := p, reason := r } } :=
    ⟨rfl, rfl, rfl, rfl, rfl, rfl, rfl, rfl, rfl, ⟨[], rfl⟩, rfl, rfl, rfl, rfl, rfl, rfl, rfl⟩
  unfold State.setPressure
  split
  · exact h
  · exact h.trans (Calm.reexamine _ (fun _ => rfl))

theorem State.evaluate_calm (s : State) : Calm s s.evaluate := by
  unfold State.evaluate
  split
  · exact Calm.refl s
  · exact (s.raiseCodes_calm _ _).trans (State.setPressure_calm _ _ _)

theorem State.normalize_calm (s : State) : Calm s s.normalize := by
  unfold State.normalize
  split
  · exact (s.setPressure_calm _ _).trans (State.raise_calm _ _)
  · exact (s.raiseCodes_calm _ _).trans (State.setPressure_calm _ _ _)

theorem State.commitOldest_calm (s : State) (c : Cause) : Calm s (s.commitOldest c) := by
  unfold State.commitOldest
  split
  · exact Calm.refl s
  · rename_i e rest _
    split
    · refine Calm.trans ?_ (State.evaluate_calm _)
      refine Calm.trans ?_ (State.raise_calm _ _)
      exact ⟨rfl, rfl, rfl, rfl, rfl, rfl, rfl, rfl, rfl, ⟨[], rfl⟩, rfl, rfl, rfl, rfl, rfl, rfl, rfl⟩
    · exact Calm.refl s

theorem State.commitN_calm (n : Nat) (s : State) (c : Cause) : Calm s (s.commitN n c) := by
  induction n generalizing s with
  | zero => exact Calm.refl s
  | succ n ih => exact (s.commitOldest_calm c).trans (ih _)

theorem State.commitSealed_calm (s : State) (c : Cause) : Calm s (s.commitSealed c) := s.commitN_calm _ c

theorem State.commitExcess_calm (s : State) (c : Cause) : Calm s (s.commitExcess c) := s.commitN_calm _ c

theorem State.markOpen_calm (s : State) (r : Reason) : Calm s (s.markOpen r) := by
  unfold State.markOpen
  split
  · exact Calm.refl s
  · exact s.markBroken_calm _ _

theorem State.enterSuspended_calm (s : State) (r : Reason) : Calm s (s.enterSuspended r) := by
  unfold State.enterSuspended
  split
  · exact Calm.refl s
  · exact (((s.setPressure_calm _ _).trans (State.markOpen_calm _ _)).trans (State.commitSealed_calm _ _)).trans
      (State.raise_calm _ _)

theorem State.reservationFails_calm (s : State) (e : EpochNo) : Calm s (s.reservationFails e) := by
  unfold State.reservationFails
  split
  · exact (s.markBroken_calm _ _).trans (State.commitSealed_calm _ _)
  · exact (s.markBroken_calm _ _).trans (State.enterSuspended_calm _ _)

theorem State.recordFault_calm (s : State) (line : Nat) (e : EpochNo) (kind : FaultKind) :
    Calm s (s.recordFault line e kind) :=
  ((s.markBroken_calm _ _).trans (State.raise_calm _ _)).trans (State.enterSuspended_calm _ _)

theorem State.depthCommit_calm (s : State) : Calm s s.depthCommit := by
  unfold State.depthCommit
  split
  · exact s.commitOldest_calm _
  · exact Calm.refl s

theorem State.commitBroken_calm (s : State) (e : EpochNo) : Calm s (s.commitBroken e) := by
  unfold State.commitBroken
  split
  · exact s.commitN_calm _ _
  · exact Calm.refl s

theorem State.makeRoom_calm (s : State) : Calm s s.makeRoom := by
  unfold State.makeRoom
  split
  · exact s.commitOldest_calm _
  · exact Calm.refl s

theorem State.recover_calm (s : State) : Calm s s.recover := by
  unfold State.recover
  split
  · exact (s.setPressure_calm _ _).trans (State.raise_calm _ _)
  · exact Calm.refl s

theorem State.forcedCommit_calm (s : State) : Calm s s.forcedCommit := by
  unfold State.forcedCommit
  split
  · exact s.commitOldest_calm _
  · exact Calm.refl s

end Sys2Proof.Machine
end

