-- ==== Sys2Proof/Laws/Decode.lean ====
section
/-! SUPPORT. Fields and bytes, and the command codes one by one, so that no proof about a frame unfolds the decoder. -/
namespace Sys2Proof

/-! ## Fields (00 Byte order) -/

theorem word16_bytes (x : BitVec 16) : word16 (x.extractLsb' 0 8) (x.extractLsb' 8 8) = x := by
  refine BitVec.eq_of_getLsbD_eq (fun i hi => ?_)
  show (x.extractLsb' 8 8 ++ x.extractLsb' 0 8 : BitVec (8 + 8)).getLsbD i = _
  rw [BitVec.getLsbD_append, BitVec.getLsbD_extractLsb', BitVec.getLsbD_extractLsb']
  by_cases h : i < 8
  · simp [h]
  · simp only [h, if_false, show i - 8 < 8 by omega, decide_true, Bool.true_and]
    congr 1; omega

theorem word32_bytes (x : BitVec 32) :
    word32 (x.extractLsb' 0 8) (x.extractLsb' 8 8) (x.extractLsb' 16 8) (x.extractLsb' 24 8) = x := by
  refine BitVec.eq_of_getLsbD_eq (fun i hi => ?_)
  show ((x.extractLsb' 24 8 ++ x.extractLsb' 16 8 : BitVec (8 + 8)) ++
    (x.extractLsb' 8 8 ++ x.extractLsb' 0 8 : BitVec (8 + 8)) : BitVec ((8 + 8) + (8 + 8))).getLsbD i = _
  simp only [BitVec.getLsbD_append, BitVec.getLsbD_extractLsb']
  simp only [Nat.reduceAdd]
  by_cases h : i < 8
  · simp [h, show i < 16 by omega]
  · by_cases h2 : i < 16
    · simp only [h, h2, if_true, if_false, show i - 8 < 8 by omega, decide_true, Bool.true_and]
      congr 1; omega
    · by_cases h3 : i - 16 < 8
      · simp only [h2, if_false, h3, if_true, decide_true, Bool.true_and]
        congr 1; omega
      · simp only [h2, if_false, h3, show i - 16 - 8 < 8 by omega, decide_true, Bool.true_and]
        congr 1; omega

/-! ## Frames (R187, R189, R190) -/

/-- A command is taken at its last argument byte, and later bytes are ignored. -/
theorem decodeFrame_taken {code : Byte} {args : List Byte} {n : Nat} {c : Instr} (hn : argCount code = some n)
    (hl : args.length = n) (hc : commandOf code args = some c) (extra : List Byte) :
    decodeFrame (code :: args ++ extra) = .taken c := by
  have : (args ++ extra).take n = args := by rw [← hl]; simp
  simp [decodeFrame, hn, this, hc]

/-- A frame whose argument bytes are incomplete is early. -/
theorem decodeFrame_early {code : Byte} {args : List Byte} {n : Nat} (hn : argCount code = some n)
    (hc : commandOf code (args.take n) = none) : decodeFrame (code :: args) = .early := by
  simp [decodeFrame, hn, hc]

theorem decodeFrame_unknown {code : Byte} (hn : argCount code = none) (rest : List Byte) :
    decodeFrame (code :: rest) = .unknown code := by
  simp [decodeFrame, hn]

/-! ## The codes (12.4) -/

theorem argCount_01 : argCount 0x01#8 = some 0 := rfl
theorem argCount_10 : argCount 0x10#8 = some 12 := rfl
theorem argCount_11 : argCount 0x11#8 = some 2 := rfl
theorem argCount_12 : argCount 0x12#8 = some 0 := rfl
theorem argCount_13 : argCount 0x13#8 = some 0 := rfl
theorem argCount_14 : argCount 0x14#8 = some 2 := rfl
theorem argCount_20 : argCount 0x20#8 = some 8 := rfl
theorem argCount_21 : argCount 0x21#8 = some 1 := rfl
theorem argCount_22 : argCount 0x22#8 = some 3 := rfl
theorem argCount_23 : argCount 0x23#8 = some 2 := rfl
theorem argCount_24 : argCount 0x24#8 = some 2 := rfl
theorem argCount_30 : argCount 0x30#8 = some 4 := rfl
theorem argCount_31 : argCount 0x31#8 = some 0 := rfl
theorem argCount_32 : argCount 0x32#8 = some 0 := rfl
theorem argCount_33 : argCount 0x33#8 = some 4 := rfl
theorem argCount_34 : argCount 0x34#8 = some 0 := rfl
theorem argCount_35 : argCount 0x35#8 = some 0 := rfl
theorem argCount_40 : argCount 0x40#8 = some 5 := rfl
theorem argCount_41 : argCount 0x41#8 = some 2 := rfl
theorem argCount_42 : argCount 0x42#8 = some 4 := rfl
theorem argCount_50 : argCount 0x50#8 = some 1 := rfl
theorem argCount_51 : argCount 0x51#8 = some 1 := rfl
theorem argCount_52 : argCount 0x52#8 = some 0 := rfl

/-! With exactly its argument bytes it spells its command. -/

theorem commandOf_01 : commandOf 0x01#8 [] =
    some .statusRead := rfl
theorem commandOf_10 (ix kind b0 b1 b2 b3 m0 m1 m2 m3 flags quiet : Byte) : commandOf 0x10#8 [ix, kind, b0, b1, b2, b3, m0, m1, m2, m3, flags, quiet] =
    some (.windowWrite ix kind (word32 b0 b1 b2 b3) (word32 m0 m1 m2 m3) flags quiet) := rfl
theorem commandOf_11 (sel ix : Byte) : commandOf 0x11#8 [sel, ix] =
    some (.windowRead sel ix) := rfl
theorem commandOf_12 : commandOf 0x12#8 [] =
    some .apply := rfl
theorem commandOf_13 : commandOf 0x13#8 [] =
    some .applyCancel := rfl
theorem commandOf_14 (s0 s1 : Byte) : commandOf 0x14#8 [s0, s1] =
    some (.clearTrip (word16 s0 s1)) := rfl
theorem commandOf_20 (b0 b1 b2 b3 p0 p1 p2 p3 : Byte) : commandOf 0x20#8 [b0, b1, b2, b3, p0, p1, p2, p3] =
    some (.journalSetup (word32 b0 b1 b2 b3) (word32 p0 p1 p2 p3)) := rfl
theorem commandOf_21 (r : Byte) : commandOf 0x21#8 [r] =
    some (.retentionSet r) := rfl
theorem commandOf_22 (i0 i1 e : Byte) : commandOf 0x22#8 [i0, i1, e] =
    some (.timerSet (word16 i0 i1) e) := rfl
theorem commandOf_23 (e p : Byte) : commandOf 0x23#8 [e, p] =
    some (.strobeSet e p) := rfl
theorem commandOf_24 (l0 l1 : Byte) : commandOf 0x24#8 [l0, l1] =
    some (.holdLimitSet (word16 l0 l1)) := rfl
theorem commandOf_30 (e0 e1 e2 e3 : Byte) : commandOf 0x30#8 [e0, e1, e2, e3] =
    some (.enable (word32 e0 e1 e2 e3)) := rfl
theorem commandOf_31 : commandOf 0x31#8 [] =
    some .disable := rfl
theorem commandOf_32 : commandOf 0x32#8 [] =
    some .sealNow := rfl
theorem commandOf_33 (e0 e1 e2 e3 : Byte) : commandOf 0x33#8 [e0, e1, e2, e3] =
    some (.rollback (word32 e0 e1 e2 e3)) := rfl
theorem commandOf_34 : commandOf 0x34#8 [] =
    some .release := rfl
theorem commandOf_35 : commandOf 0x35#8 [] =
    some .journalReset := rfl
theorem commandOf_40 (ix v0 v1 v2 v3 : Byte) : commandOf 0x40#8 [ix, v0, v1, v2, v3] =
    some (.armExpected ix (word32 v0 v1 v2 v3)) := rfl
theorem commandOf_41 (start count : Byte) : commandOf 0x41#8 [start, count] =
    some (.epochRead start count) := rfl
theorem commandOf_42 (e0 e1 e2 e3 : Byte) : commandOf 0x42#8 [e0, e1, e2, e3] =
    some (.signatureRead (word32 e0 e1 e2 e3)) := rfl
theorem commandOf_50 (count : Byte) : commandOf 0x50#8 [count] =
    some (.eventRead count) := rfl
theorem commandOf_51 (mask : Byte) : commandOf 0x51#8 [mask] =
    some (.eventMaskSet mask) := rfl
theorem commandOf_52 : commandOf 0x52#8 [] =
    some .clearCounters := rfl

/-! With fewer argument bytes than its count a code spells no command. -/

theorem commandOf_short_10 : ∀ args : List Byte, args.length < 12 → commandOf 0x10#8 args = none
  | [], _ => rfl
  | [_], _ => rfl
  | [_, _], _ => rfl
  | [_, _, _], _ => rfl
  | [_, _, _, _], _ => rfl
  | [_, _, _, _, _], _ => rfl
  | [_, _, _, _, _, _], _ => rfl
  | [_, _, _, _, _, _, _], _ => rfl
  | [_, _, _, _, _, _, _, _], _ => rfl
  | [_, _, _, _, _, _, _, _, _], _ => rfl
  | [_, _, _, _, _, _, _, _, _, _], _ => rfl
  | [_, _, _, _, _, _, _, _, _, _, _], _ => rfl
  | _ :: _ :: _ :: _ :: _ :: _ :: _ :: _ :: _ :: _ :: _ :: _ :: _, h => absurd h (by simp only [List.length_cons]; omega)

theorem commandOf_short_11 : ∀ args : List Byte, args.length < 2 → commandOf 0x11#8 args = none
  | [], _ => rfl
  | [_], _ => rfl
  | _ :: _ :: _, h => absurd h (by simp only [List.length_cons]; omega)

theorem commandOf_short_14 : ∀ args : List Byte, args.length < 2 → commandOf 0x14#8 args = none
  | [], _ => rfl
  | [_], _ => rfl
  | _ :: _ :: _, h => absurd h (by simp only [List.length_cons]; omega)

theorem commandOf_short_20 : ∀ args : List Byte, args.length < 8 → commandOf 0x20#8 args = none
  | [], _ => rfl
  | [_], _ => rfl
  | [_, _], _ => rfl
  | [_, _, _], _ => rfl
  | [_, _, _, _], _ => rfl
  | [_, _, _, _, _], _ => rfl
  | [_, _, _, _, _, _], _ => rfl
  | [_, _, _, _, _, _, _], _ => rfl
  | _ :: _ :: _ :: _ :: _ :: _ :: _ :: _ :: _, h => absurd h (by simp only [List.length_cons]; omega)

theorem commandOf_short_21 : ∀ args : List Byte, args.length < 1 → commandOf 0x21#8 args = none
  | [], _ => rfl
  | _ :: _, h => absurd h (by simp only [List.length_cons]; omega)

theorem commandOf_short_22 : ∀ args : List Byte, args.length < 3 → commandOf 0x22#8 args = none
  | [], _ => rfl
  | [_], _ => rfl
  | [_, _], _ => rfl
  | _ :: _ :: _ :: _, h => absurd h (by simp only [List.length_cons]; omega)

theorem commandOf_short_23 : ∀ args : List Byte, args.length < 2 → commandOf 0x23#8 args = none
  | [], _ => rfl
  | [_], _ => rfl
  | _ :: _ :: _, h => absurd h (by simp only [List.length_cons]; omega)

theorem commandOf_short_24 : ∀ args : List Byte, args.length < 2 → commandOf 0x24#8 args = none
  | [], _ => rfl
  | [_], _ => rfl
  | _ :: _ :: _, h => absurd h (by simp only [List.length_cons]; omega)

theorem commandOf_short_30 : ∀ args : List Byte, args.length < 4 → commandOf 0x30#8 args = none
  | [], _ => rfl
  | [_], _ => rfl
  | [_, _], _ => rfl
  | [_, _, _], _ => rfl
  | _ :: _ :: _ :: _ :: _, h => absurd h (by simp only [List.length_cons]; omega)

theorem commandOf_short_33 : ∀ args : List Byte, args.length < 4 → commandOf 0x33#8 args = none
  | [], _ => rfl
  | [_], _ => rfl
  | [_, _], _ => rfl
  | [_, _, _], _ => rfl
  | _ :: _ :: _ :: _ :: _, h => absurd h (by simp only [List.length_cons]; omega)

theorem commandOf_short_40 : ∀ args : List Byte, args.length < 5 → commandOf 0x40#8 args = none
  | [], _ => rfl
  | [_], _ => rfl
  | [_, _], _ => rfl
  | [_, _, _], _ => rfl
  | [_, _, _, _], _ => rfl
  | _ :: _ :: _ :: _ :: _ :: _, h => absurd h (by simp only [List.length_cons]; omega)

theorem commandOf_short_41 : ∀ args : List Byte, args.length < 2 → commandOf 0x41#8 args = none
  | [], _ => rfl
  | [_], _ => rfl
  | _ :: _ :: _, h => absurd h (by simp only [List.length_cons]; omega)

theorem commandOf_short_42 : ∀ args : List Byte, args.length < 4 → commandOf 0x42#8 args = none
  | [], _ => rfl
  | [_], _ => rfl
  | [_, _], _ => rfl
  | [_, _, _], _ => rfl
  | _ :: _ :: _ :: _ :: _, h => absurd h (by simp only [List.length_cons]; omega)

theorem commandOf_short_50 : ∀ args : List Byte, args.length < 1 → commandOf 0x50#8 args = none
  | [], _ => rfl
  | _ :: _, h => absurd h (by simp only [List.length_cons]; omega)

theorem commandOf_short_51 : ∀ args : List Byte, args.length < 1 → commandOf 0x51#8 args = none
  | [], _ => rfl
  | _ :: _, h => absurd h (by simp only [List.length_cons]; omega)

/-! ## Bits on the link -/

/-- Eight bits, the most significant first, are their byte. -/
theorem ofBits_bitsOfByte (b : Byte) :
    (BitVec.ofBoolListBE [b.getLsbD 7, b.getLsbD 6, b.getLsbD 5, b.getLsbD 4, b.getLsbD 3, b.getLsbD 2, b.getLsbD 1,
      b.getLsbD 0] : BitVec 8) = b := by
  revert b; decide +kernel

/-- The bits of bytes, with fewer than eight more behind them, are those bytes. -/
theorem bytesOfBits_bitsOfByte (bytes : List Byte) (part : List Bool) (h : part.length < 8) :
    bytesOfBits (bytes.flatMap bitsOfByte ++ part) = bytes := by
  induction bytes with
  | nil =>
    simp only [List.flatMap_nil, List.nil_append]
    unfold bytesOfBits
    split
    · simp only [List.length_cons] at h; omega
    · rfl
  | cons b l ih =>
    simp only [List.flatMap_cons, bitsOfByte, List.cons_append, List.nil_append] at ih ⊢
    rw [bytesOfBits, ih, ofBits_bitsOfByte]

end Sys2Proof
end

