-- ==== Sys2Proof/Laws/Events.lean ====
section
/-! SUPPORT. What the Event Queue's operations keep: its length, its consecutive numbers, the lost counter and the line. -/
namespace Sys2Proof.Machine

/-- The number of a record counts back from the counter by its distance to the tail. -/
theorem seq_push (q : BitVec 16) (n i : Nat) (h : i ≤ n) :
    (q + 1#16) - BitVec.ofNat 16 (n + 1 - i) = q - BitVec.ofNat 16 (n - i) := by
  rw [show n + 1 - i = (n - i) + 1 by omega, BitVec.ofNat_add]
  grind

theorem EventQueue.Ok.raise {q : EventQueue} (h : q.Ok) (e : Event) : (q.raise e).Ok := by
  unfold EventQueue.raise
  split
  · rename_i hl
    have hl : q.records.length < 32 := hl
    constructor
    · simp only [List.length_append, List.length_singleton]; omega
    · intro i r hi
      simp only [List.length_append, List.length_singleton] at hi ⊢
      rcases Nat.lt_trichotomy i q.records.length with hlt | heq | hgt
      · rw [List.getElem?_append_left hlt] at hi
        rw [seq_push _ _ _ (Nat.le_of_lt hlt)]
        exact h.consecutive i r hi
      · subst heq
        simp only [List.getElem?_concat_length, Option.some.injEq] at hi
        rw [seq_push _ _ _ (Nat.le_refl _), ← hi]
        simp
      · rw [List.getElem?_eq_none (by simp; omega)] at hi
        simp at hi
    · exact h.lost
    · intro hn; have := h.full hn; omega
    · rfl
  · rename_i hl
    refine ⟨h.few, h.consecutive, ?_, ?_, h.line⟩
    · simp only [satInc]; split <;> simp_all [Config.count8Max] <;> omega
    · intro _
      have hl : ¬ q.records.length < 32 := hl
      have := h.few
      simp only
      omega

theorem EventQueue.Ok.raiseAll {q : EventQueue} (h : q.Ok) (evs : List Event) : (q.raiseAll evs).Ok := by
  induction evs generalizing q with
  | nil => exact h
  | cons e l ih => exact ih (h.raise e)

theorem EventQueue.Ok.setMask {q : EventQueue} (h : q.Ok) (mask : Byte) : (q.setMask mask).Ok :=
  ⟨h.few, h.consecutive, h.lost, h.full, rfl⟩

theorem EventQueue.Ok.tick {q : EventQueue} (h : q.Ok) : q.tick.Ok :=
  ⟨h.few, h.consecutive, h.lost, h.full, h.line⟩

/-- Records removed from the head leave the numbers of the others as they are. -/
theorem EventQueue.Ok.drop {q : EventQueue} (h : q.Ok) (k i : Nat) (r : EventRec) (hi : (q.records.drop k)[i]? = some r) :
    r.seq = q.seq - BitVec.ofNat 16 ((q.records.drop k).length - i) := by
  rw [List.getElem?_drop] at hi
  rw [List.length_drop, Nat.sub_sub]
  exact h.consecutive _ _ hi

theorem EventQueue.Ok.remove {q : EventQueue} (h : q.Ok) (k : Nat) : (q.remove k).Ok := by
  unfold EventQueue.remove
  split
  · exact h
  · rename_i hk
    have few : (q.records.drop k).length ≤ 32 := by
      have := h.few
      simp only [List.length_drop]; omega
    by_cases hl : q.lost = 0
    · simp only [hl, if_true]
      exact ⟨few, fun i x hi => h.drop k i x hi, by simp, by simp, rfl⟩
    · have hfull := h.full hl
      have hlen : (q.records.drop k).length < Config.eventSlots := by
        simp only [List.length_drop, Config.eventSlots]; omega
      have ok : ({ q with records := q.records.drop k, lost := 0,
                          evtN := EventQueue.line { q with records := q.records.drop k } } : EventQueue).Ok :=
        ⟨few, fun i x hi => h.drop k i x hi, by simp, by simp, rfl⟩
      have := ok.raise { code := .eventsLost, arg := BitVec.ofNat 32 q.lost }
      rw [EventQueue.raise, if_pos hlen] at this
      simp only [hl, if_false, EventQueue.raise, if_pos hlen]
      exact ⟨this.few, this.consecutive, this.lost, this.full, rfl⟩

end Sys2Proof.Machine
end

