-- ==== Sys2Proof/Laws/Within.lean ====
section
/-! SUPPORT. `Within s t`: what every consequence of an action leaves alone, what it adds, and the properties it keeps. Each
operation that blocks share is shown to stay within it, so that no proof about a command unfolds them. -/
namespace Sys2Proof.Machine

/-! ## The relation -/

/-- What the consequences of an action leave as it stands: the staged table, the region, the settings, the waiting port
requests, the D-port with its slots, the link, reset and the queue. -/
structure Keeps (s t : State) : Prop where
  staged         : t.wu.staged = s.wu.staged
  region         : t.jw.region = s.jw.region
  retention      : t.ec.retention = s.ec.retention
  timerInterval  : t.ec.timerInterval = s.ec.timerInterval
  timerEnable    : t.ec.timerEnable = s.ec.timerEnable
  strobeEnable   : t.ec.strobeEnable = s.ec.strobeEnable
  strobePolarity : t.ec.strobePolarity = s.ec.strobePolarity
  merged         : t.ec.merged = s.ec.merged
  holdLimit      : t.iq.holdLimit = s.iq.holdLimit
  nextPos        : t.iq.nextPos = s.iq.nextPos
  ports          : t.da.slots = s.da.slots
  lastGranted    : t.da.lastGranted = s.da.lastGranted
  port           : t.port = s.port
  inReset        : t.inReset = s.inReset
  noFrame        : t.noFrame = s.noFrame
  dport          : t.dport = s.dport
  mdo            : t.mdo = s.mdo
  pending        : t.pending = s.pending

theorem Keeps.refl (s : State) : Keeps s s := by constructor <;> rfl

theorem Keeps.trans {s t u : State} (h : Keeps s t) (k : Keeps t u) : Keeps s u where
  staged := k.staged.trans h.staged
  region := k.region.trans h.region
  retention := k.retention.trans h.retention
  timerInterval := k.timerInterval.trans h.timerInterval
  timerEnable := k.timerEnable.trans h.timerEnable
  strobeEnable := k.strobeEnable.trans h.strobeEnable
  strobePolarity := k.strobePolarity.trans h.strobePolarity
  merged := k.merged.trans h.merged
  holdLimit := k.holdLimit.trans h.holdLimit
  nextPos := k.nextPos.trans h.nextPos
  ports := k.ports.trans h.ports
  lastGranted := k.lastGranted.trans h.lastGranted
  port := k.port.trans h.port
  inReset := k.inReset.trans h.inReset
  noFrame := k.noFrame.trans h.noFrame
  dport := k.dport.trans h.dport
  mdo := k.mdo.trans h.mdo
  pending := k.pending.trans h.pending

/-- The statuses answered from a decided outcome (R7). -/
def Answered.FromOutcome (a : Answered) : Prop := (∃ o : Decided, a.status = o.status) ∧ a.data = []

/-- What the consequences of an action do at most. -/
structure Within (s t : State) : Prop where
  keeps    : Keeps s t
  events   : ∃ evs, t.eq = s.eq.raiseAll evs
  keys     : (t.iq.slots.map Slot.key).Sublist (s.iq.slots.map Slot.key)
  touched  : s.cu.TouchedOk → t.cu.TouchedOk
  pressure : s.jw.PressureOk → t.jw.PressureOk
  ranges   : s.RangesOk → t.RangesOk
  intake   : s.IntakeOk → t.IntakeOk
  answers  : s.IntakeOk → ∃ gone, AnswersInOrder s t gone ∧ ∀ a ∈ gone, a.FromOutcome

/-! ## Order of composition -/

theorem EventQueue.raiseAll_append (q : EventQueue) (a b : List Event) :
    q.raiseAll (a ++ b) = (q.raiseAll a).raiseAll b := by
  simp [EventQueue.raiseAll]

theorem Slot.granule_of_key {x y : Slot} (h : x.key = y.key) : x.granule = y.granule := by
  simp only [Slot.key, Prod.mk.injEq] at h
  simp [Slot.granule, h.2.1]

theorem Slot.pos_of_key {x y : Slot} (h : x.key = y.key) : x.pos = y.pos := by
  simp only [Slot.key, Prod.mk.injEq] at h
  exact h.2.2.1

theorem Slot.ix_of_key {x y : Slot} (h : x.key = y.key) : x.ix = y.ix := by
  simp only [Slot.key, Prod.mk.injEq] at h
  exact h.1

theorem Slot.req_of_key {x y : Slot} (h : x.key = y.key) : x.req = y.req := by
  simp only [Slot.key, Prod.mk.injEq] at h
  exact h.2.1

/-- A slot that is still occupied was occupied before. -/
theorem mem_of_keys {s t : State} (h : (t.iq.slots.map Slot.key).Sublist (s.iq.slots.map Slot.key)) {y : Slot}
    (hy : y ∈ t.iq.slots) : ∃ x ∈ s.iq.slots, x.key = y.key := by
  have := h.subset (List.mem_map_of_mem hy)
  simpa using this

theorem AnswersInOrder.refl (s t : State) (hu : t.uport = s.uport)
    (hk : t.iq.slots.map Slot.key = s.iq.slots.map Slot.key) : AnswersInOrder s t [] where
  responses := by simp [hu]
  once := by simp [hk]
  inOrder := List.Pairwise.nil
  ahead := by simp

theorem AnswersInOrder.trans {s t u : State} {a b : List Answered} (h : AnswersInOrder s t a)
    (k : AnswersInOrder t u b) (hk : (u.iq.slots.map Slot.key).Sublist (t.iq.slots.map Slot.key)) :
    AnswersInOrder s u (a ++ b) where
  responses := by rw [k.responses, h.responses]; simp
  once := by
    rw [List.map_append, List.append_assoc]
    exact (List.Perm.append_left _ k.once).trans h.once
  inOrder := by
    rw [List.pairwise_append]
    refine ⟨h.inOrder, k.inOrder, ?_⟩
    intro x hx y hy hg
    have hm : y.slot.key ∈ t.iq.slots.map Slot.key := by
      refine (k.once.mem_iff).1 ?_
      simp only [List.mem_append, List.mem_map]
      exact Or.inl ⟨y, hy, rfl⟩
    obtain ⟨z, hz, hzk⟩ := List.mem_map.1 hm
    have := h.ahead x hx z hz ((Slot.granule_of_key hzk).trans hg.symm)
    rwa [Slot.pos_of_key hzk] at this
  ahead := by
    intro x hx y hy hg
    rcases List.mem_append.1 hx with hx | hx
    · obtain ⟨z, hz, hzk⟩ := mem_of_keys hk hy
      have := h.ahead x hx z hz ((Slot.granule_of_key hzk).trans hg)
      rwa [Slot.pos_of_key hzk] at this
    · exact k.ahead x hx y hy hg

theorem Within.refl (s : State) : Within s s where
  keeps := Keeps.refl s
  events := ⟨[], rfl⟩
  keys := List.Sublist.refl _
  touched := id
  pressure := id
  ranges := id
  intake := id
  answers := fun _ => ⟨[], AnswersInOrder.refl s s rfl rfl, by simp⟩

theorem Within.trans {s t u : State} (h : Within s t) (k : Within t u) : Within s u where
  keeps := h.keeps.trans k.keeps
  events := by
    obtain ⟨a, ha⟩ := h.events
    obtain ⟨b, hb⟩ := k.events
    exact ⟨a ++ b, by rw [hb, ha, EventQueue.raiseAll_append]⟩
  keys := k.keys.trans h.keys
  touched := k.touched ∘ h.touched
  pressure := k.pressure ∘ h.pressure
  ranges := k.ranges ∘ h.ranges
  intake := k.intake ∘ h.intake
  answers := fun hi => by
    obtain ⟨a, ha, fa⟩ := h.answers hi
    obtain ⟨b, hb, fb⟩ := k.answers (h.intake hi)
    refine ⟨a ++ b, ha.trans hb k.keys, ?_⟩
    intro x hx
    rcases List.mem_append.1 hx with hx | hx
    · exact fa x hx
    · exact fb x hx

/-- A fold of operations that stay within. -/
theorem Within.foldl {α : Type} (f : State → α → State) (h : ∀ s a, Within s (f s a)) (l : List α) (s : State) :
    Within s (l.foldl f s) := by
  induction l generalizing s with
  | nil => exact Within.refl s
  | cons a l ih => exact (h s a).trans (ih (f s a))

/-! ## The Intake Queue's agreement under updates -/

/-- The agreement speaks of the slots, the next position, the forward list, the capture records, the D-port slots and the
region only. -/
theorem State.IntakeOk.congr {s t : State} (h : s.IntakeOk) (hs : t.iq.slots = s.iq.slots)
    (hn : t.iq.nextPos = s.iq.nextPos) (hf : t.da.forward = s.da.forward) (hc : t.cu.captures = s.cu.captures)
    (hp : t.da.slots = s.da.slots) (hr : t.jw.region = s.jw.region) : t.IntakeOk := by
  have ho : ∀ x, t.Oldest x ↔ s.Oldest x := fun x => by simp [State.Oldest, hs]
  have hi : ∀ a, t.inRegion a = s.inRegion a := fun a => by simp [State.inRegion, hr]
  constructor
  · rw [hs]; exact h.distinct
  · rw [hs]; exact h.order
  · rw [hs, hn]; exact h.before
  · rw [hs]; exact h.held
  · rw [hs]; exact h.decided
  · rw [hs]; intro x hx hst; exact (ho x).2 (h.heads x hx hst)
  · rw [hs, hf]
    intro q hq
    obtain ⟨x, hx, h1, h2, h3, h4⟩ := h.asked q hq
    exact ⟨x, hx, h1, h2, h3, (ho x).2 h4⟩
  · rw [hf]; exact h.once
  · rw [hs, hc]; exact h.records
  · rw [hs, hc]; exact h.capturing
  · rw [hc]; exact h.recorded
  · rw [hs]; simp only [hp]; exact h.sent
  · simp only [hp]; exact h.sentOnce
  · rw [hs]; simp only [hp]; exact h.issued
  · rw [hs]; simp only [hi]; exact h.fenced

/-- An operation that leaves the Intake Queue, the forward list, the captures, the outputs and the settings alone stays
within, when it keeps the rest of the properties. -/
theorem Within.of_keeps {s t : State} (keeps : Keeps s t) (hs : t.iq.slots = s.iq.slots)
    (hf : t.da.forward = s.da.forward) (hc : t.cu.captures = s.cu.captures) (hu : t.uport = s.uport)
    (events : ∃ evs, t.eq = s.eq.raiseAll evs) (touched : s.cu.TouchedOk → t.cu.TouchedOk)
    (pressure : s.jw.PressureOk → t.jw.PressureOk) (ranges : s.RangesOk → t.RangesOk) : Within s t where
  keeps := keeps
  events := events
  keys := by simp only [hs, List.Sublist.refl]
  touched := touched
  pressure := pressure
  ranges := ranges
  intake := fun h => h.congr hs keeps.nextPos hf hc keeps.ports keeps.region
  answers := fun _ => ⟨[], AnswersInOrder.refl s t hu (by rw [hs]), by simp⟩

/-! ## Slots changed in place -/

/-- The change leaves alone what of a record never changes. -/
def Keyed (f : Slot → Slot) : Prop := ∀ x, (f x).key = x.key

/-- The change leaves alone a record's key, state, hold entry time and outcome. -/
def Mild (f : Slot → Slot) : Prop :=
  ∀ x, (f x).key = x.key ∧ (f x).state = x.state ∧ (f x).holdEntry = x.holdEntry ∧ (f x).outcome = x.outcome

theorem Mild.keyed {f : Slot → Slot} (h : Mild f) : Keyed f := fun x => (h x).1

theorem Keyed.map_key {f : Slot → Slot} (h : Keyed f) (l : List Slot) : (l.map f).map Slot.key = l.map Slot.key := by
  rw [List.map_map]
  exact List.map_congr_left (fun x _ => h x)

theorem Keyed.map_ix {f : Slot → Slot} (h : Keyed f) (l : List Slot) :
    (l.map f).map (·.ix) = l.map (·.ix) := by
  rw [List.map_map]
  exact List.map_congr_left (fun x _ => Slot.ix_of_key (h x))

theorem Keyed.ite {f : Slot → Slot} (h : Keyed f) (q : SlotIx) : Keyed (fun x => if x.ix == q then f x else x) := by
  intro x
  by_cases hx : x.ix == q
  · simp [hx, h x]
  · simp [hx]

theorem Mild.ite {f : Slot → Slot} (h : Mild f) (q : SlotIx) : Mild (fun x => if x.ix == q then f x else x) := by
  intro x
  by_cases hx : x.ix == q
  · simp [hx, h x]
  · simp [hx]

theorem State.setSlot_eq_mapSlots (s : State) (q : SlotIx) (f : Slot → Slot) :
    s.setSlot q f = s.mapSlots (fun x => if x.ix == q then f x else x) := rfl

theorem State.oldest_mapSlots {s : State} {f : Slot → Slot} (h : Keyed f) (x : Slot) :
    (s.mapSlots f).Oldest x ↔ s.Oldest x := by
  simp only [State.Oldest, State.mapSlots_iq, List.mem_map, forall_exists_index, and_imp, forall_apply_eq_imp_iff₂]
  constructor
  · intro k y hy hg
    have := k y hy ((Slot.granule_of_key (h y)).trans hg)
    rwa [Slot.pos_of_key (h y)] at this
  · intro k y hy hg
    rw [Slot.pos_of_key (h y)]
    exact k y hy ((Slot.granule_of_key (h y)).symm.trans hg)

theorem State.oldest_of_key {s : State} {x y : Slot} (h : x.key = y.key) : s.Oldest x ↔ s.Oldest y := by
  simp [State.Oldest, Slot.granule_of_key h, Slot.pos_of_key h]

/-- What a record changed to `y` must still satisfy beside the rest of the state. -/
structure FitsSlot (s : State) (y : Slot) : Prop where
  held      : y.state = .held ↔ y.holdEntry.isSome
  decided   : y.outcome.isSome → y.state = .waiting ∨ y.state = .capturing
  head      : y.state = .capturing ∨ y.state = .issued → s.Oldest y
  asked     : y.ix ∈ s.da.forward → y.state = .waiting ∧ y.outcome = none
  records   : (∃ c ∈ s.cu.captures, c.slot = y.ix) ↔ y.state = .capturing
  sent      : (∃ (p : PortIx) (k : PortSlot), s.da.slots[p] = some k ∧ k.kind.forwardOwner? = some y.ix) ↔
                y.state = .issued
  fenced    : y.state ≠ .issued → y.outcome = none → s.inRegion y.req.addr = false

/-- Two members of a list that agree where the list repeats nothing are equal. -/
theorem eq_of_nodup_map {α β : Type} {f : α → β} {l : List α} (h : (l.map f).Nodup) {x y : α} (hx : x ∈ l)
    (hy : y ∈ l) (e : f x = f y) : x = y := by
  induction l with
  | nil => simp at hx
  | cons a l ih =>
    rw [List.map_cons, List.nodup_cons] at h
    rcases List.mem_cons.1 hx with hxa | hxl <;> rcases List.mem_cons.1 hy with hya | hyl
    · exact hxa.trans hya.symm
    · subst hxa; exact absurd (e ▸ List.mem_map_of_mem hyl) h.1
    · subst hya; exact absurd (e ▸ List.mem_map_of_mem hxl) h.1
    · exact ih h.2 hxl hyl

/-- Two records of one slot are the same record. -/
theorem State.IntakeOk.unique {s : State} (h : s.IntakeOk) {x y : Slot} (hx : x ∈ s.iq.slots) (hy : y ∈ s.iq.slots)
    (e : x.ix = y.ix) : x = y := by
  exact eq_of_nodup_map h.distinct hx hy e

/-- Every record fits the state that holds it. -/
theorem State.IntakeOk.fits {s : State} (h : s.IntakeOk) {x : Slot} (hx : x ∈ s.iq.slots) : FitsSlot s x where
  held := h.held x hx
  decided := h.decided x hx
  head := h.heads x hx
  asked := fun hq => by
    obtain ⟨y, hy, h1, h2, h3, _⟩ := h.asked _ hq
    rw [h.unique hx hy h1.symm]
    exact ⟨h2, h3⟩
  records := by
    constructor
    · rintro ⟨c, hc, e⟩
      obtain ⟨y, hy, h1, h2⟩ := h.records c hc
      rw [h.unique hx hy (by rw [h1, e])]
      exact h2
    · exact h.capturing x hx
  sent := by
    constructor
    · rintro ⟨p, k, hp, hk⟩
      obtain ⟨_, y, hy, h1, h2⟩ := h.sent p k _ hp hk
      rw [h.unique hx hy h1.symm]
      exact h2
    · exact h.issued x hx
  fenced := h.fenced x hx

/-- Records changed in place, each to one that fits. -/
theorem State.IntakeOk.mapSlots {s : State} (h : s.IntakeOk) {f : Slot → Slot} (hk : Keyed f)
    (hf : ∀ x ∈ s.iq.slots, FitsSlot s (f x)) : (s.mapSlots f).IntakeOk := by
  have mem : ∀ y, y ∈ (s.mapSlots f).iq.slots ↔ ∃ x ∈ s.iq.slots, f x = y := by simp
  constructor
  · simp only [State.mapSlots_iq]; rw [hk.map_ix]; exact h.distinct
  · simp only [State.mapSlots_iq, List.pairwise_map]
    exact h.order.imp (fun {a b} hab => by rwa [Slot.pos_of_key (hk a), Slot.pos_of_key (hk b)])
  · intro y hy
    obtain ⟨x, hx, rfl⟩ := (mem y).1 hy
    rw [Slot.pos_of_key (hk x)]
    exact h.before x hx
  · intro y hy
    obtain ⟨x, hx, rfl⟩ := (mem y).1 hy
    exact (hf x hx).held
  · intro y hy
    obtain ⟨x, hx, rfl⟩ := (mem y).1 hy
    exact (hf x hx).decided
  · intro y hy hst
    obtain ⟨x, hx, rfl⟩ := (mem y).1 hy
    exact (State.oldest_mapSlots hk _).2 ((hf x hx).head hst)
  · intro q hq
    obtain ⟨x, hx, h1, _, _, h4⟩ := h.asked q hq
    have := (hf x hx).asked (by rw [Slot.ix_of_key (hk x), h1]; exact hq)
    exact ⟨f x, (mem _).2 ⟨x, hx, rfl⟩, by rw [Slot.ix_of_key (hk x), h1], this.1, this.2,
      (State.oldest_mapSlots hk _).2 ((State.oldest_of_key (hk x)).2 h4)⟩
  · exact h.once
  · intro c hc
    obtain ⟨x, hx, h1, _⟩ := h.records c hc
    exact ⟨f x, (mem _).2 ⟨x, hx, rfl⟩, by rw [Slot.ix_of_key (hk x), h1],
      ((hf x hx).records).1 ⟨c, hc, by rw [Slot.ix_of_key (hk x), h1]⟩⟩
  · intro y hy hst
    obtain ⟨x, hx, rfl⟩ := (mem y).1 hy
    exact ((hf x hx).records).2 hst
  · exact h.recorded
  · intro p k q hp hq
    obtain ⟨hd, x, hx, h1, _⟩ := h.sent p k q hp hq
    refine ⟨hd, f x, (mem _).2 ⟨x, hx, rfl⟩, by rw [Slot.ix_of_key (hk x), h1], ?_⟩
    exact ((hf x hx).sent).1 ⟨p, k, hp, by rw [Slot.ix_of_key (hk x), h1]; exact hq⟩
  · exact h.sentOnce
  · intro y hy hst
    obtain ⟨x, hx, rfl⟩ := (mem y).1 hy
    exact ((hf x hx).sent).2 hst
  · intro y hy
    obtain ⟨x, hx, rfl⟩ := (mem y).1 hy
    exact (hf x hx).fenced

/-- A record that fits still fits when none of what matters changes. -/
theorem FitsSlot.mild {s : State} {x y : Slot} (h : FitsSlot s x) (k : y.key = x.key) (hs : y.state = x.state)
    (hh : y.holdEntry = x.holdEntry) (ho : y.outcome = x.outcome) : FitsSlot s y := by
  have hix := Slot.ix_of_key k
  constructor
  · rw [hs, hh]; exact h.held
  · rw [ho, hs]; exact h.decided
  · rw [hs]; intro hst; exact (State.oldest_of_key k).2 (h.head hst)
  · rw [hix, hs, ho]; exact h.asked
  · rw [hix, hs]; exact h.records
  · rw [hix, hs]; exact h.sent
  · rw [hs, ho, Slot.req_of_key k]; exact h.fenced

theorem State.IntakeOk.mapSlots_mild {s : State} (h : s.IntakeOk) {f : Slot → Slot} (hf : Mild f) :
    (s.mapSlots f).IntakeOk :=
  h.mapSlots hf.keyed (fun x hx => (h.fits hx).mild (hf x).1 (hf x).2.1 (hf x).2.2.1 (hf x).2.2.2)

/-- One record changed in place to one that fits. -/
theorem State.IntakeOk.setSlot {s : State} (h : s.IntakeOk) {q : SlotIx} {f : Slot → Slot} (hk : Keyed f)
    (hf : ∀ x ∈ s.iq.slots, x.ix = q → FitsSlot s (f x)) : (s.setSlot q f).IntakeOk := by
  rw [State.setSlot_eq_mapSlots]
  refine h.mapSlots (hk.ite q) (fun x hx => ?_)
  by_cases hq : x.ix = q
  · simpa [hq] using hf x hx hq
  · simpa [hq] using h.fits hx

/-- An in-place change of the records stays within when it keeps their agreement. -/
theorem Within.mapSlots {s : State} {f : Slot → Slot} (hk : Keyed f)
    (hi : s.IntakeOk → (s.mapSlots f).IntakeOk) : Within s (s.mapSlots f) where
  keeps := by constructor <;> rfl
  events := ⟨[], rfl⟩
  keys := by simp only [State.mapSlots_iq, hk.map_key, List.Sublist.refl]
  touched := id
  pressure := id
  ranges := fun h => ⟨h.entries, h.merged, h.retention, h.applied, h.discarded, h.failures, h.quiet⟩
  intake := hi
  answers := fun _ => ⟨[], AnswersInOrder.refl _ _ rfl (by simp only [State.mapSlots_iq]; rw [hk.map_key]), by simp⟩

theorem Within.mapSlots_mild {s : State} {f : Slot → Slot} (hf : Mild f) : Within s (s.mapSlots f) :=
  Within.mapSlots hf.keyed (fun h => h.mapSlots_mild hf)

theorem Within.setSlot_mild {s : State} (q : SlotIx) {f : Slot → Slot} (hf : Mild f) : Within s (s.setSlot q f) :=
  Within.mapSlots_mild (hf.ite q)

theorem Within.setSlot {s : State} (q : SlotIx) {f : Slot → Slot} (hk : Keyed f)
    (hi : s.IntakeOk → ∀ x ∈ s.iq.slots, x.ix = q → FitsSlot s (f x)) : Within s (s.setSlot q f) :=
  Within.mapSlots (hk.ite q) (fun h => h.setSlot hk (hi h))

end Sys2Proof.Machine
end

