-- ==== Sys2Proof/Laws/Ops.lean ====
section
/-! SUPPORT. The shared operations on events, the table, pressure, commits and reservations stay within. -/
namespace Sys2Proof.Machine

/-! ## One block changed -/

theorem Within.jw (s : State) (w : JournalWriter) (hr : w.region = s.jw.region)
    (hp : s.jw.PressureOk → w.PressureOk) : Within s { s with jw := w } :=
  Within.of_keeps ⟨rfl, hr, rfl, rfl, rfl, rfl, rfl, rfl, rfl, rfl, rfl, rfl, rfl, rfl, rfl, rfl, rfl, rfl⟩
    rfl rfl rfl rfl ⟨[], rfl⟩ id hp
    (fun h => ⟨h.entries, h.merged, h.retention, h.applied, h.discarded, h.failures, h.quiet⟩)

/-- The bridge state, the table, the pending flag with its mark and the timer may change. -/
theorem Within.ec (s : State) (c : EpochController) (h1 : c.retention = s.ec.retention)
    (h2 : c.timerInterval = s.ec.timerInterval) (h3 : c.timerEnable = s.ec.timerEnable)
    (h4 : c.strobeEnable = s.ec.strobeEnable) (h5 : c.strobePolarity = s.ec.strobePolarity)
    (h6 : c.merged = s.ec.merged)
    (ht : (∀ e ∈ s.ec.table, e.CountsOk) → ∀ e ∈ c.table, e.CountsOk) : Within s { s with ec := c } :=
  Within.of_keeps ⟨rfl, rfl, h1, h2, h3, h4, h5, h6, rfl, rfl, rfl, rfl, rfl, rfl, rfl, rfl, rfl, rfl⟩
    rfl rfl rfl rfl ⟨[], rfl⟩ id id
    (fun h => ⟨ht h.entries, by simpa only [h6] using h.merged, by simpa only [h1] using h.retention, h.applied,
      h.discarded, h.failures, h.quiet⟩)

theorem Within.su (s : State) (u : SignatureUnit)
    (hq : (∀ i : WinIx, (s.su.quiet[i]).counter ≤ 255) → ∀ i : WinIx, (u.quiet[i]).counter ≤ 255) :
    Within s { s with su := u } :=
  Within.of_keeps (by constructor <;> rfl) rfl rfl rfl rfl ⟨[], rfl⟩ id id
    (fun h => ⟨h.entries, h.merged, h.retention, h.applied, h.discarded, h.failures, hq h.quiet⟩)

theorem Within.re (s : State) (r : RollbackEngine) (h1 : s.re.applied ≤ 16777215 → r.applied ≤ 16777215)
    (h2 : s.re.discarded ≤ 255 → r.discarded ≤ 255) (h3 : s.re.failures ≤ 255 → r.failures ≤ 255) :
    Within s { s with re := r } :=
  Within.of_keeps (by constructor <;> rfl) rfl rfl rfl rfl ⟨[], rfl⟩ id id
    (fun h => ⟨h.entries, h.merged, h.retention, h1 h.applied, h2 h.discarded, h3 h.failures, h.quiet⟩)

/-- The active table, the trip flags and the arm may change. -/
theorem Within.wu (s : State) (w : WindowUnit) (h : w.staged = s.wu.staged) : Within s { s with wu := w } :=
  Within.of_keeps ⟨h, rfl, rfl, rfl, rfl, rfl, rfl, rfl, rfl, rfl, rfl, rfl, rfl, rfl, rfl, rfl, rfl, rfl⟩
    rfl rfl rfl rfl ⟨[], rfl⟩ id id
    (fun h => ⟨h.entries, h.merged, h.retention, h.applied, h.discarded, h.failures, h.quiet⟩)

/-- The touched set may change, not the capture records. -/
theorem Within.touchedSet (s : State) (l : List Granule) (h : s.cu.TouchedOk → l.Nodup ∧ l.length ≤ 1024) :
    Within s { s with cu := { s.cu with touched := l } } :=
  Within.of_keeps (by constructor <;> rfl) rfl rfl rfl rfl ⟨[], rfl⟩ h id
    (fun h => ⟨h.entries, h.merged, h.retention, h.applied, h.discarded, h.failures, h.quiet⟩)

/-- The ready lists of the other claimants and what is held back may change. -/
theorem Within.da (s : State) (a : Arbiter) (h1 : a.slots = s.da.slots) (h2 : a.forward = s.da.forward)
    (h3 : a.lastGranted = s.da.lastGranted) : Within s { s with da := a } :=
  Within.of_keeps ⟨rfl, rfl, rfl, rfl, rfl, rfl, rfl, rfl, rfl, rfl, h1, h3, rfl, rfl, rfl, rfl, rfl, rfl⟩
    rfl h2 rfl rfl ⟨[], rfl⟩ id id
    (fun h => ⟨h.entries, h.merged, h.retention, h.applied, h.discarded, h.failures, h.quiet⟩)

/-! ## Events -/

theorem State.raise_within (s : State) (e : Event) : Within s (s.raise e) :=
  Within.of_keeps
    (by constructor <;> rfl) rfl rfl rfl rfl ⟨[e], rfl⟩ id id
    (fun h => ⟨h.entries, h.merged, h.retention, h.applied, h.discarded, h.failures, h.quiet⟩)

theorem State.raiseCodes_within (s : State) (arg : Word32) (codes : List EventCode) :
    Within s (s.raiseCodes arg codes) :=
  Within.foldl _ (fun t _ => t.raise_within _) codes s

/-! ## Counting -/

theorem satInc_le (stop n : Nat) : satInc stop n ≤ stop := by
  unfold satInc; split <;> omega

theorem satInc_of_lt {stop n : Nat} (h : n < stop) : satInc stop n = n + 1 := by
  simp [satInc, h]

/-! ## The epoch table -/

/-- The change keeps an entry's counts within their ranges. -/
def CountsKept (f : Entry → Entry) : Prop := ∀ e : Entry, e.CountsOk → (f e).CountsOk

theorem CountsKept.of_same {f : Entry → Entry} (h : ∀ e, (f e).undos = e.undos ∧ (f e).overflow = e.overflow) :
    CountsKept f := by
  intro e he
  rw [Entry.CountsOk, (h e).1, (h e).2]
  exact he

theorem State.setEntry_within (s : State) (e : EpochNo) {f : Entry → Entry} (hf : CountsKept f) :
    Within s (s.setEntry e f) :=
  Within.ec s _ rfl rfl rfl rfl rfl rfl (fun h x hx => by
    simp only [List.mem_map] at hx
    obtain ⟨y, hy, rfl⟩ := hx
    split
    · exact hf y (h y hy)
    · exact h y hy)

theorem Slot.reexamined_mild : Mild Slot.reexamined := fun _ => ⟨rfl, rfl, rfl, rfl⟩

theorem Mild.ite_of {f : Slot → Slot} (h : Mild f) (p : Slot → Bool) : Mild (fun x => if p x then f x else x) := by
  intro x
  dsimp only
  split
  · exact h x
  · exact ⟨rfl, rfl, rfl, rfl⟩

theorem State.markBroken_within (s : State) (e : EpochNo) (r : Reason) : Within s (s.markBroken e r) := by
  unfold State.markBroken
  split
  · exact Within.refl s
  · refine (s.setEntry_within e ?_).trans (Within.mapSlots_mild (Slot.reexamined_mild.ite_of _))
    exact CountsKept.of_same (fun x => ⟨rfl, rfl⟩)

theorem State.closeOpen_within (s : State) : Within s s.closeOpen :=
  Within.ec s _ rfl rfl rfl rfl rfl rfl (fun h x hx => by
    simp only [List.mem_map] at hx
    obtain ⟨y, hy, rfl⟩ := hx
    unfold Entry.closed
    split <;> exact h y hy)

theorem State.addEpoch_within (s : State) (e : EpochNo) : Within s (s.addEpoch e) :=
  Within.ec s _ rfl rfl rfl rfl rfl rfl (fun h x hx => by
    simp only [List.mem_append, List.mem_singleton] at hx
    rcases hx with hx | rfl
    · exact h x hx
    · exact ⟨by simp [Entry.fresh], by simp [Entry.fresh]⟩)

theorem State.cutTable_within (s : State) (e : EpochNo) : Within s (s.cutTable e) :=
  Within.ec s _ rfl rfl rfl rfl rfl rfl (fun h x hx => h x ((List.takeWhile_sublist _).subset hx))

theorem State.setBridge_within (s : State) (b : Bridge) : Within s (s.setBridge b) :=
  Within.ec s _ rfl rfl rfl rfl rfl rfl (fun h => h)

theorem State.startTimer_within (s : State) : Within s s.startTimer :=
  Within.ec s _ rfl rfl rfl rfl rfl rfl (fun h => h)

theorem State.stopTimer_within (s : State) : Within s s.stopTimer :=
  Within.ec s _ rfl rfl rfl rfl rfl rfl (fun h => h)

/-! ## Pressure -/

theorem State.setPressure_within (s : State) (p : Pressure) (r : Option Reason)
    (h : r.isSome ↔ p = .suspended) : Within s (s.setPressure p r) := by
  have hj : Within s { s with jw := { s.jw with pressure := p, reason := r } } := Within.jw s _ rfl (fun _ => h)
  unfold State.setPressure
  split
  · exact hj
  · exact hj.trans (Within.mapSlots_mild Slot.reexamined_mild)

/-- An evaluation never leads into SUSPENDED, and does not leave it (R123). -/
theorem State.evaluated_eq_suspended (s : State) : s.evaluated = .suspended ↔ s.jw.pressure = .suspended := by
  unfold State.evaluated
  cases hp : s.jw.pressure <;> simp <;> (repeat' split) <;> simp

theorem State.evaluate_within (s : State) : Within s s.evaluate := by
  unfold State.evaluate
  split
  · exact Within.refl s
  · rename_i h
    refine (s.raiseCodes_within _ _).trans (State.setPressure_within _ _ _ ?_)
    have : s.evaluated ≠ .suspended := fun e => h (Or.inl (s.evaluated_eq_suspended.1 e))
    simp [this]

theorem State.normalize_within (s : State) : Within s s.normalize := by
  unfold State.normalize
  split
  · exact (s.setPressure_within _ _ (by simp)).trans (State.raise_within _ _)
  · exact (s.raiseCodes_within _ _).trans (State.setPressure_within _ _ _ (by simp))

theorem State.emptyRing_within (s : State) : Within s s.emptyRing := Within.jw s _ rfl id

/-! ## Commits -/

theorem State.commitOldest_within (s : State) (c : Cause) : Within s (s.commitOldest c) := by
  unfold State.commitOldest
  split
  · exact Within.refl s
  · rename_i e rest he
    split
    · refine Within.trans ?_ (State.evaluate_within _)
      refine Within.trans ?_ (State.raise_within _ _)
      refine (Within.jw s { s.jw with tail := e.endLine.getD s.jw.tail } rfl id).trans ?_
      refine Within.ec _ { s.ec with table := rest } rfl rfl rfl rfl rfl rfl (fun h x hx => h x ?_)
      simp only [he]
      exact List.mem_cons_of_mem _ hx
    · exact Within.refl s

theorem State.commitN_within (n : Nat) (s : State) (c : Cause) : Within s (s.commitN n c) := by
  induction n generalizing s with
  | zero => exact Within.refl s
  | succ n ih => exact (s.commitOldest_within c).trans (ih _)

theorem State.commitSealed_within (s : State) (c : Cause) : Within s (s.commitSealed c) := s.commitN_within _ c

theorem State.commitExcess_within (s : State) (c : Cause) : Within s (s.commitExcess c) := s.commitN_within _ c

/-! ## SUSPENDED -/

theorem State.markOpen_within (s : State) (r : Reason) : Within s (s.markOpen r) := by
  unfold State.markOpen
  split
  · exact Within.refl s
  · exact s.markBroken_within _ _

theorem State.enterSuspended_within (s : State) (r : Reason) : Within s (s.enterSuspended r) := by
  unfold State.enterSuspended
  split
  · exact Within.refl s
  · exact ((((s.setPressure_within _ _ (by simp)).trans (State.markOpen_within _ _)).trans
      (State.commitSealed_within _ _)).trans (State.raise_within _ _))

theorem State.reservationFails_within (s : State) (e : EpochNo) : Within s (s.reservationFails e) := by
  unfold State.reservationFails
  split
  · exact (s.markBroken_within _ _).trans (State.commitSealed_within _ _)
  · exact (s.markBroken_within _ _).trans (State.enterSuspended_within _ _)

/-! ## Reservations -/

theorem State.makeRecord_within (s : State) (w : RecordReq) : Within s (s.makeRecord w) := by
  unfold State.makeRecord
  split <;> exact Within.da s _ rfl rfl rfl

theorem State.makePad_within (s : State) (e : EpochNo) (len : Nat) : Within s (s.makePad e len) := by
  unfold State.makePad
  split
  · exact Within.refl s
  · exact s.makeRecord_within _

theorem State.advanceHead_within (s : State) (len : Nat) : Within s (s.advanceHead len) := Within.jw s _ rfl id

theorem State.placeOpen_within (s : State) (e : EpochNo) : Within s (s.placeOpen e) := by
  unfold State.placeOpen
  refine Within.trans ?_ (State.evaluate_within _)
  refine Within.trans ?_ (Within.mapSlots_mild (Slot.reexamined_mild.ite_of _))
  refine ((s.advanceHead_within 1).trans (State.setEntry_within _ e ?_)).trans (State.makeRecord_within _ _)
  exact CountsKept.of_same (fun _ => ⟨rfl, rfl⟩)

theorem State.reserveOpen_within (s : State) (e : EpochNo) : Within s (s.reserveOpen e) := by
  unfold State.reserveOpen
  split
  · exact s.placeOpen_within e
  · exact (s.reservationFails_within e).trans (State.placeOpen_within _ e)

theorem State.placeSeal_within (s : State) (e : EpochNo) (sigs : List SigEntry) : Within s (s.placeSeal e sigs) := by
  unfold State.placeSeal
  refine Within.trans ?_ (State.evaluate_within _)
  refine Within.trans ?_ (Within.jw _ _ rfl id)
  refine (((s.makePad_within e _).trans (State.advanceHead_within _ _)).trans
    (State.setEntry_within _ e ?_)).trans (State.makeRecord_within _ _)
  exact CountsKept.of_same (fun _ => ⟨rfl, rfl⟩)

theorem State.reserveSeal_within (s : State) (e : EpochNo) (sigs : List SigEntry) :
    Within s (s.reserveSeal e sigs) := by
  unfold State.reserveSeal
  split
  · exact s.placeSeal_within e sigs
  · exact (s.reservationFails_within e).trans (State.placeSeal_within _ e sigs)

/-! ## The slots of the D-port -/

/-- What `State.anyPort` tests: some slot of the D-port is occupied by a request that satisfies `f`. -/
theorem State.anyPort_iff (s : State) (f : PortSlot → Bool) :
    s.anyPort f = true ↔ ∃ (p : PortIx) (k : PortSlot), s.da.slots[p] = some k ∧ f k = true := by
  simp only [State.anyPort, List.any_eq_true, Vector.mem_toList_iff, Option.any_eq_true]
  constructor
  · rintro ⟨o, ho, k, rfl, hk⟩
    obtain ⟨i, hi, h⟩ := Vector.mem_iff_getElem.mp ho
    exact ⟨⟨i, hi⟩, k, h, hk⟩
  · rintro ⟨p, k, h, hk⟩
    exact ⟨_, Vector.mem_iff_getElem.mpr ⟨p.val, p.isLt, rfl⟩, k, h, hk⟩

/-- The rollback engine's request may be sent exactly while no slot is its own (R164). -/
theorem State.walkOut_iff (s : State) : s.walkOut = false ↔ s.WalkPortFree := by
  rw [← Bool.not_eq_true, State.walkOut, State.anyPort_iff]
  constructor
  · intro h p k hk
    constructor <;> intro e <;> exact h ⟨p, k, hk, by simp [PortKind.claimant, e]⟩
  · rintro h ⟨p, ⟨kind, d⟩, hk, hc⟩
    have := h p _ hk
    cases kind <;> simp_all [PortKind.claimant]

end Sys2Proof.Machine
end

