-- ==== Sys2Proof/Laws/Signatures.lean ====
section
/-! SUPPORT. The Signature Unit's operations and the apply stay within. -/
namespace Sys2Proof.Machine

/-! ## Banks -/

theorem State.setBank_within (s : State) (e : EpochNo) (f : Bank → Bank) : Within s (s.setBank e f) := by
  unfold State.setBank
  split
  · exact Within.su s _ id
  · split
    · exact Within.su s _ id
    · exact Within.refl s

theorem State.resetBanks_within (s : State) : Within s s.resetBanks := Within.su s _ id

theorem State.exchangeBanks_within (s : State) : Within s s.exchangeBanks := Within.su s _ id

theorem State.fillOpenBank_within (s : State) (e : Option EpochNo) : Within s (s.fillOpenBank e) := Within.su s _ id

theorem State.feed_within (s : State) (x : Slot) : Within s (s.feed x) := by
  unfold State.feed
  split
  · exact (s.setBank_within _ _).trans (State.setEntry_within _ _ (CountsKept.of_same (fun _ => ⟨rfl, rfl⟩)))
  · exact Within.refl s

/-! ## Quiet windows -/

theorem State.setQuiet_within (s : State) (i : WinIx) (q : Quiet) (hq : q.counter ≤ 255) :
    Within s (s.setQuiet i q) :=
  Within.su s _ (fun h j => by
    simp only [Fin.getElem_fin, Vector.getElem_set]
    split
    · exact hq
    · exact h j)

theorem State.takeWrite_within (s : State) (x : Slot) (e : EpochNo) : Within s (s.takeWrite x e) := by
  unfold State.takeWrite
  split
  · exact Within.refl s
  · dsimp only
    split
    · exact ((s.setBank_within _ _).trans (State.setQuiet_within _ _ _ (by simp))).trans (State.raise_within _ _)
    · exact s.setBank_within _ _

theorem State.countQuiet_within (s : State) (e : EpochNo) (i : WinIx) : Within s (s.countQuiet e i) := by
  unfold State.countQuiet
  dsimp only
  split
  · split
    · exact s.setQuiet_within _ _ (by simp)
    · split
      · exact (s.setQuiet_within _ _ (satInc_le _ _)).trans (State.raise_within _ _)
      · exact s.setQuiet_within _ _ (satInc_le _ _)
  · exact Within.refl s

/-! ## At the seal -/

theorem State.compareWindow_within (s : State) (e : EpochNo) (i : WinIx) : Within s (s.compareWindow e i) := by
  unfold State.compareWindow
  dsimp only
  split
  · exact Within.refl s
  · split
    · exact Within.refl s
    · split
      · exact s.raise_within _
      · refine Within.trans ?_ (State.raise_within _ _)
        exact (s.raise_within _).trans (Within.wu _ _ rfl)

theorem State.sealWork_within (s : State) (e : EpochNo) : Within s (s.sealWork e) :=
  (Within.foldl _ (fun t i => t.compareWindow_within e i) _ s).trans
    (Within.foldl _ (fun t i => t.countQuiet_within e i) _ _)

/-! ## Apply -/

theorem SignatureUnit.applied_counter (u : SignatureUnit) (c : BitVec 16)
    (h : ∀ i : WinIx, (u.quiet[i]).counter ≤ 255) (i : WinIx) : ((u.applied c).quiet[i]).counter ≤ 255 := by
  have := h i
  simp only [SignatureUnit.applied, Fin.getElem_fin, Vector.getElem_ofFn, Quiet.applied] at *
  split
  · simp
  · exact this

theorem State.applyTable_within (s : State) (e : Option EpochNo) : Within s (s.applyTable e) := by
  unfold State.applyTable
  refine Within.trans ?_ (State.raise_within _ _)
  exact (Within.wu s { s.wu with active := s.wu.staged, armed := false } rfl).trans
    (Within.su _ _ (s.su.applied_counter _))

theorem State.applyArmed_within (s : State) (e : Option EpochNo) : Within s (s.applyArmed e) := by
  unfold State.applyArmed
  split
  · exact s.applyTable_within e
  · exact Within.refl s

end Sys2Proof.Machine
end

