-- ==== Sys2Proof/Laws/Intake.lean ====
section
/-! SUPPORT. The Intake Queue's operations stay within: lookups, answers, the dealing with heads, the ends of captures, holds
and releases. -/
namespace Sys2Proof.Machine

/-! ## Lookups -/

theorem State.takeDuty_within (s : State) (x : Slot) (e : EpochNo) : Within s (s.takeDuty x e) := by
  unfold State.takeDuty
  split
  · exact Within.setSlot_mild _ (fun _ => ⟨rfl, rfl, rfl, rfl⟩)
  · refine Within.trans ?_ (Within.setSlot_mild _ (fun _ => ⟨rfl, rfl, rfl, rfl⟩))
    exact Within.setSlot_mild _ (fun _ => ⟨rfl, rfl, rfl, rfl⟩)

theorem State.overflowLookup_within (s : State) (x : Slot) (e : Entry) : Within s (s.overflowLookup x e) := by
  have h : Within s ((s.setEntry e.number (fun y => { y with overflow := satInc Config.overflowMax y.overflow })).setSlot
      x.ix (fun z => { z with marking := some .captureDup })) := by
    refine (s.setEntry_within _ ?_).trans (Within.setSlot_mild _ (fun _ => ⟨rfl, rfl, rfl, rfl⟩))
    exact fun y hy => ⟨hy.1, satInc_le _ _⟩
  unfold State.overflowLookup
  dsimp only
  split
  · exact h.trans (State.raise_within _ _)
  · exact h

theorem State.lookup_within (s : State) (x : Slot) (e : Entry) : Within s (s.lookup x e) := by
  unfold State.lookup
  split
  · exact s.takeDuty_within x _
  · rename_i hg
    split
    · rename_i hl
      refine Within.trans (Within.touchedSet s _ (fun h => ⟨?_, ?_⟩))
        (Within.setSlot_mild _ (fun _ => ⟨rfl, rfl, rfl, rfl⟩))
      · exact List.nodup_cons.2 ⟨hg, h.1⟩
      · exact hl
    · exact s.overflowLookup_within x e

theorem State.markWrite_within (s : State) (x : Slot) (e : Entry) : Within s (s.markWrite x e) := by
  unfold State.markWrite
  dsimp only
  split
  · exact (s.markBroken_within _ _).trans (Within.setSlot_mild _ (fun _ => ⟨rfl, rfl, rfl, rfl⟩))
  · split
    · exact Within.setSlot_mild _ (fun _ => ⟨rfl, rfl, rfl, rfl⟩)
    · exact s.lookup_within x e

theorem State.assignWrite_within (s : State) (q : SlotIx) : Within s (s.assignWrite q) := by
  unfold State.assignWrite
  split
  · rename_i x e _ _
    refine Within.trans (Within.setSlot_mild q (f := fun z => { z with epoch := some e.number })
      (fun _ => ⟨rfl, rfl, rfl, rfl⟩)) ?_
    refine Within.trans ?_ (State.markWrite_within _ _ _)
    split
    · exact State.takeWrite_within _ _ _
    · exact Within.refl _
  · exact Within.refl s

/-! ## The forward path's list -/

/-- A record of slot `q` that may ask for a forward-path slot. -/
def State.MayAsk (s : State) (q : SlotIx) : Prop :=
  ∃ x ∈ s.iq.slots, x.ix = q ∧ x.state = .waiting ∧ x.outcome = none ∧ s.Oldest x

theorem State.askForward_within (s : State) (q : SlotIx) (h : s.IntakeOk → s.MayAsk q) :
    Within s (s.askForward q) := by
  unfold State.askForward
  split
  · exact Within.refl s
  · rename_i hq
    exact
    { keeps := by constructor <;> rfl
      events := ⟨[], rfl⟩
      keys := List.Sublist.refl _
      touched := id
      pressure := id
      ranges := fun k => ⟨k.entries, k.merged, k.retention, k.applied, k.discarded, k.failures, k.quiet⟩
      intake := fun k =>
        { distinct := k.distinct, order := k.order, before := k.before, held := k.held, decided := k.decided
          heads := k.heads
          asked := fun p hp => by
            rcases List.mem_append.1 hp with hp | hp
            · exact k.asked p hp
            · rw [List.mem_singleton.1 hp]; exact h k
          once := by
            refine List.nodup_append.2 ⟨k.once, by simp, ?_⟩
            intro a ha b hb
            rw [List.mem_singleton.1 hb]
            intro e
            exact hq (e ▸ ha)
          records := k.records, capturing := k.capturing, recorded := k.recorded, sent := k.sent
          sentOnce := k.sentOnce, issued := k.issued, fenced := k.fenced }
      answers := fun _ => ⟨[], AnswersInOrder.refl _ _ rfl rfl, by simp⟩ }

theorem State.withdraw_within (s : State) (q : SlotIx) : Within s (s.withdraw q) where
  keeps := by constructor <;> rfl
  events := ⟨[], rfl⟩
  keys := List.Sublist.refl _
  touched := id
  pressure := id
  ranges := fun k => ⟨k.entries, k.merged, k.retention, k.applied, k.discarded, k.failures, k.quiet⟩
  intake := fun k =>
    { distinct := k.distinct, order := k.order, before := k.before, held := k.held, decided := k.decided
      heads := k.heads
      asked := fun p hp => k.asked p (List.mem_filter.1 hp).1
      once := k.once.filter _
      records := k.records, capturing := k.capturing, recorded := k.recorded, sent := k.sent
      sentOnce := k.sentOnce, issued := k.issued, fenced := k.fenced }
  answers := fun _ => ⟨[], AnswersInOrder.refl _ _ rfl rfl, by simp⟩

theorem State.not_mem_withdraw (s : State) (q : SlotIx) : q ∉ (s.withdraw q).da.forward := by
  simp [State.withdraw]

/-! ## Decisions -/

/-- A WAITING request that asks for nothing is decided. -/
theorem FitsSlot.decide {s : State} {x y : Slot} (h : FitsSlot s x) (hk : y.key = x.key) (hx : x.state = .waiting)
    (hy : y.state = .waiting) (hh : y.holdEntry = x.holdEntry) (ho : y.outcome.isSome) (hq : x.ix ∉ s.da.forward) :
    FitsSlot s y := by
  have hix := Slot.ix_of_key hk
  have hs : y.state = x.state := hy.trans hx.symm
  constructor
  · rw [hs, hh]; exact h.held
  · intro _; exact Or.inl hy
  · intro hst; simp [hy] at hst
  · intro hf; rw [hix] at hf; exact absurd hf hq
  · rw [hix, hs]; exact h.records
  · rw [hix, hs]; exact h.sent
  · intro _ hn; simp [hn] at ho

/-- Slot `q` waits and asks for nothing. -/
def State.WaitsUnasked (s : State) (q : SlotIx) : Prop :=
  (∀ x ∈ s.iq.slots, x.ix = q → x.state = .waiting) ∧ q ∉ s.da.forward

theorem State.decideTripped_within (s : State) (x : Slot) (h : s.IntakeOk → s.WaitsUnasked x.ix) :
    Within s (s.decideTripped x) := by
  unfold State.decideTripped
  refine Within.trans ?_ (State.raise_within _ _)
  refine Within.setSlot _ (fun _ => rfl) (fun k y hy hq => ?_)
  have hw := (h k).1 y hy hq
  exact (k.fits hy).decide rfl hw hw rfl rfl (by rw [hq]; exact (h k).2)

/-! ## Answers -/

/-- Slot `x` is occupied by this request, which waits at the head of its granule order and asks for nothing. -/
def State.HeadWaits (s : State) (x : Slot) : Prop :=
  (∃ y ∈ s.iq.slots, y.key = x.key ∧ y.state = .waiting) ∧ s.Oldest x

/-- The occupied slots without slot `q`'s. -/
theorem State.IntakeOk.dropSlot {s : State} (k : s.IntakeOk) {y : Slot} (hy : y ∈ s.iq.slots)
    (hw : y.state = .waiting) (hq : y.ix ∉ s.da.forward) : (s.dropSlot y.ix).IntakeOk := by
  have mem : ∀ x, x ∈ (s.dropSlot y.ix).iq.slots ↔ x ∈ s.iq.slots ∧ x.ix ≠ y.ix := by simp
  have sub : (s.dropSlot y.ix).iq.slots.Sublist s.iq.slots := List.filter_sublist
  have old : ∀ x, s.Oldest x → (s.dropSlot y.ix).Oldest x := fun x hx z hz hg => hx z ((mem z).1 hz).1 hg
  constructor
  · exact k.distinct.sublist (sub.map _)
  · exact k.order.sublist sub
  · intro x hx; exact k.before x ((mem x).1 hx).1
  · intro x hx; exact k.held x ((mem x).1 hx).1
  · intro x hx; exact k.decided x ((mem x).1 hx).1
  · intro x hx hst; exact old x (k.heads x ((mem x).1 hx).1 hst)
  · intro q hf
    obtain ⟨x, hx, h1, h2, h3, h4⟩ := k.asked q hf
    refine ⟨x, (mem x).2 ⟨hx, ?_⟩, h1, h2, h3, old x h4⟩
    intro e
    exact hq (by rw [← e, h1]; exact hf)
  · exact k.once
  · intro c hc
    obtain ⟨x, hx, h1, h2⟩ := k.records c hc
    refine ⟨x, (mem x).2 ⟨hx, ?_⟩, h1, h2⟩
    intro e
    rw [k.unique hx hy e, hw] at h2
    simp at h2
  · intro x hx; exact k.capturing x ((mem x).1 hx).1
  · exact k.recorded
  · intro p c q hp hc
    obtain ⟨hd, x, hx, h1, h2⟩ := k.sent p c q hp hc
    refine ⟨hd, x, (mem x).2 ⟨hx, ?_⟩, h1, h2⟩
    intro e
    rw [k.unique hx hy e, hw] at h2
    simp at h2
  · exact k.sentOnce
  · intro x hx; exact k.issued x ((mem x).1 hx).1
  · intro x hx; exact k.fenced x ((mem x).1 hx).1

/-- The records that are left when one slot's is dropped, with that one in front. -/
theorem perm_dropSlot {l : List Slot} (hd : (l.map (·.ix)).Nodup) {y : Slot} (hy : y ∈ l) :
    (y.key :: (l.filter (fun x => x.ix != y.ix)).map Slot.key).Perm (l.map Slot.key) := by
  induction l with
  | nil => simp at hy
  | cons a l ih =>
    rw [List.map_cons, List.nodup_cons] at hd
    rcases List.mem_cons.1 hy with rfl | hyl
    · have : l.filter (fun x => x.ix != y.ix) = l := by
        refine List.filter_eq_self.2 (fun x hx => ?_)
        have : x.ix ≠ y.ix := fun e => hd.1 (e ▸ List.mem_map_of_mem hx)
        simpa using this
      rw [List.filter_cons_of_neg (by simp), this, List.map_cons]
    · have hne : a.ix ≠ y.ix := fun e => hd.1 (e ▸ List.mem_map_of_mem hyl)
      rw [List.filter_cons_of_pos (by simpa using hne), List.map_cons, List.map_cons]
      exact (List.Perm.swap _ _ _).trans ((ih hd.2 hyl).cons _)

/-- A head that leaves is ahead of every request left to its granule. -/
theorem State.IntakeOk.ahead_of_head {s : State} (k : s.IntakeOk) {y : Slot} (hy : y ∈ s.iq.slots) (ho : s.Oldest y) :
    ∀ z ∈ (s.dropSlot y.ix).iq.slots, z.granule = y.granule → y.pos < z.pos := by
  intro z hz hg
  have hz' : z ∈ s.iq.slots ∧ z.ix ≠ y.ix := by simpa using hz
  have hle := ho z hz'.1 hg
  rcases Nat.lt_or_eq_of_le hle with h | h
  · exact h
  · exfalso
    have hm : (s.iq.slots.map (·.pos)).Nodup := by
      rw [List.Nodup, List.pairwise_map]
      exact k.order.imp (fun h => Nat.ne_of_lt h)
    exact hz'.2 (congrArg Slot.ix (eq_of_nodup_map hm hz'.1 hy h.symm))

/-- An answer of a head, whatever its status. -/
theorem State.IntakeOk.answersOne {s : State} (k : s.IntakeOk) {x y : Slot} (hy : y ∈ s.iq.slots) (hk : y.key = x.key)
    (ho : s.Oldest x) (status : Status) (data : List Byte) :
    AnswersInOrder s (s.answer x status data) [⟨x, status, data⟩] where
  responses := rfl
  once := by
    have := perm_dropSlot k.distinct hy
    rw [Slot.ix_of_key hk] at this
    simpa [State.answer, hk] using this
  inOrder := by simp
  ahead := by
    intro a ha z hz hg
    rw [List.mem_singleton.1 ha] at hg ⊢
    have hoy : s.Oldest y := (State.oldest_of_key hk).2 ho
    have := k.ahead_of_head hy hoy z (by simpa [State.answer, Slot.ix_of_key hk] using hz)
      (hg.trans (Slot.granule_of_key hk).symm)
    simpa [Slot.pos_of_key hk] using this

theorem State.passDuty_within (s : State) (x : Slot) : Within s (s.passDuty x) := by
  unfold State.passDuty
  split
  · split
    · exact Within.setSlot_mild _ (fun _ => ⟨rfl, rfl, rfl, rfl⟩)
    · split
      · exact Within.touchedSet s _ (fun h => ⟨h.1.filter _, Nat.le_trans (List.length_filter_le _ _) h.2⟩)
      · exact Within.refl s
  · exact Within.refl s

theorem State.answerDecided_within (s : State) (x : Slot) (o : Decided) (h : s.IntakeOk → s.HeadWaits x) :
    Within s (s.answerDecided x o) := by
  unfold State.answerDecided
  refine Within.trans ?_ (State.passDuty_within _ x)
  refine
    { keeps := by constructor <;> rfl
      events := ⟨[], rfl⟩
      keys := List.filter_sublist.map _
      touched := id
      pressure := id
      ranges := fun k => ⟨k.entries, k.merged, k.retention, k.applied, k.discarded, k.failures, k.quiet⟩
      intake := fun k => ?_
      answers := fun k => ?_ }
  · obtain ⟨⟨y, hy, hk, hst⟩, _⟩ := h k
    have hx := Slot.ix_of_key hk
    have := ((s.withdraw_within x.ix).intake k).dropSlot (y := y) hy hst (by rw [hx]; exact s.not_mem_withdraw x.ix)
    rw [hx] at this
    exact this.congr rfl rfl rfl rfl rfl rfl
  · obtain ⟨⟨y, hy, hk, _⟩, ho⟩ := h k
    refine ⟨[⟨x, o.status, []⟩], ?_, ?_⟩
    · have := ((s.withdraw_within x.ix).intake k).answersOne hy hk ho o.status []
      exact ⟨this.responses, this.once, this.inOrder, this.ahead⟩
    · intro a ha
      rw [List.mem_singleton.1 ha]
      exact ⟨⟨o, rfl⟩, rfl⟩

/-! ## The capture point and the dealing with heads -/

theorem State.isHead_oldest {s : State} (k : s.IntakeOk) {x : Slot} (hx : x ∈ s.iq.slots) (h : s.isHead x = true) :
    s.Oldest x := by
  intro y hy hg
  have hm : y ∈ s.order x.granule := by simp [State.order, hy, hg]
  have hp : (s.order x.granule).Pairwise (fun a b => a.pos < b.pos) := k.order.sublist List.filter_sublist
  simp only [State.isHead, beq_iff_eq] at h
  cases ho : s.order x.granule with
  | nil => rw [ho] at hm; simp at hm
  | cons a l =>
    rw [ho] at h hm hp
    simp only [List.head?_cons, Option.map_some, Option.some.injEq] at h
    have ha : a ∈ s.iq.slots := by
      have : a ∈ s.order x.granule := by rw [ho]; exact List.mem_cons_self
      exact (List.mem_filter.1 this).1
    have hax : a = x := k.unique ha hx h
    rcases List.mem_cons.1 hm with rfl | hl
    · exact Nat.le_of_eq (by rw [hax])
    · exact Nat.le_of_lt (hax ▸ (List.pairwise_cons.1 hp).1 y hl)

theorem State.mem_of_slot? {s : State} {q : SlotIx} {x : Slot} (h : s.slot? q = some x) : x ∈ s.iq.slots ∧ x.ix = q := by
  refine ⟨List.mem_of_find?_eq_some h, ?_⟩
  have := List.find?_some h
  simpa using this

/-- A write at the head of its order begins its capture. -/
theorem State.beginCapture_within (s : State) (x : Slot) (e : EpochNo) (n : Nat)
    (h : s.IntakeOk → x ∈ s.iq.slots ∧ x.state = .waiting ∧ x.outcome = none ∧ s.Oldest x ∧ x.ix ∉ s.da.forward) :
    Within s (s.beginCapture x e n) := by
  refine
    { keeps := by constructor <;> rfl
      events := ⟨[], rfl⟩
      keys := ?_
      touched := id
      pressure := id
      ranges := fun k => ⟨k.entries, k.merged, k.retention, k.applied, k.discarded, k.failures, k.quiet⟩
      intake := fun k => ?_
      answers := fun k => ⟨[], AnswersInOrder.refl _ _ rfl ?_, by simp⟩ }
  · simp only [State.beginCapture, State.setSlot_iq]
    simp only [(Keyed.ite (f := fun z => { z with state := .capturing, atPoint := false }) (fun _ => rfl) x.ix).map_key,
      List.Sublist.refl]
  · obtain ⟨hx, hw, hn, ho, hf⟩ := h k
    have fx := k.fits hx
    have kf : Keyed (fun z : Slot => if z.ix == x.ix then { z with state := .capturing, atPoint := false } else z) :=
      Keyed.ite (f := fun z => { z with state := .capturing, atPoint := false }) (fun _ => rfl) x.ix
    have mem : ∀ y, y ∈ (s.beginCapture x e n).iq.slots ↔
        ∃ z ∈ s.iq.slots, (if z.ix == x.ix then { z with state := .capturing, atPoint := false } else z) = y := by
      simp [State.beginCapture]
    have old : ∀ z : Slot, s.Oldest z → (s.beginCapture x e n).Oldest z := by
      intro z hz y hy hg
      obtain ⟨w, hw, rfl⟩ := (mem y).1 hy
      rw [Slot.pos_of_key (kf w)]
      exact hz w hw ((Slot.granule_of_key (kf w)).symm.trans hg)
    have caps : (s.beginCapture x e n).cu.captures = s.cu.captures ++ [_] := rfl
    have hold : x.holdEntry = none := by
      have := fx.held
      simp only [hw, reduceCtorEq, false_iff, Option.not_isSome_iff_eq_none] at this
      exact this
    have other : ∀ {z : Slot}, z ∈ s.iq.slots → z.ix ≠ x.ix → z ∈ (s.beginCapture x e n).iq.slots := by
      intro z hz hq
      exact (mem z).2 ⟨z, hz, by simp [hq]⟩
    have it : { x with state := .capturing, atPoint := false } ∈ (s.beginCapture x e n).iq.slots :=
      (mem _).2 ⟨x, hx, by simp⟩
    -- each record of the new state is the changed one, or one of the old with another index
    have cases : ∀ {y : Slot}, y ∈ (s.beginCapture x e n).iq.slots →
        y = { x with state := .capturing, atPoint := false } ∨ (y ∈ s.iq.slots ∧ y.ix ≠ x.ix) := by
      intro y hy
      obtain ⟨z, hz, rfl⟩ := (mem y).1 hy
      by_cases hq : z.ix = x.ix
      · rw [k.unique hz hx hq]; simp
      · simp [hq, hz]
    constructor
    · have : (s.beginCapture x e n).iq.slots.map (·.ix) = s.iq.slots.map (·.ix) := by
        simp only [State.beginCapture, State.setSlot_iq]; exact kf.map_ix _
      rw [this]; exact k.distinct
    · simp only [State.beginCapture, State.setSlot_iq, List.pairwise_map]
      exact k.order.imp (fun {a b} hab => by
        have ha := Slot.pos_of_key (kf a)
        have hb := Slot.pos_of_key (kf b)
        simp only at ha hb
        omega)
    · intro y hy
      obtain ⟨z, hz, rfl⟩ := (mem y).1 hy
      rw [Slot.pos_of_key (kf z)]; exact k.before z hz
    · intro y hy
      rcases cases hy with rfl | ⟨hy, _⟩
      · simp [hold]
      · exact k.held y hy
    · intro y hy
      rcases cases hy with rfl | ⟨hy, _⟩
      · intro _; exact Or.inr rfl
      · exact k.decided y hy
    · intro y hy hst
      rcases cases hy with rfl | ⟨hy, _⟩
      · exact old _ ((State.oldest_of_key rfl).1 ho)
      · exact old _ (k.heads y hy hst)
    · intro q hq
      obtain ⟨z, hz, h1, h2, h3, h4⟩ := k.asked q hq
      have hne : z.ix ≠ x.ix := fun e' => hf (by rw [← e', h1]; exact hq)
      exact ⟨z, other hz hne, h1, h2, h3, old z h4⟩
    · exact k.once
    · intro c hc
      rw [caps] at hc
      rcases List.mem_append.1 hc with hc | hc
      · obtain ⟨z, hz, h1, h2⟩ := k.records c hc
        have hne : z.ix ≠ x.ix := fun e' => by rw [k.unique hz hx e', hw] at h2; simp at h2
        exact ⟨z, other hz hne, h1, h2⟩
      · rw [List.mem_singleton.1 hc]
        exact ⟨_, it, rfl, rfl⟩
    · intro y hy hst
      rw [caps]
      rcases cases hy with rfl | ⟨hy, _⟩
      · exact ⟨_, List.mem_append_right _ (List.mem_singleton.2 rfl), rfl⟩
      · obtain ⟨c, hc, h1⟩ := k.capturing y hy hst
        exact ⟨c, List.mem_append_left _ hc, h1⟩
    · rw [caps, List.map_append, List.nodup_append]
      refine ⟨k.recorded, by simp, ?_⟩
      intro a ha b hb hab
      simp only [List.map_cons, List.map_nil, List.mem_singleton] at hb
      obtain ⟨c, hc, rfl⟩ := List.mem_map.1 ha
      obtain ⟨z, hz, h1, h2⟩ := k.records c hc
      rw [k.unique hz hx (h1.trans (hab.trans hb)), hw] at h2
      simp at h2
    · intro p c q hp hq
      obtain ⟨hd, z, hz, h1, h2⟩ := k.sent p c q hp hq
      have hne : z.ix ≠ x.ix := fun e' => by rw [k.unique hz hx e', hw] at h2; simp at h2
      exact ⟨hd, z, other hz hne, h1, h2⟩
    · exact k.sentOnce
    · intro y hy hst
      rcases cases hy with rfl | ⟨hy, _⟩
      · simp at hst
      · exact k.issued y hy hst
    · intro y hy hst hno
      rcases cases hy with rfl | ⟨hy, _⟩
      · exact k.fenced x hx (by simp [hw]) hn
      · exact k.fenced y hy hst hno
  · simp only [State.beginCapture, State.setSlot_iq]
    exact (Keyed.ite (f := fun z => { z with state := .capturing, atPoint := false }) (fun _ => rfl) x.ix).map_key _

/-- The heads are told from the keys of the records alone. -/
theorem State.isHead_of_keys {s t : State} {x y : Slot} (hs : t.iq.slots.map Slot.key = s.iq.slots.map Slot.key)
    (hk : y.key = x.key) (h : s.isHead x = true) : t.isHead y = true := by
  have aux : ∀ l m : List Slot, m.map Slot.key = l.map Slot.key →
      ((m.filter (fun z => z.granule == x.granule)).head?.map (·.ix)) =
        ((l.filter (fun z => z.granule == x.granule)).head?.map (·.ix)) := by
    intro l
    induction l with
    | nil => intro m hm; simp at hm; simp [hm]
    | cons a l ih =>
      intro m hm
      cases m with
      | nil => simp at hm
      | cons b m =>
        simp only [List.map_cons, List.cons.injEq] at hm
        have hg := Slot.granule_of_key hm.1
        by_cases hb : a.granule = x.granule
        · simp [hg, hb, Slot.ix_of_key hm.1]
        · have := ih m hm.2
          simp only [List.head?_filter] at this
          simp [hg, hb, this]
  simp only [State.isHead, State.order, Slot.granule_of_key hk, Slot.ix_of_key hk, beq_iff_eq] at h ⊢
  rw [aux s.iq.slots t.iq.slots hs]
  exact h

/-- A WAITING head of the Intake Queue with no decided outcome. -/
structure State.WaitingHead (s : State) (x : Slot) : Prop where
  mem     : x ∈ s.iq.slots
  waiting : x.state = .waiting
  head    : s.isHead x = true

theorem State.WaitingHead.headWaits {s : State} {x : Slot} (h : s.WaitingHead x) (k : s.IntakeOk) : s.HeadWaits x :=
  ⟨⟨x, h.mem, rfl, h.waiting⟩, State.isHead_oldest k h.mem h.head⟩

theorem State.WaitingHead.waitsUnasked {s : State} {x : Slot} (h : s.WaitingHead x) (k : s.IntakeOk)
    (hf : x.ix ∉ s.da.forward) : s.WaitsUnasked x.ix :=
  ⟨fun y hy e => by rw [k.unique hy h.mem e]; exact h.waiting, hf⟩

theorem State.WaitingHead.mayAsk {s : State} {x : Slot} (h : s.WaitingHead x) (k : s.IntakeOk)
    (hn : x.outcome = none) : s.MayAsk x.ix := ⟨x, h.mem, rfl, h.waiting, hn, State.isHead_oldest k h.mem h.head⟩

/-- A mild change of the records keeps a WAITING head one. -/
theorem State.WaitingHead.map {s t : State} {x : Slot} (h : s.WaitingHead x) {f : Slot → Slot}
    (hk : Keyed f) (hs : t.iq.slots = s.iq.slots.map f) (hw : (f x).state = .waiting) : t.WaitingHead (f x) where
  mem := by rw [hs]; exact List.mem_map_of_mem h.mem
  waiting := hw
  head := State.isHead_of_keys (by rw [hs, hk.map_key]) (hk x) h.head

/-- A broken mark changes the records mildly. -/
theorem State.markBroken_slots (s : State) (e : EpochNo) (r : Reason) :
    ∃ f, Mild f ∧ (s.markBroken e r).iq.slots = s.iq.slots.map f := by
  unfold State.markBroken
  split
  · exact ⟨id, fun _ => ⟨rfl, rfl, rfl, rfl⟩, by simp⟩
  · exact ⟨_, Slot.reexamined_mild.ite_of _, rfl⟩

theorem State.examine_within (s : State) (x : Slot) (e : EpochNo) (n : Nat) (h : s.WaitingHead x)
    (hn : x.outcome = none) (hf : x.ix ∉ s.da.forward) : Within s (s.examine x e n) := by
  unfold State.examine
  split
  · refine (s.decideTripped_within x (fun k => h.waitsUnasked k hf)).trans (State.answerDecided_within _ _ _ ?_)
    intro k
    have kf := Keyed.ite (f := fun y : Slot => { y with outcome := some .tripped, atPoint := false }) (fun _ => rfl) x.ix
    have ht : (s.decideTripped x).WaitingHead _ := h.map (t := s.decideTripped x) kf rfl (by simp [h.waiting])
    have := ht.headWaits k
    exact ⟨⟨_, ht.mem, kf x, ht.waiting⟩, (State.oldest_of_key (kf x)).1 this.2⟩
  · split
    · exact s.askForward_within _ (fun k => h.mayAsk k hn)
    · split
      · refine (s.markBroken_within _ _).trans (State.askForward_within _ _ ?_)
        intro k
        obtain ⟨f, hm, hs⟩ := s.markBroken_slots e (s.jw.reason.getD .pressure)
        have := (h.map hm.keyed hs (by rw [(hm x).2.1]; exact h.waiting)).mayAsk k (by rw [(hm x).2.2.2]; exact hn)
        rwa [Slot.ix_of_key (hm x).1] at this
      · split
        · exact Within.setSlot_mild _ (fun _ => ⟨rfl, rfl, rfl, rfl⟩)
        · exact s.beginCapture_within x e n
            (fun k => ⟨h.mem, h.waiting, hn, State.isHead_oldest k h.mem h.head, hf⟩)

theorem State.dealHead_within (s : State) (x : Slot) (n : Nat) (h : s.WaitingHead x) : Within s (s.dealHead x n) := by
  unfold State.dealHead
  split
  · exact s.answerDecided_within _ _ h.headWaits
  · rename_i hn
    split
    · exact Within.refl s
    · rename_i hf
      split
      · split
        · exact Within.refl s
        · exact s.examine_within _ _ _ h hn hf
      · exact s.askForward_within _ (fun k => h.mayAsk k hn)

theorem State.dealSlot_within (s : State) (n : Nat) (q : SlotIx) : Within s (s.dealSlot n q) := by
  unfold State.dealSlot
  split
  · exact Within.refl s
  · rename_i x hx
    split
    · rename_i hh
      exact s.dealHead_within x n ⟨(State.mem_of_slot? hx).1, hh.1, hh.2⟩
    · exact Within.refl s

/-- The dealing with heads stays within. -/
theorem State.serve_within (s : State) : Within s s.serve := Within.foldl _ (fun t q => t.dealSlot_within _ q) _ s

/-! ## The hold limit -/

theorem State.timeOut_within (s : State) (x : Slot) (h : s.IntakeOk → ∀ y ∈ s.iq.slots, y.ix = x.ix → y.state = .held) :
    Within s (s.timeOut x) := by
  unfold State.timeOut
  refine Within.trans ?_ (State.raise_within _ _)
  refine Within.setSlot _ (fun _ => rfl) (fun k y hy hq => ?_)
  have hw := h k y hy hq
  have f := k.fits hy
  constructor
  · simp
  · intro _; exact Or.inl rfl
  · intro hst; simp at hst
  · intro hq'; have := (f.asked hq').1; rw [hw] at this; simp at this
  · have := f.records; rw [hw] at this; simpa using this
  · have := f.sent; rw [hw] at this; simpa using this
  · intro _ hno; simp at hno

theorem State.expireSlot_within (s : State) (q : SlotIx) : Within s (s.expireSlot q) := by
  unfold State.expireSlot
  split
  · exact Within.refl s
  · rename_i x hx
    split
    · rename_i hd
      refine s.timeOut_within x (fun k y hy e => ?_)
      rw [k.unique hy (State.mem_of_slot? hx).1 e]
      simp only [State.holdDue, Bool.and_eq_true, beq_iff_eq] at hd
      exact hd.1.1
    · exact Within.refl s

theorem State.expireAll_within (s : State) : Within s s.expireAll := Within.foldl _ (fun t q => t.expireSlot_within q) _ s

/-! ## Releases -/

/-- HELD requests become WAITING, changed by `f`; the others stay. -/
theorem Within.release {s : State} {f : Slot → Slot} (hf : ∀ x : Slot, x.state = .held → (f x).key = x.key ∧
    (f x).state = .waiting ∧ (f x).holdEntry = none ∧ ((f x).outcome = x.outcome ∨ (f x).outcome.isSome)) :
    Within s (s.mapSlots (fun x => if x.state = .held then f x else x)) := by
  have hk : Keyed (fun x : Slot => if x.state = .held then f x else x) := by
    intro x
    dsimp only
    split
    · rename_i h; exact (hf x h).1
    · rfl
  refine Within.mapSlots hk (fun k => k.mapSlots hk (fun x hx => ?_))
  have fx := k.fits hx
  by_cases hw : x.state = .held
  · simp only [hw, if_true]
    obtain ⟨h1, h2, h3, h4⟩ := hf x hw
    have hi := Slot.ix_of_key h1
    constructor
    · simp [h2, h3]
    · intro _; exact Or.inl h2
    · intro hst; simp [h2] at hst
    · intro hq; rw [hi] at hq; have := (fx.asked hq).1; rw [hw] at this; simp at this
    · have := fx.records; rw [hw] at this; rw [hi, h2]; simpa using this
    · have := fx.sent; rw [hw] at this; rw [hi, h2]; simpa using this
    · intro _ hn
      rw [Slot.req_of_key h1]
      rcases h4 with h4 | h4
      · exact fx.fenced (by simp [hw]) (by rw [← h4]; exact hn)
      · simp [hn] at h4
  · simp only [hw, if_false]; exact fx

theorem State.assignReleased_within (s : State) (q : SlotIx) : Within s (s.assignReleased q) := by
  unfold State.assignReleased
  split
  · exact Within.refl s
  · split
    · exact s.assignWrite_within q
    · exact Within.refl s

theorem State.releaseJournaling_within (s : State) {f : Slot → Slot} (hf : Mild f) :
    Within s (s.releaseJournaling f) := by
  unfold State.releaseJournaling
  refine Within.trans ?_ (Within.foldl _ (fun t q => t.assignReleased_within q) _ _)
  refine Within.release (f := fun x => (f x).unheld) (fun x hx => ?_)
  have h := hf x
  simp only [Slot.unheld, h.2.1, hx, if_true]
  exact ⟨h.1, trivial, trivial, Or.inl h.2.2.2⟩

theorem Slot.unassigned_mild : Mild Slot.unassigned := fun _ => ⟨rfl, rfl, rfl, rfl⟩

theorem State.releasePassthrough_within (s : State) : Within s s.releasePassthrough := by
  unfold State.releasePassthrough
  refine Within.release (f := fun x => x.unassigned.unheld) (fun x hx => ?_)
  simp only [Slot.unheld, Slot.unassigned, hx, if_true]
  exact ⟨rfl, trivial, trivial, Or.inl trivial⟩

end Sys2Proof.Machine
end

