-- ==== Sys2Proof/Laws/Settle.lean ====
section
/-! SUPPORT. The Epoch Controller's and the Rollback Engine's actions stay within, up to `State.settle`: what follows an
action. -/
namespace Sys2Proof.Machine

/-! ## Boundaries and the seal -/

theorem State.clearTouched_within (s : State) : Within s s.clearTouched :=
  Within.touchedSet s _ (fun _ => ⟨by simp, by simp⟩)

theorem State.makeRoom_within (s : State) : Within s s.makeRoom := by
  unfold State.makeRoom
  split
  · exact s.commitOldest_within _
  · exact Within.refl s

theorem State.boundary_within (s : State) : Within s s.boundary := by
  unfold State.boundary
  split
  · exact Within.refl s
  · exact (((((((s.makeRoom_within.trans (State.closeOpen_within _)).trans (State.addEpoch_within _ _)).trans
      (State.clearTouched_within _)).trans (State.exchangeBanks_within _)).trans (State.applyArmed_within _ _)).trans
      (State.fillOpenBank_within _ _)).trans (State.startTimer_within _))

theorem State.closingBoundary_within (s : State) : Within s s.closingBoundary :=
  ((((((s.closeOpen_within.trans (State.setBridge_within _ _)).trans (State.clearTouched_within _)).trans
    (State.exchangeBanks_within _)).trans (State.applyArmed_within _ _)).trans (State.fillOpenBank_within _ _)).trans
    (State.stopTimer_within _))

theorem State.loseAssignments_within (s : State) (e : EpochNo) : Within s (s.loseAssignments e) := by
  unfold State.loseAssignments
  refine Within.mapSlots_mild (fun x => ?_)
  split
  · exact Slot.unassigned_mild x
  · exact ⟨rfl, rfl, rfl, rfl⟩

theorem State.startSeal_within (s : State) : Within s s.startSeal := by
  unfold State.startSeal
  split
  · exact Within.refl s
  · split
    · exact ((s.loseAssignments_within _).trans (State.sealWork_within _ _)).trans (State.reserveSeal_within _ _ _)
    · exact Within.refl s

theorem State.becomeSealed_within (s : State) (e : EpochNo) : Within s (s.becomeSealed e) := by
  unfold State.becomeSealed
  refine Within.trans ?_ (State.raise_within _ _)
  refine Within.trans (s.setEntry_within e ?_) (Within.jw _ _ rfl id)
  exact CountsKept.of_same (fun _ => ⟨rfl, rfl⟩)

theorem State.commitBroken_within (s : State) (e : EpochNo) : Within s (s.commitBroken e) := by
  unfold State.commitBroken
  split
  · exact s.commitN_within _ _
  · exact Within.refl s

theorem State.openNext_within (s : State) : Within s s.openNext := by
  unfold State.openNext
  split
  · exact Within.refl s
  · exact s.reserveOpen_within _

theorem State.depthCommit_within (s : State) : Within s s.depthCommit := by
  unfold State.depthCommit
  split
  · exact s.commitOldest_within _
  · exact Within.refl s

theorem State.recover_within (s : State) : Within s s.recover := by
  unfold State.recover
  split
  · refine Within.trans ?_ (State.raise_within _ _)
    exact s.setPressure_within _ _ (by simp)
  · exact Within.refl s

theorem State.takePending_within (s : State) : Within s s.takePending := by
  unfold State.takePending
  split
  · have h : Within s { s with ec := { s.ec with pending := false, closing := false } } :=
      Within.ec s _ rfl rfl rfl rfl rfl rfl id
    dsimp only
    split
    · exact h.trans (State.closingBoundary_within _)
    · exact h.trans (State.boundary_within _)
  · exact Within.refl s

theorem State.completeSeal_within (s : State) (e : EpochNo) : Within s (s.completeSeal e) :=
  (((((s.commitBroken_within e).trans (State.openNext_within _)).trans (State.serve_within _)).trans
    (State.depthCommit_within _)).trans (State.recover_within _)).trans (State.takePending_within _)

theorem State.endClosing_within (s : State) (e : EpochNo) : Within s (s.endClosing e) := by
  unfold State.endClosing
  refine Within.trans ?_ (State.raise_within _ _)
  exact (((((s.commitSealed_within _).trans (State.emptyRing_within _)).trans (State.normalize_within _)).trans
    (State.setBridge_within _ _)).trans (State.resetBanks_within _)).trans (State.releasePassthrough_within _)

/-! ## The walk -/

theorem State.readRecord_within (s : State) (e : EpochNo) (l : Nat) : Within s (s.readRecord e l) := by
  unfold State.readRecord
  exact (Within.re s { s.re with phase := .walk, walkEpoch := some e, walkLine := some l, walkStep := some .reading,
                                 inHand := none } id id id).trans (Within.da _ _ rfl rfl rfl)

theorem State.cutHead_within (s : State) (t : EpochNo) : Within s (s.cutHead t) := by
  unfold State.cutHead
  refine Within.trans ?_ (State.evaluate_within _)
  exact Within.jw s _ rfl id

/-- The rollback is over, in the given bridge state. -/
theorem State.ended_within (s : State) (b : Bridge) : Within s { s.setBridge b with re := s.re.ended } :=
  (s.setBridge_within b).trans (Within.re _ s.re.ended id id id)

theorem State.finish_within (s : State) (t : EpochNo) : Within s (s.finish t) := by
  unfold State.finish
  extract_lets n a b c
  refine Within.trans ?_ (State.ended_within c .journaling)
  refine Within.trans ?_ (State.raise_within _ _)
  refine Within.trans ?_ (State.releaseJournaling_within b Slot.unassigned_mild)
  refine Within.trans ?_ (State.commitExcess_within _ _)
  refine Within.trans ?_ (State.startTimer_within _)
  refine Within.trans ?_ (State.fillOpenBank_within _ _)
  refine Within.trans ?_ (State.applyArmed_within _ _)
  refine Within.trans ?_ (State.resetBanks_within a)
  refine Within.trans ?_ (State.reserveOpen_within _ _)
  refine Within.trans ?_ (State.addEpoch_within _ _)
  refine Within.trans ?_ (State.clearTouched_within _)
  exact (s.cutHead_within t).trans (State.cutTable_within _ _)

theorem State.refuse_within (s : State) (t : EpochNo) : Within s (s.refuse t) := by
  unfold State.refuse
  extract_lets a
  refine Within.trans ?_ (State.raise_within _ _)
  refine Within.trans ?_ (State.releaseJournaling_within _ (fun _ => ⟨rfl, rfl, rfl, rfl⟩))
  refine Within.trans ?_ (State.commitExcess_within _ _)
  exact s.ended_within .journaling

theorem State.walkOn_within (s : State) (t : EpochNo) (es : List Entry) : Within s (s.walkOn t es) := by
  unfold State.walkOn
  split
  · exact s.readRecord_within _ _
  · exact s.finish_within t

theorem State.judge_within (s : State) (t : EpochNo) : Within s (s.judge t) := by
  unfold State.judge
  split
  · exact s.walkOn_within _ _
  · exact s.refuse_within t

theorem State.testDrain_within (s : State) : Within s s.testDrain := by
  unfold State.testDrain
  split
  · split
    · exact s.judge_within _
    · exact Within.refl s
  · exact Within.refl s

theorem State.failWalk_within (s : State) (why : WalkFailure) : Within s (s.failWalk why) := by
  unfold State.failWalk
  extract_lets t
  refine Within.trans ?_ (State.stopTimer_within _)
  refine Within.trans ?_ (Within.release (f := fun x => { x.unheld with outcome := some .halted }) (fun x hx => ?_))
  · refine Within.trans ((s.raise_within _).trans (State.setBridge_within t .halted)) ?_
    exact Within.re _ { t.re.ended with applied := 0, failures := satInc Config.count8Max t.re.failures }
      (fun _ => by simp) id (fun _ => satInc_le _ _)
  · simp [Slot.unheld, hx, Slot.key]

/-! ## What follows an action -/

/-- Everything the consequences of an action can do. -/
theorem State.settle_within (s : State) : Within s s.settle := by
  unfold State.settle
  exact (((s.serve_within.trans (State.startSeal_within _)).trans (State.serve_within _)).trans
    (State.testDrain_within _)).trans (State.serve_within _)

/-! ## The end of DRAIN -/

/-- What `State.drainDone` tests (R144, R10). -/
theorem State.drainDone_iff (s : State) : s.drainDone = true ↔
    (∀ x ∈ s.iq.slots, x.epoch = none ∧ x.captureEnded = false ∨ x.state = .held) ∧ s.sealingEntry? = none ∧
      s.recordWriteLeft = false ∧ ∀ x ∈ s.iq.slots, x.outcome ≠ some .halted := by
  have h : ∀ x : Slot, x.drains = false ↔ x.epoch = none ∧ x.captureEnded = false ∨ x.state = .held := by
    intro x
    cases he : x.epoch <;> cases hc : x.captureEnded <;> simp [Slot.drains, he, hc]
  simp [State.drainDone, h, and_assoc]

end Sys2Proof.Machine
end

