-- ==== Sys2Proof/Laws/Heads.lean ====
section
/-! SUPPORT. The dealing with heads deals with all of them: after `State.serve`, and so after what follows an action, every
WAITING head has been dealt with. -/
namespace Sys2Proof.Machine

/-! ## What dealing with one slot leaves to the others -/

/-- From `s` to `t` the requests in slots other than `q` keep their place, state and outcome, and stay on the forward path's
list; those accepted no later than position `n` need a capture exactly when they did. -/
structure Spares (s t : State) (q : SlotIx) (n : Nat) : Prop where
  others  : ∀ y ∈ t.iq.slots, y.ix ≠ q → ∃ z ∈ s.iq.slots, z.key = y.key ∧ y.state = z.state ∧ y.outcome = z.outcome ∧
              (z.pos ≤ n → y.needsCapture = z.needsCapture)
  forward : ∀ p, p ≠ q → p ∈ s.da.forward → p ∈ t.da.forward
  kept    : ∀ z ∈ s.iq.slots, z.ix ≠ q → ∃ y ∈ t.iq.slots, y.key = z.key

theorem Spares.of_same {s t : State} {q : SlotIx} {n : Nat} (hs : t.iq.slots = s.iq.slots)
    (hf : ∀ p, p ≠ q → p ∈ s.da.forward → p ∈ t.da.forward) : Spares s t q n where
  others := fun y hy _ => ⟨y, by rw [← hs]; exact hy, rfl, rfl, rfl, fun _ => rfl⟩
  forward := hf
  kept := fun z hz _ => ⟨z, by rw [hs]; exact hz, rfl⟩

theorem Spares.refl (s : State) (q : SlotIx) (n : Nat) : Spares s s q n := Spares.of_same rfl (fun _ _ h => h)

theorem Spares.trans {s t u : State} {q : SlotIx} {n : Nat} (h : Spares s t q n) (k : Spares t u q n) : Spares s u q n where
  others := fun y hy hq => by
    obtain ⟨z, hz, k1, k2, k3, k4⟩ := k.others y hy hq
    obtain ⟨w, hw, h1, h2, h3, h4⟩ := h.others z hz (by rw [Slot.ix_of_key k1]; exact hq)
    refine ⟨w, hw, h1.trans k1, k2.trans h2, k3.trans h3, fun hn => ?_⟩
    exact (k4 (by rw [← Slot.pos_of_key h1]; exact hn)).trans (h4 hn)
  forward := fun p hp h' => k.forward p hp (h.forward p hp h')
  kept := fun z hz hq => by
    obtain ⟨y, hy, h1⟩ := h.kept z hz hq
    obtain ⟨w, hw, h2⟩ := k.kept y hy (by rw [Slot.ix_of_key h1]; exact hq)
    exact ⟨w, hw, h2.trans h1⟩

/-- Records changed in place, one by one. -/
theorem Spares.mapSlots {s t : State} {q : SlotIx} {n : Nat} {f : Slot → Slot} (hk : Keyed f)
    (hs : t.iq.slots = s.iq.slots.map f) (hf : t.da.forward = s.da.forward)
    (h : ∀ x ∈ s.iq.slots, x.ix ≠ q → (f x).state = x.state ∧ (f x).outcome = x.outcome ∧
      (x.pos ≤ n → (f x).needsCapture = x.needsCapture)) : Spares s t q n where
  others := fun y hy hq => by
    rw [hs] at hy
    obtain ⟨x, hx, rfl⟩ := List.mem_map.1 hy
    rw [Slot.ix_of_key (hk x)] at hq
    obtain ⟨h1, h2, h3⟩ := h x hx hq
    exact ⟨x, hx, (hk x).symm, h1, h2, h3⟩
  forward := fun p _ h' => by rw [hf]; exact h'
  kept := fun z hz _ => ⟨f z, by rw [hs]; exact List.mem_map_of_mem hz, hk z⟩

theorem State.setSlot_spares (s : State) (q : SlotIx) (n : Nat) {f : Slot → Slot} (hk : Keyed f) :
    Spares s (s.setSlot q f) q n :=
  Spares.mapSlots (hk.ite q) rfl rfl (fun x _ hq => by simp [beq_eq_false_iff_ne.2 hq])

/-- The record of a request accepted later may change but for its state and outcome. -/
theorem State.setLater_spares (s : State) (q : SlotIx) (n : Nat) {y : Slot} {f : Slot → Slot} (hk : Keyed f)
    (hd : (s.iq.slots.map (·.ix)).Nodup) (hy : y ∈ s.iq.slots) (hp : n < y.pos)
    (hf : ∀ x, (f x).state = x.state ∧ (f x).outcome = x.outcome) : Spares s (s.setSlot y.ix f) q n := by
  refine Spares.mapSlots (hk.ite y.ix) rfl rfl (fun x hx _ => ?_)
  by_cases e : x.ix = y.ix
  · obtain rfl := eq_of_nodup_map hd hx hy e
    simp only [beq_self_eq_true, if_true]
    exact ⟨(hf x).1, (hf x).2, fun h => absurd hp (Nat.not_lt.2 h)⟩
  · simp [beq_eq_false_iff_ne.2 e]

theorem State.withdraw_spares (s : State) (q : SlotIx) (n : Nat) : Spares s (s.withdraw q) q n :=
  Spares.of_same rfl (fun p hp h => by
    simp only [State.withdraw_da, List.mem_filter]
    exact ⟨h, by simpa using hp⟩)

theorem State.dropSlot_spares (s : State) (q : SlotIx) (n : Nat) : Spares s (s.dropSlot q) q n where
  others := fun y hy _ => ⟨y, (List.mem_filter.1 hy).1, rfl, rfl, rfl, fun _ => rfl⟩
  forward := fun _ _ h => h
  kept := fun z hz hq => ⟨z, List.mem_filter.2 ⟨hz, by simpa using hq⟩, rfl⟩

theorem State.askForward_spares (s : State) (q r : SlotIx) (n : Nat) : Spares s (s.askForward q) r n := by
  unfold State.askForward
  split
  · exact Spares.refl s r n
  · exact Spares.of_same rfl (fun p _ h => List.mem_append_left _ h)

theorem State.markBroken_spares (s : State) (e : EpochNo) (r : Reason) (q : SlotIx) (n : Nat) :
    Spares s (s.markBroken e r) q n := by
  unfold State.markBroken
  split
  · exact Spares.refl s q n
  · refine Spares.mapSlots (f := fun x => if x.epoch == some e then x.reexamined else x) (fun x => ?_) rfl rfl
      (fun x _ _ => ?_)
    · dsimp only; split <;> rfl
    · split <;> exact ⟨rfl, rfl, fun _ => rfl⟩

theorem State.answerDecided_spares (s : State) (x : Slot) (o : Decided) (hd : (s.iq.slots.map (·.ix)).Nodup) :
    Spares s (s.answerDecided x o) x.ix x.pos := by
  unfold State.answerDecided
  have h1 : Spares s ((s.withdraw x.ix).answer x o.status []) x.ix x.pos :=
    (s.withdraw_spares x.ix x.pos).trans ((State.dropSlot_spares _ x.ix x.pos).trans (Spares.of_same rfl (fun _ _ h => h)))
  have hd' : (((s.withdraw x.ix).answer x o.status []).iq.slots.map (·.ix)).Nodup :=
    hd.sublist (List.filter_sublist.map _)
  refine h1.trans ?_
  unfold State.passDuty
  split
  · split
    · rename_i y hy
      have hm := List.mem_of_find?_eq_some hy
      have hp := List.find?_some hy
      simp only [Bool.and_eq_true, decide_eq_true_eq] at hp
      exact State.setLater_spares _ _ _ (fun _ => rfl) hd' hm hp.1.1.1.2 (fun _ => ⟨rfl, rfl⟩)
    · split
      · exact Spares.of_same rfl (fun _ _ h => h)
      · exact Spares.refl _ _ _
  · exact Spares.refl _ _ _

theorem State.decideTripped_spares (s : State) (x : Slot) (n : Nat) : Spares s (s.decideTripped x) x.ix n :=
  (s.setSlot_spares x.ix n (f := fun y => { y with outcome := some .tripped, atPoint := false }) (fun _ => rfl)).trans
    (Spares.of_same rfl (fun _ _ h => h))

theorem State.examine_spares (s : State) (x : Slot) (e : EpochNo) (n : Nat) (hd : (s.iq.slots.map (·.ix)).Nodup) :
    Spares s (s.examine x e n) x.ix x.pos := by
  unfold State.examine
  split
  · refine (s.decideTripped_spares x x.pos).trans (State.answerDecided_spares _ x _ ?_)
    simp only [State.decideTripped, State.raise_iq, State.setSlot_iq]
    rw [(Keyed.ite (f := fun y : Slot => { y with outcome := some .tripped, atPoint := false }) (fun _ => rfl) x.ix).map_ix]
    exact hd
  · split
    · exact s.askForward_spares _ _ _
    · split
      · exact (s.markBroken_spares _ _ _ _).trans (State.askForward_spares _ _ _ _)
      · split
        · exact s.setSlot_spares _ _ (fun _ => rfl)
        · unfold State.beginCapture
          refine Spares.trans ?_ (State.setSlot_spares _ _ _ (fun _ => rfl))
          exact Spares.of_same rfl (fun _ _ h => h)

theorem State.dealSlot_spares (s : State) (n : Nat) {q : SlotIx} {x : Slot} (hx : s.slot? q = some x)
    (hd : (s.iq.slots.map (·.ix)).Nodup) : Spares s (s.dealSlot n q) q x.pos := by
  have hq := (State.mem_of_slot? hx).2
  rw [State.dealSlot, hx]
  dsimp only
  split
  · unfold State.dealHead
    rw [← hq]
    split
    · exact s.answerDecided_spares x _ hd
    · split
      · exact Spares.refl _ _ _
      · split
        · split
          · exact Spares.refl _ _ _
          · exact s.examine_spares x _ n hd
        · exact s.askForward_spares _ _ _
  · exact Spares.refl _ _ _

/-! ## What dealing with one slot makes of it -/

/-- The head has been dealt with as far as R7 deals with it at once. -/
def State.Dealt (s : State) (x : Slot) : Prop :=
  x.outcome = none ∧ (x.needsCapture = false → x.ix ∈ s.da.forward)

theorem State.oldest_isHead {s : State} (k : s.IntakeOk) {x : Slot} (hx : x ∈ s.iq.slots) (h : s.Oldest x) :
    s.isHead x = true := by
  have hm : x ∈ s.order x.granule := by simp [State.order, hx]
  have hp : (s.order x.granule).Pairwise (fun a b => a.pos < b.pos) := k.order.sublist List.filter_sublist
  cases ho : s.order x.granule with
  | nil => rw [ho] at hm; simp at hm
  | cons a l =>
    rw [ho] at hm hp
    have ha : a ∈ s.iq.slots ∧ a.granule = x.granule := by
      have : a ∈ s.order x.granule := by rw [ho]; exact List.mem_cons_self
      simpa [State.order] using this
    have hax : a = x := by
      rcases List.mem_cons.1 hm with e | hl
      · exact e.symm
      · have h1 := (List.pairwise_cons.1 hp).1 x hl
        have h2 := h a ha.1 ha.2
        omega
    simp [State.isHead, ho, hax]

/-- A slot that is dropped holds no request. -/
theorem State.answerDecided_gone (s : State) (x : Slot) (o : Decided) :
    ∀ y ∈ (s.answerDecided x o).iq.slots, y.ix ≠ x.ix := by
  have h : ∀ t : State, (∀ y ∈ t.iq.slots, y.ix ≠ x.ix) → ∀ y ∈ (t.passDuty x).iq.slots, y.ix ≠ x.ix := by
    intro t ht
    unfold State.passDuty
    split
    · split
      · intro y hy
        simp only [State.setSlot_iq, List.mem_map] at hy
        obtain ⟨z, hz, rfl⟩ := hy
        have := ht z hz
        split <;> exact this
      · split <;> exact ht
    · exact ht
  refine h _ (fun y hy => ?_)
  have hy : y ∈ (s.dropSlot x.ix).iq.slots := hy
  simp only [State.dropSlot_iq, List.mem_filter, bne_iff_ne, ne_eq] at hy
  exact hy.2

theorem State.mem_askForward (s : State) (q : SlotIx) : q ∈ (s.askForward q).da.forward := by
  unfold State.askForward
  split
  · assumption
  · simp

theorem State.askForward_iq (s : State) (q : SlotIx) : (s.askForward q).iq = s.iq := by
  unfold State.askForward
  split <;> rfl

/-- After its dealing the slot's request, if it still waits as a head, is dealt with. -/
theorem State.dealSlot_dealt (s : State) (n : Nat) (q : SlotIx) (k : s.IntakeOk) :
    ∀ y ∈ (s.dealSlot n q).iq.slots, y.ix = q → y.state = .waiting → (s.dealSlot n q).Oldest y →
      (s.dealSlot n q).Dealt y := by
  intro y hy hq hw ho
  have hwith := s.dealSlot_within n q
  rw [State.dealSlot] at hy ho hwith ⊢
  cases hx : s.slot? q with
  | none =>
    rw [hx] at hy ho hwith
    simp only [State.slot?, List.find?_eq_none, beq_iff_eq] at hx
    exact absurd hq (hx y hy)
  | some x =>
    obtain ⟨hxm, hxq⟩ := State.mem_of_slot? hx
    rw [hx] at hy ho hwith
    dsimp only at hy ho hwith ⊢
    have only : ∀ z ∈ s.iq.slots, z.ix = q → z = x := fun z hz e => k.unique hz hxm (e.trans hxq.symm)
    split at hy
    · rename_i hh
      rw [if_pos hh] at ho ⊢
      unfold State.dealHead at hy ho ⊢
      cases hout : x.outcome with
      | some o =>
        rw [hout] at hy ho
        exact absurd (hq.trans hxq.symm) (s.answerDecided_gone x o y hy)
      | none =>
        rw [hout] at hy ho
        dsimp only at hy ho ⊢
        split at hy
        · rename_i hf
          rw [if_pos hf] at ho ⊢
          rw [only y hy hq]
          exact ⟨hout, fun _ => hf⟩
        · rename_i hf
          rw [if_neg hf] at ho ⊢
          have asked : ∀ t : State, t.iq.slots.map Slot.key = s.iq.slots.map Slot.key →
              (∀ z ∈ t.iq.slots, z.ix = q → z.outcome = none) → y ∈ (t.askForward x.ix).iq.slots →
              (t.askForward x.ix).Dealt y := by
            intro t _ hn hy'
            rw [State.askForward_iq] at hy'
            refine ⟨hn y hy' hq, fun _ => ?_⟩
            rw [hq, ← hxq]
            exact t.mem_askForward x.ix
          have stay : ∀ z ∈ s.iq.slots, z.ix = q → z.outcome = none := fun z hz e => by rw [only z hz e]; exact hout
          cases hnc : x.needsCapture with
          | false =>
            rw [hnc] at hy
            exact asked s rfl stay hy
          | true =>
            cases hep : x.epoch with
            | none =>
              rw [hnc, hep] at hy
              exact asked s rfl stay hy
            | some e =>
              rw [hnc, hep] at hy
              dsimp only at hy ⊢
              by_cases hat : x.atPoint = true
              · rw [if_pos hat] at hy ⊢
                rw [only y hy hq]
                exact ⟨hout, fun h => by rw [hnc] at h; simp at h⟩
              · rw [if_neg hat] at hy ⊢
                unfold State.examine at hy ⊢
                split at hy
                · exact absurd (hq.trans hxq.symm) (State.answerDecided_gone _ x _ y hy)
                · rename_i h1
                  rw [if_neg h1]
                  split at hy
                  · rename_i h2
                    rw [if_pos h2]
                    exact asked s rfl stay hy
                  · rename_i h2
                    rw [if_neg h2]
                    split at hy
                    · rename_i h3
                      rw [if_pos h3]
                      obtain ⟨f, hf', hs⟩ := s.markBroken_slots e (s.jw.reason.getD .pressure)
                      refine asked _ (by rw [hs, hf'.keyed.map_key]) (fun z hz e' => ?_) hy
                      rw [hs] at hz
                      obtain ⟨w, hw', rfl⟩ := List.mem_map.1 hz
                      rw [(hf' w).2.2.2]
                      exact stay w hw' (by rw [← e', Slot.ix_of_key (hf' w).1])
                    · rename_i h3
                      rw [if_neg h3]
                      split at hy
                      · rename_i h4
                        rw [if_pos h4]
                        simp only [State.setSlot_iq, List.mem_map] at hy
                        obtain ⟨w, hw', rfl⟩ := hy
                        have hwx : w = x := by
                          refine only w hw' ?_
                          split at hq <;> exact hq
                        subst hwx
                        simp only [beq_self_eq_true, if_true]
                        exact ⟨hout, fun h => by
                          have : w.needsCapture = false := h
                          rw [hnc] at this; simp at this⟩
                      · rename_i h4
                        simp only [State.beginCapture, State.setSlot_iq, List.mem_map] at hy
                        obtain ⟨w, hw', rfl⟩ := hy
                        have hwx : w = x := by
                          refine only w hw' ?_
                          split at hq <;> exact hq
                        subst hwx
                        simp at hw
    · rename_i hh
      rw [if_neg hh] at ho
      have hyx := only y hy hq
      exact absurd ⟨hyx ▸ hw, State.oldest_isHead k hxm (hyx ▸ ho)⟩ hh

/-! ## All of them -/

theorem State.dealAll_dealt (todo : List Slot) (t : State) (n : Nat) (k : t.IntakeOk)
    (hnd : (todo.map (·.ix)).Nodup) (hord : todo.Pairwise (fun x y => x.pos < y.pos))
    (hkey : ∀ y ∈ t.iq.slots, y.ix ∈ todo.map (·.ix) → ∃ x ∈ todo, x.key = y.key)
    (hdone : ∀ y ∈ t.iq.slots, y.ix ∉ todo.map (·.ix) → (∀ x ∈ todo, y.pos < x.pos) ∧
      (y.state = .waiting → t.Oldest y → t.Dealt y)) :
    let u := (todo.map (·.ix)).foldl (fun t q => t.dealSlot n q) t
    ∀ y ∈ u.iq.slots, y.state = .waiting → u.Oldest y → u.Dealt y := by
  induction todo generalizing t with
  | nil => exact fun y hy hw ho => (hdone y hy (by simp)).2 hw ho
  | cons x0 rest ih =>
    have hnd' := List.nodup_cons.1 hnd
    have hord' := List.pairwise_cons.1 hord
    have hwith := t.dealSlot_within n x0.ix
    refine ih (t.dealSlot n x0.ix) (hwith.intake k) hnd'.2 hord'.2 (fun y hy hm => ?_) (fun y hy hm => ?_)
    · obtain ⟨z, hz, hzk⟩ := mem_of_keys hwith.keys hy
      obtain ⟨x, hx, hxk⟩ := hkey z hz (List.mem_cons_of_mem _ (by rw [Slot.ix_of_key hzk]; exact hm))
      rcases List.mem_cons.1 hx with rfl | hx
      · have hx0 : x.ix ∈ rest.map (·.ix) := by
          rw [Slot.ix_of_key (hxk.trans hzk)]
          exact hm
        exact absurd hx0 hnd'.1
      · exact ⟨x, hx, hxk.trans hzk⟩
    · obtain ⟨z, hz, hzk⟩ := mem_of_keys hwith.keys hy
      by_cases hq : y.ix = x0.ix
      · -- the slot just dealt with
        obtain ⟨x, hx, hxk⟩ := hkey z hz (by rw [Slot.ix_of_key hzk, hq]; exact List.mem_cons_self)
        have hx0 : x = x0 := by
          rcases List.mem_cons.1 hx with e | hx
          · exact e
          · have he : x.ix = x0.ix := by rw [Slot.ix_of_key hxk, Slot.ix_of_key hzk, hq]
            have hx0 : x0.ix ∈ rest.map (·.ix) := by
              rw [← he]
              exact List.mem_map_of_mem hx
            exact absurd hx0 hnd'.1
        refine ⟨fun x' hx' => ?_, fun hw ho => t.dealSlot_dealt n x0.ix k y hy hq hw ho⟩
        rw [← Slot.pos_of_key hzk, ← Slot.pos_of_key hxk, hx0]
        exact hord'.1 x' hx'
      · -- one dealt with before
        have hzq : z.ix ∉ (x0 :: rest).map (·.ix) := by
          rw [Slot.ix_of_key hzk, List.map_cons]
          exact List.not_mem_cons_of_ne_of_not_mem hq hm
        obtain ⟨hz1, hz2⟩ := hdone z hz hzq
        refine ⟨fun x' hx' => ?_, fun hw ho => ?_⟩
        · rw [← Slot.pos_of_key hzk]; exact hz1 x' (List.mem_cons_of_mem _ hx')
        · cases hs : t.slot? x0.ix with
          | none =>
            have hu : t.dealSlot n x0.ix = t := by rw [State.dealSlot, hs]
            rw [hu] at hy ho ⊢
            exact (hdone y hy (by rw [← Slot.ix_of_key hzk]; exact hzq)).2 hw ho
          | some x =>
            obtain ⟨hxm, hxq⟩ := State.mem_of_slot? hs
            have sp := t.dealSlot_spares n hs k.distinct
            obtain ⟨v, hv, v1, v2, v3, v4⟩ := sp.others y hy hq
            obtain rfl := k.unique hv hz (by rw [Slot.ix_of_key v1, Slot.ix_of_key hzk])
            have hxpos : v.pos < x.pos := by
              obtain ⟨x', hx', hxk'⟩ := hkey x hxm (by rw [hxq]; exact List.mem_cons_self)
              have := hz1 x' hx'
              rwa [Slot.pos_of_key hxk'] at this
            have hold : t.Oldest v := by
              intro w hw' hg
              by_cases e : w.ix = x0.ix
              · obtain rfl := k.unique hw' hxm (e.trans hxq.symm)
                exact Nat.le_of_lt hxpos
              · obtain ⟨y', hy', e'⟩ := sp.kept w hw' e
                have := ho y' hy' (by rw [Slot.granule_of_key e', hg, Slot.granule_of_key v1])
                rwa [Slot.pos_of_key e', ← Slot.pos_of_key v1] at this
            obtain ⟨d1, d2⟩ := hz2 (by rw [← v2]; exact hw) hold
            refine ⟨by rw [v3]; exact d1, fun hn => ?_⟩
            rw [v4 (Nat.le_of_lt hxpos)] at hn
            have := sp.forward v.ix (by rw [Slot.ix_of_key v1]; exact hq) (d2 hn)
            rwa [Slot.ix_of_key v1] at this

/-- After the dealing every WAITING head has been dealt with. -/
theorem State.serve_headsDealt (s : State) (k : s.IntakeOk) : s.serve.HeadsDealt := by
  have h := State.dealAll_dealt s.iq.slots s s.nextGroup k k.distinct k.order (fun y hy _ => ⟨y, hy, rfl⟩)
    (fun y hy hn => absurd (List.mem_map_of_mem hy) hn)
  constructor
  · intro x hx hw hs ho
    have := (h x hx hw ho).1
    rw [this] at hs
    simp at hs
  · exact fun x hx hw ho _ hn => (h x hx hw ho).2 hn

/-- After what follows an action every WAITING head has been dealt with. -/
theorem State.settle_headsDealt (s : State) (k : s.IntakeOk) : s.settle.HeadsDealt := by
  unfold State.settle
  exact State.serve_headsDealt _ ((((s.serve_within.trans (State.startSeal_within _)).trans (State.serve_within _)).trans
    (State.testDrain_within _)).intake k)

/-- The property speaks of the records and the forward path's list only. -/
theorem State.HeadsDealt.congr {s t : State} (h : s.HeadsDealt) (hs : t.iq.slots = s.iq.slots)
    (hf : t.da.forward = s.da.forward) : t.HeadsDealt := by
  have ho : ∀ x, t.Oldest x ↔ s.Oldest x := fun x => by simp [State.Oldest, hs]
  constructor
  · intro x hx hw hd hold
    rw [hs] at hx
    exact h.answered x hx hw hd ((ho x).1 hold)
  · intro x hx hw hold hn hc
    rw [hs] at hx
    rw [hf]
    exact h.asking x hx hw ((ho x).1 hold) hn hc

/-- Marks of examined writes cleared leave the heads dealt with. -/
theorem State.HeadsDealt.reexamine {s t : State} (h : s.HeadsDealt)
    (hs : t.iq.slots.map Slot.reexamined = s.iq.slots.map Slot.reexamined) (hf : t.da.forward = s.da.forward) :
    t.HeadsDealt := by
  have like : ∀ {a b : State}, a.iq.slots.map Slot.reexamined = b.iq.slots.map Slot.reexamined → ∀ x ∈ a.iq.slots,
      ∃ y ∈ b.iq.slots, y.reexamined = x.reexamined := by
    intro a b e x hx
    have : x.reexamined ∈ b.iq.slots.map Slot.reexamined := by rw [← e]; exact List.mem_map_of_mem hx
    obtain ⟨y, hy, e'⟩ := List.mem_map.1 this
    exact ⟨y, hy, e'⟩
  have key : ∀ {x y : Slot}, y.reexamined = x.reexamined → y.key = x.key ∧ y.state = x.state ∧ y.outcome = x.outcome ∧
      y.needsCapture = x.needsCapture := by
    intro x y e
    have h1 := congrArg Slot.key e
    have h2 := congrArg Slot.state e
    have h3 := congrArg Slot.outcome e
    have h4 := congrArg Slot.needsCapture e
    exact ⟨h1, h2, h3, h4⟩
  have old : ∀ {x y : Slot}, y.reexamined = x.reexamined → t.Oldest x → s.Oldest y := by
    intro x y e ho z hz hg
    obtain ⟨w, hw, e'⟩ := like hs.symm z hz
    have kx := (key e).1
    have kw := (key e').1
    have := ho w hw (by rw [Slot.granule_of_key kw, hg, Slot.granule_of_key kx])
    rwa [← Slot.pos_of_key kx, Slot.pos_of_key kw] at this
  constructor
  · intro x hx hw hd ho
    obtain ⟨y, hy, e⟩ := like hs x hx
    obtain ⟨_, k2, k3, _⟩ := key e
    exact h.answered y hy (by rw [k2]; exact hw) (by rw [k3]; exact hd) (old e ho)
  · intro x hx hw ho hn hc
    obtain ⟨y, hy, e⟩ := like hs x hx
    obtain ⟨k1, k2, k3, k4⟩ := key e
    have := h.asking y hy (by rw [k2]; exact hw) (old e ho) (by rw [k3]; exact hn) (by rw [k4]; exact hc)
    rw [hf, ← Slot.ix_of_key k1]
    exact this

end Sys2Proof.Machine
end

