-- ==== Sys2Proof/Laws/Link.lean ====
section
/-! SUPPORT. What a management frame comes to, in reset, while the bytes are no frame, and while the MI listens. -/
namespace Sys2Proof.Machine

/-- While the MI listens the command is taken: its effect, with its answer on MDO. -/
theorem State.frame_listens {s : State} (h : s.Listens) (n : Nat) (f : State → Reply) :
    s.frame n f =
      { (f s.begin).1 with mdo := .answer { args := n, status := (f s.begin).2.1, response := (f s.begin).2.2 } } := by
  simp [State.frame, State.begin, h.1, h.2]

/-- In reset a frame is ignored. -/
theorem State.frame_inReset {s : State} (h : s.inReset = true) (n : Nat) (f : State → Reply) : s.frame n f = s.begin := by
  simp [State.frame, State.begin, h]

/-- A frame that reset cut into is ignored, and its end leaves the next one to be taken. -/
theorem State.frame_noFrame {s : State} (h : s.inReset = false) (h' : s.noFrame = true) (n : Nat) (f : State → Reply) :
    s.frame n f = { s.begin with noFrame := false, mdo := .zeros } := by
  simp [State.frame, State.begin, h, h']

/-- A refused command leaves the state as it was, but for the outputs. -/
theorem State.frame_not {s : State} (h : s.Listens) (n : Nat) (f : State → Reply) (status : MStatus)
    (hf : f s.begin = Reply.not s.begin status) : s.frame n f = s.answered n status [] := by
  rw [State.frame_listens h, hf]; rfl

end Sys2Proof.Machine
end

