-- ==== Sys2Proof/Laws/Sound.lean ====
section
/-! SUPPORT. `Sound s t`: from `s` to `t` everything of `State.Ok` is kept. The operations that are no consequence of an action
but a command's own effect are sound: acceptance, grants, acknowledgments, captures, settings, journaling and its end. -/
namespace Sys2Proof.Machine

/-! ## The relation -/

/-- What holds at every moment is kept, the agreement of the Intake Queue by itself. -/
structure Sound (s t : State) : Prop where
  intake : s.IntakeOk → t.IntakeOk
  ok     : s.Ok → t.Ok

theorem Sound.refl (s : State) : Sound s s := ⟨id, id⟩

theorem Sound.trans {s t u : State} (h : Sound s t) (k : Sound t u) : Sound s u :=
  ⟨k.intake ∘ h.intake, k.ok ∘ h.ok⟩

/-- The agreement of the Intake Queue may be used to show that an operation is sound. -/
theorem Sound.of_ok {s t : State} (h : s.IntakeOk → Sound s t) : Sound s t :=
  ⟨fun k => (h k).intake k, fun k => (h k.intake).ok k⟩

theorem Sound.foldl {α : Type} (f : State → α → State) (h : ∀ s a, Sound s (f s a)) (l : List α) (s : State) :
    Sound s (l.foldl f s) := by
  induction l generalizing s with
  | nil => exact Sound.refl s
  | cons a l ih => exact (h s a).trans (ih (f s a))

theorem Within.sound {s t : State} (h : Within s t) : Sound s t where
  intake := h.intake
  ok := fun k =>
    { events := by
        obtain ⟨evs, he⟩ := h.events
        rw [he]
        exact k.events.raiseAll evs
      touched := h.touched k.touched
      pressure := h.pressure k.pressure
      ranges := h.ranges k.ranges
      intake := h.intake k.intake }

/-- What `RangesOk` speaks of is as it was. -/
theorem State.RangesOk.congr {s t : State} (h : s.RangesOk) (he : t.ec = s.ec) (hr : t.re = s.re) (hs : t.su = s.su) :
    t.RangesOk :=
  ⟨by rw [he]; exact h.entries, by rw [he]; exact h.merged, by rw [he]; exact h.retention, by rw [hr]; exact h.applied,
    by rw [hr]; exact h.discarded, by rw [hr]; exact h.failures, by rw [hs]; exact h.quiet⟩

/-- An operation on the Intake Queue, the captures and the D-port alone is sound when it keeps their agreement. -/
theorem Sound.of_intake {s t : State} (h1 : t.eq = s.eq) (h2 : t.cu.touched = s.cu.touched) (h3 : t.jw = s.jw)
    (h4 : t.ec = s.ec) (h5 : t.re = s.re) (h6 : t.su = s.su) (h : s.IntakeOk → t.IntakeOk) : Sound s t where
  intake := h
  ok := fun k =>
    { events := by rw [h1]; exact k.events
      touched := by rw [CaptureUnit.TouchedOk, h2]; exact k.touched
      pressure := by rw [h3]; exact k.pressure
      ranges := k.ranges.congr h4 h5 h6
      intake := h k.intake }

/-- An operation that leaves alone what the agreement speaks of. -/
theorem Sound.of_same {s t : State} (h1 : t.eq = s.eq) (h2 : t.cu = s.cu) (h3 : t.jw = s.jw) (h4 : t.ec = s.ec)
    (h5 : t.re = s.re) (h6 : t.su = s.su) (h7 : t.iq.slots = s.iq.slots) (h8 : t.iq.nextPos = s.iq.nextPos)
    (h9 : t.da.forward = s.da.forward) (h10 : t.da.slots = s.da.slots) : Sound s t :=
  Sound.of_intake h1 (by rw [h2]) h3 h4 h5 h6 (fun k => k.congr h7 h8 h9 (by rw [h2]) h10 (by rw [h3]))

/-- The Epoch Controller changed within its ranges. -/
theorem Sound.ec (s : State) (c : EpochController) (ht : (∀ e ∈ s.ec.table, e.CountsOk) → ∀ e ∈ c.table, e.CountsOk)
    (hm : s.ec.merged ≤ 255 → c.merged ≤ 255)
    (hr : (1 ≤ s.ec.retention ∧ s.ec.retention ≤ 63) → 1 ≤ c.retention ∧ c.retention ≤ 63) :
    Sound s { s with ec := c } where
  intake := fun k => k.congr rfl rfl rfl rfl rfl rfl
  ok := fun k =>
    { events := k.events
      touched := k.touched
      pressure := k.pressure
      ranges := ⟨ht k.ranges.entries, hm k.ranges.merged, hr k.ranges.retention, k.ranges.applied, k.ranges.discarded,
        k.ranges.failures, k.ranges.quiet⟩
      intake := k.intake.congr rfl rfl rfl rfl rfl rfl }

theorem State.begin_sound (s : State) : Sound s s.begin := Sound.of_same rfl rfl rfl rfl rfl rfl rfl rfl rfl rfl

theorem State.respond_sound (s : State) (r : Response) : Sound s (s.respond r) :=
  Sound.of_same rfl rfl rfl rfl rfl rfl rfl rfl rfl rfl

/-! ## Acceptance -/

theorem State.freeSlot?_free {s : State} {q : SlotIx} (h : s.freeSlot? = some q) : ∀ x ∈ s.iq.slots, x.ix ≠ q := by
  have h := List.find?_some h
  simp only [State.slot?, Option.isNone_iff_eq_none, List.find?_eq_none, beq_iff_eq] at h
  exact fun x hx => h x hx

/-- A new record at the tail, WAITING in a slot that was FREE. -/
theorem State.IntakeOk.push {s : State} (k : s.IntakeOk) {x : Slot} (hq : ∀ y ∈ s.iq.slots, y.ix ≠ x.ix)
    (hp : x.pos = s.iq.nextPos) (hw : x.state = .waiting) (hh : x.holdEntry = none)
    (hf : x.outcome = none → s.inRegion x.req.addr = false) : (s.pushSlot x).IntakeOk := by
  have mem : ∀ y, y ∈ (s.pushSlot x).iq.slots ↔ y ∈ s.iq.slots ∨ y = x := by simp
  have old : ∀ y ∈ s.iq.slots, s.Oldest y → (s.pushSlot x).Oldest y := by
    intro y hy ho z hz hg
    rcases (mem z).1 hz with hz | rfl
    · exact ho z hz hg
    · rw [hp]; exact Nat.le_of_lt (k.before y hy)
  constructor
  · simp only [State.pushSlot_iq, List.map_append, List.map_cons, List.map_nil]
    refine List.nodup_append.2 ⟨k.distinct, by simp, ?_⟩
    intro a ha b hb e
    obtain ⟨y, hy, rfl⟩ := List.mem_map.1 ha
    rw [List.mem_singleton.1 hb] at e
    exact hq y hy e
  · simp only [State.pushSlot_iq, List.pairwise_append, List.pairwise_singleton, List.mem_singleton, forall_eq, true_and]
    exact ⟨k.order, fun y hy => by rw [hp]; exact k.before y hy⟩
  · intro y hy
    simp only [State.pushSlot_iq]
    rcases (mem y).1 hy with hy | rfl
    · exact Nat.lt_succ_of_lt (k.before y hy)
    · rw [hp]; exact Nat.lt_succ_self _
  · intro y hy
    rcases (mem y).1 hy with hy | rfl
    · exact k.held y hy
    · simp [hw, hh]
  · intro y hy
    rcases (mem y).1 hy with hy | rfl
    · exact k.decided y hy
    · intro _; exact Or.inl hw
  · intro y hy hst
    rcases (mem y).1 hy with hy | rfl
    · exact old y hy (k.heads y hy hst)
    · simp [hw] at hst
  · intro q hf'
    obtain ⟨y, hy, h1, h2, h3, h4⟩ := k.asked q hf'
    exact ⟨y, (mem y).2 (Or.inl hy), h1, h2, h3, old y hy h4⟩
  · exact k.once
  · intro c hc
    obtain ⟨y, hy, h⟩ := k.records c hc
    exact ⟨y, (mem y).2 (Or.inl hy), h⟩
  · intro y hy hst
    rcases (mem y).1 hy with hy | rfl
    · exact k.capturing y hy hst
    · simp [hw] at hst
  · exact k.recorded
  · intro p c q hs hk
    obtain ⟨hd, y, hy, h⟩ := k.sent p c q hs hk
    exact ⟨hd, y, (mem y).2 (Or.inl hy), h⟩
  · exact k.sentOnce
  · intro y hy hst
    rcases (mem y).1 hy with hy | rfl
    · exact k.issued y hy hst
    · simp [hw] at hst
  · intro y hy hst ho
    rcases (mem y).1 hy with hy | rfl
    · exact k.fenced y hy hst ho
    · exact hf ho

/-- A request that waits and asks for nothing becomes HELD. -/
theorem State.hold_within (s : State) (q : SlotIx)
    (h : s.IntakeOk → s.WaitsUnasked q ∧ ∀ x ∈ s.iq.slots, x.ix = q → x.outcome = none) : Within s (s.hold q) := by
  unfold State.hold
  refine Within.setSlot q (fun _ => rfl) (fun k x hx hq => ?_)
  obtain ⟨⟨hw, hf⟩, ho⟩ := h k
  have hw := hw x hx hq
  have ho := ho x hx hq
  have f := k.fits hx
  constructor
  · simp
  · intro hn; simp [ho] at hn
  · intro hst; simp at hst
  · intro hm; exact absurd (hq ▸ hm) hf
  · have := f.records; rw [hw] at this; simpa using this
  · have := f.sent; rw [hw] at this; simpa using this
  · intro _ _; exact f.fenced (by simp [hw]) ho

/-- A request that waits and asks for nothing is decided HALTED. -/
theorem State.haltSlot_within (s : State) (q : SlotIx) (h : s.IntakeOk → s.WaitsUnasked q) :
    Within s (s.setSlot q (fun z => { z with outcome := some .halted })) :=
  Within.setSlot q (fun _ => rfl) (fun k x hx hq =>
    (k.fits hx).decide rfl ((h k).1 x hx hq) ((h k).1 x hx hq) rfl rfl (by rw [hq]; exact (h k).2))

theorem State.enter_within (s : State) (x : Slot)
    (h : s.IntakeOk → s.WaitsUnasked x.ix ∧ ∀ y ∈ s.iq.slots, y.ix = x.ix → y.outcome = x.outcome) :
    Within s (s.enter x) := by
  unfold State.enter
  split
  · split
    · split
      · exact s.assignWrite_within _
      · exact Within.refl s
    · rename_i ho
      split
      · exact Within.refl s
      · exact s.assignWrite_within _
      · exact s.hold_within _ (fun k => ⟨(h k).1, fun y hy hq => ((h k).2 y hy hq).trans ho⟩)
      · exact s.haltSlot_within _ (fun k => (h k).1)
  · exact Within.refl s

/-- With no decided outcome at acceptance the request lies outside the region (R24). -/
theorem State.classify_fenced (s : State) (r : Request) (h : (s.classify r).2.2 = none) : s.inRegion r.addr = false := by
  cases hr : s.inRegion r.addr with
  | false => rfl
  | true => simp [State.classify, hr] at h

theorem State.accept_sound (s : State) (q : SlotIx) (r : Request) (hq : s.freeSlot? = some q) :
    Sound s (s.accept q r) := by
  have hfree := State.freeSlot?_free hq
  unfold State.accept
  extract_lets t
  have ht : Sound s t := Sound.of_intake rfl rfl rfl rfl rfl rfl (fun k =>
    k.push hfree rfl rfl rfl (fun ho => s.classify_fenced r (by simpa [State.newSlot] using ho)))
  have hu : Sound s (match s.classifyEvent r with | none => t | some ev => t.raise ev) := by
    split
    · exact ht
    · exact ht.trans (State.raise_within _ _).sound
  refine Sound.of_ok (fun k => hu.trans (Within.sound (State.enter_within _ _ (fun k' => ?_))))
  have hm : ∀ y ∈ t.iq.slots, y.ix = (s.newSlot q r).ix → y = s.newSlot q r := by
    intro y hy e
    simp only [t, State.pushSlot_iq, List.mem_append, List.mem_singleton] at hy
    rcases hy with hy | hy
    · exact absurd e (hfree y hy)
    · exact hy
  have hs : (match s.classifyEvent r with | none => t | some ev => t.raise ev).iq.slots = t.iq.slots := by
    split <;> rfl
  have hf : (match s.classifyEvent r with | none => t | some ev => t.raise ev).da.forward = s.da.forward := by
    split <;> rfl
  refine ⟨⟨fun y hy e => ?_, ?_⟩, fun y hy e => ?_⟩
  · rw [hs] at hy; rw [hm y hy e]; rfl
  · rw [hf]
    intro hmem
    obtain ⟨y, hy, h1, _⟩ := k.asked _ hmem
    exact hfree y hy h1
  · rw [hs] at hy; rw [hm y hy e]

theorem State.take_sound (s : State) (q : SlotIx) (r : Request) (hq : s.freeSlot? = some q) : Sound s (s.take q r) := by
  unfold State.take
  split
  · exact s.accept_sound q r hq
  · exact s.respond_sound _

theorem State.takePort_sound (s : State) : Sound s s.takePort := by
  unfold State.takePort
  split
  · rename_i r rest q _ hq
    split
    · exact Sound.refl s
    · have h : Sound s { s with port := rest } := Sound.of_same rfl rfl rfl rfl rfl rfl rfl rfl rfl rfl
      exact h.trans (State.take_sound _ q r hq)
  · exact Sound.refl s

/-! ## What acceptance does to the requests -/

/-- The requests, in their slots, and the U-port's outputs are as they were. -/
def State.SameRequests (s t : State) : Prop :=
  t.iq.slots.map Slot.key = s.iq.slots.map Slot.key ∧ t.uport = s.uport

theorem State.SameRequests.trans {s t u : State} (h : s.SameRequests t) (k : t.SameRequests u) : s.SameRequests u :=
  ⟨k.1.trans h.1, k.2.trans h.2⟩

theorem State.setSlot_requests (s : State) (q : SlotIx) {f : Slot → Slot} (hf : Keyed f) : s.SameRequests (s.setSlot q f) :=
  ⟨(hf.ite q).map_key _, rfl⟩

theorem State.markBroken_requests (s : State) (e : EpochNo) (r : Reason) : s.SameRequests (s.markBroken e r) := by
  obtain ⟨f, hf, hs⟩ := s.markBroken_slots e r
  exact ⟨by rw [hs, hf.keyed.map_key], (s.markBroken_calm e r).uport⟩

theorem State.takeWrite_requests (s : State) (x : Slot) (e : EpochNo) : s.SameRequests (s.takeWrite x e) := by
  have hb : ∀ f, s.SameRequests (s.setBank e f) := by
    intro f
    unfold State.setBank
    split
    · exact ⟨rfl, rfl⟩
    · split <;> exact ⟨rfl, rfl⟩
  unfold State.takeWrite
  split
  · exact ⟨rfl, rfl⟩
  · dsimp only
    split
    · exact (hb _).trans ⟨rfl, rfl⟩
    · exact hb _

theorem State.markWrite_requests (s : State) (x : Slot) (e : Entry) : s.SameRequests (s.markWrite x e) := by
  unfold State.markWrite
  dsimp only
  split
  · exact (s.markBroken_requests _ _).trans (State.setSlot_requests _ _ (fun _ => rfl))
  · split
    · exact s.setSlot_requests _ (fun _ => rfl)
    · unfold State.lookup
      split
      · unfold State.takeDuty
        split
        · exact s.setSlot_requests _ (fun _ => rfl)
        · refine State.SameRequests.trans ?_ (State.setSlot_requests _ _ (fun _ => rfl))
          exact s.setSlot_requests _ (fun _ => rfl)
      · split
        · refine State.SameRequests.trans ?_ (State.setSlot_requests _ _ (fun _ => rfl))
          exact ⟨rfl, rfl⟩
        · have h : s.SameRequests ((s.setEntry e.number (fun y =>
              { y with overflow := satInc Config.overflowMax y.overflow })).setSlot x.ix
              (fun z => { z with marking := some .captureDup })) :=
            State.SameRequests.trans (t := s.setEntry e.number (fun y =>
              { y with overflow := satInc Config.overflowMax y.overflow })) ⟨rfl, rfl⟩
              (State.setSlot_requests _ _ (fun _ => rfl))
          unfold State.overflowLookup
          dsimp only
          split
          · exact h.trans ⟨rfl, rfl⟩
          · exact h

theorem State.assignWrite_requests (s : State) (q : SlotIx) : s.SameRequests (s.assignWrite q) := by
  unfold State.assignWrite
  split
  · rename_i x e _ _
    have h : s.SameRequests (s.setSlot q (fun z => { z with epoch := some e.number })) :=
      s.setSlot_requests q (fun _ => rfl)
    refine State.SameRequests.trans (h.trans ?_) (State.markWrite_requests _ _ _)
    split
    · exact State.takeWrite_requests _ _ _
    · exact ⟨rfl, rfl⟩
  · exact ⟨rfl, rfl⟩

theorem State.enter_requests (s : State) (x : Slot) : s.SameRequests (s.enter x) := by
  unfold State.enter
  split
  · split
    · split
      · exact s.assignWrite_requests _
      · exact ⟨rfl, rfl⟩
    · split
      · exact ⟨rfl, rfl⟩
      · exact s.assignWrite_requests _
      · exact s.setSlot_requests _ (fun _ => rfl)
      · exact s.setSlot_requests _ (fun _ => rfl)
  · exact ⟨rfl, rfl⟩

/-- An accepted request joins the others at the tail, and nothing is answered. -/
theorem State.accept_requests (s : State) (q : SlotIx) (r : Request) :
    (s.accept q r).iq.slots.map Slot.key = s.iq.slots.map Slot.key ++ [(s.newSlot q r).key] ∧
      (s.accept q r).uport = s.uport := by
  unfold State.accept
  extract_lets t
  have h := State.enter_requests (match s.classifyEvent r with | none => t | some ev => t.raise ev) (s.newSlot q r)
  refine ⟨h.1.trans ?_, h.2.trans ?_⟩
  · have hs : (match s.classifyEvent r with | none => t | some ev => t.raise ev).iq = t.iq := by split <;> rfl
    rw [hs]
    simp [t]
  · split <;> rfl

/-! ## Operations that answer in order -/

/-- A sound operation that ends requests only by answering them, each once and in its granule order. -/
structure Steady (s t : State) : Prop where
  sound   : Sound s t
  keys    : s.IntakeOk → (t.iq.slots.map Slot.key).Sublist (s.iq.slots.map Slot.key)
  answers : s.IntakeOk → ∃ gone, AnswersInOrder s t gone

theorem Steady.refl (s : State) : Steady s s :=
  ⟨Sound.refl s, fun _ => List.Sublist.refl _, fun _ => ⟨[], AnswersInOrder.refl s s rfl rfl⟩⟩

theorem Steady.trans {s t u : State} (h : Steady s t) (k : Steady t u) : Steady s u where
  sound := h.sound.trans k.sound
  keys := fun i => (k.keys (h.sound.intake i)).trans (h.keys i)
  answers := fun i => by
    obtain ⟨a, ha⟩ := h.answers i
    obtain ⟨b, hb⟩ := k.answers (h.sound.intake i)
    exact ⟨a ++ b, ha.trans hb (k.keys (h.sound.intake i))⟩

/-- The agreement of the Intake Queue may be used to show that an operation is steady. -/
theorem Steady.of_ok {s t : State} (h : s.IntakeOk → Steady s t) : Steady s t :=
  ⟨Sound.of_ok (fun k => (h k).sound), fun k => (h k).keys k, fun k => (h k).answers k⟩

theorem Within.steady {s t : State} (h : Within s t) : Steady s t :=
  ⟨h.sound, fun _ => h.keys, fun k => (h.answers k).imp (fun _ hg => hg.1)⟩

/-- A sound operation that keeps every request and answers none. -/
theorem Sound.steady {s t : State} (h : Sound s t) (hk : t.iq.slots.map Slot.key = s.iq.slots.map Slot.key)
    (hu : t.uport = s.uport) : Steady s t :=
  ⟨h, fun _ => by simp [hk], fun _ => ⟨[], AnswersInOrder.refl s t hu hk⟩⟩

theorem Steady.of_intake {s t : State} (h1 : t.eq = s.eq) (h2 : t.cu.touched = s.cu.touched) (h3 : t.jw = s.jw)
    (h4 : t.ec = s.ec) (h5 : t.re = s.re) (h6 : t.su = s.su)
    (hk : t.iq.slots.map Slot.key = s.iq.slots.map Slot.key) (hu : t.uport = s.uport)
    (h : s.IntakeOk → t.IntakeOk) : Steady s t :=
  (Sound.of_intake h1 h2 h3 h4 h5 h6 h).steady hk hu

theorem Steady.of_same {s t : State} (h1 : t.eq = s.eq) (h2 : t.cu = s.cu) (h3 : t.jw = s.jw) (h4 : t.ec = s.ec)
    (h5 : t.re = s.re) (h6 : t.su = s.su) (h7 : t.iq.slots = s.iq.slots) (h8 : t.iq.nextPos = s.iq.nextPos)
    (h9 : t.da.forward = s.da.forward) (h10 : t.da.slots = s.da.slots) (h11 : t.uport = s.uport) : Steady s t :=
  (Sound.of_same h1 h2 h3 h4 h5 h6 h7 h8 h9 h10).steady (by rw [h7]) h11

/-- The Epoch Controller changed within its ranges. -/
theorem Steady.ec (s : State) (c : EpochController) (ht : (∀ e ∈ s.ec.table, e.CountsOk) → ∀ e ∈ c.table, e.CountsOk)
    (hm : s.ec.merged ≤ 255 → c.merged ≤ 255)
    (hr : (1 ≤ s.ec.retention ∧ s.ec.retention ≤ 63) → 1 ≤ c.retention ∧ c.retention ≤ 63) :
    Steady s { s with ec := c } :=
  (Sound.ec s c ht hm hr).steady rfl rfl

/-! ## D-port slots -/

theorem slots_set (v : Vector (Option PortSlot) 8) (p q : PortIx) (x : Option PortSlot) :
    (v.set p x)[q] = if q = p then x else v[q] := by
  simp only [Fin.getElem_fin, Vector.getElem_set, Fin.ext_iff, eq_comm]

/-- No forwarded request is on D-port slot `p`. -/
def State.NoForward (s : State) (p : PortIx) : Prop := ∀ k, s.da.slots[p] = some k → k.kind.forwardOwner? = none

/-- A D-port slot with no forwarded request changed to one with none. -/
theorem State.IntakeOk.setPort {s t : State} (k : s.IntakeOk) {p : PortIx} {v : Option PortSlot}
    (hp : s.NoForward p) (hv : ∀ k, v = some k → k.kind.forwardOwner? = none)
    (hs : t.iq.slots = s.iq.slots) (hn : t.iq.nextPos = s.iq.nextPos) (hf : t.da.forward = s.da.forward)
    (hc : t.cu.captures = s.cu.captures) (ht : t.da.slots = s.da.slots.set p v) (hr : t.jw.region = s.jw.region) :
    t.IntakeOk := by
  have fwd : ∀ (p' : PortIx) (c : PortSlot) (q : SlotIx), c.kind.forwardOwner? = some q →
      (t.da.slots[p'] = some c ↔ s.da.slots[p'] = some c) := by
    intro p' c q hq
    rw [ht, slots_set]
    by_cases e : p' = p
    · subst e
      simp only [if_true]
      constructor
      · intro h; rw [hv c h] at hq; simp at hq
      · intro h; rw [hp c h] at hq; simp at hq
    · simp [e]
  have base : State.IntakeOk { s with da := { s.da with slots := t.da.slots } } :=
    { distinct := k.distinct, order := k.order, before := k.before, held := k.held, decided := k.decided
      heads := k.heads, asked := k.asked, once := k.once, records := k.records, capturing := k.capturing
      recorded := k.recorded
      sent := fun p' c q h hq => k.sent p' c q ((fwd p' c q hq).1 h) hq
      sentOnce := fun p1 p2 c1 c2 q h1 h2 hq1 hq2 =>
        k.sentOnce p1 p2 c1 c2 q ((fwd p1 c1 q hq1).1 h1) ((fwd p2 c2 q hq2).1 h2) hq1 hq2
      issued := fun x hx hst => by
        obtain ⟨p', c, h, hq⟩ := k.issued x hx hst
        exact ⟨p', c, (fwd p' c _ hq).2 h, hq⟩
      fenced := k.fenced }
  exact base.congr hs hn hf hc rfl hr

/-- D-port slot `p`, which holds no forwarded request, becomes FREE. -/
theorem State.freePort_steady (s : State) (p : PortIx) (h : s.IntakeOk → s.NoForward p) : Steady s (s.freePort p) :=
  Steady.of_intake rfl rfl rfl rfl rfl rfl rfl rfl (fun k => k.setPort (h k) (by simp) rfl rfl rfl rfl rfl rfl)

/-- A flagged request is no forwarded one (R172). -/
theorem State.IntakeOk.noForward_flagged {s : State} (k : s.IntakeOk) {p : PortIx} {c : PortSlot}
    (h : s.da.slots[p] = some c) (hd : c.discard = true) : s.NoForward p := by
  intro c' h'
  rw [h] at h'
  cases h'
  cases hq : c.kind.forwardOwner? with
  | none => rfl
  | some q => have := (k.sent p c q h hq).1; rw [hd] at this; simp at this

theorem State.noForward_of_kind {s : State} {p : PortIx} {c : PortSlot} (h : s.da.slots[p] = some c)
    (hk : c.kind.forwardOwner? = none) : s.NoForward p := by
  intro c' h'
  rw [h] at h'
  cases h'
  exact hk

theorem State.noForward_of_free {s : State} {p : PortIx} (h : s.da.slots[p] = none) : s.NoForward p := by
  intro c hc; rw [h] at hc; simp at hc

theorem State.releaseRecords_within (s : State) : Within s s.releaseRecords := by
  unfold State.releaseRecords
  split
  · exact Within.refl s
  · exact Within.da s _ rfl rfl rfl

theorem State.dropAck_steady (s : State) (p : PortIx) (h : s.IntakeOk → s.NoForward p) : Steady s (s.dropAck p) :=
  (s.freePort_steady p h).trans (State.releaseRecords_within _).steady

/-- A request of the capture path, the seal writer or the rollback engine is sent on a FREE slot. -/
theorem State.send_steady (s : State) (p : PortIx) (kind : PortKind) (r : PortReq) (h : s.NoForward p)
    (hk : kind.forwardOwner? = none) : Steady s (s.send p kind r) :=
  Steady.of_intake rfl rfl rfl rfl rfl rfl rfl rfl (fun k =>
    k.setPort h (fun c hc => by cases hc; exact hk) rfl rfl rfl rfl rfl rfl)

/-! ## Grants -/

theorem State.waitsUnasked_withdraw {s : State} (k : s.IntakeOk) {q : SlotIx} (hq : q ∈ s.da.forward) :
    (s.withdraw q).WaitsUnasked q := by
  refine ⟨fun y hy e => ?_, s.not_mem_withdraw q⟩
  obtain ⟨z, hz, h1, h2, _⟩ := k.asked _ hq
  have hy : y ∈ s.iq.slots := hy
  rw [k.unique hy hz (e.trans h1.symm)]
  exact h2

theorem State.pruneForward_within (qs : List SlotIx) (s : State) (k : s.IntakeOk) (h : ∀ q ∈ qs, q ∈ s.da.forward)
    (hn : qs.Nodup) : Within s (State.pruneForward qs s) := by
  induction qs generalizing s with
  | nil => exact Within.refl s
  | cons q rest ih =>
    have next : ∀ t : State, t.da.forward = (s.withdraw q).da.forward → Within s t →
        Within s (State.pruneForward rest t) := by
      intro t ht hw
      refine hw.trans (ih t (hw.intake k) (fun q' hq' => ?_) (List.nodup_cons.1 hn).2)
      rw [ht, State.withdraw_da, List.mem_filter]
      refine ⟨h q' (List.mem_cons_of_mem _ hq'), ?_⟩
      have : q' ≠ q := fun e => (List.nodup_cons.1 hn).1 (e ▸ hq')
      simpa using this
    unfold State.pruneForward
    split
    · exact next _ rfl (s.withdraw_within q)
    · rename_i x hx
      split
      · refine next _ rfl ((s.withdraw_within q).trans (State.decideTripped_within _ x (fun _ => ?_)))
        rw [(State.mem_of_slot? hx).2]
        exact State.waitsUnasked_withdraw k (h q List.mem_cons_self)
      · exact Within.refl s

theorem State.prune_within (s : State) (c : Claimant) (k : s.IntakeOk) : Within s (s.prune c) := by
  unfold State.prune
  split
  · exact State.pruneForward_within _ s k (fun _ h => h) k.once
  all_goals exact Within.refl s

theorem forwardKind_owner (x : Slot) : (forwardKind x).forwardOwner? = some x.ix := by
  unfold forwardKind
  split <;> rfl

/-- A request in front of the forward path's list is sent on a FREE slot. -/
theorem State.sendForward_steady (s : State) (p : PortIx) (x : Slot) (hp : s.da.slots[p] = none)
    (hx : x ∈ s.iq.slots) (hq : x.ix ∈ s.da.forward) : Steady s (s.sendForward p x) := by
  refine Steady.of_intake rfl rfl rfl rfl rfl rfl
    ((Keyed.ite (f := fun y => { y with state := .issued }) (fun _ => rfl) x.ix).map_key s.iq.slots) rfl (fun k => ?_)
  obtain ⟨z, hz, h1, hw, hn, ho⟩ := k.asked _ hq
  obtain rfl := k.unique hz hx h1
  have kf : Keyed (fun y : Slot => if y.ix == z.ix then { y with state := .issued } else y) :=
    Keyed.ite (f := fun y => { y with state := .issued }) (fun _ => rfl) z.ix
  have slots : (s.sendForward p z).iq.slots =
      s.iq.slots.map (fun y => if y.ix == z.ix then { y with state := .issued } else y) := rfl
  have fwd : (s.sendForward p z).da.forward = s.da.forward.filter (fun y => y != z.ix) := rfl
  have ports : ∀ p' : PortIx, (s.sendForward p z).da.slots[p'] =
      if p' = p then some { kind := forwardKind z, discard := false } else s.da.slots[p'] := fun p' => slots_set _ p p' _
  have mem : ∀ y, y ∈ (s.sendForward p z).iq.slots ↔
      ∃ w ∈ s.iq.slots, (if w.ix == z.ix then { w with state := .issued } else w) = y := by simp [slots]
  have old : ∀ w : Slot, s.Oldest w → (s.sendForward p z).Oldest w := by
    intro w hw' y hy hg
    obtain ⟨v, hv, rfl⟩ := (mem y).1 hy
    rw [Slot.pos_of_key (kf v)]
    exact hw' v hv ((Slot.granule_of_key (kf v)).symm.trans hg)
  have other : ∀ {w : Slot}, w ∈ s.iq.slots → w.ix ≠ z.ix → w ∈ (s.sendForward p z).iq.slots :=
    fun {w} hw' hne => (mem w).2 ⟨w, hw', by simp [hne]⟩
  have it : { z with state := .issued } ∈ (s.sendForward p z).iq.slots := (mem _).2 ⟨z, hz, by simp⟩
  have cases : ∀ {y : Slot}, y ∈ (s.sendForward p z).iq.slots →
      y = { z with state := .issued } ∨ (y ∈ s.iq.slots ∧ y.ix ≠ z.ix) := by
    intro y hy
    obtain ⟨w, hw', rfl⟩ := (mem y).1 hy
    by_cases e : w.ix = z.ix
    · rw [k.unique hw' hz e]; simp
    · simp [e, hw']
  have notSent : ∀ (p' : PortIx) (c : PortSlot), s.da.slots[p'] = some c → c.kind.forwardOwner? ≠ some z.ix := by
    intro p' c hc e
    obtain ⟨_, w, hw', h3, h4⟩ := k.sent p' c _ hc e
    rw [k.unique hw' hz h3, hw] at h4
    simp at h4
  have hold : z.holdEntry = none := by
    have := (k.fits hz).held
    simpa [hw] using this
  constructor
  · rw [slots, kf.map_ix]; exact k.distinct
  · rw [slots, List.pairwise_map]
    exact k.order.imp (fun {a b} hab => by rwa [Slot.pos_of_key (kf a), Slot.pos_of_key (kf b)])
  · intro y hy
    obtain ⟨w, hw', rfl⟩ := (mem y).1 hy
    rw [Slot.pos_of_key (kf w)]; exact k.before w hw'
  · intro y hy
    rcases cases hy with rfl | ⟨hy, _⟩
    · simp [hold]
    · exact k.held y hy
  · intro y hy
    rcases cases hy with rfl | ⟨hy, _⟩
    · intro h; simp [hn] at h
    · exact k.decided y hy
  · intro y hy hst
    rcases cases hy with rfl | ⟨hy, _⟩
    · exact old _ ((State.oldest_of_key rfl).1 ho)
    · exact old _ (k.heads y hy hst)
  · intro q hq'
    rw [fwd, List.mem_filter] at hq'
    obtain ⟨w, hw', h3, h4, h5, h6⟩ := k.asked q hq'.1
    have hne : w.ix ≠ z.ix := by rw [h3]; simpa using hq'.2
    exact ⟨w, other hw' hne, h3, h4, h5, old w h6⟩
  · rw [fwd]; exact k.once.filter _
  · intro c hc
    obtain ⟨w, hw', h3, h4⟩ := k.records c hc
    have hne : w.ix ≠ z.ix := fun e => by rw [k.unique hw' hz e, hw] at h4; simp at h4
    exact ⟨w, other hw' hne, h3, h4⟩
  · intro y hy hst
    rcases cases hy with rfl | ⟨hy, _⟩
    · simp at hst
    · exact k.capturing y hy hst
  · exact k.recorded
  · intro p' c q hc ho'
    rw [ports] at hc
    by_cases e : p' = p
    · rw [if_pos e] at hc
      cases hc
      rw [forwardKind_owner] at ho'
      cases ho'
      exact ⟨rfl, _, it, rfl, rfl⟩
    · rw [if_neg e] at hc
      obtain ⟨hd, w, hw', h3, h4⟩ := k.sent p' c q hc ho'
      have hne : w.ix ≠ z.ix := fun e' => notSent p' c hc (by rw [← e', h3]; exact ho')
      exact ⟨hd, w, other hw' hne, h3, h4⟩
  · intro p1 p2 c1 c2 q hc1 hc2 h1' h2'
    rw [ports] at hc1 hc2
    by_cases e1 : p1 = p <;> by_cases e2 : p2 = p
    · rw [e1, e2]
    · rw [if_pos e1] at hc1; rw [if_neg e2] at hc2
      cases hc1
      rw [forwardKind_owner] at h1'
      exact absurd (h2'.trans h1'.symm) (notSent p2 c2 hc2)
    · rw [if_neg e1] at hc1; rw [if_pos e2] at hc2
      cases hc2
      rw [forwardKind_owner] at h2'
      exact absurd (h1'.trans h2'.symm) (notSent p1 c1 hc1)
    · rw [if_neg e1] at hc1; rw [if_neg e2] at hc2
      exact k.sentOnce p1 p2 c1 c2 q hc1 hc2 h1' h2'
  · intro y hy hst
    rcases cases hy with rfl | ⟨hy, _⟩
    · exact ⟨p, _, by rw [ports, if_pos rfl], forwardKind_owner z⟩
    · obtain ⟨p', c, hc, ho'⟩ := k.issued y hy hst
      refine ⟨p', c, ?_, ho'⟩
      rw [ports, if_neg (fun e => by rw [e, hp] at hc; simp at hc)]
      exact hc
  · intro y hy hst hno
    rcases cases hy with rfl | ⟨hy, _⟩
    · simp at hst
    · exact k.fenced y hy hst hno

/-! ## Capture records changed in place -/

/-- A change of a capture record that leaves its slot's number. -/
theorem State.setCapture_within (s : State) (q : SlotIx) {f : Capture → Capture} (hf : ∀ c, (f c).slot = c.slot) :
    Within s (s.setCapture q f) := by
  have hm : (s.setCapture q f).cu.captures.map (·.slot) = s.cu.captures.map (·.slot) := by
    simp only [State.setCapture, List.map_map]
    refine List.map_congr_left (fun c _ => ?_)
    simp only [Function.comp]
    split
    · exact hf c
    · rfl
  refine
    { keeps := by constructor <;> rfl
      events := ⟨[], rfl⟩
      keys := List.Sublist.refl _
      touched := id
      pressure := id
      ranges := fun k => ⟨k.entries, k.merged, k.retention, k.applied, k.discarded, k.failures, k.quiet⟩
      intake := fun k =>
        { distinct := k.distinct, order := k.order, before := k.before, held := k.held, decided := k.decided
          heads := k.heads, asked := k.asked, once := k.once
          records := fun c hc => ?_
          capturing := fun x hx hst => ?_
          recorded := by rw [hm]; exact k.recorded
          sent := k.sent, sentOnce := k.sentOnce, issued := k.issued, fenced := k.fenced }
      answers := fun _ => ⟨[], AnswersInOrder.refl _ _ rfl rfl, by simp⟩ }
  · have : c.slot ∈ s.cu.captures.map (·.slot) := by rw [← hm]; exact List.mem_map_of_mem hc
    obtain ⟨d, hd, e⟩ := List.mem_map.1 this
    obtain ⟨x, hx, h1, h2⟩ := k.records d hd
    exact ⟨x, hx, h1.trans e, h2⟩
  · obtain ⟨d, hd, e⟩ := k.capturing x hx hst
    have : d.slot ∈ (s.setCapture q f).cu.captures.map (·.slot) := by rw [hm]; exact List.mem_map_of_mem hd
    obtain ⟨c, hc, e'⟩ := List.mem_map.1 this
    exact ⟨c, hc, e'.trans e⟩

theorem State.sendCapture_steady {s t : State} {p : PortIx} {r : CaptureReq} (h : s.NoForward p)
    (ht : s.sendCapture p r = some t) : Steady s t := by
  unfold State.sendCapture at ht
  split at ht
  all_goals
    simp only [Option.map_eq_some_iff] at ht
    obtain ⟨c, _, rfl⟩ := ht
    refine Steady.trans ?_ (State.send_steady (State.setCapture s _ _) p _ _ h rfl)
    refine Within.steady ?_
    apply State.setCapture_within
    intro _; rfl

theorem State.sendRecord_steady {s t : State} {p : PortIx} {w : RecordReq} (h : s.NoForward p)
    (ht : s.sendRecord p w = some t) : Steady s t := by
  unfold State.sendRecord at ht
  split at ht
  · cases ht; exact State.send_steady _ p _ _ h rfl
  · cases ht; exact State.send_steady _ p _ _ h rfl
  · split at ht
    · simp at ht
    · cases ht; exact State.send_steady _ p _ _ h rfl

theorem State.sendWalk_steady (s : State) (p : PortIx) (w : WalkReq) (h : s.NoForward p) : Steady s (s.sendWalk p w) := by
  unfold State.sendWalk
  split
  · exact State.send_steady _ p _ _ h rfl
  · exact (Within.re s { s.re with reach := s.reachOnSend } id id id).steady.trans (State.send_steady _ p _ _ h rfl)

theorem State.grantTo_steady {s t : State} {p : PortIx} {c : Claimant} (hp : s.da.slots[p] = none)
    (ht : s.grantTo p c = some t) : Steady s t := by
  have hf := State.noForward_of_free hp
  unfold State.grantTo at ht
  split at ht
  · split at ht
    · simp at ht
    · rename_i q rest hq
      simp only [Option.map_eq_some_iff] at ht
      obtain ⟨x, hx, rfl⟩ := ht
      refine s.sendForward_steady p x hp (State.mem_of_slot? hx).1 ?_
      rw [(State.mem_of_slot? hx).2, hq]
      exact List.mem_cons_self
  · split at ht
    · simp at ht
    · rename_i r rest _
      exact (Within.da s { s.da with capture := rest } rfl rfl rfl).steady.trans (State.sendCapture_steady hf ht)
  · split at ht
    · simp at ht
    · rename_i w rest _
      exact (Within.da s { s.da with sealWriter := rest } rfl rfl rfl).steady.trans (State.sendRecord_steady hf ht)
  · split at ht
    · simp at ht
    · rename_i w _
      split at ht
      · simp at ht
      cases ht
      exact (Within.da s { s.da with rollback := none } rfl rfl rfl).steady.trans (State.sendWalk_steady _ p w hf)

/-- A grant, with the withdrawals made on the way to it. -/
theorem State.grantAlong_steady (p : PortIx) (cs : List Claimant) (s : State) (hp : s.da.slots[p] = none) :
    Steady s (State.grantAlong p cs s) := by
  induction cs generalizing s with
  | nil => exact Steady.refl s
  | cons c rest ih =>
    refine Steady.of_ok (fun k => ?_)
    have hw := s.prune_within c k
    have hp' : (s.prune c).da.slots[p] = none := by rw [hw.keeps.ports]; exact hp
    unfold State.grantAlong
    split
    · rename_i t ht
      exact (hw.steady.trans (State.grantTo_steady hp' ht)).trans
        (Steady.of_same rfl rfl rfl rfl rfl rfl rfl rfl rfl rfl rfl)
    · exact hw.steady.trans (ih _ hp')

/-! ## The acknowledgment of a forwarded request -/

theorem State.answerIssued_intake {s t : State} (k : s.IntakeOk) {p : PortIx} {c : PortSlot} {x : Slot}
    (hc : s.da.slots[p] = some c) (ho : c.kind.forwardOwner? = some x.ix) (hx : x ∈ s.iq.slots)
    (hs : t.iq.slots = s.iq.slots.filter (fun y => y.ix != x.ix)) (hn : t.iq.nextPos = s.iq.nextPos)
    (hf : t.da.forward = s.da.forward) (hcap : t.cu.captures = s.cu.captures)
    (hp : t.da.slots = s.da.slots.set p none) (hr : t.jw.region = s.jw.region) : t.IntakeOk := by
  have hst : x.state = .issued := by
    obtain ⟨_, y, hy, h1, h2⟩ := k.sent p c _ hc ho
    rw [k.unique hx hy h1.symm]; exact h2
  have mem : ∀ y, y ∈ t.iq.slots ↔ y ∈ s.iq.slots ∧ y.ix ≠ x.ix := by simp [hs]
  have sub : t.iq.slots.Sublist s.iq.slots := by rw [hs]; exact List.filter_sublist
  have old : ∀ y, s.Oldest y → t.Oldest y := fun y hy z hz hg => hy z ((mem z).1 hz).1 hg
  have stays : ∀ y ∈ s.iq.slots, y.state ≠ .issued → y ∈ t.iq.slots := by
    intro y hy hne
    refine (mem y).2 ⟨hy, fun e => hne ?_⟩
    rw [k.unique hy hx e]; exact hst
  have ports : ∀ p' : PortIx, t.da.slots[p'] = if p' = p then none else s.da.slots[p'] := by
    intro p'; rw [hp, slots_set]
  have port : ∀ {p' : PortIx} {d : PortSlot}, t.da.slots[p'] = some d → p' ≠ p ∧ s.da.slots[p'] = some d := by
    intro p' d h
    rw [ports] at h
    by_cases e : p' = p
    · rw [if_pos e] at h; simp at h
    · rw [if_neg e] at h; exact ⟨e, h⟩
  constructor
  · exact k.distinct.sublist (sub.map _)
  · exact k.order.sublist sub
  · intro y hy; rw [hn]; exact k.before y ((mem y).1 hy).1
  · intro y hy; exact k.held y ((mem y).1 hy).1
  · intro y hy; exact k.decided y ((mem y).1 hy).1
  · intro y hy h; exact old y (k.heads y ((mem y).1 hy).1 h)
  · intro q hq
    rw [hf] at hq
    obtain ⟨y, hy, h1, h2, h3, h4⟩ := k.asked q hq
    exact ⟨y, stays y hy (by simp [h2]), h1, h2, h3, old y h4⟩
  · rw [hf]; exact k.once
  · intro d hd
    rw [hcap] at hd
    obtain ⟨y, hy, h1, h2⟩ := k.records d hd
    exact ⟨y, stays y hy (by simp [h2]), h1, h2⟩
  · intro y hy h
    rw [hcap]
    exact k.capturing y ((mem y).1 hy).1 h
  · rw [hcap]; exact k.recorded
  · intro p' d q hd hq
    obtain ⟨hne, hd⟩ := port hd
    obtain ⟨h0, y, hy, h1, h2⟩ := k.sent p' d q hd hq
    refine ⟨h0, y, (mem y).2 ⟨hy, fun e => hne ?_⟩, h1, h2⟩
    exact k.sentOnce p' p d c q hd hc hq (by rw [← h1, e]; exact ho)
  · intro p1 p2 c1 c2 q h1 h2 h3 h4
    exact k.sentOnce p1 p2 c1 c2 q (port h1).2 (port h2).2 h3 h4
  · intro y hy h
    obtain ⟨p', d, hd, hq⟩ := k.issued y ((mem y).1 hy).1 h
    refine ⟨p', d, ?_, hq⟩
    rw [ports, if_neg]
    · exact hd
    · intro e
      rw [e, hc] at hd
      cases hd
      rw [ho] at hq
      exact ((mem y).1 hy).2 (Option.some.inj hq).symm
  · intro y hy h h'
    have : t.inRegion y.req.addr = s.inRegion y.req.addr := by simp [State.inRegion, hr]
    rw [this]
    exact k.fenced y ((mem y).1 hy).1 h h'

theorem State.setBank_freePort (s : State) (p : PortIx) (e : EpochNo) (f : Bank → Bank) :
    (s.setBank e f).iq = s.iq ∧ (s.setBank e f).da = s.da ∧
      (s.freePort p).setBank e f = (s.setBank e f).freePort p := by
  simp only [State.setBank, State.freePort_su]
  by_cases h1 : s.su.openBank.epoch = some e
  · simp only [h1, if_true]; exact ⟨trivial, trivial, rfl⟩
  · by_cases h2 : s.su.sealingBank.epoch = some e
    · simp only [h1, h2, if_true, if_false]; exact ⟨trivial, trivial, rfl⟩
    · simp only [h1, h2, if_false]; exact ⟨trivial, trivial, trivial⟩

/-- The master of a forwarded request is answered, and its D-port slot becomes FREE. -/
theorem State.ackForward_steady (s : State) (p : PortIx) (x : Slot) (res : AckResult) {c : PortSlot}
    (hc : s.da.slots[p] = some c) (ho : c.kind.forwardOwner? = some x.ix) (hx : x ∈ s.iq.slots) :
    Steady s (s.ackForward p x res) := by
  have one : ∀ (u : State) (status : Status) (data : List Byte), u.iq = s.iq → u.da = s.da →
      Steady u ((u.freePort p).answer x status data) := fun u status data hi hd =>
    { sound := Sound.of_intake rfl rfl rfl rfl rfl rfl (fun k =>
        State.answerIssued_intake k (by rw [hd]; exact hc) ho (by rw [hi]; exact hx) rfl rfl rfl rfl rfl rfl)
      keys := fun _ => List.filter_sublist.map _
      answers := fun k => by
        have hxu : x ∈ u.iq.slots := by rw [hi]; exact hx
        have hst : x.state = .issued := by
          obtain ⟨_, y, hy, h1, h2⟩ := k.sent p c _ (by rw [hd]; exact hc) ho
          rw [k.unique hxu hy h1.symm]; exact h2
        have ha := k.answersOne hxu rfl (k.heads x hxu (Or.inr hst)) status data
        exact ⟨_, ha.responses, ha.once, ha.inOrder, ha.ahead⟩ }
  unfold State.ackForward
  extract_lets t
  split
  · exact one s _ _ rfl rfl
  · have hi : (s.feed x).iq = s.iq ∧ (s.feed x).da = s.da ∧ t.feed x = (s.feed x).freePort p := by
      simp only [t, State.feed]
      split
      · rename_i e i _ _ _
        have hb := State.setBank_freePort s p e (fun b => b.update i (BankEntry.feed x.req))
        rw [hb.2.2]
        exact ⟨hb.1, hb.2.1, rfl⟩
      · exact ⟨rfl, rfl, rfl⟩
    rw [hi.2.2]
    exact (s.feed_within x).steady.trans (one (s.feed x) _ _ hi.1 hi.2.1)
  · exact (one s _ _ rfl rfl).trans (State.raise_within _ _).steady

/-! ## Records, captures and the D-port changed together -/

/-- The agreement holds of a state whose records are those of `s` changed in place, when each fits and the lists speak of
occupied slots only. -/
theorem State.IntakeOk.rebuild {s t : State} (k : s.IntakeOk) {f : Slot → Slot} (hk : Keyed f)
    (hs : t.iq.slots = s.iq.slots.map f) (hn : t.iq.nextPos = s.iq.nextPos)
    (fits : ∀ x ∈ s.iq.slots, FitsSlot t (f x))
    (asked : ∀ q ∈ t.da.forward, ∃ x ∈ s.iq.slots, x.ix = q ∧ s.Oldest x) (once : t.da.forward.Nodup)
    (records : ∀ c ∈ t.cu.captures, ∃ x ∈ s.iq.slots, x.ix = c.slot) (recorded : (t.cu.captures.map (·.slot)).Nodup)
    (sent : ∀ (p : PortIx) (c : PortSlot) (q : SlotIx), t.da.slots[p] = some c → c.kind.forwardOwner? = some q →
      c.discard = false ∧ ∃ x ∈ s.iq.slots, x.ix = q)
    (sentOnce : ∀ (p p' : PortIx) (c c' : PortSlot) (q : SlotIx), t.da.slots[p] = some c → t.da.slots[p'] = some c' →
      c.kind.forwardOwner? = some q → c'.kind.forwardOwner? = some q → p = p') : t.IntakeOk := by
  have mem : ∀ y, y ∈ t.iq.slots ↔ ∃ x ∈ s.iq.slots, f x = y := by simp [hs]
  have old : ∀ x, s.Oldest x → t.Oldest (f x) := by
    intro x hx y hy hg
    obtain ⟨w, hw, rfl⟩ := (mem y).1 hy
    rw [Slot.pos_of_key (hk w), Slot.pos_of_key (hk x)]
    exact hx w hw (by rw [← Slot.granule_of_key (hk w), hg, Slot.granule_of_key (hk x)])
  have ixf : ∀ x, (f x).ix = x.ix := fun x => Slot.ix_of_key (hk x)
  constructor
  · rw [hs, hk.map_ix]; exact k.distinct
  · rw [hs, List.pairwise_map]
    exact k.order.imp (fun {a b} hab => by rwa [Slot.pos_of_key (hk a), Slot.pos_of_key (hk b)])
  · intro y hy
    obtain ⟨x, hx, rfl⟩ := (mem y).1 hy
    rw [Slot.pos_of_key (hk x), hn]; exact k.before x hx
  · intro y hy; obtain ⟨x, hx, rfl⟩ := (mem y).1 hy; exact (fits x hx).held
  · intro y hy; obtain ⟨x, hx, rfl⟩ := (mem y).1 hy; exact (fits x hx).decided
  · intro y hy; obtain ⟨x, hx, rfl⟩ := (mem y).1 hy; exact (fits x hx).head
  · intro q hq
    obtain ⟨x, hx, h1, h2⟩ := asked q hq
    have := (fits x hx).asked (by rw [ixf, h1]; exact hq)
    exact ⟨f x, (mem _).2 ⟨x, hx, rfl⟩, by rw [ixf, h1], this.1, this.2, old x h2⟩
  · exact once
  · intro c hc
    obtain ⟨x, hx, h1⟩ := records c hc
    exact ⟨f x, (mem _).2 ⟨x, hx, rfl⟩, by rw [ixf, h1], ((fits x hx).records).1 ⟨c, hc, by rw [ixf, h1]⟩⟩
  · intro y hy hst; obtain ⟨x, hx, rfl⟩ := (mem y).1 hy; exact ((fits x hx).records).2 hst
  · exact recorded
  · intro p c q hc hq
    obtain ⟨hd, x, hx, h1⟩ := sent p c q hc hq
    exact ⟨hd, f x, (mem _).2 ⟨x, hx, rfl⟩, by rw [ixf, h1], ((fits x hx).sent).1 ⟨p, c, hc, by rw [ixf, h1]; exact hq⟩⟩
  · exact sentOnce
  · intro y hy hst; obtain ⟨x, hx, rfl⟩ := (mem y).1 hy; exact ((fits x hx).sent).2 hst
  · intro y hy; obtain ⟨x, hx, rfl⟩ := (mem y).1 hy; exact (fits x hx).fenced

/-! ## The end of a capture -/

/-- The record of slot `q` is removed and its slot waits, its capture ended. -/
def State.leaveCapture (s : State) (q : SlotIx) : State :=
  (s.dropCapture q).setSlot q (fun z => { z with state := .waiting, captureEnded := true })

theorem State.capturingSlot {s : State} (k : s.IntakeOk) {q : SlotIx} {c : Capture} (hc : s.capture? q = some c) :
    ∃ x ∈ s.iq.slots, x.ix = q ∧ x.state = .capturing := by
  obtain ⟨x, hx, h1, h2⟩ := k.records c (List.mem_of_find?_eq_some hc)
  have := List.find?_some hc
  exact ⟨x, hx, h1.trans (by simpa using this), h2⟩

theorem State.leaveCapture_steady (s : State) (q : SlotIx) {c : Capture} (hc : s.capture? q = some c) :
    Steady s (s.leaveCapture q) := by
  refine Steady.of_intake rfl rfl rfl rfl rfl rfl
    ((Keyed.ite (f := fun z => { z with state := .waiting, captureEnded := true }) (fun _ => rfl) q).map_key s.iq.slots)
    rfl (fun k => ?_)
  obtain ⟨x, hx, hxq, hxs⟩ := State.capturingSlot k hc
  have hk : Keyed (fun z : Slot => if z.ix == q then { z with state := .waiting, captureEnded := true } else z) :=
    Keyed.ite (f := fun z => { z with state := .waiting, captureEnded := true }) (fun _ => rfl) q
  have caps : (s.leaveCapture q).cu.captures = s.cu.captures.filter (fun d => d.slot != q) := rfl
  have arb : (s.leaveCapture q).da = s.da := rfl
  have mem : ∀ y, y ∈ (s.leaveCapture q).iq.slots ↔ ∃ z ∈ s.iq.slots,
      (if z.ix == q then { z with state := .waiting, captureEnded := true } else z) = y := by
    simp [State.leaveCapture, State.dropCapture]
  have old : ∀ y, s.Oldest y → (s.leaveCapture q).Oldest y := by
    intro y hy z hz hg
    obtain ⟨v, hv, rfl⟩ := (mem z).1 hz
    rw [Slot.pos_of_key (hk v)]
    exact hy v hv ((Slot.granule_of_key (hk v)).symm.trans hg)
  refine k.rebuild hk rfl rfl (fun z hz => ?_) (fun p hp => ?_) k.once (fun d hd => ?_) ?_ (fun p d r hd hr => ?_) k.sentOnce
  · have fz := k.fits hz
    by_cases e : z.ix = q
    · obtain rfl := k.unique hz hx (e.trans hxq.symm)
      simp only [e, beq_self_eq_true, if_true]
      constructor
      · have := fz.held; simpa [hxs] using this
      · intro _; exact Or.inl rfl
      · intro h; simp at h
      · intro h; have := (fz.asked (by simpa [e, arb] using h)).1; rw [hxs] at this; simp at this
      · simp [caps]
      · have := fz.sent; rw [hxs] at this; simpa [e, arb] using this
      · intro _ hn; exact fz.fenced (by simp [hxs]) hn
    · have hne : (z.ix == q) = false := by simpa using e
      simp only [hne, Bool.false_eq_true, if_false]
      refine ⟨fz.held, fz.decided, fun h => old z (fz.head h), fz.asked, ?_, fz.sent, fz.fenced⟩
      rw [← fz.records, caps]
      constructor
      · rintro ⟨d, hd, h⟩; exact ⟨d, (List.mem_filter.1 hd).1, h⟩
      · rintro ⟨d, hd, h⟩; exact ⟨d, List.mem_filter.2 ⟨hd, by rw [h]; simpa using e⟩, h⟩
  · obtain ⟨y, hy, h1, _, _, h4⟩ := k.asked p hp
    exact ⟨y, hy, h1, h4⟩
  · rw [caps] at hd
    obtain ⟨y, hy, h1, _⟩ := k.records d (List.mem_filter.1 hd).1
    exact ⟨y, hy, h1⟩
  · rw [caps]; exact k.recorded.sublist (List.filter_sublist.map _)
  · obtain ⟨hd', y, hy, h1, _⟩ := k.sent p d r hd hr
    exact ⟨hd', y, hy, h1⟩

/-- The capture of slot `q`, whose record there is, ends. -/
theorem State.endCapture_steady (s : State) (q : SlotIx) {c : Capture} (hc : s.capture? q = some c) :
    Steady s (s.endCapture q) := by
  refine Steady.of_ok (fun k => ?_)
  have hl := s.leaveCapture_steady q hc
  obtain ⟨x, hx, hxq, hxs⟩ := State.capturingSlot k hc
  have hf : q ∉ s.da.forward := by
    intro h
    obtain ⟨y, hy, h1, h2, _⟩ := k.asked q h
    rw [k.unique hy hx (h1.trans hxq.symm), hxs] at h2
    simp at h2
  have ho : s.Oldest x := k.heads x hx (Or.inl hxs)
  unfold State.endCapture
  show Steady s (match (s.leaveCapture q).slot? q with | none => s.leaveCapture q | some x => (s.leaveCapture q).proceed x)
  split
  · exact hl
  · rename_i y hy
    have k' := hl.sound.intake k
    obtain ⟨hym, hyq⟩ := State.mem_of_slot? hy
    have hyx : y = { x with state := .waiting, captureEnded := true } := by
      refine k'.unique hym ?_ (by rw [hyq, ← hxq])
      simp only [State.leaveCapture, State.setSlot_iq, List.mem_map]
      exact ⟨x, hx, by simp [hxq]⟩
    refine hl.trans (Within.steady ?_)
    unfold State.proceed
    split
    · exact Within.refl _
    · rename_i hn
      split
      · refine State.decideTripped_within _ _ (fun _ => ⟨fun z hz e => ?_, by rw [hyq]; exact hf⟩)
        rw [k'.unique hz hym e, hyx]
      · refine State.askForward_within _ _ (fun _ => ⟨y, hym, rfl, by rw [hyx], by simpa using hn, ?_⟩)
        intro z hz hg
        simp only [State.leaveCapture, State.setSlot_iq, List.mem_map] at hz
        obtain ⟨w, hw, rfl⟩ := hz
        have hkey : ∀ w : Slot, (if w.ix == q then { w with state := .waiting, captureEnded := true } else w).key = w.key :=
          Keyed.ite (f := fun z => { z with state := .waiting, captureEnded := true }) (fun _ => rfl) q
        rw [Slot.pos_of_key (hkey w), hyx]
        exact ho w hw (by rw [← Slot.granule_of_key (hkey w), hg, hyx]; rfl)

theorem State.capture?_congr {s t : State} (h : t.cu = s.cu) (q : SlotIx) : t.capture? q = s.capture? q := by
  simp only [State.capture?, h]

theorem State.capture?_slot {s : State} {q : SlotIx} {c : Capture} (hc : s.capture? q = some c) : c.slot = q := by
  have := List.find?_some hc; simpa using this

/-- A fault on a capture's request ends the capture (R76). -/
theorem State.captureFault_steady (s : State) {q : SlotIx} {c : Capture} (kind : FaultKind)
    (hc : s.capture? q = some c) : Steady s (s.captureFault c kind) := by
  unfold State.captureFault
  rw [State.capture?_slot hc]
  refine Steady.trans ?_ (State.endCapture_steady _ q (c := c) ?_)
  · exact (((s.markBroken_within _ _).trans (State.raise_within _ _)).trans (State.enterSuspended_within _ _)).steady
  · rw [State.capture?_congr (State.enterSuspended_calm _ _).cu, State.capture?_congr (State.raise_calm _ _).cu,
      State.capture?_congr (State.markBroken_calm _ _ _).cu]
    exact hc

theorem State.recordFault_within (s : State) (line : Nat) (e : EpochNo) (kind : FaultKind) :
    Within s (s.recordFault line e kind) :=
  ((s.markBroken_within _ _).trans (State.raise_within _ _)).trans (State.enterSuspended_within _ _)

/-! ## The reservation of a capture -/

theorem State.forcedCommit_within (s : State) : Within s s.forcedCommit := by
  unfold State.forcedCommit
  split
  · exact s.commitOldest_within _
  · exact Within.refl s

theorem State.placeUndo_within (s : State) (c : Capture) : Within s (s.placeUndo c) := by
  unfold State.placeUndo
  extract_lets line t u
  refine Within.trans ?_ (Within.da u _ rfl rfl rfl)
  refine Within.trans ?_ (State.forcedCommit_within _)
  refine Within.trans ?_ (State.evaluate_within _)
  refine Within.trans ?_ (State.setCapture_within _ _ (fun _ => rfl))
  refine Within.trans ?_ (State.setEntry_within _ _ (fun e he => ⟨satInc_le _ _, he.2⟩))
  exact (s.makePad_within _ _).trans (State.advanceHead_within _ _)

theorem State.reserveUndo_steady (s : State) {q : SlotIx} {c : Capture} (hc : s.capture? q = some c) :
    Steady s (s.reserveUndo c) := by
  have hq := State.capture?_slot hc
  unfold State.reserveUndo
  split
  · rw [hq]
    refine (s.markBroken_within _ _).steady.trans (State.endCapture_steady _ q (c := c) ?_)
    rw [State.capture?_congr (State.markBroken_calm _ _ _).cu]
    exact hc
  · split
    · exact (s.placeUndo_within c).steady
    · rw [hq]
      refine ((s.markBroken_within _ _).trans (State.enterSuspended_within _ _)).steady.trans
        (State.endCapture_steady _ q (c := c) ?_)
      rw [State.capture?_congr (State.enterSuspended_calm _ _).cu, State.capture?_congr (State.markBroken_calm _ _ _).cu]
      exact hc

/-! ## Acknowledgments of the other blocks' requests -/

theorem State.storeOld_within (s : State) (q : SlotIx) (data : List Byte) : Within s (s.storeOld q data) := by
  unfold State.storeOld
  extract_lets t u
  have h : Within s t := by apply State.setCapture_within; intro _; rfl
  split
  · refine h.trans (Within.trans (?_ : Within t u) (Within.da u _ rfl rfl rfl))
    apply State.setCapture_within; intro _; rfl
  · exact h.trans (Within.da t _ rfl rfl rfl)

theorem State.ackOldRead_steady (s : State) (p : PortIx) {q : SlotIx} {c : Capture} (res : AckResult)
    (hp : s.NoForward p) (hc : s.capture? q = some c) : Steady s (s.ackOldRead p c res) := by
  unfold State.ackOldRead
  split
  · exact (s.freePort_steady p (fun _ => hp)).trans (State.storeOld_within _ _ _).steady
  · exact (s.freePort_steady p (fun _ => hp)).trans (State.captureFault_steady (q := q) _ _ hc)

theorem State.ackUndoWrite_steady (s : State) (p : PortIx) {q : SlotIx} {c : Capture} (res : AckResult)
    (hp : s.NoForward p) (hc : s.capture? q = some c) : Steady s (s.ackUndoWrite p c res) := by
  unfold State.ackUndoWrite
  split
  · rw [State.capture?_slot hc]
    refine (s.freePort_steady p (fun _ => hp)).trans (Steady.trans (Within.steady ?_)
      (State.endCapture_steady (State.setSlot _ _ _) q (c := c) hc))
    exact Within.setSlot_mild _ (fun _ => ⟨rfl, rfl, rfl, rfl⟩)
  · exact (s.freePort_steady p (fun _ => hp)).trans (State.captureFault_steady (q := q) _ _ hc)

theorem State.faultOnError_within (s : State) (l : Nat × EpochNo) (kind : FaultKind) (res : AckResult) :
    Within s (s.faultOnError l kind res) := by
  unfold State.faultOnError
  split
  · exact Within.refl s
  · exact s.recordFault_within _ _ _

theorem State.ackSeal_within (s : State) (e : EpochNo) : Within s (s.ackSeal e) := by
  unfold State.ackSeal
  extract_lets t
  split
  · exact (s.becomeSealed_within e).trans (State.endClosing_within _ _)
  · exact (s.becomeSealed_within e).trans (State.completeSeal_within _ _)

theorem State.ackRecord_within (s : State) (res : AckResult) : Within s (s.ackRecord res) := by
  unfold State.ackRecord
  split
  · exact s.failWalk_within _
  · split
    · unfold State.restoreRecord
      rename_i data _
      exact (Within.re s { s.re with walkStep := some .restoring, inHand := some (recordOf data) } id id id).trans
        (Within.da _ _ rfl rfl rfl)
    · exact s.failWalk_within _

theorem State.followLink_within (s : State) : Within s s.followLink := by
  unfold State.followLink
  split
  · split
    · exact s.readRecord_within _ _
    · exact (Within.re s { s.re with inHand := none } id id id).trans (State.walkOn_within _ _ _)
  · exact Within.refl s

theorem State.ackRestore_within (s : State) (res : AckResult) : Within s (s.ackRestore res) := by
  unfold State.ackRestore
  split
  · exact s.failWalk_within _
  · refine Within.trans ?_ (State.followLink_within _)
    exact Within.re s { s.re with applied := satInc Config.count24Max s.re.applied } (fun _ => satInc_le _ _) id id

/-! ## Boundary requests -/

theorem State.discardBoundary_within (s : State) : Within s s.discardBoundary :=
  Within.re s { s.re with discarded := satInc Config.count8Max s.re.discarded } id (fun _ => satInc_le _ _) id

theorem State.recordBoundary_steady (s : State) (src : Source) : Steady s (s.recordBoundary src) := by
  unfold State.recordBoundary
  extract_lets closing n
  split
  · refine Steady.trans (Steady.ec s { s.ec with merged := n, closing := closing } (fun h => h) (fun _ => satInc_le _ _)
      (fun h => h)) (State.raise_within _ _).steady
  · exact Steady.ec s { s.ec with pending := true, closing := closing } (fun h => h) (fun h => h) (fun h => h)

theorem State.requestBoundary_steady (s : State) (src : Source) : Steady s (s.requestBoundary src) := by
  unfold State.requestBoundary
  split
  · exact s.recordBoundary_steady src
  · split
    · exact s.closingBoundary_within.steady
    · exact s.boundary_within.steady

theorem State.expireTimer_steady (s : State) : Steady s s.expireTimer := by
  unfold State.expireTimer
  split
  · exact s.startTimer_within.steady.trans (State.requestBoundary_steady _ _)
  · exact (s.startTimer_within.trans (State.discardBoundary_within _)).steady
  all_goals exact Steady.refl s

theorem State.strobe_steady (s : State) : Steady s s.strobe := by
  unfold State.strobe
  split
  · exact s.requestBoundary_steady _
  · exact s.discardBoundary_within.steady
  · exact s.discardBoundary_within.steady
  all_goals exact Steady.refl s

/-! ## Journaling and its end -/

theorem State.clearTable_within (s : State) : Within s s.clearTable :=
  Within.ec s _ rfl rfl rfl rfl rfl rfl (fun _ x hx => by simp at hx)

theorem State.startJournaling_within (s : State) (e : EpochNo) : Within s (s.startJournaling e) := by
  unfold State.startJournaling
  extract_lets t u
  refine Within.trans ?_ (State.raise_within u _)
  refine Within.trans ?_ (State.startTimer_within _)
  refine Within.trans ?_ (State.reserveOpen_within _ _)
  refine Within.trans ?_ (State.fillOpenBank_within _ _)
  refine Within.trans ?_ (State.applyArmed_within _ _)
  refine Within.trans ?_ (State.resetBanks_within t)
  refine Within.trans ?_ (State.clearTouched_within _)
  refine Within.trans ?_ (State.setPressure_within _ _ _ (by simp))
  refine Within.trans ?_ (Within.jw _ { s.jw with head := 0, tail := 0 } rfl id)
  exact (s.clearTable_within.trans (State.addEpoch_within _ _)).trans (State.setBridge_within _ _)

theorem State.releaseJournal_within (s : State) : Within s s.releaseJournal := by
  unfold State.releaseJournal
  extract_lets t
  refine Within.trans ?_ (State.raise_within _ _)
  refine Within.trans ?_ (Within.re t { t.re with reach := none, discarded := 0 } id (fun _ => by simp) id)
  exact (((s.clearTable_within.trans (State.emptyRing_within _)).trans (State.normalize_within _)).trans
    (State.resetBanks_within _)).trans (State.setBridge_within _ _)

/-! ## The acceptance of a ROLLBACK -/

theorem State.freshRollback_within (s : State) : Within s s.freshRollback := by
  unfold State.freshRollback
  split
  · exact Within.re s { s.re with failures := 0, discarded := 0, reach := none } id (fun _ => by simp) (fun _ => by simp)
  · exact Within.refl s

theorem State.enterRolling_within (s : State) (t : EpochNo) : Within s (s.enterRolling t) :=
  (s.setBridge_within .rolling).trans
    (Within.re _ { s.re with phase := .drain, target := some t, applied := 0 } (fun _ => by simp) id id)

theorem State.dropPending_within (s : State) : Within s s.dropPending := by
  unfold State.dropPending
  split
  · exact (Within.ec s { s.ec with pending := false, closing := false } rfl rfl rfl rfl rfl rfl (fun h => h)).trans
      (State.discardBoundary_within _)
  · exact Within.refl s

/-- The request of slot `q`, if any, waits with no decided outcome. -/
def State.WaitsOpen (s : State) (q : SlotIx) : Prop :=
  ∀ x ∈ s.iq.slots, x.ix = q → (x.state = .waiting ∧ x.outcome = none)

theorem State.holdOne_within (s : State) (q : SlotIx) (h : s.WaitsOpen q) : Within s ((s.withdraw q).hold q) :=
  (s.withdraw_within q).trans (State.hold_within _ q (fun _ =>
    ⟨⟨fun x hx e => (h x hx e).1, s.not_mem_withdraw q⟩, fun x hx e => (h x hx e).2⟩))

theorem State.holdEach_within (qs : List SlotIx) (s : State) (hn : qs.Nodup) (h : ∀ q ∈ qs, s.WaitsOpen q) :
    Within s (qs.foldl (fun t q => (t.withdraw q).hold q) s) := by
  induction qs generalizing s with
  | nil => exact Within.refl s
  | cons q rest ih =>
    refine (s.holdOne_within q (h q List.mem_cons_self)).trans (ih _ (List.nodup_cons.1 hn).2 (fun p hp x hx e => ?_))
    have hne : p ≠ q := fun e' => (List.nodup_cons.1 hn).1 (e' ▸ hp)
    simp only [State.hold, State.setSlot_iq, State.withdraw_iq, List.mem_map] at hx
    obtain ⟨y, hy, rfl⟩ := hx
    by_cases hq : y.ix = q
    · simp only [hq, beq_self_eq_true, if_true] at e
      exact absurd e.symm hne
    · simp only [beq_eq_false_iff_ne.2 hq, Bool.false_eq_true, if_false] at e ⊢
      exact h p (List.mem_cons_of_mem _ hp) y hy e

theorem State.holdWaiting_steady (s : State) : Steady s s.holdWaiting := by
  refine Steady.of_ok (fun k => (State.holdEach_within _ s ?_ (fun q hq x hx e => ?_)).steady)
  · exact k.distinct.sublist (List.filter_sublist.map _)
  · obtain ⟨y, hy, rfl⟩ := List.mem_map.1 hq
    obtain ⟨hys, hyt⟩ := List.mem_filter.1 hy
    rw [k.unique hx hys e]
    simp only [Slot.toHold, Bool.and_eq_true, beq_iff_eq, Option.isNone_iff_eq_none] at hyt
    exact ⟨hyt.1.1.1, hyt.1.2⟩

/-- The whole of an acceptance. -/
theorem State.acceptRollback_steady (s : State) (t : EpochNo) : Steady s (s.acceptRollback t) :=
  ((((s.freshRollback_within.trans (State.enterRolling_within _ _)).trans (State.dropPending_within _)).steady.trans
    (State.holdWaiting_steady _))).trans (State.settle_within _).steady

/-! ## Settings -/

theorem State.setRetention_steady (s : State) (n : Nat) (h : 1 ≤ n ∧ n ≤ 63) : Steady s (s.setRetention n) :=
  Steady.ec s { s.ec with retention := n } (fun k => k) (fun k => k) (fun _ => h)

theorem State.setTimer_steady (s : State) (interval : BitVec 16) (on : Bool) : Steady s (s.setTimer interval on) := by
  unfold State.setTimer
  extract_lets c t
  have h : Steady s t :=
    Steady.ec s { s.ec with timerInterval := interval, timerEnable := on } (fun k => k) (fun k => k) (fun k => k)
  split
  · exact h.trans (State.startTimer_within t).steady
  · exact h

theorem State.setStrobe_steady (s : State) (on : Bool) (edge : Edge) : Steady s (s.setStrobe on edge) :=
  Steady.ec s { s.ec with strobeEnable := on, strobePolarity := edge } (fun k => k) (fun k => k) (fun k => k)

theorem State.clearMerged_steady (s : State) : Steady s s.clearMerged :=
  Steady.ec s { s.ec with merged := 0 } (fun k => k) (fun _ => by simp) (fun k => k)

theorem State.setHoldLimit_steady (s : State) (limit : BitVec 16) : Steady s (s.setHoldLimit limit) :=
  Steady.of_same rfl rfl rfl rfl rfl rfl rfl rfl rfl rfl rfl

/-- The staged table, the arm, the trip flags. -/
theorem Steady.wu (s : State) (w : WindowUnit) : Steady s { s with wu := w } :=
  Steady.of_same rfl rfl rfl rfl rfl rfl rfl rfl rfl rfl rfl

/-- The event queue changed within its rules. -/
theorem Steady.eq (s : State) (q : EventQueue) (h : s.eq.Ok → q.Ok) : Steady s { s with eq := q } :=
  Sound.steady
    { intake := fun k => k.congr rfl rfl rfl rfl rfl rfl
      ok := fun k => ⟨h k.events, k.touched, k.pressure, k.ranges.congr rfl rfl rfl, k.intake.congr rfl rfl rfl rfl rfl rfl⟩ }
    rfl rfl

theorem State.arm_steady (s : State) (i : WinIx) (value : Word32) : Steady s (s.arm i value) :=
  (Within.su s { s.su with openBank := s.su.openBank.update i (fun b => { b with expected := some value }) }
    (fun h => h)).steady

/-- A microsecond. -/
theorem State.tick_steady (s : State) : Steady s s.tick := by
  unfold State.tick
  split
  · exact Steady.refl s
  · extract_lets t
    have h1 : Steady s { s with eq := s.eq.tick } := Steady.eq s _ (fun h => h.tick)
    have h2 : Steady { s with eq := s.eq.tick } t :=
      Steady.ec _ s.ec.tick (fun k => k) (fun k => k) (fun k => k)
    exact (h1.trans h2).trans (Steady.of_same rfl rfl rfl rfl rfl rfl rfl rfl rfl rfl rfl)

/-! ## A new region -/

/-- The region unset: the agreement then speaks of no address. -/
def State.regionless (s : State) : State := { s with jw := { s.jw with region := none } }

/-- The agreement when the region has not been applied to the requests of `qs` yet. -/
structure State.IntakeBut (s : State) (qs : List SlotIx) : Prop where
  rest   : s.regionless.IntakeOk
  fenced : ∀ x ∈ s.iq.slots, x.ix ∉ qs → x.state ≠ .issued → x.outcome = none → s.inRegion x.req.addr = false

theorem State.IntakeBut.intakeOk {s : State} (h : s.IntakeBut []) : s.IntakeOk :=
  { distinct := h.rest.distinct, order := h.rest.order, before := h.rest.before, held := h.rest.held
    decided := h.rest.decided, heads := h.rest.heads, asked := h.rest.asked, once := h.rest.once
    records := h.rest.records, capturing := h.rest.capturing, recorded := h.rest.recorded, sent := h.rest.sent
    sentOnce := h.rest.sentOnce, issued := h.rest.issued, fenced := fun x hx => h.fenced x hx (by simp) }

/-- A request not ISSUED and with no decided outcome is decided FENCED and withdrawn. -/
theorem State.fenceSlot_intake {s : State} (k : s.IntakeOk) {q : SlotIx} {x : Slot} (hx : x ∈ s.iq.slots)
    (hq : x.ix = q) (hs : x.state ≠ .issued) :
    ((s.withdraw q).setSlot q (fun z => { z.unheld with outcome := some .fenced, atPoint := false })).IntakeOk := by
  refine ((s.withdraw_within q).intake k).setSlot (fun y => ?_) (fun y hy e => ?_)
  · simp only [Slot.unheld]; split <;> rfl
  · have k' := (s.withdraw_within q).intake k
    have f := k'.fits hy
    obtain rfl := k.unique hy hx (e.trans hq.symm)
    have hf : y.ix ∉ (s.withdraw q).da.forward := by rw [e]; exact s.not_mem_withdraw q
    by_cases hh : y.state = .held
    · simp only [Slot.unheld, hh, if_true]
      constructor
      · simp
      · intro _; exact Or.inl rfl
      · intro h; simp at h
      · intro h; exact absurd h hf
      · have := f.records; rw [hh] at this; simpa using this
      · have := f.sent; rw [hh] at this; simpa using this
      · intro _ h; simp at h
    · simp only [Slot.unheld, hh, if_false]
      have hst : y.state = .waiting ∨ y.state = .capturing := by
        cases hc : y.state <;> simp_all
      constructor
      · exact f.held
      · intro _; exact hst
      · exact f.head
      · intro h; exact absurd h hf
      · exact f.records
      · exact f.sent
      · intro _ h; simp at h

theorem State.refence_but {s : State} {q : SlotIx} {rest : List SlotIx} (h : s.IntakeBut (q :: rest)) :
    (s.refence q).IntakeBut rest := by
  unfold State.refence
  split
  · rename_i hq
    refine ⟨h.rest, fun x hx hn hs ho => h.fenced x hx ?_ hs ho⟩
    simp only [State.slot?, List.find?_eq_none, beq_iff_eq] at hq
    exact List.not_mem_cons_of_ne_of_not_mem (hq x hx) hn
  · rename_i x hx
    obtain ⟨hxm, hxq⟩ := State.mem_of_slot? hx
    split
    · rename_i hc
      have hi := State.fenceSlot_intake (s := s.regionless) h.rest (x := x) hxm hxq hc.1
      refine ⟨hi.congr rfl rfl rfl rfl rfl rfl, fun y hy hn hs ho => ?_⟩
      simp only [State.raise_iq, State.setSlot_iq, State.withdraw_iq, List.mem_map] at hy
      obtain ⟨z, hz, rfl⟩ := hy
      by_cases e : z.ix = q
      · simp [e] at ho
      · have hne : (z.ix == q) = false := by simpa using e
        simp only [hne, Bool.false_eq_true, if_false] at hn hs ho ⊢
        exact h.fenced z hz (List.not_mem_cons_of_ne_of_not_mem e hn) hs ho
    · rename_i hc
      refine ⟨h.rest, fun y hy hn hs ho => ?_⟩
      by_cases e : y.ix = q
      · obtain rfl := h.rest.unique (x := y) (y := x) hy hxm (e.trans hxq.symm)
        simp only [ne_eq, hs, not_false_eq_true, ho, Option.isNone_none, true_and, Bool.not_eq_true] at hc
        exact hc
      · exact h.fenced y hy (List.not_mem_cons_of_ne_of_not_mem e hn) hs ho

/-- The new region applied to every occupied slot. -/
theorem State.refenceAll_intake {s : State} (h : s.regionless.IntakeOk) : s.refenceAll.IntakeOk := by
  have fold : ∀ (qs : List SlotIx) (t : State), t.IntakeBut qs →
      (qs.foldl (fun u q => u.refence q) t).IntakeBut [] := by
    intro qs
    induction qs with
    | nil => intro t ht; exact ht
    | cons q rest ih => intro t ht; exact ih _ (State.refence_but ht)
  refine (fold _ s ⟨h, fun x hx hn => ?_⟩).intakeOk
  exact absurd (List.mem_map_of_mem (f := (·.ix)) hx) hn

/-- What `refence` leaves to the event queue. -/
theorem State.refence_frame (s : State) (q : SlotIx) :
    (∃ evs, (s.refence q).eq = s.eq.raiseAll evs) ∧ (s.refence q).cu = s.cu ∧ (s.refence q).jw = s.jw ∧
      (s.refence q).ec = s.ec ∧ (s.refence q).su = s.su ∧ (s.refence q).re = s.re ∧ (s.refence q).uport = s.uport ∧
      (s.refence q).iq.slots.map Slot.key = s.iq.slots.map Slot.key := by
  unfold State.refence
  split
  · exact ⟨⟨[], rfl⟩, rfl, rfl, rfl, rfl, rfl, rfl, rfl⟩
  · split
    · refine ⟨⟨[_], rfl⟩, rfl, rfl, rfl, rfl, rfl, rfl, ?_⟩
      refine Keyed.map_key (Keyed.ite (f := fun z => { z.unheld with outcome := some .fenced, atPoint := false })
        (fun z => ?_) q) _
      simp only [Slot.unheld]
      split <;> rfl
    · exact ⟨⟨[], rfl⟩, rfl, rfl, rfl, rfl, rfl, rfl, rfl⟩

theorem State.refenceAll_frame (s : State) :
    (∃ evs, s.refenceAll.eq = s.eq.raiseAll evs) ∧ s.refenceAll.cu = s.cu ∧ s.refenceAll.jw = s.jw ∧
      s.refenceAll.ec = s.ec ∧ s.refenceAll.su = s.su ∧ s.refenceAll.re = s.re ∧ s.refenceAll.uport = s.uport ∧
      s.refenceAll.iq.slots.map Slot.key = s.iq.slots.map Slot.key := by
  unfold State.refenceAll
  generalize s.iq.slots.map (·.ix) = qs
  induction qs generalizing s with
  | nil => exact ⟨⟨[], rfl⟩, rfl, rfl, rfl, rfl, rfl, rfl, rfl⟩
  | cons q rest ih =>
    obtain ⟨⟨a, ha⟩, h1, h2, h3, h4, h5, h6, h7⟩ := s.refence_frame q
    obtain ⟨⟨b, hb⟩, k1, k2, k3, k4, k5, k6, k7⟩ := ih (s.refence q)
    refine ⟨⟨a ++ b, ?_⟩, k1.trans h1, k2.trans h2, k3.trans h3, k4.trans h4, k5.trans h5, k6.trans h6, k7.trans h7⟩
    rw [List.foldl_cons, hb, ha, EventQueue.raiseAll_append]

theorem State.evaluate_slots (s : State) : ∃ f, Mild f ∧ s.evaluate.iq.slots = s.iq.slots.map f := by
  have hf : ∀ (g : EventCode → Event) (l : List EventCode) (t : State), (l.foldl (fun t c => t.raise (g c)) t).iq = t.iq := by
    intro g l
    induction l with
    | nil => intro t; rfl
    | cons c l ih => intro t; exact ih _
  have he : ∀ (l : List EventCode) (t : State) (arg : Word32), (t.raiseCodes arg l).iq = t.iq := fun l t arg => hf _ l t
  unfold State.evaluate
  split
  · exact ⟨id, fun _ => ⟨rfl, rfl, rfl, rfl⟩, by simp⟩
  · unfold State.setPressure
    extract_lets w t
    split
    · exact ⟨id, fun _ => ⟨rfl, rfl, rfl, rfl⟩, by simp only [t, he, List.map_id]⟩
    · exact ⟨Slot.reexamined, Slot.reexamined_mild, by simp only [State.mapSlots_iq, t, he]⟩

/-- JOURNAL SETUP's change of the region, with all it does to the requests. -/
theorem State.setRegion_sound (s : State) (base pages : Word32) : Sound s (s.setRegion base pages).refenceAll := by
  have hv : ∀ v : State, v.iq = s.iq → v.da = s.da → v.cu = s.cu → s.IntakeOk →
      v.evaluate.regionless.IntakeOk := by
    intro v h1 h2 h3 k
    have kv : v.regionless.IntakeOk :=
      { distinct := by rw [State.regionless, h1]; exact k.distinct
        order := by rw [State.regionless, h1]; exact k.order
        before := by rw [State.regionless, h1]; exact k.before
        held := by rw [State.regionless, h1]; exact k.held
        decided := by rw [State.regionless, h1]; exact k.decided
        heads := by simp only [State.regionless, State.Oldest, h1]; exact k.heads
        asked := by simp only [State.regionless, State.Oldest, h1, h2]; exact k.asked
        once := by rw [State.regionless, h2]; exact k.once
        records := by simp only [State.regionless, h1, h3]; exact k.records
        capturing := by simp only [State.regionless, h1, h3]; exact k.capturing
        recorded := by rw [State.regionless, h3]; exact k.recorded
        sent := by simp only [State.regionless, h1, h2]; exact k.sent
        sentOnce := by simp only [State.regionless, h2]; exact k.sentOnce
        issued := by simp only [State.regionless, h1, h2]; exact k.issued
        fenced := fun _ _ _ _ => rfl }
    obtain ⟨f, hf, hs⟩ := v.evaluate_slots
    have c := v.evaluate_calm
    refine (kv.mapSlots_mild hf).congr hs ?_ ?_ ?_ ?_ rfl
    · exact congrArg (·.nextPos) c.iq
    · exact congrArg Arbiter.forward c.da
    · exact congrArg CaptureUnit.captures c.cu
    · exact congrArg Arbiter.slots c.da
  have hi : s.IntakeOk → (s.setRegion base pages).refenceAll.IntakeOk := fun k =>
    State.refenceAll_intake (hv _ rfl rfl rfl k)
  refine ⟨hi, fun k => ?_⟩
  unfold State.setRegion at hi ⊢
  generalize hw : ({ s.jw with region := some { base := base.toNat, pages := pages.toNat }, head := 0, tail := 0 } :
    JournalWriter) = w at hi ⊢
  have e := State.evaluate_within { s with jw := w }
  have kw : w.PressureOk := by rw [← hw]; exact k.pressure
  obtain ⟨⟨a, ha⟩, h1, h2, h3, h4, h5, -⟩ := State.refenceAll_frame (State.evaluate { s with jw := w })
  obtain ⟨b, hb⟩ := e.events
  exact
    { events := by rw [ha, hb]; exact (k.events.raiseAll b).raiseAll a
      touched := by rw [h1]; exact e.touched k.touched
      pressure := by rw [h2]; exact e.pressure kw
      ranges := (e.ranges (k.ranges.congr rfl rfl rfl)).congr h3 h5 h4
      intake := hi k.intake }

theorem State.setRegion_steady (s : State) (base pages : Word32) : Steady s (s.setRegion base pages).refenceAll := by
  obtain ⟨-, -, -, -, -, -, hu, hk⟩ := State.refenceAll_frame (s.setRegion base pages)
  refine (s.setRegion_sound base pages).steady (hk.trans ?_) (hu.trans (State.evaluate_calm _).uport)
  obtain ⟨f, hf, hs⟩ := State.evaluate_slots
    { s with jw := { s.jw with region := some { base := base.toNat, pages := pages.toNat }, head := 0, tail := 0 } }
  unfold State.setRegion
  rw [hs, hf.keyed.map_key]

/-! ## JOURNAL RESET -/

/-- What an abandoned capture makes of a record `x`; any other record stays. -/
def Slot.Abandons (x y : Slot) : Prop :=
  y = x ∨ (x.state = .capturing ∧ y.state = .waiting ∧ y.holdEntry = x.holdEntry ∧
    (y.outcome = x.outcome ∨ y.outcome.isSome))

theorem Slot.Abandons.trans {x y z : Slot} (h : x.Abandons y) (k : y.Abandons z) : x.Abandons z := by
  rcases h with rfl | ⟨h1, h2, h3, h4⟩
  · exact k
  · rcases k with rfl | ⟨k1, _⟩
    · exact Or.inr ⟨h1, h2, h3, h4⟩
    · rw [h2] at k1; simp at k1

theorem Slot.Abandons.left {x y : Slot} (h : x.Abandons y) (hx : x.state ≠ .capturing) : y = x := by
  rcases h with h | h
  · exact h
  · exact absurd h.1 hx

/-- What `abandonCapture` makes of the records, and that it leaves the rest to the event queue. -/
structure State.AbandonsTo (s t : State) (f : Slot → Slot) : Prop where
  keyed  : Keyed f
  iq     : t.iq = { s.iq with slots := s.iq.slots.map f }
  slots  : ∀ x ∈ s.iq.slots, x.Abandons (f x)
  events : ∃ evs, t.eq = s.eq.raiseAll evs
  cu     : t.cu = s.cu
  jw     : t.jw = s.jw
  ec     : t.ec = s.ec
  su     : t.su = s.su
  re     : t.re = s.re
  da     : t.da = s.da
  uport  : t.uport = s.uport

theorem State.AbandonsTo.refl (s : State) : s.AbandonsTo s id :=
  ⟨fun _ => rfl, by simp, fun _ _ => Or.inl rfl, ⟨[], rfl⟩, rfl, rfl, rfl, rfl, rfl, rfl, rfl⟩

theorem State.AbandonsTo.trans {s t u : State} {f g : Slot → Slot} (h : s.AbandonsTo t f) (k : t.AbandonsTo u g) :
    s.AbandonsTo u (g ∘ f) where
  keyed := fun x => (k.keyed (f x)).trans (h.keyed x)
  iq := by rw [k.iq, h.iq]; simp
  slots := fun x hx => (h.slots x hx).trans (k.slots (f x) (by rw [h.iq]; exact List.mem_map_of_mem hx))
  events := by
    obtain ⟨a, ha⟩ := h.events
    obtain ⟨b, hb⟩ := k.events
    exact ⟨a ++ b, by rw [hb, ha, EventQueue.raiseAll_append]⟩
  cu := k.cu.trans h.cu
  jw := k.jw.trans h.jw
  ec := k.ec.trans h.ec
  su := k.su.trans h.su
  re := k.re.trans h.re
  da := k.da.trans h.da
  uport := k.uport.trans h.uport

theorem State.abandonCapture_to (s : State) (q : SlotIx) (hd : (s.iq.slots.map (·.ix)).Nodup) :
    ∃ f, s.AbandonsTo (s.abandonCapture q) f ∧ ∀ x ∈ s.iq.slots, x.ix = q → (f x).state ≠ .capturing := by
  unfold State.abandonCapture
  split
  · rename_i hq
    refine ⟨id, State.AbandonsTo.refl s, fun x hx e => ?_⟩
    simp only [State.slot?, List.find?_eq_none, beq_iff_eq] at hq
    exact absurd e (hq x hx)
  · rename_i x hx
    obtain ⟨hxm, hxq⟩ := State.mem_of_slot? hx
    have uniq : ∀ y ∈ s.iq.slots, y.ix = q → y = x := fun y hy e => eq_of_nodup_map hd hy hxm (e.trans hxq.symm)
    split
    · rename_i hc
      have k1 : Keyed (fun z : Slot => if z.ix == q then { z with state := .waiting, captureEnded := true } else z) :=
        Keyed.ite (f := fun z => { z with state := .waiting, captureEnded := true }) (fun _ => rfl) q
      have h1 : s.AbandonsTo (s.setSlot q (fun z => { z with state := .waiting, captureEnded := true }))
          (fun z => if z.ix == q then { z with state := .waiting, captureEnded := true } else z) := by
        refine ⟨k1, rfl, fun y hy => ?_, ⟨[], rfl⟩, rfl, rfl, rfl, rfl, rfl, rfl, rfl⟩
        by_cases e : y.ix = q
        · obtain rfl := uniq y hy e
          simp only [e, beq_self_eq_true, if_true]
          exact Or.inr ⟨hc, rfl, rfl, Or.inl rfl⟩
        · simp only [beq_eq_false_iff_ne.2 e, Bool.false_eq_true, if_false]
          exact Or.inl rfl
      extract_lets t
      split
      · have k2 : Keyed (fun z : Slot => if z.ix == x.ix then { z with outcome := some .tripped, atPoint := false }
            else z) :=
          Keyed.ite (f := fun z => { z with outcome := some .tripped, atPoint := false }) (fun _ => rfl) x.ix
        refine ⟨(fun z : Slot => if z.ix == x.ix then { z with outcome := some .tripped, atPoint := false } else z) ∘
          (fun z : Slot => if z.ix == q then { z with state := .waiting, captureEnded := true } else z),
          ⟨fun y => (k2 _).trans (k1 y), ?_, fun y hy => ?_, ⟨[_], rfl⟩, rfl, rfl, rfl, rfl, rfl, rfl, rfl⟩,
          fun y hy e => ?_⟩
        · simp only [State.decideTripped, State.raise_iq, State.setSlot_iq, t, List.map_map]
        · by_cases e : y.ix = q
          · obtain rfl := uniq y hy e
            simp only [Function.comp, e, beq_self_eq_true, if_true]
            exact Or.inr ⟨hc, rfl, rfl, Or.inr rfl⟩
          · simp only [Function.comp, beq_eq_false_iff_ne.2 e, Bool.false_eq_true, if_false, hxq]
            exact Or.inl rfl
        · simp only [Function.comp, e, beq_self_eq_true, if_true, hxq]
          simp
      · exact ⟨_, h1, fun y hy e => by simp only [e, beq_self_eq_true, if_true]; simp⟩
    · rename_i hc
      refine ⟨id, State.AbandonsTo.refl s, fun y hy e => ?_⟩
      rw [uniq y hy e]; exact hc

theorem State.abandonAll_to (qs : List SlotIx) (s : State) (hd : (s.iq.slots.map (·.ix)).Nodup) :
    ∃ f, s.AbandonsTo (qs.foldl (fun t q => t.abandonCapture q) s) f ∧
      ∀ x ∈ s.iq.slots, x.ix ∈ qs → (f x).state ≠ .capturing := by
  induction qs generalizing s with
  | nil => exact ⟨id, State.AbandonsTo.refl s, fun x _ h => by simp at h⟩
  | cons q rest ih =>
    obtain ⟨f, h1, h2⟩ := s.abandonCapture_to q hd
    have hd' : ((s.abandonCapture q).iq.slots.map (·.ix)).Nodup := by rw [h1.iq, h1.keyed.map_ix]; exact hd
    obtain ⟨g, k1, k2⟩ := ih (s.abandonCapture q) hd'
    refine ⟨g ∘ f, h1.trans k1, fun x hx hq => ?_⟩
    have hfx : f x ∈ (s.abandonCapture q).iq.slots := by rw [h1.iq]; exact List.mem_map_of_mem hx
    by_cases e : x.ix = q
    · have hw := h2 x hx e
      rw [Function.comp, (k1.slots (f x) hfx).left hw]
      exact hw
    · refine k2 (f x) hfx ?_
      rw [Slot.ix_of_key (h1.keyed x)]
      exact (List.mem_cons.1 hq).resolve_left e

theorem flagged_slots (a : Arbiter) (p : PortIx) : a.journalReset.slots[p] = (a.slots[p]).map PortSlot.flagged := by
  simp [Arbiter.journalReset]

/-- A forwarded request is not flagged, and a flag makes no request a forwarded one. -/
theorem PortSlot.flagged_owner {c : PortSlot} {q : SlotIx} (h : c.kind.forwardOwner? = some q) : c.flagged = c := by
  cases c with
  | mk kind discard => cases kind <;> simp_all [PortKind.forwardOwner?, PortSlot.flagged, PortKind.claimant]

theorem State.abortRollback_within (s : State) : Within s s.abortRollback := by
  unfold State.abortRollback
  extract_lets t
  have h : Within s t := by
    simp only [t]
    split
    · exact s.raise_within _
    · exact Within.refl s
  have hf : t.re.failures = s.re.failures := by simp only [t]; split <;> rfl
  refine h.trans (Within.re t { RollbackEngine.reset with failures := s.re.failures } (fun _ => by simp [RollbackEngine.reset])
    (fun _ => by simp [RollbackEngine.reset]) (fun k => by rw [← hf]; exact k))

theorem Slot.unheld_key (x : Slot) : x.unheld.key = x.key := by
  unfold Slot.unheld
  split <;> rfl

/-- The records and the D-port after a JOURNAL RESET agree. -/
theorem State.resetIntake_intake {s t : State} (k : s.IntakeOk) (hi : t.iq = s.resetIntake.iq)
    (hc : t.cu.captures = []) (hf : t.da.forward = s.da.forward)
    (hp : ∀ p : PortIx, t.da.slots[p] = (s.da.slots[p]).map PortSlot.flagged) (hr : t.jw.region = s.jw.region) :
    t.IntakeOk := by
  obtain ⟨f, h, hcap⟩ := State.abandonAll_to (s.iq.slots.map (·.ix)) s k.distinct
  have hcap : ∀ x ∈ s.iq.slots, (f x).state ≠ .capturing := fun x hx => hcap x hx (List.mem_map_of_mem hx)
  have hiq : t.iq = { s.iq with slots := s.iq.slots.map (fun x => (f x).unassigned.unheld) } := by
    rw [hi]
    simp only [State.resetIntake, State.mapSlots_iq, h.iq, List.map_map]
    rfl
  have hk : Keyed (fun x => (f x).unassigned.unheld) := fun x =>
    (Slot.unheld_key _).trans ((Slot.unassigned_mild (f x)).1.trans (h.keyed x))
  have port : ∀ {p : PortIx} {c : PortSlot} {q : SlotIx}, c.kind.forwardOwner? = some q →
      (t.da.slots[p] = some c ↔ s.da.slots[p] = some c) := by
    intro p c q hq
    rw [hp]
    constructor
    · intro e
      obtain ⟨d, hd, e⟩ := Option.map_eq_some_iff.1 e
      have hd' : d.kind.forwardOwner? = some q := by rw [← hq, ← e]; rfl
      rw [PortSlot.flagged_owner hd'] at e
      rw [hd, e]
    · intro e
      rw [e, Option.map_some, PortSlot.flagged_owner hq]
  have old : ∀ x, s.Oldest x → t.Oldest ((f x).unassigned.unheld) := by
    intro x hx y hy hg
    rw [hiq] at hy
    obtain ⟨w, hw, rfl⟩ := List.mem_map.1 hy
    rw [Slot.pos_of_key (hk w), Slot.pos_of_key (hk x)]
    exact hx w hw (by rw [← Slot.granule_of_key (hk w), hg, Slot.granule_of_key (hk x)])
  refine k.rebuild hk (by rw [hiq]) (by rw [hiq]) (fun x hx => ?_) (fun q hq => ?_) (by rw [hf]; exact k.once)
    (fun c hc' => by rw [hc] at hc'; simp at hc') (by rw [hc]; simp) (fun p c q hq ho => ?_)
    (fun p p' c c' q h1 h2 h3 h4 => k.sentOnce p p' c c' q ((port h3).1 h1) ((port h4).1 h2) h3 h4)
  · have fx := k.fits hx
    have hix : ((f x).unassigned.unheld).ix = x.ix := Slot.ix_of_key (hk x)
    have hreq : ((f x).unassigned.unheld).req = x.req := Slot.req_of_key (hk x)
    have sent : (∃ (p : PortIx) (c : PortSlot), t.da.slots[p] = some c ∧ c.kind.forwardOwner? = some x.ix) ↔
        x.state = .issued := by
      rw [← fx.sent]
      constructor
      · rintro ⟨p, c, h1, h2⟩; exact ⟨p, c, (port h2).1 h1, h2⟩
      · rintro ⟨p, c, h1, h2⟩; exact ⟨p, c, (port h2).2 h1, h2⟩
    -- the state and the outcome after the reset
    have hst : (x.state = .issued → ((f x).unassigned.unheld).state = .issued) ∧
        (x.state ≠ .issued → ((f x).unassigned.unheld).state = .waiting) ∧
        ((f x).unassigned.unheld).holdEntry = none ∧
        (((f x).unassigned.unheld).outcome = x.outcome ∨
          (x.state = .capturing ∧ ((f x).unassigned.unheld).outcome.isSome)) := by
      have hcx := hcap x hx
      rcases h.slots x hx with e | ⟨e1, e2, e3, e4⟩
      · rw [e] at hcx ⊢
        have hh := fx.held
        by_cases hw : x.state = .held
        · simp [Slot.unheld, Slot.unassigned, hw]
        · have hn : x.holdEntry = none := by simpa [hw] using hh
          simp only [Slot.unheld, Slot.unassigned, hw, if_false, hn, true_or, and_true]
          refine ⟨id, fun hni => ?_⟩
          cases hs : x.state <;> simp_all
      · have hn : x.holdEntry = none := by have hh := fx.held; simpa [e1] using hh
        simp only [Slot.unheld, Slot.unassigned, e2, reduceCtorEq, if_false, e3, hn, e1]
        refine ⟨by simp, fun _ => trivial, trivial, ?_⟩
        rcases e4 with e4 | e4
        · exact Or.inl e4
        · exact Or.inr ⟨trivial, e4⟩
    obtain ⟨hi1, hi2, hi3, hi4⟩ := hst
    constructor
    · rw [hi3]
      by_cases hs : x.state = .issued
      · rw [hi1 hs]; simp
      · rw [hi2 hs]; simp
    · intro ho
      by_cases hs : x.state = .issued
      · rcases hi4 with hi4 | ⟨hi4, _⟩
        · rw [hi4] at ho; have := fx.decided ho; simp [hs] at this
        · rw [hs] at hi4; simp at hi4
      · exact Or.inl (hi2 hs)
    · intro hs
      by_cases hs' : x.state = .issued
      · exact old x (fx.head (Or.inr hs'))
      · rw [hi2 hs'] at hs; simp at hs
    · intro hq
      rw [hix, hf] at hq
      have ha := fx.asked hq
      refine ⟨hi2 (by simp [ha.1]), ?_⟩
      rcases hi4 with hi4 | ⟨hi4, _⟩
      · rw [hi4]; exact ha.2
      · rw [ha.1] at hi4; simp at hi4
    · rw [hc]
      by_cases hs : x.state = .issued
      · rw [hi1 hs]; simp
      · rw [hi2 hs]; simp
    · rw [hix, sent]
      by_cases hs : x.state = .issued
      · simp [hi1 hs, hs]
      · simp [hi2 hs, hs]
    · intro hs ho
      have hs' : x.state ≠ .issued := fun e => hs (hi1 e)
      rw [hreq]
      have hreg : t.inRegion x.req.addr = s.inRegion x.req.addr := by simp [State.inRegion, hr]
      rw [hreg]
      rcases hi4 with hi4 | ⟨_, hi4⟩
      · exact fx.fenced hs' (by rw [← hi4]; exact ho)
      · rw [ho] at hi4; simp at hi4
  · rw [hf] at hq
    obtain ⟨x, hx, h1, _, _, h4⟩ := k.asked q hq
    exact ⟨x, hx, h1, h4⟩
  · obtain ⟨hd, x, hx, h1, _⟩ := k.sent p c q ((port ho).1 hq) ho
    exact ⟨hd, x, hx, h1⟩

theorem State.journalReset_steady (s : State) : Steady s s.journalReset := by
  have ha := s.abortRollback_within
  suffices h : Steady s.abortRollback s.journalReset from ha.steady.trans h
  unfold State.journalReset
  generalize s.abortRollback = u
  extract_lets t
  refine Steady.of_ok (fun k => ?_)
  refine Steady.trans ?_ (State.raise_within _ _).steady
  obtain ⟨f, h, -⟩ := State.abandonAll_to (u.iq.slots.map (·.ix)) u k.distinct
  have hi := State.resetIntake_intake (s := u)
    (t := { t with cu := { touched := [], captures := [] }, da := t.da.journalReset, jw := t.jw.journalReset,
                   ec := t.ec.journalReset }) k rfl rfl ?_ ?_ ?_
  · have hkeys : u.resetIntake.iq.slots.map Slot.key = u.iq.slots.map Slot.key := by
      simp only [State.resetIntake, State.mapSlots_iq, h.iq]
      rw [Keyed.map_key (f := fun x => x.unassigned.unheld)
        (fun x => (Slot.unheld_key _).trans (Slot.unassigned_mild x).1), h.keyed.map_key]
    refine Sound.steady ⟨fun _ => hi, fun ok => ?_⟩ hkeys h.uport
    have hre : t.re = u.re := h.re
    have hec : t.ec = u.ec := h.ec
    have hq' := congrArg SignatureUnit.quiet h.su
    have hq : t.su.quiet = u.su.quiet := hq'
    obtain ⟨evs, he⟩ := h.events
    have heq : t.eq = u.eq.raiseAll evs := he
    exact
      { events := by rw [show ({ t with cu := _, da := _, jw := _, ec := _ } : State).eq = t.eq from rfl, heq]
                     exact ok.events.raiseAll evs
        touched := ⟨by simp, by simp⟩
        pressure := by simp [JournalWriter.PressureOk, JournalWriter.journalReset]
        ranges :=
          { entries := by simp [EpochController.journalReset]
            merged := by simp [EpochController.journalReset]
            retention := by simp only [EpochController.journalReset, hec]; exact ok.ranges.retention
            applied := by simp only [hre]; exact ok.ranges.applied
            discarded := by simp only [hre]; exact ok.ranges.discarded
            failures := by simp only [hre]; exact ok.ranges.failures
            quiet := by simp only [hq]; exact ok.ranges.quiet }
        intake := hi }
  · have : t.da.forward = u.da.forward := congrArg Arbiter.forward h.da
    exact this
  · intro p
    have : t.da.slots = u.da.slots := congrArg Arbiter.slots h.da
    simp only [flagged_slots, this]
  · have : t.jw.region = u.jw.region := congrArg JournalWriter.region h.jw
    exact this

end Sys2Proof.Machine
end

