-- ==== Sys2Proof/Tests/Slice0.lean ====
section
/-! SUPPORT. Tests: ill-formed terms that the checks refuse, frames written out from 12.4, steps of the worked sequences of
the spec, and for each statement with hypotheses a state and operands that meet them, clause by clause. -/
namespace Sys2Proof.Tests

open Sys2Proof Sys2Proof.Machine

-- One theorem at a time: a thread for each test waiting for the kernel would take memory for nothing.
set_option Elab.async false

/-! ## Small states -/

/-- The state a command leaves; the state itself where it stops. -/
def after (c : Instr) (s : State) : State :=
  match exec c s with
  | .next t => t
  | .fault _ | .refused _ => s

/-- A ring of 4,096 lines at page 40000h. -/
def ringAt (head tail : Nat) (p : Pressure) (r : Option Reason) : JournalWriter :=
  { region := some { base := 262144, pages := 16 }, head := head, tail := tail, pressure := p, reason := r, sealJob := none }

/-- An epoch with its open line and its end line. -/
def epochAt (n : EpochNo) (state : EpochState) (first last : Option Nat) : Entry :=
  { Entry.fresh n with state := state, openLine := first, endLine := last }

/-- A bridge in state `b` with the given table and ring. -/
def bridgeAt (b : Bridge) (table : List Entry) (w : JournalWriter) : State :=
  { State.reset with ec := { State.reset.ec with bridge := b, table := table }, jw := w }

/-- JOURNALING, epoch 20 OPEN at line 100, as in the worked sequence of spec/04. -/
def journaling : State := bridgeAt .journaling [epochAt 20#32 .opened (some 100) none] (ringAt 101 100 .normal none)

/-- A WRITE of one byte to granule `g`. -/
def writeTo (g : Granule) : Request :=
  { master := 1, tag := 2, dir := .write, addr := g ++ (0#6 : BitVec 6), length := 1, data := [0x5A#8], mask := [true] }

/-- A READ of 64 bytes of granule `g`. -/
def readOf (g : Granule) : Request :=
  { master := 1, tag := 2, dir := .read, addr := g ++ (0#6 : BitVec 6), length := 64, data := [], mask := [] }

/-- A slot record. -/
def slotOf (q : SlotIx) (r : Request) (state : SlotState) (epoch : Option EpochNo) : Slot :=
  { ix := q, req := r, state := state, pos := q.val, win := none, kind := .journal, epoch := epoch, marking := none,
    holdEntry := none, outcome := none, duty := false, captureEnded := false, atPoint := false }

/-- With the given slots, in acceptance order, and the next position above them. -/
def withSlots (s : State) (l : List Slot) : State := { s with iq := { s.iq with slots := l, nextPos := 16 } }

/-- With window `i` as given in the active table. -/
def withWindow (s : State) (i : WinIx) (w : WinEntry) : State :=
  { s with wu := { s.wu with active := s.wu.active.set i w } }

/-- A window of kind `k` that covers page `p`. -/
def pageWindow (k : WinKind) (p : Page) : WinEntry := { WinEntry.reset with kind := k, base := p, mask := 0x3FFFFFF#26 }

/-- With an unflagged request of kind `k` in D-port slot 7. -/
def withPort (s : State) (k : PortKind) : State :=
  { s with da := { s.da with slots := s.da.slots.set 7 (some { kind := k, discard := false }) } }

/-- With the trip flag of window 0 set. -/
def tripped0 (s : State) : State := { s with wu := { s.wu with trip := 1#16 } }

/-- A capture of epoch 20 for slot 0. -/
def captureOf (line : Option Nat) (old : Option (List Byte)) : Capture :=
  { slot := 0, epoch := 20#32, win := some 0, granule := 5#32, dup := false, step := .reserving, undoLine := line,
    backLink := none, old := old, asked := 0 }

/-- With that capture under way. -/
def withCapture (s : State) (c : Capture) : State :=
  { withSlots s [slotOf 0 (writeTo 5#32) .capturing (some 20#32)] with cu := { s.cu with captures := [c] } }

/-- With the window of slot 0's request. -/
def inWindow0 (x : Slot) : Slot := { x with win := some 0 }

/-- An event queue of `n` records. -/
def queueOf (n lost : Nat) : EventQueue :=
  { records := (List.range n).map (fun i => { seq := BitVec.ofNat 16 (100 + i), event := { code := .fenceHit }, time := 0#32 })
    seq := BitVec.ofNat 16 (100 + n), lost := lost, mask := 0#8, time := 0#32, evtN := true }

/-- Where no D-port slot is occupied and no request is ISSUED or CAPTURING, what remains of `State.IntakeOk` is about lists that
can be run through. -/
theorem intakeOk_of_quiet {s : State} (hd : s.da.slots = Vector.replicate 8 none) (hc : s.cu.captures = [])
    (hs : ∀ x ∈ s.iq.slots, x.state = .waiting ∨ x.state = .held) (h1 : (s.iq.slots.map (·.ix)).Nodup)
    (h2 : s.iq.slots.Pairwise (fun x y => x.pos < y.pos)) (h3 : ∀ x ∈ s.iq.slots, x.pos < s.iq.nextPos)
    (h4 : ∀ x ∈ s.iq.slots, x.state = .held ↔ x.holdEntry.isSome)
    (h5 : ∀ x ∈ s.iq.slots, x.outcome.isSome → x.state = .waiting ∨ x.state = .capturing) (h6 : s.da.forward = [])
    (h7 : ∀ x ∈ s.iq.slots, x.outcome = none → s.inRegion x.req.addr = false) : s.IntakeOk where
  distinct := h1
  order := h2
  before := h3
  held := h4
  decided := h5
  heads x hx h := by rcases hs x hx with a | a <;> simp [a] at h
  asked q h := by simp [h6] at h
  once := by simp [h6]
  records c h := by simp [hc] at h
  capturing x hx h := by rcases hs x hx with a | a <;> simp [a] at h
  recorded := by simp [hc]
  sent p k q h := by simp [hd] at h
  sentOnce p p' k k' q h := by simp [hd] at h
  issued x hx h := by rcases hs x hx with a | a <;> simp [a] at h
  fenced x hx _ h := h7 x hx h

/-! ## WellFormed refuses -/

theorem test_wf_read_with_data : (Instr.uportRequest { readOf 0#32 with data := [0#8] }).wf = false := by decide
theorem test_wf_read_with_mask : (Instr.uportRequest { readOf 0#32 with mask := [true] }).wf = false := by decide
theorem test_wf_write_short_data : (Instr.uportRequest { writeTo 0#32 with data := [] }).wf = false := by decide
theorem test_wf_write_long_mask : (Instr.uportRequest { writeTo 0#32 with mask := [true, true] }).wf = false := by decide
theorem test_wf_forwarded_ack : (Instr.forwardedAck 0 (.ok (List.replicate 65 0#8))).wf = false := by decide
theorem test_wf_old_read_ack : (Instr.oldGranuleReadAck 0 (.ok (List.replicate 63 0#8))).wf = false := by decide
theorem test_wf_record_read_ack : (Instr.recordReadAck 0 (.ok (List.replicate 64 0#8))).wf = false := by decide
theorem test_wf_undo_write_ack : (Instr.undoWriteAck 0 (.ok [0#8])).wf = false := by decide
theorem test_wf_pad_write_ack : (Instr.padWriteAck 0 (.ok [0#8])).wf = false := by decide
theorem test_wf_seal_write_ack : (Instr.sealWriteAck 0 (.ok [0#8])).wf = false := by decide
theorem test_wf_open_write_ack : (Instr.openWriteAck 0 (.ok [0#8])).wf = false := by decide
theorem test_wf_restore_write_ack : (Instr.restoreWriteAck 0 (.ok [0#8])).wf = false := by decide
theorem test_wf_ended_early_complete : (Instr.frameEndedEarly [0x01#8]).wf = false := by decide
theorem test_wf_ended_early_unknown : (Instr.frameEndedEarly [0xFF#8]).wf = false := by decide
theorem test_wf_unknown_is_known : (Instr.unknownCommand 0x01#8).wf = false := by decide
theorem test_wf_accepts :
    (Instr.uportRequest (readOf 0#32)).wf ∧ (Instr.uportRequest (writeTo 0#32)).wf ∧ (Instr.oldGranuleReadAck 0 .error).wf ∧
    (Instr.frameEndedEarly [0x10#8, 0x00#8]).wf ∧ (Instr.unknownCommand 0x00#8).wf := by decide

/-! ## The rows spell no words; frames do -/

theorem test_no_table_word : decodeTableWord 8 1 = none := by decide
theorem test_with_fetch_word : (State.reset.withFetchWord 8 1) = State.reset := by decide +kernel
theorem test_encode_status_read : encodeFrame .statusRead = some [0x01#8] := by decide
theorem test_encode_rollback :
    encodeFrame (.rollback 31#32) = some [0x33#8, 0x1F#8, 0x00#8, 0x00#8, 0x00#8] := by decide

theorem test_bits_of_a_frame :
    decodeBits (bitsOfByte 0x50#8 ++ bitsOfByte 0x02#8 ++ [true]) = .taken (.eventRead 2#8) ∧
    decodeBits (bitsOfByte 0x50#8 ++ [false, false]) = .early := by decide

/-! ## Steps of the worked sequences -/

/-- The check value of the CRC: FFFFFFFFh start, no inversion, the nine digits. -/
theorem test_crc_check :
    crcFeed 0xFFFFFFFF#32 [0x31#8, 0x32#8, 0x33#8, 0x34#8, 0x35#8, 0x36#8, 0x37#8, 0x38#8, 0x39#8] = 0x0376E6E7#32 := by
  decide +kernel

/-- spec/03, event 1: head 4093, a PAD of 3 lines, the UNDO at line 0, head 5, back-link 4088. -/
def acrossTheEnd : State :=
  withCapture (bridgeAt .journaling
    [{ epochAt 20#32 .opened (some 4002) none with lastUndo := some 4088, undos := 18 }] (ringAt 4093 3982 .normal none))
    (captureOf none none)

theorem test_undo_across_the_end :
    let t := after (.undoReservation 0) acrossTheEnd
    t.jw.head = 5 ∧ t.used = 119 ∧ t.free = 3976 ∧ t.da.sealWriter = [.pad 4093 20#32 3] ∧
    (t.capture? 0).map (·.backLink) = some (some 4088) ∧ (t.entry? 20#32).map (·.undos) = some 19 := by decide +kernel

/-- R48: with head 4083 the UNDO leaves 8 lines to the end, and those are the seal allowance. -/
theorem test_seal_allowance : State.allowance { State.reset with jw := ringAt 4083 4 .normal none } = 8 := by decide +kernel

/-- spec/04: the old-granule read of line 101 acknowledged ERROR. -/
theorem test_media_fault_argument :
    (after (.oldGranuleReadAck 7 .error)
        (withPort (withCapture journaling (captureOf (some 101) none)) (.oldRead 0))).eq.records.map (·.event.arg)
      = [0x10000065#32, 0x00000002#32] := by decide +kernel

/-- spec/05: a request merged while an epoch is SEALING, source SEAL and counter 1. -/
theorem test_merged_argument :
    let s := bridgeAt .journaling [epochAt 7#32 .sealing (some 70) none, epochAt 8#32 .opened none none]
      (ringAt 83 40 .normal none)
    let t := after .sealNow (withSlots { s with ec := { s.ec with pending := true } }
      [slotOf 0 (writeTo 5#32) .issued (some 7#32)])
    t.ec.merged = 1 ∧ t.eq.records.map (·.event.arg) = [0x00000101#32] := by decide +kernel

/-- spec/07: thresholds of a ring of 4,096 lines. -/
theorem test_thresholds :
    let s : State := { State.reset with jw := ringAt 0 0 .normal none }
    s.percent 75 = 3072 ∧ s.percent 70 = 2867 ∧ s.percent 90 = 3686 ∧ s.percent 85 = 3481 ∧ s.percent 50 = 2048 := by
  decide +kernel

/-- spec/08: the walk reads line 214 of epoch 31. -/
def walking (step : WalkStep) (kind : PortKind) : State :=
  withPort { bridgeAt .rolling
      [epochAt 30#32 .sealed (some 200) (some 208),
       { epochAt 31#32 .sealed (some 208) (some 221) with lastUndo := some 214 },
       { epochAt 32#32 .opened (some 221) none with lastUndo := some 227 }] (ringAt 232 200 .normal none) with
    re := { State.reset.re with target := some 31#32, phase := .walk, walkEpoch := some 31#32, walkLine := some 214,
                                walkStep := some step, applied := 3, discarded := 1, reach := some 31#32,
                                inHand := some { granule := 1#32, backLink := none, old := List.replicate 64 0#8 } } } kind

theorem test_rollback_failed_argument :
    (after (.recordReadAck 7 .error) (walking .reading .recordRead)).eq.records.map (·.event.arg) = [0x100000D6#32] := by
  decide +kernel

/-- spec/08: FINISH after four restores and one discarded boundary. -/
theorem test_finish :
    let t := after (.restoreWriteAck 7 (.ok [])) (walking .restoring .restoreWrite)
    t.eq.records.map (·.event.arg) = [0x01000004#32] ∧ t.jw.head = 209 ∧ t.used = 9 ∧
    t.ec.table.map (·.number) = [30#32, 33#32] ∧ t.da.sealWriter = [.openRec 208 33#32 (some 200)] := by decide +kernel

/-- spec/10, step 3: a full queue with two lost events, four read. -/
theorem test_events_lost :
    let t := after (.eventRead 4#8) { State.reset with eq := queueOf 32 2 }
    t.eq.records.length = 29 ∧ t.eq.seq = 133#16 ∧ t.eq.lost = 0 ∧
    t.eq.records.getLast?.map (fun r => (r.event.code, r.event.arg)) = some (.eventsLost, 2#32) := by decide +kernel

/-- spec/10, step 1: an enabled class draws the line low. -/
theorem test_line_low :
    (EventQueue.raise { queueOf 30 0 with mask := 1#8 } { code := .warningEntered }).evtN = false := by decide +kernel

/-- R91: an interval of 300 units is 3,000 microseconds. -/
theorem test_timer : (after (.timerSet 300#16 1#8) journaling).ec.timer = some 3000 := by decide +kernel

/-- R187, R191: the bytes of a frame that ends early, and of one that reset cut into, read 00h; outside them MDO is not driven. -/
theorem test_zeros_on_mdo :
    (after (.frameEndedEarly [0x50#8]) State.reset).mdo = .zeros ∧
    (after (.resetEnd true) { State.reset with inReset := true }).mdo = .zeros ∧
    (after .apply { State.reset with noFrame := true }).mdo = .zeros ∧
    (after (.resetEnd false) { State.reset with inReset := true }).mdo = .undriven := by decide +kernel

/-- R63, R65: a released write takes the duty over from a write behind it of its own epoch, and from no other. -/
theorem test_duty_of_the_epoch :
    let behind := fun (e : EpochNo) =>
      { slotOf 1 (writeTo 5#32) .waiting (some e) with marking := some .capture, duty := true }
    let markings := fun (e : EpochNo) =>
      ((withSlots journaling [slotOf 0 (writeTo 5#32) .waiting (some 20#32), behind e]).takeDuty
        (slotOf 0 (writeTo 5#32) .waiting (some 20#32)) 20#32).iq.slots.map (·.marking)
    markings 20#32 = [some .capture, some .noCapture] ∧ markings 19#32 = [some .noCapture, some .capture] := by decide +kernel

/-! ## The hypotheses of the statements are met -/

theorem test_listens : State.reset.Listens ∧ journaling.Listens := by unfold State.Listens; decide +kernel

theorem test_witness_StepTakesFrontCommand :
    ({ State.reset with pending := [.apply] } : State).pending = Instr.apply :: [] := rfl

/-- All sixteen slots occupied. -/
def full : State :=
  withSlots journaling ((List.finRange 16).map (fun q => slotOf q (readOf (BitVec.ofNat 32 (100 + q.val))) .issued none))

theorem test_witness_IdleStepIsAMicrosecond :
    (State.reset.pending = [] ∧ State.reset.inReset = false ∧ State.reset.port = []) ∧
    ({ full with port := [readOf 0#32] }.pending = [] ∧ { full with port := [readOf 0#32] }.inReset = false ∧
      { full with port := [readOf 0#32] }.freeSlot? = none) ∧
    (let s : State := { State.reset with port := [readOf 0#32] }
     s.pending = [] ∧ s.inReset = false ∧ s.port = readOf 0#32 :: [] ∧ s.freeSlot?.isSome) := by decide +kernel

theorem test_witness_Reset :
    let r : State := { State.reset with inReset := true }
    r.inReset = true ∧ State.reset.inReset = false ∧ (encodeFrame .apply).isSome ∧ r.pending = [] ∧ r.iq.slots = [] ∧
    r.ec.table = [] ∧ r.re.phase = .idle := by decide +kernel

theorem test_witness_FramesWithoutACommand :
    let r : State := { State.reset with noFrame := true }
    (State.reset.inReset = false ∧ State.reset.noFrame = false) ∧ r.inReset = false ∧ r.noFrame = true ∧
    (encodeFrame .apply).isSome := by decide +kernel

theorem test_witness_RefusedCommandChangesNothing :
    (encodeFrame (.retentionSet 64#8)).isSome ∧
    (after (.retentionSet 64#8) State.reset).mdo = .answer { args := 1, status := .argument, response := [] } := by
  decide +kernel

theorem test_witness_StatusByBridgeState :
    (encodeFrame .sealNow).isSome ∧ (State.reset.ec.bridge = .passthrough → State.reset.ec.table = []) ∧
    (journaling.ec.bridge = .passthrough → journaling.ec.table = []) := by decide +kernel

theorem test_witness_FrameRoundTrip :
    IsCommand (.rollback 0xFFFFFFFF#32) ∧
    encodeFrame (.rollback 0xFFFFFFFF#32) = some [0x33#8, 0xFF#8, 0xFF#8, 0xFF#8, 0xFF#8] :=
  ⟨⟨by decide, fun _ h => Instr.noConfusion h⟩, by decide⟩

theorem test_witness_FramesRead :
    [true, true, true, true, true, true, true].length < 8 ∧
    IsCommand .statusRead ∧ encodeFrame .statusRead = some [0x01#8] ∧ 0 < [0x01#8].length ∧
    IsCommand (.eventRead 32#8) ∧ encodeFrame (.eventRead 32#8) = some [0x50#8, 0x20#8] ∧ 1 < [0x50#8, 0x20#8].length :=
  ⟨by decide, ⟨by decide, fun _ h => Instr.noConfusion h⟩, by decide, by decide,
    ⟨by decide, fun _ h => Instr.noConfusion h⟩, by decide, by decide⟩

theorem test_witness_AnswerPositions :
    let a : Answer := { args := 1, status := .done, response := [7#8] }
    2 ≤ a.args + 1 ∧ a.response[0]? = some 7#8 ∧ a.response.length ≤ 1 := by decide

theorem test_witness_WindowWrite :
    15 < (16#8).toNat ∧ 4 < (5#8).toNat ∧ 2 ^ 26 ≤ (0x04000000#32).toNat ∧ ((1#8).getLsbD 0 = true ∧ 3#8 ≠ 4#8) ∧
    ((2#8).getLsbD 1 = true ∧ 4#8 ≠ 3#8) ∧
    ¬ (15 < (15#8).toNat ∨ 4 < (4#8).toNat ∨ 2 ^ 26 ≤ (0x03FFFFFF#32).toNat ∨ 2 ^ 26 ≤ (0x03FFFFFF#32).toNat ∨
      ((1#8).getLsbD 0 = true ∧ 4#8 ≠ 4#8) ∨ ((1#8).getLsbD 1 = true ∧ 4#8 ≠ 3#8)) ∧
    (List.replicate 11 0#8).length < 12 := by decide

theorem test_witness_WindowRead :
    1 < (2#8).toNat ∧ 15 < (16#8).toNat ∧ (15 : WinIx).val = (15#8).toNat ∧ (1#8).toNat ≤ 1 := by decide

theorem test_witness_WindowWriteThenRead :
    (after (.windowWrite 15#8 4#8 1#32 1#32 0xFD#8 9#8) State.reset).mdo = .answer { args := 12, status := .done, response := [] } :=
  by decide +kernel

theorem test_witness_Apply : journaling.ec.bridge ≠ .passthrough ∧ State.reset.ec.bridge = .passthrough := by decide

theorem test_witness_ApplyCancel :
    (State.reset.wu.armed = false ∧ (after .apply journaling).wu.armed = true ∧ journaling.ec.bridge ≠ .passthrough) ∧
    ∃ t, exec .applyCancel journaling = .next t := ⟨by decide +kernel, _, rfl⟩

theorem test_witness_WindowMatching :
    let w := { pageWindow .fence 0#26 with mask := 0#26 }
    let s := withWindow (withWindow State.reset 3 w) 5 (pageWindow .journal 0#26)
    (w.kind ≠ .off ∧ w.mask = 0#26) ∧ s.inRegion (readOf 0#32).addr = false ∧
    s.wu.active[(3 : WinIx)].covers (readOf 0#32).addr = true ∧
    (∀ j : WinIx, j < 3 → s.wu.active[j].covers (readOf 0#32).addr = false) ∧
    (∀ i : WinIx, State.reset.wu.active[i].covers (readOf 0#32).addr = false) := by decide +kernel

theorem test_witness_WindowMatching_low_bits :
    ∀ j, 12 ≤ j → (0x12345000#38 : Addr).getLsbD j = (0x12345FFF#38 : Addr).getLsbD j := by
  intro j h
  by_cases hj : j < 38
  · exact (by decide : ∀ j : Fin 38, 12 ≤ j.val → (0x12345000#38 : Addr).getLsbD j = (0x12345FFF#38 : Addr).getLsbD j) ⟨j, hj⟩ h
  · rw [BitVec.getLsbD_of_ge _ _ (by omega), BitVec.getLsbD_of_ge _ _ (by omega)]

/-- FENCE with the read fence at window 0, a tripped PASS window at 1. -/
def fenced : State :=
  let s := withWindow (withWindow State.reset 0 { pageWindow .fence 0#26 with readFence := true }) 1 (pageWindow .pass 1#26)
  { s with wu := { s.wu with trip := 2#16 } }

theorem test_witness_DecisionsAtAcceptance :
    journaling.jw.region = some { base := 262144, pages := 16 } ∧ State.reset.jw.region = none ∧
    journaling.inRegion 0x0040000000#38 = true ∧ journaling.inRegion 0x004000FFFF#38 = true ∧
    journaling.inRegion 0x0040010000#38 = false ∧ journaling.inRegion 0x003FFFFFFF#38 = false ∧
    fenced.inRegion (readOf 0#32).addr = false ∧ (fenced.classify (readOf 0#32)).1 = some 0 ∧
    fenced.wu.active[(0 : WinIx)].kind = .fence ∧ fenced.wu.active[(0 : WinIx)].readFence = true ∧
    (fenced.classify (writeTo 64#32)).1 = some 1 ∧ fenced.wu.active[(1 : WinIx)].kind ≠ .fence ∧
    fenced.wu.trip.getLsbD 1 = true ∧ (readOf 64#32).dir = .read ∧
    (let s := withWindow State.reset 0 (pageWindow .fence 0#26)
     (s.classify (readOf 0#32)).1 = some 0 ∧ s.wu.active[(0 : WinIx)].readFence = false) ∧
    fenced.inRegion (writeTo 128#32).addr = false ∧ (fenced.classify (writeTo 128#32)).1 = none := by decide +kernel

theorem test_witness_MalformedAndBackPressure :
    (State.reset.inReset = false ∧ State.reset.port = [] ∧ State.reset.freeSlot? = some 0) ∧
    ({ readOf 0#32 with length := 0 }.length = 0 ∧ 64 < { readOf 0#32 with length := 65 }.length ∧
      64 < { readOf 0#32 with addr := 1#38 }.addr.toNat % 64 + (readOf 0#32).length ∧
      ({ writeTo 0#32 with mask := [false] }.dir = .write ∧ ∀ b ∈ { writeTo 0#32 with mask := [false] }.mask, b = false)) ∧
    full.freeSlot? = none := by decide +kernel

/-- `s` with window 0 a JOURNAL window over page 0. -/
def journaled (s : State) : State := withWindow s 0 (pageWindow .journal 0#26)

theorem test_witness_AcceptedOutsideAnEpoch :
    (∀ b : Bridge, (bridgeAt b [] (ringAt 0 0 .normal none)).Accepts 0 (readOf 5#32)) ∧
    (State.reset.classify (writeTo 5#32)).2.1.journaled = false ∧ State.reset.ec.bridge = .passthrough ∧
    (readOf 5#32).dir = .read ∧
    (let s := tripped0 (journaled (bridgeAt .rolling [] (ringAt 0 0 .normal none)))
     (s.classify (writeTo 5#32)).2.1.journaled = true ∧ (s.classify (writeTo 5#32)).2.2.isSome ∧ s.ec.bridge ≠ .journaling) ∧
    (∀ b : Bridge, b = .rolling ∨ b = .closing ∨ b = .halted →
      ((journaled (bridgeAt b [] (ringAt 0 0 .normal none))).classify (writeTo 5#32)).2.1.journaled = true ∧
      ((journaled (bridgeAt b [] (ringAt 0 0 .normal none))).classify (writeTo 5#32)).2.2 = none) := by
  refine ⟨?_, by decide +kernel, rfl, rfl, by decide +kernel, ?_⟩
  · intro b; cases b <;> (unfold State.Accepts; decide +kernel)
  · intro b _; cases b <;> decide +kernel

/-- A touched set of `n` granules, none of them granule 5. -/
def touching (s : State) (n : Nat) : State :=
  { s with cu := { s.cu with touched := (List.range n).map (fun i => BitVec.ofNat 32 (1000 + i)) } }

theorem test_witness_JournaledWriteLookedUp :
    let s := journaled journaling
    s.Accepts 0 (writeTo 5#32) ∧ s.ec.bridge = .journaling ∧ (writeTo 5#32).dir = .write ∧
    (s.classify (writeTo 5#32)).2.1.journaled = true ∧ (s.classify (writeTo 5#32)).2.2 = none ∧
    s.openEntry? = some (epochAt 20#32 .opened (some 100) none) ∧ s.jw.pressure ≠ .suspended ∧ s.iq.slots = [] ∧
    (s.classify (writeTo 5#32)).1 = some 0 ∧ (s.su.quiet[(0 : WinIx)]).dormant = false ∧
    granuleOf (writeTo 5#32).addr ∉ s.cu.touched := by unfold State.Accepts; decide +kernel

theorem test_witness_JournaledWriteLookedUp_sets :
    granuleOf (writeTo 1000#32).addr ∈ (touching journaling 1).cu.touched ∧
    granuleOf (writeTo 5#32).addr ∉ (touching journaling 1023).cu.touched ∧
    (touching journaling 1023).cu.touched.length < 1024 ∧
    granuleOf (writeTo 5#32).addr ∉ (touching journaling 1024).cu.touched ∧
    1024 ≤ (touching journaling 1024).cu.touched.length := by decide +kernel

theorem test_witness_UncapturedWhenNotLookedUp :
    let e := epochAt 20#32 .opened (some 100) none
    let s := journaled (bridgeAt .journaling [e] (ringAt 101 100 .suspended (some .media)))
    let b := journaled (bridgeAt .journaling [{ e with broken := some .media }] (ringAt 101 100 .normal none))
    (s.Accepts 0 (writeTo 5#32) ∧ (s.classify (writeTo 5#32)).2.1.journaled = true ∧ s.openEntry? = some e ∧
      s.entry? e.number = some e ∧ s.jw.pressure = .suspended) ∧
    (b.Accepts 0 (writeTo 5#32) ∧ (b.classify (writeTo 5#32)).2.1.journaled = true ∧
      b.openEntry? = some { e with broken := some .media } ∧ b.jw.pressure ≠ .suspended) ∧
    ((tripped0 (journaled journaling)).classify (writeTo 5#32)).2.2.isSome := by unfold State.Accepts; decide +kernel

/-- A request HELD since time 0, the hold limit 300. -/
def holding (now : Time) : State :=
  let s := withSlots journaling [{ slotOf 0 (writeTo 5#32) .held none with holdEntry := some 0#32 }]
  { s with iq := { s.iq with holdLimit := 300#16 }, eq := { s.eq with time := now } }

theorem test_witness_HoldTimeout :
    let x := { slotOf 0 (writeTo 5#32) .held none with holdEntry := some 0#32 }
    ((holding 300#32).slot? 0 = some x ∧ x.state = .held ∧ (holding 300#32).iq.holdLimit ≠ 0#16 ∧
      (holding 300#32).iq.holdLimit.toNat ≤ ((holding 300#32).eq.time - x.holdEntry.getD (holding 300#32).eq.time).toNat) ∧
    ((holding 299#32).slot? 0 = some x ∧
      ((holding 299#32).eq.time - x.holdEntry.getD (holding 299#32).eq.time).toNat < (holding 299#32).iq.holdLimit.toNat) := by
  decide +kernel

/-- With `c` last granted. -/
def granted (s : State) (c : Claimant) : State := { s with da := { s.da with lastGranted := c } }

/-- With the given ready lists. -/
def ready (s : State) (fwd : List SlotIx) (cap : List CaptureReq) (sw : List RecordReq) (rb : Option WalkReq) : State :=
  { s with da := { s.da with forward := fwd, capture := cap, sealWriter := sw, rollback := rb } }

theorem test_witness_GrantShapes :
    let s := withSlots journaling [slotOf 0 (writeTo 5#32) .waiting none]
    let c := withCapture journaling (captureOf (some 4091) (some (List.replicate 64 7#8)))
    journaling.Grantable 0 ∧ journaling.Grantable 7 ∧
    (s.slot? 0 = some (slotOf 0 (writeTo 5#32) .waiting none) ∧ s.tripped none = false ∧
      s.da.lastGranted = .rollbackEngine ∧ (ready s [0] [] [] none).da.forward = 0 :: []) ∧
    ((ready c [] [.oldRead 0] [] none).da.capture = .oldRead 0 :: [] ∧ (ready c [] [.undoWrite 0] [] none).da.capture = .undoWrite 0 :: [] ∧
      c.capture? 0 = some (captureOf (some 4091) (some (List.replicate 64 7#8))) ∧ (List.replicate 64 7#8).length = 64) ∧
    (journaling.entry? 20#32 = some (epochAt 20#32 .opened (some 100) none) ∧ journaling.sealBlocked 20#32 = false) ∧
    ((ready s [] [] [.sealRec 0 20#32 []] none).da.sealWriter = .sealRec 0 20#32 [] :: [] ∧
      (granted s .capturePath).da.lastGranted = .capturePath) := by unfold State.Grantable; decide +kernel

/-- A claimant whose ready list is empty is passed over. -/
theorem passedOver_ready {s : State} {fwd : List SlotIx} {cap : List CaptureReq} {sw : List RecordReq} {rb : Option WalkReq}
    (c : Claimant) (h : match c with
      | .forwardPath => fwd = []
      | .capturePath => cap = []
      | .sealWriter => sw = []
      | .rollbackEngine => rb = none) : (ready s fwd cap sw rb).PassedOver c := by
  cases c <;> simp [State.PassedOver, State.CanSend, ready, h]

theorem test_witness_GrantShapes_turn :
    (ready journaling [0] [] [] none).Turn .forwardPath ∧ (ready journaling [] [.oldRead 0] [] none).Turn .capturePath ∧
    (ready journaling [] [] [.pad 0 20#32 1] none).Turn .sealWriter ∧
    (ready journaling [] [] [] (some (.recordRead 214))).Turn .rollbackEngine := by
  refine ⟨?_, ?_, ?_, ?_⟩ <;> intro d hd <;> refine passedOver_ready d ?_ <;>
    cases d <;> first | rfl | exact absurd hd (by decide)

theorem test_witness_GrantShapes_rollback :
    let rec' : Record := { granule := 3#32, backLink := none, old := List.replicate 64 0#8 }
    let s := { walking .restoring .restoreWrite with da :=
      { State.reset.da with rollback := some (.restore rec'), lastGranted := .sealWriter } }
    (s.Grantable 0 ∧ s.da.rollback = some (.restore rec') ∧ rec'.old.length = 64 ∧ s.re.walkEpoch = some 31#32 ∧
      (rotation s.da.lastGranted).takeWhile (fun d => d != .rollbackEngine) = []) ∧ s.WalkPortFree := by
  refine ⟨by unfold State.Grantable; decide +kernel, fun p k h => ?_⟩
  have free : ∀ p : PortIx, State.reset.da.slots[p] = none := by decide +kernel
  exact absurd h (by simp [free p])

/-- R164: a restore write that JOURNAL RESET left flagged keeps the rollback engine's next request back until it is acknowledged. -/
theorem test_one_rollback_slot :
    let s := { walking .reading .recordRead with da := { State.reset.da with
      slots := State.reset.da.slots.set 7 (some { kind := .restoreWrite, discard := true }), rollback := some (.recordRead 214) } }
    (after (.daGrant 0) s).dport = [] ∧ (after (.daGrant 0) s).da = s.da ∧
    (after (.daGrant 0) (after (.discardedAck 7 (.ok [])) s)).dport.map (·.length) = [80] := by decide +kernel

theorem test_witness_GrantRotation :
    let s := ready journaling [] [] [.pad 0 20#32 1] none
    (s.inReset = false ∧ s.da.slots[(7 : PortIx)] = none ∧ s.CanSend .sealWriter ∧
      (withPort s .recordRead).da.slots[(7 : PortIx)] ≠ none) ∧
    ∀ c, (ready journaling [] [] [] none).PassedOver c := by
  refine ⟨⟨rfl, by decide +kernel, ⟨_, _, rfl, trivial⟩, by decide +kernel⟩, fun c => ?_⟩
  exact passedOver_ready c (by cases c <;> rfl)

theorem test_witness_GrantRotation_withdrawn :
    let x := inWindow0 (slotOf 0 (writeTo 5#32) .waiting none)
    let s := withSlots (tripped0 journaling) [x, slotOf 1 (readOf 6#32) .waiting none]
    (s.Grantable 7 ∧ (ready s [0, 1] [] [] none).da.forward = 0 :: [1] ∧ [0, 1].Nodup ∧ s.slot? 0 = some x ∧
      x.req.dir = .write ∧ s.tripped x.win = true) ∧
    ∀ c, c ≠ .forwardPath → (ready s [0] [] [] none).PassedOver c := by
  refine ⟨by unfold State.Grantable; decide +kernel, fun c h => passedOver_ready c ?_⟩
  cases c <;> first | rfl | exact absurd rfl h

theorem test_witness_intake :
    State.reset.IntakeOk ∧ (withSlots journaling [slotOf 0 (writeTo 5#32) .waiting none]).IntakeOk ∧
    (holding 300#32).IntakeOk := by
  refine ⟨?_, ?_, ?_⟩ <;> refine intakeOk_of_quiet ?_ ?_ ?_ ?_ ?_ ?_ ?_ ?_ ?_ ?_ <;> decide +kernel

/-- A write of epoch 20 that carries the capture duty for its granule. -/
def assigned : State :=
  withSlots journaling [{ slotOf 0 (writeTo 5#32) .waiting (some 20#32) with marking := some .capture, duty := true }]

theorem assigned_ok : assigned.Ok := by
  refine ⟨⟨by decide, ?_, by decide, by decide, by decide⟩, ⟨by decide, by decide⟩, ?_,
    ⟨?_, by decide, by decide, by decide, by decide, by decide, by decide +kernel⟩, ?_⟩
  · intro i r h; simp [assigned, withSlots, journaling, bridgeAt, State.reset] at h
  · unfold JournalWriter.PressureOk; decide
  · unfold Entry.CountsOk; decide
  · refine intakeOk_of_quiet ?_ ?_ ?_ ?_ ?_ ?_ ?_ ?_ ?_ ?_ <;> decide +kernel

theorem assigned_epochsOk : assigned.EpochsOk ∧ assigned.NumberLeft := by
  have only : ∀ y ∈ assigned.ec.table, y = epochAt 20#32 .opened (some 100) none := by decide +kernel
  refine ⟨⟨⟨by decide, ⟨[], [], _, rfl, by decide, by decide, by decide, by decide, rfl⟩, ?_, by decide +kernel, by decide,
      by decide, by decide, by decide, fun x hx _ => ⟨_, List.mem_singleton.mpr rfl, ?_⟩, by decide +kernel,
      ⟨by decide +kernel, ?_⟩, ⟨by decide +kernel, (fun _ h => nomatch h)⟩, (fun h => nomatch h), by decide +kernel,
      by decide +kernel, by decide +kernel, fun h => by simp [assigned, withSlots, journaling, bridgeAt] at h⟩,
    ⟨⟨fun g h => by cases h; decide, fun _ => rfl⟩, by decide +kernel, ?_, ?_, ⟨rfl, rfl⟩, by decide +kernel, by decide +kernel,
      (fun _ h => nomatch h), by decide +kernel, by decide +kernel⟩,
    ⟨by decide +kernel, by decide +kernel, by decide +kernel⟩⟩, by unfold State.NumberLeft; decide +kernel⟩
  · intro f r h; cases h; decide +kernel
  · have h : ∀ x ∈ assigned.iq.slots, x.epoch = some 20#32 := by decide +kernel
    exact ⟨h x hx, by decide, rfl⟩
  · have h : assigned.sealWrites = [] := by decide +kernel
    simp [h]
  · intro y hy
    rw [only y hy]
    refine ⟨fun l h => ?_, (fun l h => nomatch h), (fun l h => nomatch h), (fun l h => nomatch h)⟩
    cases h; decide +kernel
  · intro y hy
    rw [only y hy]
    refine ⟨rfl, rfl, by decide +kernel, (fun h => nomatch h)⟩

theorem test_witness_EpochsAndRingKept : assigned.Ok ∧ assigned.EpochsOk ∧ assigned.NumberLeft ∧ ∃ t, step assigned = .next t :=
  ⟨assigned_ok, assigned_epochsOk.1, assigned_epochsOk.2, _, rfl⟩

theorem test_witness_NoFencedRequestIsIssued :
    (assigned.IntakeOk ∧ assigned.Ok ∧ assigned.EpochsOk ∧ assigned.NumberLeft ∧ assigned.Grantable 0) ∧
    (let x := { slotOf 0 (writeTo 5#32) .waiting (some 20#32) with marking := some .capture, duty := true }
     x ∈ assigned.iq.slots ∧ x.epoch = some 20#32 ∧ x.duty = true ∧
       (after .applyCancel assigned).entry? 20#32 = some (epochAt 20#32 .opened (some 100) none)) ∧
    (let s := withPort (withCapture journaling (captureOf (some 101) (some (List.replicate 64 0#8)))) (.undoWrite 0)
     (s.slot? 0).map (·.captureEnded) = some false ∧
       ((after (.undoWriteAck 7 (.ok [])) s).slot? 0).map (·.captureEnded) = some true) :=
  ⟨⟨assigned_ok.intake, assigned_ok, assigned_epochsOk.1, assigned_epochsOk.2, by unfold State.Grantable; decide +kernel⟩,
    by decide +kernel, by decide +kernel⟩
/-- A WRITE of epoch 20 through window 0 on D-port slot 7, the OPEN bank being epoch `o`'s, the SEALING bank epoch `c`'s. -/
def forwarding (o c : Option EpochNo) : State :=
  let s := withPort (withSlots journaling [inWindow0 (slotOf 0 (writeTo 5#32) .issued (some 20#32))]) (.fwdWrite 0)
  { s with su := { s.su with openBank := { s.su.openBank with epoch := o }
                             sealingBank := { s.su.sealingBank with epoch := c } } }

theorem test_witness_ForwardedAckAnswers :
    let s := forwarding (some 20#32) none
    let x := inWindow0 (slotOf 0 (writeTo 5#32) .issued (some 20#32))
    s.da.slots[(7 : PortIx)] = some { kind := .fwdWrite 0, discard := false } ∧
    PortKind.forwardOwner? (.fwdWrite 0) = some 0 ∧ s.slot? 0 = some x ∧ x.req.dir = .write ∧ x.epoch = some 20#32 ∧
    x.win = some 0 ∧ s.su.openBank.epoch = some 20#32 ∧ (forwarding none (some 20#32)).su.sealingBank.epoch = some 20#32 ∧
    (forwarding none none).su.sealingBank.epoch ≠ some 20#32 ∧ (slotOf 0 (writeTo 5#32) .issued none).epoch = none ∧
    (readOf 5#32).dir = .read := by decide +kernel

/-- Flagged ring requests in slots 6 and 7, record writes held back. -/
def flagged : State :=
  { journaling with da := { journaling.da with
      slots := (journaling.da.slots.set 6 (some { kind := .recordRead, discard := true })).set 7
        (some { kind := .undoWrite 0, discard := true })
      heldCapture := [1] } }

theorem test_witness_DroppedAcks :
    flagged.da.slots[(7 : PortIx)] = some { kind := .undoWrite 0, discard := true } ∧
    flagged.da.slots[(6 : PortIx)] = some { kind := .recordRead, discard := true } ∧
    PortKind.isRing .recordRead = true ∧ flagged.da.slots[(0 : PortIx)] = none ∧
    (∀ p' : PortIx, p' ≠ 7 → (withPort journaling .recordRead).da.slots[p'] = none) := by decide +kernel

theorem test_witness_UndoReservationPlaces :
    let c := captureOf none none
    let s := withCapture journaling c
    (s.Reserving 0 c ∧ s.jw.pressure ≠ .suspended ∧ 10 + s.undoPad + 5 + s.allowance ≤ s.free ∧
      s.entry? c.epoch = some (epochAt 20#32 .opened (some 100) none) ∧ s.undoPad = 0) ∧
    (acrossTheEnd.Reserving 0 c ∧ acrossTheEnd.undoPad = 3 ∧ acrossTheEnd.holdsBack = false ∧
      10 + acrossTheEnd.undoPad + 5 + acrossTheEnd.allowance ≤ acrossTheEnd.free) ∧
    { acrossTheEnd with da := flagged.da }.holdsBack = true := by unfold State.Reserving; decide +kernel

/-- Two epochs, the older SEALED, `used` lines in use. -/
def filled (used : Nat) (p : Pressure) (r : Option Reason) : State :=
  withCapture (bridgeAt .journaling [epochAt 19#32 .sealed (some 0) (some 800), epochAt 20#32 .opened (some 800) none]
    (ringAt used 0 p r)) (captureOf none none)

theorem test_witness_UndoReservationPlaces_commit :
    let s := filled 3681 .warning none
    s.Reserving 0 (captureOf none none) ∧ s.percent 90 ≤ s.usedAfterUndo ∧ s.usedAfterUndo = 3686 ∧
    s.ec.bridge = .journaling ∧ 10 + s.undoPad + 5 + s.allowance ≤ s.free ∧
    s.ec.table = epochAt 19#32 .sealed (some 0) (some 800) :: [epochAt 20#32 .opened (some 800) none] ∧
    (filled 3680 .warning none).usedAfterUndo < (filled 3680 .warning none).percent 90 := by
  unfold State.Reserving; decide +kernel

theorem test_witness_UndoReservationPlaces_ninety :
    (∀ b ∈ [Bridge.journaling, .closing], ∀ p ∈ [Pressure.normal, .warning, .constrained],
      let s : State := { filled 3681 p none with ec := { (filled 3681 p none).ec with bridge := b } }
      s.percent 90 ≤ s.usedAfterUndo ∧ (s.undoHead + s.ringLines - 800) % s.ringLines = 2886) ∧
    (let s := withCapture (bridgeAt .journaling [epochAt 20#32 .opened (some 0) none] (ringAt 3681 0 .warning none))
       (captureOf none none)
     s.Reserving 0 (captureOf none none) ∧ s.percent 90 ≤ s.usedAfterUndo ∧ 10 + s.undoPad + 5 + s.allowance ≤ s.free ∧
       (s.ec.table.head?).map (·.state) = some .opened) := by unfold State.Reserving; decide +kernel

theorem test_witness_UndoReservationRefused :
    let x := slotOf 0 (writeTo 5#32) .capturing (some 20#32)
    (let s := filled 10 .suspended (some .media)
     s.Reserving 0 (captureOf none none) ∧ s.slot? 0 = some x ∧ x.outcome = none ∧ s.jw.pressure = .suspended ∧
       s.tripped x.win = false) ∧
    (let s := filled 4081 .constrained none
     s.Reserving 0 (captureOf none none) ∧ s.slot? 0 = some x ∧ s.jw.pressure ≠ .suspended ∧
       s.free < 10 + s.undoPad + 5 + s.allowance ∧
       s.ec.table = [epochAt 19#32 .sealed (some 0) (some 800)] ++ [epochAt 20#32 .opened (some 800) none]) ∧
    (tripped0 (filled 10 .suspended (some .media))).tripped (some 0) = true := by unfold State.Reserving; decide +kernel

theorem test_witness_CaptureAcks :
    let c := captureOf (some 101) (some (List.replicate 64 0#8))
    let s := withCapture journaling c
    ((withPort s (.oldRead 0)).Outstanding 7 (.oldRead 0) ∧ (withPort s (.oldRead 0)).capture? 0 = some c ∧
      (withPort s (.oldRead 0)).holdsBack = false) ∧
    ((withPort s (.undoWrite 0)).Outstanding 7 (.undoWrite 0) ∧
      (withPort s (.undoWrite 0)).slot? 0 = some (slotOf 0 (writeTo 5#32) .capturing (some 20#32))) ∧
    (withPort { s with da := { s.da with slots := s.da.slots.set 6 (some { kind := .recordRead, discard := true }) } }
      (.oldRead 0)).holdsBack = true := by unfold State.Outstanding; decide +kernel

theorem test_witness_CaptureMediaFaults :
    let c := captureOf (some 4091) none
    let s := withCapture journaling c
    let x := slotOf 0 (writeTo 5#32) .capturing (some 20#32)
    ((withPort s (.oldRead 0)).capture? 0 = some c ∧ (withPort s (.oldRead 0)).slot? 0 = some x ∧ x.outcome = none ∧
      (withPort s (.oldRead 0)).Outstanding 7 (.oldRead 0)) ∧
    (withPort s (.undoWrite 0)).Outstanding 7 (.undoWrite 0) := by unfold State.Outstanding; decide +kernel

theorem test_witness_PadAndOpenAcks :
    (withPort journaling (.padWrite 4093 20#32)).Outstanding 7 (.padWrite 4093 20#32) ∧
    (withPort journaling (.openWrite 0 20#32)).Outstanding 7 (.openWrite 0 20#32) := by
  unfold State.Outstanding; decide +kernel

/-- Epoch 20 SEALING with its SEAL record on D-port slot 7, epoch 21 OPEN. -/
def sealing (b : Bridge) (pending closing : Bool) : State :=
  let s := withPort (bridgeAt b [{ epochAt 20#32 .sealing (some 100) none with sealLine := some 106 },
    epochAt 21#32 .opened none none] (ringAt 108 100 .normal none)) (.sealWrite 106 20#32)
  { s with ec := { s.ec with pending := pending, closing := closing }
           jw := { s.jw with sealJob := some { epoch := 20#32, line := 106, sigs := [], after := 108 } } }

theorem test_witness_SealWriteAck :
    let x := { epochAt 20#32 .sealing (some 100) none with sealLine := some 106 }
    let o := epochAt 21#32 .opened none none
    ∀ b ∈ [Bridge.journaling, .rolling], ∀ pc ∈ [(false, false), (true, false), (true, true)],
      let s := sealing b pc.1 pc.2
      s.Outstanding 7 (.sealWrite 106 20#32) ∧ s.ec.bridge ≠ .closing ∧ s.NumbersOk ∧ s.entry? 20#32 = some x ∧
      x.state = .sealing ∧ s.openEntry? = some o ∧ x.broken = none ∧
      s.jw.sealJob = some { epoch := 20#32, line := 106, sigs := [], after := 108 } ∧ s.jw.head < s.ringLines ∧ 1 ≤ s.free ∧
      s.sealedCount < s.ec.retention ∧ s.ec.table.length < 64 ∧ s.ec.table = [] ++ x :: [o] := by
  unfold State.Outstanding State.NumbersOk; decide +kernel

theorem test_witness_SealWriteAck_commits :
    let y := epochAt 19#32 .sealed (some 90) (some 100)
    let x := { epochAt 20#32 .sealing (some 100) none with sealLine := some 106 }
    let o := epochAt 21#32 .opened none none
    let s := fun (x' : Entry) (w : JournalWriter) =>
      withPort ({ bridgeAt .journaling [y, x', o] { w with sealJob := some { epoch := 20#32, line := 106, sigs := [], after := w.head } }
        with ec := { (bridgeAt .journaling [y, x', o] w).ec with retention := 1 } }) (.sealWrite 106 20#32)
    (let d := s x (ringAt 108 90 .normal none)
     d.Outstanding 7 (.sealWrite 106 20#32) ∧ d.NumbersOk ∧ d.entry? 20#32 = some x ∧ d.openEntry? = some o ∧
       1 ≤ d.free ∧ d.ec.retention ≤ d.sealedCount ∧ d.ec.pending = false ∧ d.ec.table = y :: [x, o] ∧ y.endLine = some 100) ∧
    (let b := s { x with broken := some .media } (ringAt 108 90 .normal none)
     b.entry? 20#32 = some { x with broken := some .media } ∧ b.ec.table = [y] ++ { x with broken := some .media } :: [o] ∧
       2 ≤ b.ringLines) ∧
    (let f := s x (ringAt 108 109 .constrained none)
     f.free = 0 ∧ f.jw.head < f.ringLines ∧ f.ec.table = [y] ++ x :: [o]) ∧
    (let r := s x (ringAt 108 90 .suspended (some .media))
     r.jw.pressure = .suspended ∧ 1 ≤ r.free) := by unfold State.Outstanding State.NumbersOk; decide +kernel

theorem test_witness_ClosingEnds :
    let x := { epochAt 20#32 .sealing (some 100) none with sealLine := some 106 }
    let s : State := { sealing .closing false false with ec := { (sealing .closing false false).ec with table := [x] } }
    s.Outstanding 7 (.sealWrite 106 20#32) ∧ s.ec.bridge = .closing ∧ s.entry? 20#32 = some x ∧
    (∀ y ∈ s.ec.table, y.number = 20#32 ∨ y.state = .sealed) := by unfold State.Outstanding; decide +kernel

/-- The timer due, the strobe enabled on rising edges. -/
def sources (s : State) : State := { s with ec := { s.ec with timer := some 0, strobeEnable := true } }

theorem test_sources_request :
    let s := sources journaling
    s.Requests .sealNow .sealCommand (.answer answerDone) ∧ s.Requests .disable .disable (.answer answerDone) ∧
    s.Requests .epochTimerExpiry .timer .undriven ∧ s.Requests (.epochInEdge .rising) .strobe .undriven := by
  simp only [State.Requests, State.Listens]; decide +kernel

theorem test_witness_BoundaryTaken :
    let s := sources journaling
    let t := sources (bridgeAt .journaling ((List.range 63).map (fun i => epochAt (BitVec.ofNat 32 i) .sealed (some i) (some (i + 1)))
      ++ [epochAt 63#32 .opened (some 63) none]) (ringAt 64 0 .normal none))
    (s.ec.bridge = .journaling ∧ s.sealingEntry? = none ∧ s.openEntry? = some (epochAt 20#32 .opened (some 100) none) ∧
      s.ec.table.length < 64) ∧
    t.ec.bridge = .journaling ∧ t.sealingEntry? = none ∧ t.openEntry?.isSome ∧ t.ec.table.length = 64 ∧
    (t.ec.table.head?).map (·.state) = some .sealed ∧ t.ec.timer = some 0 := by decide +kernel

theorem test_witness_BoundaryWhileSealing :
    ∀ pending ∈ [false, true],
      (sources (sealing .journaling pending false)).ec.bridge = .journaling ∧
      (sources (sealing .journaling pending false)).sealingEntry?.isSome ∧
      (sources (sealing .journaling pending false)).ec.pending = pending ∧
      (sources (sealing .journaling pending false)).ec.timer = some 0 := by decide +kernel

theorem test_witness_DisableAndSeal :
    (journaling.ec.bridge = .journaling ∧ journaling.sealingEntry? = none) ∧ State.reset.ec.bridge = .passthrough ∧
    (bridgeAt .closing [] (ringAt 0 0 .normal none)).ec.bridge = .closing ∧
    (bridgeAt .halted [] (ringAt 0 0 .normal none)).ec.bridge = .halted := by decide +kernel

theorem test_witness_DiscardedAndIgnoredRequests :
    let s := sources (bridgeAt .rolling [] (ringAt 0 0 .normal none))
    s.ec.timer = some 0 ∧ s.ec.bridge = .rolling ∧ s.inReset = false ∧ s.ec.strobeEnable = true ∧ s.ec.strobePolarity = .rising ∧
    State.reset.ec.timer ≠ some 0 ∧ State.reset.ec.strobeEnable = false ∧ s.ec.strobePolarity ≠ .falling ∧
    (sources State.reset).ec.bridge = .passthrough := by decide +kernel

theorem test_witness_ConsequencesOfAnAction :
    let e := epochAt 20#32 .sealing (some 100) none
    let s := bridgeAt .journaling [e, epochAt 21#32 .opened none none] (ringAt 106 100 .normal none)
    (∀ x ∈ journaling.iq.slots, x.state ≠ .waiting) ∧ journaling.re.phase ≠ .drain ∧ journaling.sealingEntry? = none ∧
    (∀ x ∈ s.iq.slots, x.state ≠ .waiting) ∧ s.re.phase ≠ .drain ∧ s.sealingEntry? = some e ∧ s.entry? e.number = some e ∧
    e.sealLine = none ∧ (∀ x ∈ s.iq.slots, x.epoch = some e.number → x.state = .held) ∧ s.jw.head < s.ringLines ∧
    17 ≤ s.free ∧ s.holdsBack = false := by decide +kernel

/-- A write of epoch 20 with the capture duty and the outcome `o`, and a write behind it that could receive the duty. -/
def headOf (o : Option Decided) : Slot :=
  { slotOf 0 (writeTo 5#32) .waiting (some 20#32) with marking := some .capture, duty := true, outcome := o }
def heirOf : Slot := { slotOf 1 (writeTo 5#32) .waiting (some 20#32) with marking := some .noCapture }

theorem test_witness_ConsequencesOfAnAction_heads :
    (∀ o ∈ [none, some Decided.fenced], (withSlots journaling [headOf o, heirOf]).OnlyHead (headOf o)) ∧
    (withSlots journaling [headOf (some .fenced), heirOf]).HeirOf (headOf (some .fenced)) heirOf ∧
    (∀ y, ¬ (withSlots journaling [headOf (some .fenced)]).MayInherit (headOf (some .fenced)) y) ∧
    (headOf none).needsCapture = true ∧ (headOf none).atPoint = false ∧ (headOf none).epoch = journaling.openEpoch? ∧
    journaling.isBroken 20#32 = false ∧ (journaling.openLineOf 20#32).isSome ∧ journaling.tripped none = false ∧
    (tripped0 journaling).tripped (some 0) = true ∧
    (bridgeAt .journaling [{ epochAt 20#32 .opened (some 100) none with broken := some .media }]
      (ringAt 101 100 .normal none)).isBroken 20#32 = true ∧
    (bridgeAt .journaling [epochAt 20#32 .opened none none] (ringAt 101 100 .normal none)).openLineOf 20#32 = none := by
  refine ⟨by unfold State.OnlyHead State.Oldest; decide +kernel, ⟨by unfold State.MayInherit; decide +kernel, ?_⟩, ?_,
    by decide +kernel⟩
  · rintro z ⟨hz, -, h, -⟩
    have all : ∀ z ∈ (withSlots journaling [headOf (some .fenced), heirOf]).iq.slots,
        (headOf (some .fenced)).pos < z.pos → heirOf.pos ≤ z.pos := by decide +kernel
    exact all z hz h
  · rintro y ⟨hy, -, h, -⟩
    have all : ∀ y ∈ (withSlots journaling [headOf (some .fenced)]).iq.slots, ¬ (headOf (some .fenced)).pos < y.pos := by
      decide +kernel
    exact all y hy h

theorem test_witness_ConsequencesOfAnAction_settled :
    let s := withSlots journaling [{ headOf none with atPoint := true }]
    s.IntakeOk ∧ s.HeadsSettled ∧ s.NoSealDue ∧ s.re.phase ≠ .drain := by
  refine ⟨?_, by unfold State.HeadsSettled State.Oldest; decide +kernel, fun e h => ?_, by decide⟩
  · refine intakeOk_of_quiet ?_ ?_ ?_ ?_ ?_ ?_ ?_ ?_ ?_ ?_ <;> decide +kernel
  · exact absurd h (by simp [State.sealingEntry?, withSlots, journaling, bridgeAt, epochAt, Entry.fresh])

theorem test_witness_Enable :
    let s := bridgeAt .passthrough [] (ringAt 0 0 .normal none)
    s.ec.bridge = .passthrough ∧ s.jw.region = some { base := 262144, pages := 16 } ∧ 16 ≤ 16 ∧ s.wu.armed = false ∧
    s.holdsBack = false ∧ { s with da := flagged.da }.holdsBack = true ∧
    { s with wu := { s.wu with armed := true } }.wu.armed = true ∧ State.reset.jw.region = none ∧
    State.reset.ec.bridge = .passthrough ∧ journaling.ec.bridge = .journaling ∧
    (bridgeAt .closing [] (ringAt 0 0 .normal none)).ec.bridge = .closing := by decide +kernel

/-- Three SEALED epochs and an OPEN one. -/
def retained : State :=
  bridgeAt .journaling [epochAt 5#32 .sealed (some 40) (some 52), epochAt 6#32 .sealed (some 52) (some 70),
    epochAt 7#32 .sealed (some 70) (some 83), epochAt 8#32 .opened (some 83) none] (ringAt 84 40 .normal none)

theorem test_witness_RetentionSet :
    (bridgeAt .rolling [] (ringAt 0 0 .normal none)).ec.bridge = .rolling ∧ retained.ec.bridge ≠ .rolling ∧
    retained.ec.bridge ≠ .halted ∧ (0#8).toNat = 0 ∧ 63 < (64#8).toNat ∧ (1 ≤ (1#8).toNat ∧ (63#8).toNat ≤ 63) ∧
    retained.sealedCount ≤ (3#8).toNat ∧
    retained.ec.table = [epochAt 5#32 .sealed (some 40) (some 52)] ++ epochAt 6#32 .sealed (some 52) (some 70) ::
      [epochAt 7#32 .sealed (some 70) (some 83), epochAt 8#32 .opened (some 83) none] ∧
    retained.sealedCount = (1#8).toNat + ([epochAt 5#32 .sealed (some 40) (some 52)].length + 1) := by decide +kernel

theorem test_witness_RollbackAnswers :
    let h : State := { retained with ec := { retained.ec with bridge := .halted }, re := { retained.re with reach := some 6#32 } }
    let b := bridgeAt .journaling [epochAt 5#32 .sealed (some 40) (some 52),
      { epochAt 6#32 .opened (some 52) none with broken := some .media }] (ringAt 60 40 .normal none)
    State.reset.ec.bridge = .passthrough ∧ (bridgeAt .rolling [] (ringAt 0 0 .normal none)).ec.bridge = .rolling ∧
    (bridgeAt .journaling [] (ringAt 0 0 .suspended (some .media))).jw.pressure = .suspended ∧
    (retained.ec.bridge = .journaling ∧ retained.jw.pressure ≠ .suspended) ∧ (∀ y ∈ retained.ec.table, y.number ≠ 9#32) ∧
    ((∃ y ∈ b.ec.table, y.number = 5#32) ∧ ∃ y ∈ b.ec.table.dropWhile (fun y => y.number != 5#32), y.broken.isSome) ∧
    ((∃ y ∈ retained.ec.table, y.number = 5#32) ∧
      ¬ ∃ y ∈ retained.ec.table.dropWhile (fun y => y.number != 5#32), y.broken.isSome) ∧
    (h.ec.bridge = .halted ∧ h.re.reach = some 6#32 ∧
      h.ec.table.findIdx (fun y => y.number == 6#32) < h.ec.table.findIdx (fun y => y.number == 7#32) ∧
      ¬ h.ec.table.findIdx (fun y => y.number == 6#32) < h.ec.table.findIdx (fun y => y.number == 6#32)) := by decide +kernel

theorem test_witness_RollbackAccepted :
    retained.IntakeOk ∧ retained.Listens ∧ (∃ y ∈ retained.ec.table, y.number = 5#32) ∧
    (∀ y ∈ retained.ec.table.dropWhile (fun y => y.number != 5#32), y.broken = none) ∧ retained.ec.bridge = .journaling ∧
    retained.jw.pressure ≠ .suspended := by
  refine ⟨?_, by unfold State.Listens; decide +kernel, by decide +kernel, by decide +kernel, rfl, by decide⟩
  refine intakeOk_of_quiet ?_ ?_ ?_ ?_ ?_ ?_ ?_ ?_ ?_ ?_ <;> decide +kernel

/-- DRAIN with target 31, the table of spec/08, `extra` marked broken. -/
def draining (broken : Option Reason) (target : EpochNo) : State :=
  { bridgeAt .rolling
      [epochAt 30#32 .sealed (some 200) (some 208),
       { epochAt 31#32 .sealed (some 208) (some 221) with lastUndo := some 214, broken := broken },
       epochAt 32#32 .opened (some 221) none] (ringAt 232 200 .normal none) with
    re := { State.reset.re with target := some target, phase := .drain } }

theorem test_witness_DrainEnds :
    let y := { epochAt 31#32 .sealed (some 208) (some 221) with lastUndo := some 214 }
    let z := epochAt 32#32 .opened (some 221) none
    let s := draining none 31#32
    (s.re.phase = .drain ∧ s.re.target = some 31#32 ∧ s.iq.slots = [] ∧ s.sealingEntry? = none ∧ s.recordWriteLeft = false ∧
      s.ec.table.dropWhile (fun x => x.number != 31#32) = [] ++ y :: [z] ∧ (∀ x ∈ [] ++ y :: [z], x.broken = none) ∧
      (∀ x ∈ [z], x.lastUndo = none) ∧ y.lastUndo = some 214) ∧
    (∀ x ∈ (draining none 29#32).ec.table, x.number ≠ 29#32) ∧
    (∃ x ∈ (draining (some .media) 31#32).ec.table.dropWhile (fun x => x.number != 31#32), x.broken.isSome) ∧
    s.sealedCount ≤ s.ec.retention := by decide +kernel

/-- DRAIN with target 31, no UNDO record in its span, and a write HELD at acceptance. -/
def drainingNone : State :=
  withSlots
    { draining none 31#32 with ec := { (draining none 31#32).ec with
        table := [epochAt 30#32 .sealed (some 200) (some 208), epochAt 31#32 .sealed (some 208) (some 221),
          epochAt 32#32 .opened (some 221) none] } }
    [{ slotOf 0 (writeTo 5#32) .held none with holdEntry := some 0#32 }]

theorem test_witness_DrainEnds_finish :
    let s := drainingNone
    let x := { slotOf 0 (writeTo 5#32) .held none with holdEntry := some 0#32 }
    let kept := [epochAt 30#32 .sealed (some 200) (some 208)]
    (s.re.phase = .drain ∧ s.re.target = some 31#32 ∧
      (∀ x ∈ s.iq.slots, x.state ≠ .waiting ∧ (x.epoch = none ∧ x.captureEnded = false ∨ x.state = .held) ∧
        x.outcome ≠ some .halted) ∧
      s.sealingEntry? = none ∧ s.recordWriteLeft = false ∧
      (∀ z ∈ s.ec.table.dropWhile (fun z => z.number != 31#32), z.broken = none ∧ z.lastUndo = none) ∧
      kept = s.ec.table.takeWhile (fun y => y.number != 31#32) ∧
      s.entry? 31#32 = some (epochAt 31#32 .sealed (some 208) (some 221)) ∧
      s.ec.table.getLast? = some (epochAt 32#32 .opened (some 221) none) ∧ (∀ y ∈ kept, y.number ≠ 33#32) ∧
      208 < s.ringLines ∧ (208 + s.ringLines - s.jw.tail) % s.ringLines + 2 ≤ s.ringLines) ∧
    s.OpensAlone 33#32 kept ∧ s.HeldWrite x := by
  refine ⟨by decide +kernel, ⟨?_, by decide, by decide +kernel, by decide +kernel⟩, by unfold State.HeldWrite; decide +kernel⟩
  refine intakeOk_of_quiet ?_ ?_ ?_ ?_ ?_ ?_ ?_ ?_ ?_ ?_ <;> decide +kernel

theorem test_witness_DrainEnds_waits :
    let s := ready (draining none 31#32) [] [] [.openRec 221 32#32 (some 208)] none
    s.re.phase = .drain ∧ s.IntakeOk ∧ s.HeadsSettled ∧ s.NoSealDue ∧ s.recordWriteLeft = true := by
  refine ⟨rfl, ?_, fun x hx => (nomatch hx), fun e h => ?_, by decide +kernel⟩
  · refine intakeOk_of_quiet ?_ ?_ ?_ ?_ ?_ ?_ ?_ ?_ ?_ ?_ <;> decide +kernel
  · exact absurd h (by simp [State.sealingEntry?, ready, draining, bridgeAt, epochAt, Entry.fresh])

/-- R10: DRAIN waits for the answer of a write whose capture JOURNAL RESET abandoned, WAITING for its grant or ISSUED, and ends with
the answer; it does not wait for a write without an assignment that was ISSUED before ENABLE (log 23). -/
theorem test_drain_waits_for_an_abandoned_write :
    let x := fun (st : SlotState) (ended : Bool) => { slotOf 0 (writeTo 5#32) st none with captureEnded := ended }
    let s := fun (l : List Slot) (fwd : List SlotIx) =>
      let t := withSlots drainingNone l
      { t with da := { t.da with forward := fwd } }
    (s [x .waiting true] [0]).settle.re.phase = .drain ∧
    (withPort (s [x .issued true] []) (.fwdWrite 0)).settle.re.phase = .drain ∧
    (after (.forwardedAck 7 (.ok [])) (withPort (s [x .issued true] []) (.fwdWrite 0))).re.phase = .idle ∧
    (withPort (s [x .issued false] []) (.fwdWrite 0)).settle.re.phase = .idle := by decide +kernel

theorem test_witness_DrainEnds_refused :
    let s := fun (b : Option Reason) => { drainingNone with ec := { drainingNone.ec with
      table := [{ epochAt 31#32 .sealed (some 208) (some 221) with broken := some .media },
        { epochAt 32#32 .opened (some 221) none with broken := b }] } }
    let x := { slotOf 0 (writeTo 5#32) .held none with holdEntry := some 0#32 }
    (∀ b ∈ [none, some Reason.media],
      (∃ y ∈ (s b).ec.table.dropWhile (fun z => z.number != 31#32), y.broken.isSome) ∧
      (s b).openEntry? = some { epochAt 32#32 .opened (some 221) none with broken := b }) ∧
    (s none).HeldWrite x ∧ x.epoch = none ∧ (∀ x' ∈ (s none).iq.slots, x' = x) ∧ (s none).jw.pressure ≠ .suspended ∧
    x.granule ∉ (s none).cu.touched ∧ (s none).cu.touched.length < 1024 := by unfold State.HeldWrite; decide +kernel

/-- The bytes of an UNDO record of epoch 31 with the back-link given. -/
def undoRecord (link : Option Nat) : List Byte := undoBytes 31#32 (some 2) false link 2#32 (List.replicate 64 0xB0#8)

theorem test_witness_RecordReadAck :
    let s := walking .reading .recordRead
    let y := { epochAt 31#32 .sealed (some 208) (some 221) with lastUndo := some 214 }
    let linked := fun (b : Nat) => b < s.ringLines ∧
      (b + s.ringLines - 208) % s.ringLines < (214 + s.ringLines - 208) % s.ringLines
    s.re.walkEpoch = some 31#32 ∧ s.re.walkLine = some 214 ∧ s.entry? 31#32 = some y ∧ y.openLine = some 208 ∧
    s.Outstanding 7 .recordRead ∧ (walking .restoring .restoreWrite).Outstanding 7 .restoreWrite ∧
    ((undoRecord none).getD 0 0#8 = 0xA2#8 ∧ (undoRecord none).getD 1 0#8 = 5#8 ∧ fieldAt (undoRecord none) 4 = 31#32 ∧
      fieldAt (undoRecord none) 8 = 0xFFFFFFFF#32) ∧
    (fieldAt (undoRecord (some 213)) 8 = 213#32 ∧ linked 213 ∧ linked 208 ∧ ¬ linked 214 ∧ ¬ linked 207) := by
  unfold State.Outstanding; decide +kernel

theorem test_witness_RestoreWriteAck :
    let s := walking .restoring .restoreWrite
    let x := { epochAt 31#32 .sealed (some 208) (some 221) with lastUndo := some 214 }
    let w := { epochAt 32#32 .opened (some 221) none with lastUndo := some 227 }
    let kept := [epochAt 30#32 .sealed (some 200) (some 208)]
    s.Outstanding 7 .restoreWrite ∧ s.re.target = some 31#32 ∧ s.re.walkEpoch = some 31#32 ∧
    s.re.inHand = some { granule := 1#32, backLink := none, old := List.replicate 64 0#8 } ∧
    (s.ec.table.dropWhile (fun y => y.number != 31#32)).takeWhile (fun y => y.number != 31#32) = [] ∧
    (s.ec.table.dropWhile (fun y => y.number != 31#32)).takeWhile (fun y => y.number != 32#32) = [] ++ x :: [] ∧
    kept = s.ec.table.takeWhile (fun y => y.number != 31#32) ∧ s.entry? 31#32 = some x ∧ x.openLine = some 208 ∧
    s.ec.table.getLast? = some w ∧ (∀ y ∈ kept, y.number ≠ w.number + 1#32) ∧ 208 < s.ringLines ∧
    (208 + s.ringLines - s.jw.tail) % s.ringLines + 2 ≤ s.ringLines ∧
    kept.countP (fun y => y.state == .sealed) ≤ s.ec.retention ∧ s.holdsBack = false := by
  unfold State.Outstanding; decide +kernel

theorem test_witness_Release :
    (bridgeAt .halted [] (ringAt 0 0 .suspended (some .media))).ec.bridge = .halted ∧ journaling.ec.bridge ≠ .halted := by
  decide +kernel

theorem test_witness_JournalReset :
    flagged.da.slots[(0 : PortIx)] = none ∧ (forwarding none none).da.slots[(7 : PortIx)] = some { kind := .fwdWrite 0, discard := false } ∧
    (withCapture journaling (captureOf none none)).slot? 0 = some (slotOf 0 (writeTo 5#32) .capturing (some 20#32)) := by
  decide +kernel

theorem test_witness_EventRead :
    (queueOf 32 255).records.length ≤ 32 ∧ (0#8).toNat = 0 ∧ 32 < (33#8).toNat ∧ 1 ≤ (1#8).toNat ∧ (32#8).toNat ≤ 32 ∧
    (queueOf 0 0).records = [] ∧ (queueOf 32 255).records ≠ [] ∧ (queueOf 1 0).lost = 0 ∧ (queueOf 32 255).lost ≠ 0 := by
  decide +kernel

theorem test_witness_EventsAndLine :
    (queueOf 31 0).records.length < 32 ∧ 32 ≤ (queueOf 32 0).records.length := by decide +kernel

theorem test_witness_JournalSetup :
    journaling.ec.bridge ≠ .passthrough ∧ (15#32).toNat < 16 ∧ 262144 < (262145#32).toNat ∧
    67108864 < (67108849#32).toNat + (16#32).toNat ∧
    ¬ ((16#32).toNat < 16 ∨ 262144 < (262144#32).toNat ∨ 67108864 < (67108848#32).toNat + (16#32).toNat) ∧
    (withPort State.reset .recordRead).da.slots[(7 : PortIx)] = some { kind := .recordRead, discard := false } ∧
    PortKind.isRing .recordRead = true ∧ (∀ p : PortIx, State.reset.da.slots[p] = none) ∧
    State.reset.jw.pressure = .normal ∧
    (let s := withSlots State.reset [slotOf 0 (writeTo 0x400#32) .waiting none, slotOf 1 (writeTo 0x3FF#32) .waiting none]
     let x := slotOf 0 (writeTo 0x400#32) .waiting none
     s.slot? 0 = some x ∧ 16 * 4096 ≤ x.req.addr.toNat ∧ x.req.addr.toNat < (16 + 16) * 4096 ∧
       (writeTo 0x3FF#32).addr.toNat < 16 * 4096) := by decide +kernel

theorem test_witness_JournalSetup_intake :
    (withSlots State.reset [slotOf 0 (writeTo 0x400#32) .waiting none, slotOf 1 (writeTo 0x3FF#32) .waiting none]).IntakeOk := by
  refine intakeOk_of_quiet ?_ ?_ ?_ ?_ ?_ ?_ ?_ ?_ ?_ ?_ <;> decide +kernel

theorem test_witness_Settings :
    1 < (2#8).toNat ∧ (1#8).toNat ≤ 1 ∧ (0xFFFF#16) ≠ 0#16 ∧ journaling.ec.bridge = .journaling ∧
    State.reset.ec.bridge ≠ .journaling := by decide +kernel

theorem test_witness_ArmExpected :
    let s : State := { journaling with su := { journaling.su with
      openBank := { journaling.su.openBank with
        entries := journaling.su.openBank.entries.set 15 { BankEntry.reset with kind := .guard } } } }
    State.reset.ec.bridge ≠ .journaling ∧ s.ec.bridge = .journaling ∧ 15 < (16#8).toNat ∧ (15 : WinIx).val = (15#8).toNat ∧
    s.su.openBank.entries[(15 : WinIx)].kind = .guard ∧ s.su.openBank.entries[(0 : WinIx)].kind ≠ .guard := by decide +kernel

theorem test_witness_Reads :
    63 < (64#8).toNat ∧ (0#8).toNat = 0 ∧ 64 < (65#8).toNat ∧ (63#8).toNat ≤ 63 ∧ (64#8).toNat ≤ 64 ∧
    retained.ec.table[(63 + 1) % 64]? = some (epochAt 5#32 .sealed (some 40) (some 52)) ∧ retained.ec.table[63]? = none ∧
    retained.entry? 9#32 = none ∧
    (let x := { epochAt 5#32 .sealed (some 40) (some 52) with sigs := some [] }
     (bridgeAt .journaling [x] (ringAt 52 40 .normal none)).entry? 5#32 = some x ∧ x.state = .sealed ∧ x.sigs = some []) := by
  decide +kernel

theorem test_witness_SignatureCrc :
    (writeTo 5#32).wf = true ∧ formOk (writeTo 5#32) = true ∧ (writeTo 5#32).dir = .write ∧
    (feedBytes (writeTo 5#32)).length = 6 ∧
    (feedBytes { writeTo 5#32 with length := 64, data := List.replicate 64 1#8, mask := List.replicate 64 true }).length = 69 := by
  decide +kernel

theorem test_witness_SignatureCrc_equal_feeds :
    let r := writeTo 5#32
    let r' := { writeTo 5#32 with length := 2, data := [0x5A#8, 0x77#8], mask := [true, false] }
    r.addr = r'.addr ∧ (∀ k, r.mask.getD k false = r'.mask.getD k false) ∧
    (∀ k, r.mask.getD k false = true → r.data[k]? = r'.data[k]?) := by
  refine ⟨rfl, ?_, ?_⟩ <;> intro k <;> rcases k with _ | _ | k <;> simp [writeTo]

theorem test_witness_OkKept : journaling.Ok ∧ ∃ t, step journaling = .next t := by
  refine ⟨⟨⟨by decide, ?_, by decide, by decide, by decide⟩, ⟨by decide, by decide⟩, ?_,
    ⟨?_, by decide, by decide, by decide, by decide, by decide, by decide +kernel⟩, ?_⟩, _, rfl⟩
  · intro i r h; simp [journaling, bridgeAt, State.reset] at h
  · unfold JournalWriter.PressureOk; decide
  · unfold Entry.CountsOk; decide
  · refine intakeOk_of_quiet ?_ ?_ ?_ ?_ ?_ ?_ ?_ ?_ ?_ ?_ <;> decide +kernel

theorem test_witness_HeadsDealtKept : journaling.IntakeOk ∧ journaling.HeadsDealt ∧ ∃ t, step journaling = .next t := by
  refine ⟨?_, ⟨?_, ?_⟩, _, rfl⟩
  · refine intakeOk_of_quiet ?_ ?_ ?_ ?_ ?_ ?_ ?_ ?_ ?_ ?_ <;> decide +kernel
  · intro x h; simp [journaling, bridgeAt, State.reset] at h
  · intro x h; simp [journaling, bridgeAt, State.reset] at h

theorem test_witness_AnswersOnceInOrder :
    State.reset.IntakeOk ∧ (∀ r, Instr.apply ≠ .uportRequest r) ∧ Instr.apply ≠ .powerOnReset ∧
    (∃ t, exec .apply State.reset = .next t) ∧ ∃ t, exec (.uportRequest (writeTo 5#32)) State.reset = .next t :=
  ⟨test_witness_intake.1, fun _ h => Instr.noConfusion h, by decide, ⟨_, rfl⟩, ⟨_, rfl⟩⟩

end Sys2Proof.Tests
end

/-! The rules of the window tables that the statements on APPLY CANCEL and on matching rest on: what a DONE frame comes
to, what each arm command does, when an armed apply acts, which addresses an entry covers, and which entry classifies. -/
namespace Sys2Proof.Machine

/-! ## Frames answered DONE -/

@[simp] theorem State.answered_listens (s : State) (n : Nat) (m : MStatus) (bytes : List Byte) :
    (s.answered n m bytes).Listens ↔ s.Listens := Iff.rfl

@[simp] theorem State.answered_wu (s : State) (n : Nat) (m : MStatus) (bytes : List Byte) :
    (s.answered n m bytes).wu = s.wu := rfl

@[simp] theorem State.answered_ec (s : State) (n : Nat) (m : MStatus) (bytes : List Byte) :
    (s.answered n m bytes).ec = s.ec := rfl

@[simp] theorem State.setArm_listens (s : State) (b : Bool) : (s.setArm b).Listens ↔ s.Listens := Iff.rfl

/-- A command that sets or clears the arm leaves every other field but the outputs (R35, R39). -/
theorem State.frame_setArm {s : State} (h : s.Listens) (n : Nat) (b : Bool) {f : State → Reply}
    (hf : f s.begin = Reply.done (s.begin.setArm b) []) : s.frame n f = (s.setArm b).answered n .done [] := by
  rw [State.frame_listens h, hf]; rfl

/-! ## The arm (R35, R37 to R39) -/

theorem exec_applyCancel {s : State} (h : s.Listens) :
    exec .applyCancel s = .next ((s.setArm false).answered 0 .done []) :=
  congrArg Host.Outcome.next (State.frame_setArm h 0 false rfl)

/-- Outside PASSTHROUGH, APPLY only arms (R35). -/
theorem exec_apply_arms {s : State} (h : s.Listens) (hb : s.ec.bridge ≠ .passthrough) :
    exec .apply s = .next ((s.setArm true).answered 0 .done []) := by
  have hc : s.begin.applyCommand = s.begin.setArm true := if_neg hb
  exact congrArg Host.Outcome.next (State.frame_setArm h 0 true (congrArg (Reply.done · []) hc))

theorem State.setArm_self {s : State} {b : Bool} (h : s.wu.armed = b) : s.setArm b = s := by
  subst h; rfl

theorem State.applyArmed_of_clear {s : State} (h : s.wu.armed = false) (e : Option EpochNo) : s.applyArmed e = s :=
  if_neg (by simp [h])

theorem State.applyArmed_of_armed {s : State} (h : s.wu.armed = true) (e : Option EpochNo) :
    s.applyArmed e = s.applyTable e := if_pos h

/-- Settles O15: both commands go through the arm alone, so cancelling and arming again leave both tables as they were. -/
theorem applyCancel : Obligations.ApplyCancel := by
  unfold Obligations.ApplyCancel
  refine ⟨fun s h => exec_applyCancel h, fun s h hc => ?clear, fun s e hc => State.applyArmed_of_clear hc e,
    fun s e ha => ?armed, fun s t h hb ht => ?again⟩
  case clear => rw [exec_applyCancel h, State.setArm_self hc]
  case armed =>
    rw [State.applyArmed_of_armed ha]
    exact ⟨rfl, rfl, rfl, _, s.applyTable_eq e⟩
  case again =>
    obtain rfl : (s.setArm false).answered 0 .done [] = t := by simpa [exec_applyCancel h] using ht
    exact ⟨_, exec_apply_arms (by simpa using h) (by simpa using hb), by simp⟩

/-! ## Matching (R25) -/

/-- Two words agree under a mask when they agree in every bit the mask selects. -/
theorem xor_and_eq_zero_iff {n : Nat} (x y m : BitVec n) :
    (x ^^^ y) &&& m = 0#n ↔ ∀ j, j < n → m.getLsbD j = true → x.getLsbD j = y.getLsbD j := by
  rw [BitVec.eq_of_getLsbD_eq_iff]
  refine forall₂_congr fun j _ => ?_
  simp only [BitVec.getLsbD_and, BitVec.getLsbD_xor, BitVec.getLsbD_zero, Bool.and_eq_false_iff, bne_eq_false_iff_eq]
  cases m.getLsbD j <;> simp

/-- Bit `j` of the base and of the mask stands for address bit 12 + j (R23). -/
theorem WinEntry.covers_iff (w : WinEntry) (a : Addr) :
    w.covers a = true ↔
      w.kind ≠ .off ∧ ∀ j, j < 26 → w.mask.getLsbD j = true → a.getLsbD (12 + j) = w.base.getLsbD j := by
  have hbit (j : Nat) (hj : j < 26) : (a.extractLsb' 12 26).getLsbD j = a.getLsbD (12 + j) := by
    simp [hj]
  rw [WinEntry.covers, Bool.and_eq_true, bne_iff_ne, beq_iff_eq, xor_and_eq_zero_iff]
  exact and_congr_right fun _ => forall₂_congr fun j hj => by rw [hbit j hj]

theorem WinEntry.covers_congr (w : WinEntry) {a b : Addr} (h : ∀ j, 12 ≤ j → a.getLsbD j = b.getLsbD j) :
    w.covers a = w.covers b := by
  rw [Bool.eq_iff_iff, w.covers_iff, w.covers_iff]
  simp only [h _ (Nat.le_add_right 12 _)]

theorem WinEntry.covers_of_mask_zero {w : WinEntry} (hk : w.kind ≠ .off) (hm : w.mask = 0#26) (a : Addr) :
    w.covers a = true :=
  (w.covers_iff a).2 ⟨hk, fun j _ hj => by simp [hm] at hj⟩

/-! ## The window that classifies (R24, R25) -/

/-- A search through all indexes in order finds the lowest that passes. -/
theorem find?_finRange_eq_some_iff {n : Nat} (p : Fin n → Bool) (i : Fin n) :
    (List.finRange n).find? p = some i ↔ p i = true ∧ ∀ j, j < i → p j = false := by
  rw [List.find?_eq_some_iff_getElem]
  refine and_congr_right fun _ => ⟨?_, fun hlow => ?_⟩
  · rintro ⟨k, hk, hki, hlow⟩ j hj
    have hval : k = i.val := by simpa [Fin.ext_iff] using hki
    have hpj := hlow j.val (by omega)
    simpa only [List.getElem_finRange, Fin.cast_mk, Fin.eta, Bool.not_eq_true'] using hpj
  · have hlen : i.val < (List.finRange n).length := by rw [List.length_finRange]; exact i.isLt
    refine ⟨i.val, hlen, by rw [List.getElem_finRange]; rfl, fun j hj => ?_⟩
    rw [List.getElem_finRange, Bool.not_eq_true']
    exact hlow _ hj

theorem State.window?_eq_some_iff (s : State) (a : Addr) (i : WinIx) :
    s.window? a = some i ↔ s.wu.active[i].covers a = true ∧ ∀ j, j < i → s.wu.active[j].covers a = false :=
  find?_finRange_eq_some_iff _ i

theorem State.window?_eq_none_iff (s : State) (a : Addr) :
    s.window? a = none ↔ ∀ i : WinIx, s.wu.active[i].covers a = false := by
  rw [State.window?, List.find?_eq_none]
  simp only [List.mem_finRange, true_implies, Bool.not_eq_true]

/-- Outside the journal region the window found gives index and kind, whatever is decided. -/
theorem State.classify_window_some {s : State} {r : Request} {i : WinIx} (hr : s.inRegion r.addr = false)
    (hw : s.window? r.addr = some i) :
    (s.classify r).1 = some i ∧ (s.classify r).2.1 = s.wu.active[i].kind := by
  simp only [State.classify, hr, hw, Bool.false_eq_true, if_false]
  by_cases hfence : s.wu.active[i].kind = .fence ∧ (r.dir = .write ∨ s.wu.active[i].readFence = true)
  · rw [if_pos hfence]; exact ⟨rfl, rfl⟩
  · rw [if_neg hfence]
    by_cases htrip : r.dir = .write ∧ s.wu.active[i].kind ≠ .fence ∧ s.tripped (some i) = true
    · rw [if_pos htrip]; exact ⟨rfl, rfl⟩
    · rw [if_neg htrip]; exact ⟨rfl, rfl⟩

/-- With no window found, inside the journal region or outside it, there is no index and the kind is PASS. -/
theorem State.classify_window_none {s : State} {r : Request} (hw : s.window? r.addr = none) :
    (s.classify r).1 = none ∧ (s.classify r).2.1 = .pass := by
  cases hr : s.inRegion r.addr <;> simp [State.classify, hr, hw]

/-- Settles O16: matching is agreement under the mask, and the search runs from index 0 up. -/
theorem windowMatching : Obligations.WindowMatching := by
  unfold Obligations.WindowMatching
  refine ⟨WinEntry.covers_iff, fun w a b h => w.covers_congr h, fun w a hk hm => WinEntry.covers_of_mask_zero hk hm a,
    fun s r i hr hi hlow => ?lowest, fun s r hno => ?unmatched⟩
  case lowest => exact State.classify_window_some hr ((s.window?_eq_some_iff r.addr i).2 ⟨hi, hlow⟩)
  case unmatched => exact State.classify_window_none ((s.window?_eq_none_iff r.addr).2 hno)

end Sys2Proof.Machine

/-! The rules the answers of ROLLBACK rest on: what each condition of R139 says of the table, what is answered in each
bridge state, and what a frame that is refused or accepted comes to. -/
namespace Sys2Proof.Machine

/-! ## The conditions on the target (R139) -/

theorem State.entry?_isNone_iff (s : State) (t : EpochNo) :
    (s.entry? t).isNone = true ↔ ∀ y ∈ s.ec.table, y.number ≠ t := by
  rw [State.entry?, Option.isNone_iff_eq_none, List.find?_eq_none]
  simp only [beq_iff_eq, ne_eq]

/-- An epoch number of the table has an entry, so condition 4 does not hold. -/
theorem State.entry?_isNone_of_mem {s : State} {t : EpochNo} (h : ∃ y ∈ s.ec.table, y.number = t) :
    ¬ (s.entry? t).isNone = true := by
  obtain ⟨y, hy, hyt⟩ := h
  exact fun hn => (s.entry?_isNone_iff t).1 hn y hy hyt

theorem State.spanBroken_iff (s : State) (t : EpochNo) :
    s.spanBroken t = true ↔ ∃ y ∈ s.ec.table.dropWhile (fun y => y.number != t), y.broken.isSome :=
  List.any_eq_true

theorem State.newer_iff (s : State) (a b : EpochNo) :
    s.newer a b = true ↔
      s.ec.table.findIdx (fun y => y.number == b) < s.ec.table.findIdx (fun y => y.number == a) :=
  decide_eq_true_iff

/-- Condition 6 compares positions in the table, not epoch numbers, and fails with the reach epoch absent. -/
theorem State.newerThanReach_iff (s : State) (t : EpochNo) :
    s.re.reach.any (fun r => s.newer t r) = true ↔
      ∃ r, s.re.reach = some r ∧
        s.ec.table.findIdx (fun y => y.number == r) < s.ec.table.findIdx (fun y => y.number == t) := by
  simp only [Option.any_eq_true, State.newer_iff]

/-! ## The answer in each bridge state (R139) -/

theorem State.rollbackRefusal_of_passthrough_or_closing {s : State} (t : EpochNo)
    (hb : s.ec.bridge = .passthrough ∨ s.ec.bridge = .closing) : s.rollbackRefusal t = some .state := by
  rcases hb with hb | hb <;> rw [State.rollbackRefusal, hb]

theorem State.rollbackRefusal_of_rolling {s : State} (t : EpochNo) (hb : s.ec.bridge = .rolling) :
    s.rollbackRefusal t = some .busy := by
  rw [State.rollbackRefusal, hb]

theorem State.rollbackRefusal_of_suspended {s : State} (t : EpochNo) (hb : s.ec.bridge = .journaling)
    (hp : s.jw.pressure = .suspended) : s.rollbackRefusal t = some .state := by
  simp only [State.rollbackRefusal, hb, hp, and_self, if_true]

/-- Past the conditions on bridge and pressure, the target decides. -/
theorem State.rollbackRefusal_of_ready {s : State} (t : EpochNo)
    (hb : s.ec.bridge = .journaling ∧ s.jw.pressure ≠ .suspended ∨ s.ec.bridge = .halted) :
    s.rollbackRefusal t =
      if (s.entry? t).isNone then some .argument
      else if s.spanBroken t then some .argument
      else if s.ec.bridge = .halted ∧ s.re.reach.any (fun r => s.newer t r) then some .argument
      else none := by
  rcases hb with ⟨hj, hp⟩ | hh
  · simp only [State.rollbackRefusal, hj, hp, and_false, if_false]
  · simp only [State.rollbackRefusal, hh, reduceCtorEq, false_and, if_false]

/-! ## What the frame comes to (R139, R188) -/

theorem exec_rollback_refused {s : State} (h : s.Listens) {t : EpochNo} {status : MStatus}
    (hr : s.rollbackRefusal t = some status) : exec (.rollback t) s = .next (s.answered 4 status []) := by
  have hb : s.begin.rollbackRefusal t = some status := hr
  exact congrArg Host.Outcome.next (State.frame_not h 4 _ status (by rw [hb]))

theorem exec_rollback_accepted {s : State} (h : s.Listens) {t : EpochNo} (hr : s.rollbackRefusal t = none) :
    exec (.rollback t) s =
      .next { s.begin.acceptRollback t with mdo := .answer { args := 4, status := .done, response := [] } } := by
  have hb : s.begin.rollbackRefusal t = none := hr
  refine congrArg Host.Outcome.next ((State.frame_listens h 4 _).trans ?_)
  simp only [hb, Reply.done]

/-- Settles O43: each condition of R139 is met with those before it excluded, and gives the row's answer. -/
theorem rollbackAnswers : Obligations.RollbackAnswers := by
  unfold Obligations.RollbackAnswers
  intro s t hl brokenInSpan tooNew refused
  have hrefuse {status : MStatus} (hr : s.rollbackRefusal t = some status) : refused status :=
    exec_rollback_refused hl hr
  have hbroken : s.spanBroken t = true ↔ brokenInSpan := s.spanBroken_iff t
  have hnew : s.re.reach.any (fun r => s.newer t r) = true ↔ tooNew := s.newerThanReach_iff t
  refine ⟨fun hb => hrefuse (State.rollbackRefusal_of_passthrough_or_closing t hb),
    fun hb => hrefuse (State.rollbackRefusal_of_rolling t hb),
    fun hb hp => hrefuse (State.rollbackRefusal_of_suspended t hb hp), fun hb => ?ready⟩
  have hready := State.rollbackRefusal_of_ready t hb
  refine ⟨fun hno => hrefuse ?absent, fun hin hbr => hrefuse ?broken, fun hin hbr hh hn => hrefuse ?newer,
    fun hin hbr hn => ⟨_, exec_rollback_accepted hl ?accepted, rfl⟩⟩
  case absent => rw [hready, if_pos ((s.entry?_isNone_iff t).2 hno)]
  case broken => rw [hready, if_neg (State.entry?_isNone_of_mem hin), if_pos (hbroken.2 hbr)]
  case newer =>
    rw [hready, if_neg (State.entry?_isNone_of_mem hin), if_neg (mt hbroken.1 hbr), if_pos ⟨hh, hnew.2 hn⟩]
  case accepted =>
    rw [hready, if_neg (State.entry?_isNone_of_mem hin), if_neg (mt hbroken.1 hbr),
      if_neg fun hc => hn hc.1 (hnew.1 hc.2)]

end Sys2Proof.Machine

/-! The rules EVENT READ rests on: what an insertion into a queue with room does, what the level of the event line says,
what a removal keeps, sets and inserts, and what the frame comes to. -/
namespace Sys2Proof.Machine

/-! ## Insertion and the line (R177, R184) -/

/-- The line is high exactly when no record of an enabled class is queued. -/
theorem EventQueue.line_eq_true_iff (q : EventQueue) :
    q.line = true ↔ ∀ r ∈ q.records, q.mask.getLsbD r.event.code.codes.1 = false := by
  simp [EventQueue.line, EventRec.enabledIn]

theorem EventQueue.raise_of_room {q : EventQueue} (h : q.records.length < 32) (e : Event) :
    q.raise e =
      { q with
        records := q.records ++ [{ seq := q.seq, event := e, time := q.time }]
        seq := q.seq + 1#16
        evtN := EventQueue.line { q with records := q.records ++ [{ seq := q.seq, event := e, time := q.time }] } } :=
  if_pos h

/-! ## Removal (R180, R181, R184) -/

/-- The EVENTS-LOST record due in a queue, with its counter, its next sequence number and its timestamp (R181). -/
def EventQueue.lostRecord (q : EventQueue) : EventRec :=
  { seq := q.seq, time := q.time, event := { code := .eventsLost, arg := BitVec.ofNat 32 q.lost } }

/-- A read that removes nothing changes nothing. -/
theorem EventQueue.remove_zero (q : EventQueue) : q.remove 0 = q := if_pos rfl

/-- With no event lost, a removal shortens the queue and evaluates the line. -/
theorem EventQueue.remove_of_none_lost {q : EventQueue} {k : Nat} (hk : k ≠ 0) (hl : q.lost = 0) :
    q.remove k =
      { q with
        records := q.records.drop k
        evtN := EventQueue.line { q with records := q.records.drop k } } := by
  simp only [EventQueue.remove, if_neg hk, if_pos hl]

/-- With events lost, the EVENTS-LOST record goes into the space the removal frees, so it is never dropped. -/
theorem EventQueue.remove_of_lost {q : EventQueue} {k : Nat} (hk : k ≠ 0) (hl : q.lost ≠ 0)
    (hroom : (q.records.drop k).length < 32) :
    q.remove k =
      { q with
        records := q.records.drop k ++ [q.lostRecord]
        seq := q.seq + 1#16
        lost := 0
        evtN := EventQueue.line { q with records := q.records.drop k ++ [q.lostRecord] } } := by
  have hraise := EventQueue.raise_of_room (q := { q with records := q.records.drop k }) hroom
  simp only [EventQueue.remove, if_neg hk, if_neg hl, hraise]
  rfl

/-- The line is evaluated last, on the queue as the removal and the insertion leave it. -/
theorem EventQueue.remove_evtN (q : EventQueue) {k : Nat} (hk : k ≠ 0) : (q.remove k).evtN = (q.remove k).line := by
  rw [EventQueue.remove, if_neg hk]
  rfl

/-- A removal from a queue of at most 32 records makes room. -/
theorem EventQueue.length_drop_lt {q : EventQueue} (hfew : q.records.length ≤ 32) (hne : q.records ≠ []) {k : Nat}
    (hk : k ≠ 0) : (q.records.drop k).length < 32 := by
  have := List.length_pos_iff.2 hne
  rw [List.length_drop]
  omega

/-! ## What the frame comes to (R180, R188) -/

theorem exec_eventRead_argument {s : State} (h : s.Listens) {count : Byte}
    (hc : count.toNat = 0 ∨ 32 < count.toNat) : exec (.eventRead count) s = .next (s.answered 1 .argument []) :=
  congrArg Host.Outcome.next (State.frame_not h 1 _ .argument (if_pos hc))

theorem exec_eventRead_done {s : State} (h : s.Listens) {count : Byte} (h1 : 1 ≤ count.toNat) (h32 : count.toNat ≤ 32) :
    exec (.eventRead count) s =
      .next (State.answered { s with eq := s.eq.remove (min count.toNat s.eq.records.length) } 1 .done
        (byteOf (min count.toNat s.eq.records.length) ::
          (s.eq.records.take (min count.toNat s.eq.records.length)).flatMap EventRec.bytes)) := by
  have hrange : ¬ (count.toNat = 0 ∨ 32 < count.toNat) := by omega
  refine congrArg Host.Outcome.next ((State.frame_listens h 1 _).trans ?_)
  simp only [State.eventRead, if_neg hrange]
  rfl

/-- Settles O50: past the range check the frame is a removal, which by the lost counter leaves either the rest of the
queue or the rest and its EVENTS-LOST record. -/
theorem eventRead : Obligations.EventRead := by
  unfold Obligations.EventRead
  refine fun s count hl hfew => ⟨exec_eventRead_argument hl, fun h1 h32 hempty => ?empty, fun h1 h32 hne => ?removes⟩
  case empty =>
    have hk : min count.toNat s.eq.records.length = 0 := by simp [hempty]
    rw [exec_eventRead_done hl h1 h32, hk, EventQueue.remove_zero]
    rfl
  case removes =>
    intro k
    have hk : k ≠ 0 := by
      have := List.length_pos_iff.2 hne
      omega
    have hline : (s.eq.remove k).evtN = true ↔
        ∀ r ∈ (s.eq.remove k).records, (s.eq.remove k).mask.getLsbD r.event.code.codes.1 = false := by
      rw [EventQueue.remove_evtN _ hk, EventQueue.line_eq_true_iff]
    refine ⟨s.eq.remove k, exec_eventRead_done hl h1 h32, ?_⟩
    by_cases hlost : s.eq.lost = 0
    case pos =>
      have hq := EventQueue.remove_of_none_lost hk hlost
      exact ⟨by rw [hq, hlost], by rw [hq], by rw [hq], fun _ => by simp [hq], fun h => absurd hlost h, hline⟩
    case neg =>
      have hq := EventQueue.remove_of_lost hk hlost (EventQueue.length_drop_lt hfew hne hk)
      exact ⟨by rw [hq], by rw [hq], by rw [hq], fun h => absurd h hlost,
        fun _ => ⟨by rw [hq], by rw [hq]; rfl⟩, hline⟩

end Sys2Proof.Machine

/-! What a step can do, said once: its own effect, which keeps the agreement of the Intake Queue and answers each request at most
once, with or without `State.settle` behind it. The invariants of the Intake Queue follow. -/
namespace Sys2Proof.Machine

/-! ## How an action ends -/

/-- From `s` to `t` an action is complete: a steady effect with what follows an action behind it, or a steady effect that
leaves the requests and the forward path's list as they were, but for marks of examined writes. `m` is what MDO shows. -/
def State.Ends (s t : State) : Prop :=
  (∃ u m, Steady s u ∧ t = u.settle.withAnswer m) ∨
  (Steady s t ∧ t.iq.slots.map Slot.reexamined = s.iq.slots.map Slot.reexamined ∧ t.da.forward = s.da.forward)

theorem State.withAnswer_steady (s : State) (m : Mdo) : Steady s (s.withAnswer m) :=
  Steady.of_same rfl rfl rfl rfl rfl rfl rfl rfl rfl rfl rfl

theorem State.withAnswer_mdo (s : State) : s.withAnswer s.mdo = s := rfl

theorem State.withAnswer_withAnswer (s : State) (m n : Mdo) : (s.withAnswer m).withAnswer n = s.withAnswer n := rfl

theorem State.Ends.settle {s u : State} (h : Steady s u) : s.Ends u.settle :=
  .inl ⟨u, _, h, (State.withAnswer_mdo _).symm⟩

theorem State.Ends.quiet {s t : State} (h : Steady s t) (hs : t.iq.slots = s.iq.slots)
    (hf : t.da.forward = s.da.forward) : s.Ends t := .inr ⟨h, by rw [hs], hf⟩

theorem State.Ends.refl (s : State) : s.Ends s := .quiet (Steady.refl s) rfl rfl

theorem State.Ends.withAnswer {s t : State} (h : s.Ends t) (m : Mdo) : s.Ends (t.withAnswer m) := by
  obtain ⟨u, m', hu, rfl⟩ | ⟨ht, hs, hf⟩ := h
  · exact .inl ⟨u, m, hu, State.withAnswer_withAnswer _ _ _⟩
  · exact .inr ⟨ht.trans (t.withAnswer_steady m), hs, hf⟩

theorem State.Ends.steady {s t : State} (h : s.Ends t) : Steady s t := by
  obtain ⟨u, m, hu, rfl⟩ | ⟨ht, -, -⟩ := h
  · exact (hu.trans u.settle_within.steady).trans (State.withAnswer_steady _ m)
  · exact ht

theorem State.Ends.headsDealt {s t : State} (h : s.Ends t) (k : s.IntakeOk) (hd : s.HeadsDealt) : t.HeadsDealt := by
  obtain ⟨u, m, hu, rfl⟩ | ⟨-, hs, hf⟩ := h
  · exact (u.settle_headsDealt (hu.sound.intake k)).congr rfl rfl
  · exact hd.reexamine hs hf

/-- A frame ends as its command does. -/
theorem State.frame_ends (s : State) (n : Nat) {f : State → Reply} (hf : ∀ t : State, t.Ends (f t).1) :
    s.begin.Ends (s.frame n f) := by
  have hzero : Steady s.begin { s.begin with noFrame := false, mdo := .zeros } :=
    Steady.of_same rfl rfl rfl rfl rfl rfl rfl rfl rfl rfl rfl
  unfold State.frame
  dsimp only
  split
  · exact .refl _
  · split
    · exact .quiet hzero rfl rfl
    · exact (hf s.begin).withAnswer _

theorem State.frame_row_ends {s t : State} {n : Nat} {f : State → Reply}
    (h : (.next (s.frame n f) : Host.Outcome State Fault Refusal) = .next t) (hf : ∀ t : State, t.Ends (f t).1) :
    s.begin.Ends t := by
  obtain rfl := Host.Outcome.next.inj h
  exact s.frame_ends n hf

@[simp] theorem Reply.done_fst (s : State) (r : List Byte) : (Reply.done s r).1 = s := rfl
@[simp] theorem Reply.done_status (s : State) (r : List Byte) : (Reply.done s r).2.1 = .done := rfl
@[simp] theorem Reply.done_response (s : State) (r : List Byte) : (Reply.done s r).2.2 = r := rfl
@[simp] theorem Reply.not_fst (s : State) (m : MStatus) : (Reply.not s m).1 = s := rfl

/-! ## Effects that leave the requests as they were -/

/-- The requests, but for marks of examined writes, and the forward path's list are as they were. -/
def State.SameMarks (s t : State) : Prop :=
  t.iq.slots.map Slot.reexamined = s.iq.slots.map Slot.reexamined ∧ t.da.forward = s.da.forward

theorem State.SameMarks.trans {s t u : State} (h : s.SameMarks t) (k : t.SameMarks u) : s.SameMarks u :=
  ⟨k.1.trans h.1, k.2.trans h.2⟩

theorem State.SameMarks.of_same {s t : State} (hs : t.iq.slots = s.iq.slots) (hf : t.da.forward = s.da.forward) :
    s.SameMarks t := ⟨by rw [hs], hf⟩

theorem Calm.sameMarks {s t : State} (h : Calm s t) : s.SameMarks t := ⟨h.slots, by rw [h.da]⟩

theorem State.makeRecord_sameMarks (s : State) (w : RecordReq) : s.SameMarks (s.makeRecord w) := by
  unfold State.makeRecord
  split <;> exact .of_same rfl rfl

theorem State.applyArmed_sameMarks (s : State) (e : Option EpochNo) : s.SameMarks (s.applyArmed e) := by
  unfold State.applyArmed
  split <;> exact .of_same rfl rfl

theorem State.placeOpen_sameMarks (s : State) (e : EpochNo) : s.SameMarks (s.placeOpen e) := by
  unfold State.placeOpen
  refine .trans ?_ (State.evaluate_calm _).sameMarks
  refine .trans ?_ (Calm.reexamine _ (fun x => ?_)).sameMarks
  · exact .trans (.of_same rfl rfl) (State.makeRecord_sameMarks _ _)
  · split <;> rfl

theorem State.reserveOpen_sameMarks (s : State) (e : EpochNo) : s.SameMarks (s.reserveOpen e) := by
  unfold State.reserveOpen
  split
  · exact s.placeOpen_sameMarks e
  · exact (s.reservationFails_calm e).sameMarks.trans (State.placeOpen_sameMarks _ e)

theorem State.fillOpenBank_sameMarks (s : State) (e : Option EpochNo) : s.SameMarks (s.fillOpenBank e) :=
  .of_same rfl rfl

theorem State.startJournaling_sameMarks (s : State) (e : EpochNo) : s.SameMarks (s.startJournaling e) := by
  unfold State.startJournaling
  extract_lets t u
  refine SameMarks.trans (t := u) ?_ (.of_same rfl rfl)
  refine SameMarks.trans ?_ (.of_same rfl rfl : SameMarks _ (State.startTimer _))
  refine SameMarks.trans ?_ (State.reserveOpen_sameMarks _ e)
  refine SameMarks.trans ?_ (State.fillOpenBank_sameMarks _ _)
  refine SameMarks.trans ?_ (State.applyArmed_sameMarks _ _)
  refine SameMarks.trans (t := t) ?_ (.of_same rfl rfl)
  refine SameMarks.trans ?_ (.of_same rfl rfl : SameMarks _ (State.clearTouched _))
  refine SameMarks.trans ?_ (State.setPressure_calm _ _ _).sameMarks
  exact .of_same rfl rfl

theorem State.releaseJournal_sameMarks (s : State) : s.SameMarks s.releaseJournal :=
  (State.normalize_calm s.clearTable.emptyRing).sameMarks

/-! ## The rows of the ports and of the timer -/

theorem execDaGrant_ends {s t : State} (p : PortIx) (h : execDaGrant p s = .next t) : s.begin.Ends t := by
  unfold execDaGrant at h
  dsimp only at h
  split at h
  · obtain rfl := Host.Outcome.next.inj h; exact .refl _
  · rename_i hp
    obtain rfl := Host.Outcome.next.inj h
    have hfree : s.begin.da.slots[p] = none := by
      simpa [State.portSlot?] using (not_or.1 hp).2
    exact .settle (State.grantAlong_steady p _ _ hfree)

theorem execForwardedAck_ends {s t : State} (p : PortIx) (res : AckResult) (h : execForwardedAck p res s = .next t) :
    s.begin.Ends t := by
  unfold execForwardedAck at h
  dsimp only at h
  split at h
  · obtain rfl := Host.Outcome.next.inj h; exact .refl _
  · rename_i x hx
    obtain rfl := Host.Outcome.next.inj h
    obtain ⟨q, hq, hx⟩ := Option.bind_eq_some_iff.1 hx
    obtain ⟨k, hk, hq⟩ := Option.bind_eq_some_iff.1 hq
    obtain ⟨hm, rfl⟩ := State.mem_of_slot? hx
    exact .settle (State.ackForward_steady _ p x res hk hq hm)

theorem execUndoReservation_ends {s t : State} (q : SlotIx) (h : execUndoReservation q s = .next t) :
    s.begin.Ends t := by
  unfold execUndoReservation at h
  dsimp only at h
  split at h
  · obtain rfl := Host.Outcome.next.inj h; exact .refl _
  · rename_i c hc
    split at h <;> obtain rfl := Host.Outcome.next.inj h
    · exact .settle (State.reserveUndo_steady _ hc)
    · exact .refl _

/-! ## The acknowledgments of the other claimants, once (R168, R172) -/

/-- What a row of an acknowledgment does whose D-port slot has its owner told by `own`, and whose effect on an unflagged request
is `act`, none where what it answers is not there (log 2). -/
def State.ackRow {α : Type} (s : State) (p : PortIx) (own : PortKind → Option α) (act : α → Option State) : State :=
  match s.portSlot? p with
  | none => s
  | some k =>
    match own k.kind, k.discard with
    | none, _ => s
    | some _, true => (s.dropAck p).settle
    | some a, false => ((act a).map State.settle).getD s

theorem State.ackRow_free {α : Type} {s : State} {p : PortIx} (h : s.da.slots[p] = none) (own : PortKind → Option α)
    (act : α → Option State) : s.ackRow p own act = s := by
  have hk : s.portSlot? p = none := h
  simp only [State.ackRow, hk]

theorem State.ackRow_flagged {α : Type} {s : State} {p : PortIx} {kind : PortKind} {own : PortKind → Option α} {a : α}
    (h : s.da.slots[p] = some { kind := kind, discard := true }) (ho : own kind = some a) (act : α → Option State) :
    s.ackRow p own act = (s.dropAck p).settle := by
  have hk : s.portSlot? p = _ := h
  simp only [State.ackRow, hk, ho]

theorem State.ackRow_outstanding {α : Type} {s u : State} {p : PortIx} {kind : PortKind} {own : PortKind → Option α} {a : α}
    {act : α → Option State} (h : s.Outstanding p kind) (ho : own kind = some a) (hu : act a = some u) :
    s.ackRow p own act = u.settle := by
  have hk : s.portSlot? p = _ := h
  simp only [State.ackRow, hk, ho, hu, Option.map_some, Option.getD_some]

/-- An acknowledgment is complete when its effect on a request of another claimant than the forward path is steady. -/
theorem State.ackRow_ends {α : Type} {s : State} {p : PortIx} {own : PortKind → Option α} {act : α → Option State}
    (hown : ∀ k a, own k = some a → k.forwardOwner? = none)
    (hact : ∀ a u, s.NoForward p → act a = some u → Steady s u) : s.Ends (s.ackRow p own act) := by
  unfold State.ackRow
  split
  · exact .refl s
  · rename_i k hk
    split
    · exact .refl s
    · rename_i hd
      exact .settle (s.dropAck_steady p (fun h => h.noForward_flagged hk hd))
    · rename_i a ho hd
      cases hu : act a with
      | none => exact .refl s
      | some u => exact .settle (hact a u (State.noForward_of_kind hk (hown _ a ho)) hu)

/-- The owner of a request known by its kind alone. -/
def PortKind.is (k : PortKind) (l : PortKind) : Option Unit := if l = k then some () else none

theorem execOldGranuleReadAck_eq (p : PortIx) (res : AckResult) (s : State) :
    execOldGranuleReadAck p res s = .next (s.begin.ackRow p PortKind.oldReadOwner?
      (fun q => (s.begin.capture? q).map (fun c => s.begin.ackOldRead p c res))) := by
  unfold execOldGranuleReadAck State.ackRow
  dsimp only
  cases s.begin.portSlot? p with
  | none => rfl
  | some k =>
    dsimp only
    cases k.kind.oldReadOwner? with
    | none => rfl
    | some a =>
      cases k.discard with
      | true => rfl
      | false => dsimp only; cases s.begin.capture? a <;> rfl

theorem execUndoWriteAck_eq (p : PortIx) (res : AckResult) (s : State) :
    execUndoWriteAck p res s = .next (s.begin.ackRow p PortKind.undoWriteOwner?
      (fun q => (s.begin.capture? q).map (fun c => s.begin.ackUndoWrite p c res))) := by
  unfold execUndoWriteAck State.ackRow
  dsimp only
  cases s.begin.portSlot? p with
  | none => rfl
  | some k =>
    dsimp only
    cases k.kind.undoWriteOwner? with
    | none => rfl
    | some a =>
      cases k.discard with
      | true => rfl
      | false => dsimp only; cases s.begin.capture? a <;> rfl

theorem execPadWriteAck_eq (p : PortIx) (res : AckResult) (s : State) :
    execPadWriteAck p res s = .next (s.begin.ackRow p PortKind.pad?
      (fun l => some ((s.begin.freePort p).faultOnError l .padWrite res))) := by
  unfold execPadWriteAck State.ackRow
  dsimp only
  cases s.begin.portSlot? p with
  | none => rfl
  | some k =>
    dsimp only
    cases k.kind.pad? with
    | none => rfl
    | some a =>
      cases k.discard with
      | true => rfl
      | false => rfl

theorem execOpenWriteAck_eq (p : PortIx) (res : AckResult) (s : State) :
    execOpenWriteAck p res s = .next (s.begin.ackRow p PortKind.open?
      (fun l => some ((s.begin.freePort p).faultOnError l .openWrite res))) := by
  unfold execOpenWriteAck State.ackRow
  dsimp only
  cases s.begin.portSlot? p with
  | none => rfl
  | some k =>
    dsimp only
    cases k.kind.open? with
    | none => rfl
    | some a =>
      cases k.discard with
      | true => rfl
      | false => rfl

theorem execSealWriteAck_eq (p : PortIx) (res : AckResult) (s : State) :
    execSealWriteAck p res s = .next (s.begin.ackRow p PortKind.seal?
      (fun l => some (((s.begin.freePort p).faultOnError l .sealWrite res).ackSeal l.2))) := by
  unfold execSealWriteAck State.ackRow
  dsimp only
  cases s.begin.portSlot? p with
  | none => rfl
  | some k =>
    dsimp only
    cases k.kind.seal? with
    | none => rfl
    | some a =>
      cases k.discard with
      | true => rfl
      | false => rfl

theorem execRecordReadAck_eq (p : PortIx) (res : AckResult) (s : State) :
    execRecordReadAck p res s = .next (s.begin.ackRow p PortKind.recordRead.is
      (fun _ => some ((s.begin.freePort p).ackRecord res))) := by
  unfold execRecordReadAck State.ackRow PortKind.is
  dsimp only
  cases s.begin.portSlot? p with
  | none => rfl
  | some k =>
    obtain ⟨kind, d⟩ := k
    by_cases hk : kind = .recordRead <;> cases d <;> simp [hk]

theorem execRestoreWriteAck_eq (p : PortIx) (res : AckResult) (s : State) :
    execRestoreWriteAck p res s = .next (s.begin.ackRow p PortKind.restoreWrite.is
      (fun _ => some ((s.begin.freePort p).ackRestore res))) := by
  unfold execRestoreWriteAck State.ackRow PortKind.is
  dsimp only
  cases s.begin.portSlot? p with
  | none => rfl
  | some k =>
    obtain ⟨kind, d⟩ := k
    by_cases hk : kind = .restoreWrite <;> cases d <;> simp [hk]

/-- The owners told by the rows of the other claimants are none of a forwarded request. -/
theorem PortKind.not_forward {k : PortKind} (h : k.oldReadOwner?.isSome ∨ k.undoWriteOwner?.isSome ∨ k.pad?.isSome ∨
    k.seal?.isSome ∨ k.open?.isSome ∨ k = .recordRead ∨ k = .restoreWrite) : k.forwardOwner? = none := by
  cases k with
  | fwdRead q => simp [PortKind.oldReadOwner?, PortKind.undoWriteOwner?, PortKind.pad?, PortKind.seal?, PortKind.open?] at h
  | fwdWrite q => simp [PortKind.oldReadOwner?, PortKind.undoWriteOwner?, PortKind.pad?, PortKind.seal?, PortKind.open?] at h
  | oldRead _ | undoWrite _ | padWrite _ _ | sealWrite _ _ | openWrite _ _ | recordRead | restoreWrite => rfl

theorem PortKind.eq_of_is {k l : PortKind} {a : Unit} (h : k.is l = some a) : l = k := by
  unfold PortKind.is at h
  split at h
  · assumption
  · simp at h

/-! ## Every command but POWER_ON_RESET and UPORT_REQUEST -/

theorem State.expireTimer_row_ends {s t : State} (h : execEpochTimerExpiry s = .next t) : s.begin.Ends t := by
  unfold execEpochTimerExpiry at h
  dsimp only at h
  split at h <;> obtain rfl := Host.Outcome.next.inj h
  · exact .settle (State.expireTimer_steady _)
  · exact .refl _

theorem execEpochInEdge_ends {s t : State} (e : Edge) (h : execEpochInEdge e s = .next t) : s.begin.Ends t := by
  unfold execEpochInEdge at h
  dsimp only at h
  split at h <;> obtain rfl := Host.Outcome.next.inj h
  · exact .settle (State.strobe_steady _)
  · exact .refl _

theorem execDiscardedAck_ends {s t : State} (p : PortIx) (res : AckResult) (h : execDiscardedAck p res s = .next t) :
    s.begin.Ends t := by
  unfold execDiscardedAck at h
  dsimp only at h
  split at h <;> obtain rfl := Host.Outcome.next.inj h
  · rename_i hd
    obtain ⟨k, hk, hd⟩ := Option.any_eq_true _ _ |>.1 hd
    exact .settle (State.dropAck_steady _ p (fun k' => k'.noForward_flagged hk hd))
  · exact .refl _

theorem execResetEnd_ends {s t : State} (b : Bool) (h : execResetEnd b s = .next t) : s.begin.Ends t := by
  unfold execResetEnd at h
  dsimp only at h
  split at h <;> obtain rfl := Host.Outcome.next.inj h
  · exact .quiet (Steady.of_same rfl rfl rfl rfl rfl rfl rfl rfl rfl rfl rfl) rfl rfl
  · exact .refl _

theorem execFrameEndedEarly_ends {s t : State} (l : List Byte) (h : execFrameEndedEarly l s = .next t) :
    s.begin.Ends t := by
  unfold execFrameEndedEarly at h
  dsimp only at h
  split at h <;> obtain rfl := Host.Outcome.next.inj h
  · exact .refl _
  · exact .quiet (Steady.of_same rfl rfl rfl rfl rfl rfl rfl rfl rfl rfl rfl) rfl rfl

/-! The commands of the link -/

theorem State.windowWrite_ends (s : State) (ix kind : Byte) (base mask : Word32) (flags quiet : Byte) :
    s.Ends (s.windowWrite ix kind base mask flags quiet).1 := by
  unfold State.windowWrite
  split
  · exact .refl s
  · exact .quiet (Steady.wu s _) rfl rfl

theorem State.windowRead_ends (s : State) (sel ix : Byte) : s.Ends (s.windowRead sel ix).1 := by
  unfold State.windowRead
  split <;> exact .refl s

theorem State.applyCommand_ends (s : State) : s.Ends s.applyCommand := by
  unfold State.applyCommand
  split
  · exact .quiet (s.applyTable_within none).steady rfl rfl
  · exact .quiet (Steady.wu s _) rfl rfl

theorem State.journalSetup_ends (s : State) (base pages : Word32) : s.Ends (s.journalSetup base pages).1 := by
  unfold State.journalSetup
  split
  · exact .refl s
  · split
    · exact .refl s
    · split
      · exact .refl s
      · dsimp only [Reply.done]
        exact .settle (s.setRegion_steady base pages)

theorem State.retentionSet_ends (s : State) (depth : Byte) : s.Ends (s.retentionSet depth).1 := by
  unfold State.retentionSet
  split
  · exact .refl s
  · split
    · exact .refl s
    · exact .settle ((s.setRetention_steady _ (by omega)).trans (State.commitExcess_within _ _).steady)

theorem State.timerSet_ends (s : State) (interval : BitVec 16) (enable : Byte) : s.Ends (s.timerSet interval enable).1 := by
  unfold State.timerSet
  split
  · exact .refl s
  · split
    · exact .refl s
    · refine .quiet (s.setTimer_steady interval _) ?_ ?_ <;> (unfold Reply.done State.setTimer; dsimp only; split <;> rfl)

theorem State.strobeSet_ends (s : State) (enable polarity : Byte) : s.Ends (s.strobeSet enable polarity).1 := by
  unfold State.strobeSet
  split
  · exact .quiet (s.setStrobe_steady _ _) rfl rfl
  · exact .refl s

theorem State.enable_ends (s : State) (start : EpochNo) : s.Ends (s.enable start).1 := by
  unfold State.enable
  split
  · split
    · exact .refl s
    · exact .inr ⟨(s.startJournaling_within start).steady, s.startJournaling_sameMarks start⟩
  all_goals exact .refl s

theorem State.disable_ends (s : State) : s.Ends s.disable.1 := by
  unfold State.disable
  split
  · exact .refl s
  · exact .settle (s.requestBoundary_steady _)
  all_goals exact .refl s

theorem State.sealCommand_ends (s : State) : s.Ends s.sealCommand.1 := by
  unfold State.sealCommand
  split
  · exact .settle (s.requestBoundary_steady _)
  all_goals exact .refl s

theorem State.armExpected_ends (s : State) (ix : Byte) (v : Word32) : s.Ends (s.armExpected ix v).1 := by
  unfold State.armExpected
  split
  · exact .refl s
  · split
    · exact .refl s
    · split
      · exact .quiet (s.arm_steady _ v) rfl rfl
      · exact .refl s

theorem State.epochRead_ends (s : State) (start count : Byte) : s.Ends (s.epochRead start count).1 := by
  unfold State.epochRead
  split <;> exact .refl s

theorem State.signatureRead_ends (s : State) (e : EpochNo) : s.Ends (s.signatureRead e).1 := by
  unfold State.signatureRead
  split <;> exact .refl s

theorem State.eventRead_ends (s : State) (count : Byte) : s.Ends (s.eventRead count).1 := by
  unfold State.eventRead
  split
  · exact .refl s
  · exact .quiet (Steady.eq s _ (fun h => h.remove _)) rfl rfl

theorem State.journalReset_ends (s : State) : s.Ends (Reply.done s.journalReset.settle []).1 := by
  rw [Reply.done_fst]
  exact .settle s.journalReset_steady

theorem State.acceptRollback_ends (s : State) (e : EpochNo) : s.Ends (s.acceptRollback e) := by
  have hr : Within s ((s.freshRollback.enterRolling e).dropPending) :=
    (s.freshRollback_within.trans (State.enterRolling_within _ e)).trans (State.dropPending_within _)
  exact .settle (hr.steady.trans (State.holdWaiting_steady _))

theorem execRollback_ends {s t : State} (e : EpochNo) (h : execRollback e s = .next t) : s.begin.Ends t := by
  refine State.frame_row_ends h (fun t => ?_)
  cases t.rollbackRefusal e with
  | some status => exact .refl t
  | none =>
    dsimp only [Reply.done]
    exact t.acceptRollback_ends e

theorem execRelease_ends {s t : State} (h : execRelease s = .next t) : s.begin.Ends t := by
  refine State.frame_row_ends h (fun t => ?_)
  by_cases hb : t.ec.bridge = .halted
  · rw [if_pos hb]; exact .inr ⟨t.releaseJournal_within.steady, t.releaseJournal_sameMarks⟩
  · rw [if_neg hb]; exact .refl t

/-- What every command but POWER_ON_RESET and UPORT_REQUEST does. -/
theorem exec_ends {s t : State} {c : Instr} (h : exec c s = .next t) (hu : ∀ r, c ≠ .uportRequest r)
    (hp : c ≠ .powerOnReset) : s.begin.Ends t := by
  cases c with
  | uportRequest r => exact absurd rfl (hu r)
  | powerOnReset => exact absurd rfl hp
  | daGrant p => exact execDaGrant_ends p h
  | forwardedAck p res => exact execForwardedAck_ends p res h
  | undoReservation q => exact execUndoReservation_ends q h
  | oldGranuleReadAck p res =>
    obtain rfl := Host.Outcome.next.inj ((execOldGranuleReadAck_eq p res s).symm.trans h)
    refine State.ackRow_ends (fun k a ha => PortKind.not_forward (by simp [ha])) (fun q u hn hu => ?_)
    obtain ⟨c, hc, rfl⟩ := Option.map_eq_some_iff.1 hu
    exact State.ackOldRead_steady _ p res hn hc
  | undoWriteAck p res =>
    obtain rfl := Host.Outcome.next.inj ((execUndoWriteAck_eq p res s).symm.trans h)
    refine State.ackRow_ends (fun k a ha => PortKind.not_forward (by simp [ha])) (fun q u hn hu => ?_)
    obtain ⟨c, hc, rfl⟩ := Option.map_eq_some_iff.1 hu
    exact State.ackUndoWrite_steady _ p res hn hc
  | padWriteAck p res =>
    obtain rfl := Host.Outcome.next.inj ((execPadWriteAck_eq p res s).symm.trans h)
    refine State.ackRow_ends (fun k a ha => PortKind.not_forward (by simp [ha])) (fun l u hn hu => ?_)
    obtain rfl := Option.some.inj hu
    exact (State.freePort_steady _ p fun _ => hn).trans (State.faultOnError_within _ l _ res).steady
  | sealWriteAck p res =>
    obtain rfl := Host.Outcome.next.inj ((execSealWriteAck_eq p res s).symm.trans h)
    refine State.ackRow_ends (fun k a ha => PortKind.not_forward (by simp [ha])) (fun l u hn hu => ?_)
    obtain rfl := Option.some.inj hu
    exact ((State.freePort_steady _ p fun _ => hn).trans (State.faultOnError_within _ l _ res).steady).trans
      (State.ackSeal_within _ _).steady
  | openWriteAck p res =>
    obtain rfl := Host.Outcome.next.inj ((execOpenWriteAck_eq p res s).symm.trans h)
    refine State.ackRow_ends (fun k a ha => PortKind.not_forward (by simp [ha])) (fun l u hn hu => ?_)
    obtain rfl := Option.some.inj hu
    exact (State.freePort_steady _ p fun _ => hn).trans (State.faultOnError_within _ l _ res).steady
  | recordReadAck p res =>
    obtain rfl := Host.Outcome.next.inj ((execRecordReadAck_eq p res s).symm.trans h)
    refine State.ackRow_ends (fun k a ha => PortKind.not_forward (by simp [PortKind.eq_of_is ha])) (fun l u hn hu => ?_)
    obtain rfl := Option.some.inj hu
    exact (State.freePort_steady _ p fun _ => hn).trans (State.ackRecord_within _ res).steady
  | restoreWriteAck p res =>
    obtain rfl := Host.Outcome.next.inj ((execRestoreWriteAck_eq p res s).symm.trans h)
    refine State.ackRow_ends (fun k a ha => PortKind.not_forward (by simp [PortKind.eq_of_is ha])) (fun l u hn hu => ?_)
    obtain rfl := Option.some.inj hu
    exact (State.freePort_steady _ p fun _ => hn).trans (State.ackRestore_within _ res).steady
  | discardedAck p res => exact execDiscardedAck_ends p res h
  | strayAck p res => obtain rfl := Host.Outcome.next.inj h; exact .refl _
  | holdLimitReached q => obtain rfl := Host.Outcome.next.inj h; exact .settle (State.expireSlot_within _ q).steady
  | epochTimerExpiry => exact State.expireTimer_row_ends h
  | epochInEdge e => exact execEpochInEdge_ends e h
  | resetEnd b => exact execResetEnd_ends b h
  | frameEndedEarly l => exact execFrameEndedEarly_ends l h
  | unknownCommand _ => exact State.frame_row_ends h (fun t => .refl t)
  | statusRead => exact State.frame_row_ends h (fun t => .refl t)
  | windowWrite ix k b m f q =>
    exact State.frame_row_ends h (fun t => t.windowWrite_ends ix k b m f q)
  | windowRead sel ix => exact State.frame_row_ends h (fun t => t.windowRead_ends sel ix)
  | apply => exact State.frame_row_ends h (fun t => t.applyCommand_ends)
  | applyCancel =>
    exact State.frame_row_ends h (fun t => .quiet (Steady.wu t _) rfl rfl)
  | clearTrip set =>
    exact State.frame_row_ends h (fun t => .quiet (Steady.wu t _) rfl rfl)
  | journalSetup b pg => exact State.frame_row_ends h (fun t => t.journalSetup_ends b pg)
  | retentionSet d => exact State.frame_row_ends h (fun t => t.retentionSet_ends d)
  | timerSet i e => exact State.frame_row_ends h (fun t => t.timerSet_ends i e)
  | strobeSet e pl => exact State.frame_row_ends h (fun t => t.strobeSet_ends e pl)
  | holdLimitSet l =>
    exact State.frame_row_ends h (fun t => .settle ((t.setHoldLimit_steady l).trans (State.expireAll_within _).steady))
  | enable e => exact State.frame_row_ends h (fun t => t.enable_ends e)
  | disable => exact State.frame_row_ends h (fun t => t.disable_ends)
  | sealNow => exact State.frame_row_ends h (fun t => t.sealCommand_ends)
  | rollback e => exact execRollback_ends e h
  | release => exact execRelease_ends h
  | journalReset => exact State.frame_row_ends h State.journalReset_ends
  | armExpected ix v => exact State.frame_row_ends h (fun t => t.armExpected_ends ix v)
  | epochRead a b => exact State.frame_row_ends h (fun t => t.epochRead_ends a b)
  | signatureRead e => exact State.frame_row_ends h (fun t => t.signatureRead_ends e)
  | eventRead n => exact State.frame_row_ends h (fun t => t.eventRead_ends n)
  | eventMaskSet m =>
    exact State.frame_row_ends h (fun t => .quiet (Steady.eq t _ (fun k => k.setMask m)) rfl rfl)
  | clearCounters =>
    exact State.frame_row_ends h (fun t => .quiet t.clearMerged_steady rfl rfl)

end Sys2Proof.Machine

/-! Acceptance, POWER_ON_RESET and the idle step, and the invariants that hold after every step. -/
namespace Sys2Proof.Machine

/-! ## Acceptance, reset and the idle step -/

/-- The U-port with `r` behind the requests that wait there. -/
def State.present (s : State) (r : Request) : State := { s.begin with port := s.port ++ [r] }

theorem State.present_sound (s : State) (r : Request) : Sound s (s.present r) :=
  s.begin_sound.trans (Sound.of_same rfl rfl rfl rfl rfl rfl rfl rfl rfl rfl)

theorem exec_uportRequest (r : Request) (s : State) : exec (.uportRequest r) s = .next (s.present r).takePort.settle := rfl

/-- Right after POWER_ON_RESET: the reset values, with the waiting requests and the queue. -/
def State.poweredOn (s : State) : State := { State.reset with inReset := true, port := s.port, pending := s.pending }

theorem exec_powerOnReset (s : State) : exec .powerOnReset s = .next s.poweredOn := rfl

theorem State.reset_ok : State.reset.Ok where
  events := ⟨by decide, by intro i r h; simp [State.reset] at h, by decide, by decide, by decide⟩
  touched := ⟨by decide, by decide⟩
  pressure := by simp [JournalWriter.PressureOk, State.reset]
  ranges := ⟨by intro e h; simp [State.reset] at h, by decide, by decide, by decide, by decide, by decide, by decide⟩
  intake := by
    constructor <;> simp [State.reset, PortKind.forwardOwner?]

theorem State.reset_headsDealt : State.reset.HeadsDealt := by
  constructor <;> simp [State.reset]

theorem State.poweredOn_sound (s : State) : s.poweredOn.Ok :=
  (Sound.of_same rfl rfl rfl rfl rfl rfl rfl rfl rfl rfl : Sound State.reset s.poweredOn).ok State.reset_ok

theorem State.poweredOn_headsDealt (s : State) : s.poweredOn.HeadsDealt :=
  State.reset_headsDealt.congr rfl rfl

/-- The idle step takes a request that waits, or is a tick. -/
theorem State.idle_cases (s : State) :
    s.idle = s.begin.takePort.settle ∨ s.idle = s.begin.tick := by
  unfold State.idle
  dsimp only
  split
  · exact .inl rfl
  · exact .inr rfl

theorem step_cases {s t : State} (h : step s = .next t) :
    t = s.idle ∨ ∃ c rest, s.pending = c :: rest ∧ exec c { s with pending := rest } = .next t := by
  unfold step at h
  split at h
  · exact .inl (Host.Outcome.next.inj h).symm
  · rename_i c rest hp
    exact .inr ⟨c, rest, hp, h⟩

/-! ## The invariants of the Intake Queue and of the counts -/

/-- Every command keeps what holds at every moment. -/
theorem exec_ok {s t : State} {c : Instr} (h : exec c s = .next t) (k : s.Ok) : t.Ok := by
  by_cases hp : c = .powerOnReset
  · subst hp
    obtain rfl := Host.Outcome.next.inj h
    exact s.poweredOn_sound
  by_cases hu : ∃ r, c = .uportRequest r
  · obtain ⟨r, rfl⟩ := hu
    obtain rfl := Host.Outcome.next.inj ((exec_uportRequest r s).symm.trans h)
    exact (((s.present_sound r).trans (State.takePort_sound _)).trans (State.settle_within _).sound).ok k
  · exact (exec_ends h (fun r e => hu ⟨r, e⟩) hp).steady.sound.ok (s.begin_sound.ok k)

/-- Settles O57: each effect keeps it, and so does what follows. -/
theorem okKept : Obligations.OkKept := by
  unfold Obligations.OkKept
  intro s t k h
  obtain rfl | ⟨c, rest, -, h⟩ := step_cases h
  · obtain e | e := s.idle_cases <;> rw [e]
    · exact ((s.begin_sound.trans (State.takePort_sound _)).trans (State.settle_within _).sound).ok k
    · exact (s.begin_sound.trans (State.tick_steady _).sound).ok k
  · have hq : Sound s { s with pending := rest } := Sound.of_same rfl rfl rfl rfl rfl rfl rfl rfl rfl rfl
    exact exec_ok h (hq.ok k)

theorem State.tick_intake (s : State) : s.tick.iq = s.iq ∧ s.tick.da = s.da := by
  unfold State.tick
  split <;> exact ⟨rfl, rfl⟩

/-- Every command leaves the heads dealt with. -/
theorem exec_headsDealt {s t : State} {c : Instr} (h : exec c s = .next t) (k : s.IntakeOk) (hd : s.HeadsDealt) :
    t.HeadsDealt := by
  by_cases hp : c = .powerOnReset
  · subst hp
    obtain rfl := Host.Outcome.next.inj h
    exact s.poweredOn_headsDealt
  by_cases hu : ∃ r, c = .uportRequest r
  · obtain ⟨r, rfl⟩ := hu
    obtain rfl := Host.Outcome.next.inj ((exec_uportRequest r s).symm.trans h)
    exact State.settle_headsDealt _ (((s.present_sound r).trans (State.takePort_sound _)).intake k)
  · exact (exec_ends h (fun r e => hu ⟨r, e⟩) hp).headsDealt (s.begin_sound.intake k) (hd.congr rfl rfl)

/-- Settles O59: an action ends by dealing with every head, or leaves the requests and what they ask for as they were. -/
theorem headsDealtKept : Obligations.HeadsDealtKept := by
  unfold Obligations.HeadsDealtKept
  intro s t k hd h
  obtain rfl | ⟨c, rest, -, h⟩ := step_cases h
  · obtain e | e := s.idle_cases <;> rw [e]
    · exact State.settle_headsDealt _ ((s.begin_sound.trans (State.takePort_sound _)).intake k)
    · exact hd.congr (congrArg Intake.slots s.begin.tick_intake.1) (congrArg Arbiter.forward s.begin.tick_intake.2)
  · have hq : Sound s { s with pending := rest } := Sound.of_same rfl rfl rfl rfl rfl rfl rfl rfl rfl rfl
    exact exec_headsDealt h (hq.intake k) (hd.congr rfl rfl)

/-! ## Each request answered once -/

/-- What the U-port does with the request that has waited longest: nothing, an answer MALFORMED, or its acceptance. -/
theorem State.takePort_cases (s : State) :
    s.takePort = s ∨ ∃ r rest q, s.port = r :: rest ∧ s.freeSlot? = some q ∧
      ((formOk r = false ∧ s.takePort =
          { s with port := rest }.respond { master := r.master, tag := r.tag, status := .malformed, data := [] }) ∨
        (formOk r = true ∧ s.takePort = { s with port := rest }.accept q r)) := by
  unfold State.takePort
  split
  · rename_i r rest q hp hq
    split
    · exact .inl rfl
    · refine .inr ⟨r, rest, q, hp, hq, ?_⟩
      unfold State.take
      cases hf : formOk r
      · exact .inl ⟨rfl, if_neg (by simp)⟩
      · exact .inr ⟨rfl, if_pos rfl⟩
  · exact .inl rfl

/-- Settles O60: the answers of an effect come before those of what follows it, and each leaves its requests in order. -/
theorem answersOnceInOrder : Obligations.AnswersOnceInOrder := by
  unfold Obligations.AnswersOnceInOrder
  refine ⟨fun s t c k hu hp h => (exec_ends h hu hp).steady.answers (s.begin_sound.intake k), fun s t r k h => ?_⟩
  obtain rfl := Host.Outcome.next.inj ((exec_uportRequest r s).symm.trans h)
  have hk : (s.present r).IntakeOk := (s.present_sound r).intake k
  obtain ⟨gone, hgone, -⟩ := (State.settle_within _).answers ((State.takePort_sound _).intake hk)
  refine ⟨(s.present r).takePort, gone, hgone, ?_⟩
  obtain e | ⟨r', rest, q, hport, hq, hcase⟩ := (s.present r).takePort_cases
  · rw [e]
    exact .inl ⟨rfl, rfl⟩
  · have hr' : r' ∈ s.port ++ [r] := by
      have hp : s.port ++ [r] = r' :: rest := hport
      rw [hp]
      exact List.mem_cons_self
    obtain ⟨-, e⟩ | ⟨-, e⟩ := hcase <;> rw [e]
    · exact .inr (.inl ⟨r', hr', rfl, rfl⟩)
    · obtain ⟨hkeys, hout⟩ := State.accept_requests { s.present r with port := rest } q r'
      exact .inr (.inr ⟨hout, _, hkeys, rfl, State.freeSlot?_free hq, hr'⟩)

end Sys2Proof.Machine

/-! The management link: what a command's frame comes to, by command; the bytes of a frame; the positions of an answer; the rows
of reset. -/
namespace Sys2Proof.Machine

/-! ## The cells of section 11.2 -/

@[simp] theorem cell_windowWrite (ix k : Byte) (a m : Word32) (f q : Byte) (b : Bridge) :
    cellStatuses (.windowWrite ix k a m f q) b = [.done, .argument] := by cases b <;> rfl
@[simp] theorem cell_windowRead (sel ix : Byte) (b : Bridge) :
    cellStatuses (.windowRead sel ix) b = [.done, .argument] := by cases b <;> rfl
@[simp] theorem cell_timerSet (i : BitVec 16) (e : Byte) (b : Bridge) :
    cellStatuses (.timerSet i e) b = [.done, .argument] := by cases b <;> rfl
@[simp] theorem cell_strobeSet (e p : Byte) (b : Bridge) :
    cellStatuses (.strobeSet e p) b = [.done, .argument] := by cases b <;> rfl
@[simp] theorem cell_epochRead (x n : Byte) (b : Bridge) :
    cellStatuses (.epochRead x n) b = [.done, .argument] := by cases b <;> rfl
@[simp] theorem cell_eventRead (n : Byte) (b : Bridge) :
    cellStatuses (.eventRead n) b = [.done, .argument] := by cases b <;> rfl
@[simp] theorem cell_journalSetup (x n : Word32) (b : Bridge) :
    cellStatuses (.journalSetup x n) b = if b = .passthrough then [.done, .argument, .busy] else [.state] := by
  cases b <;> rfl
@[simp] theorem cell_retentionSet (n : Byte) (b : Bridge) :
    cellStatuses (.retentionSet n) b = if b = .rolling ∨ b = .halted then [.state] else [.done, .argument] := by
  cases b <;> rfl
@[simp] theorem cell_enable (e : EpochNo) (b : Bridge) :
    cellStatuses (.enable e) b =
      if b = .passthrough then [.done, .state] else if b = .closing ∨ b = .rolling then [.busy] else [.state] := by
  cases b <;> rfl
@[simp] theorem cell_disable (b : Bridge) :
    cellStatuses .disable b = if b = .closing ∨ b = .rolling then [.busy] else if b = .halted then [.state] else [.done] := by
  cases b <;> rfl
@[simp] theorem cell_sealNow (b : Bridge) :
    cellStatuses .sealNow b =
      if b = .closing ∨ b = .rolling then [.busy] else if b = .journaling then [.done] else [.state] := by
  cases b <;> rfl
@[simp] theorem cell_rollback (e : EpochNo) (b : Bridge) :
    cellStatuses (.rollback e) b =
      if b = .rolling then [.busy] else if b = .journaling then [.done, .argument, .state]
      else if b = .halted then [.done, .argument] else [.state] := by
  cases b <;> rfl
@[simp] theorem cell_release (b : Bridge) :
    cellStatuses .release b = if b = .halted then [.done] else [.state] := by cases b <;> rfl
@[simp] theorem cell_armExpected (ix : Byte) (v : Word32) (b : Bridge) :
    cellStatuses (.armExpected ix v) b = if b = .journaling then [.done, .argument] else [.state] := by cases b <;> rfl
@[simp] theorem cell_signatureRead (e : EpochNo) (b : Bridge) :
    cellStatuses (.signatureRead e) b = if b = .passthrough then [.argument] else [.done, .argument] := by
  cases b <;> rfl
@[simp] theorem cell_unknownCommand (n : Byte) (b : Bridge) :
    cellStatuses (.unknownCommand n) b = [.unknown] := by cases b <;> rfl
/-- The commands that are answered DONE in every bridge state. -/
theorem cell_always {c : Instr} (h : c = .statusRead ∨ c = .apply ∨ c = .applyCancel ∨ (∃ x, c = .clearTrip x) ∨
    (∃ x, c = .holdLimitSet x) ∨ c = .journalReset ∨ (∃ x, c = .eventMaskSet x) ∨ c = .clearCounters) (b : Bridge) :
    .done ∈ cellStatuses c b := by
  rcases h with rfl | rfl | rfl | ⟨x, rfl⟩ | ⟨x, rfl⟩ | rfl | ⟨x, rfl⟩ | rfl <;> cases b <;> exact List.mem_cons_self

/-! ## A command's frame -/

/-- The row of command `c` is a frame of `n` argument bytes that `f` answers: DONE, or otherwise with no effect, and with a status
of the command's cell of section 11.2. -/
structure Answers (c : Instr) (n : Nat) (f : State → Reply) : Prop where
  row     : ∀ s, exec c s = .next (s.frame n f)
  refused : ∀ t, (f t).2.1 = .done ∨ ∃ m, f t = Reply.not t m
  cell    : ∀ t, (t.ec.bridge = .passthrough → t.ec.table = []) → (f t).2.1 ∈ cellStatuses c t.ec.bridge

/-- A command that is answered DONE whatever the state. -/
theorem Answers.always {c : Instr} {n : Nat} {f : State → State} {r : State → List Byte}
    (row : ∀ s, exec c s = .next (s.frame n (fun t => Reply.done (f t) (r t)))) (cell : ∀ b, .done ∈ cellStatuses c b) :
    Answers c n (fun t => Reply.done (f t) (r t)) where
  row := row
  refused := fun _ => .inl rfl
  cell := fun t _ => cell t.ec.bridge

theorem Reply.not_status (s : State) (m : MStatus) : (Reply.not s m).2.1 = m := rfl

theorem answers_windowWrite (ix kind : Byte) (base mask : Word32) (flags quiet : Byte) :
    Answers (.windowWrite ix kind base mask flags quiet) 12 (fun t => t.windowWrite ix kind base mask flags quiet) where
  row := fun _ => rfl
  refused := fun t => by
    unfold State.windowWrite
    split
    · exact .inr ⟨_, rfl⟩
    · exact .inl rfl
  cell := fun t _ => by
    unfold State.windowWrite
    split <;> simp [Reply.not_status]

theorem answers_windowRead (sel ix : Byte) : Answers (.windowRead sel ix) 2 (fun t => t.windowRead sel ix) where
  row := fun _ => rfl
  refused := fun t => by
    unfold State.windowRead
    split
    · exact .inl rfl
    · exact .inr ⟨_, rfl⟩
  cell := fun t _ => by
    unfold State.windowRead
    split <;> simp [Reply.not_status]

theorem answers_journalSetup (base pages : Word32) :
    Answers (.journalSetup base pages) 8 (fun t => t.journalSetup base pages) where
  row := fun _ => rfl
  refused := fun t => by
    unfold State.journalSetup
    split
    · exact .inr ⟨_, rfl⟩
    · split
      · exact .inr ⟨_, rfl⟩
      · split
        · exact .inr ⟨_, rfl⟩
        · exact .inl (Reply.done_status _ _)
  cell := fun t _ => by
    unfold State.journalSetup
    split
    · rename_i hb
      cases hc : t.ec.bridge <;> simp_all [Reply.not_status]
    · rename_i hb
      rw [Classical.not_not.1 hb]
      split
      · simp [Reply.not_status]
      · split
        · simp [Reply.not_status]
        · rw [Reply.done_status]; simp

theorem answers_retentionSet (depth : Byte) : Answers (.retentionSet depth) 1 (fun t => t.retentionSet depth) where
  row := fun _ => rfl
  refused := fun t => by
    unfold State.retentionSet
    split
    · exact .inr ⟨_, rfl⟩
    · split
      · exact .inr ⟨_, rfl⟩
      · exact .inl (Reply.done_status _ _)
  cell := fun t _ => by
    unfold State.retentionSet
    split
    · rename_i hb
      rcases hb with hb | hb <;> rw [hb] <;> simp [Reply.not_status]
    · rename_i hb
      have hd : ∀ m : MStatus, m = .done ∨ m = .argument → m ∈ cellStatuses (.retentionSet depth) t.ec.bridge := by
        intro m hm
        cases hc : t.ec.bridge <;> simp_all
      split
      · exact hd _ (.inr rfl)
      · rw [Reply.done_status]; exact hd _ (.inl rfl)

theorem answers_timerSet (interval : BitVec 16) (enable : Byte) :
    Answers (.timerSet interval enable) 3 (fun t => t.timerSet interval enable) where
  row := fun _ => rfl
  refused := fun t => by
    unfold State.timerSet
    split
    · exact .inr ⟨_, rfl⟩
    · split
      · exact .inr ⟨_, rfl⟩
      · exact .inl rfl
  cell := fun t _ => by
    unfold State.timerSet
    split
    · simp [Reply.not_status]
    · split <;> simp [Reply.not_status]

theorem answers_strobeSet (enable polarity : Byte) :
    Answers (.strobeSet enable polarity) 2 (fun t => t.strobeSet enable polarity) where
  row := fun _ => rfl
  refused := fun t => by
    unfold State.strobeSet
    split
    · exact .inl rfl
    · exact .inr ⟨_, rfl⟩
  cell := fun t _ => by
    unfold State.strobeSet
    split <;> simp [Reply.not_status]

theorem answers_enable (start : EpochNo) : Answers (.enable start) 4 (fun t => t.enable start) where
  row := fun _ => rfl
  refused := fun t => by
    unfold State.enable
    split
    · split
      · exact .inr ⟨_, rfl⟩
      · exact .inl (Reply.done_status _ _)
    all_goals exact .inr ⟨_, rfl⟩
  cell := fun t _ => by
    unfold State.enable
    cases hc : t.ec.bridge <;> dsimp only
    · split
      · simp [Reply.not_status]
      · rw [Reply.done_status]; simp
    all_goals simp [Reply.not_status]

theorem answers_disable : Answers .disable 0 State.disable where
  row := fun _ => rfl
  refused := fun t => by
    unfold State.disable
    split
    · exact .inl rfl
    · exact .inl (Reply.done_status _ _)
    all_goals exact .inr ⟨_, rfl⟩
  cell := fun t _ => by
    unfold State.disable
    cases hc : t.ec.bridge <;> dsimp only
    case journaling => rw [Reply.done_status]; simp
    all_goals simp [Reply.not_status]

theorem answers_sealNow : Answers .sealNow 0 State.sealCommand where
  row := fun _ => rfl
  refused := fun t => by
    unfold State.sealCommand
    split
    · exact .inl (Reply.done_status _ _)
    all_goals exact .inr ⟨_, rfl⟩
  cell := fun t _ => by
    unfold State.sealCommand
    cases hc : t.ec.bridge <;> dsimp only
    case journaling => rw [Reply.done_status]; simp
    all_goals simp [Reply.not_status]

/-- What ROLLBACK answers (R139). -/
def State.rollbackReply (s : State) (t : EpochNo) : Reply :=
  match s.rollbackRefusal t with
  | some status => Reply.not s status
  | none => Reply.done (s.acceptRollback t) []

/-- A ROLLBACK that is not accepted has a status of its cell, and one that is accepted is met in JOURNALING or HALTED. -/
theorem State.rollbackRefusal_cell (s : State) (t : EpochNo) :
    (s.rollbackRefusal t).getD .done ∈ cellStatuses (.rollback t) s.ec.bridge := by
  unfold State.rollbackRefusal
  cases hb : s.ec.bridge
  case journaling => dsimp only; repeat' split
                     all_goals simp
  case halted => dsimp only; repeat' split
                 all_goals simp_all
  all_goals simp

theorem answers_rollback (target : EpochNo) : Answers (.rollback target) 4 (fun t => t.rollbackReply target) where
  row := fun _ => rfl
  refused := fun t => by
    unfold State.rollbackReply
    split
    · exact .inr ⟨_, rfl⟩
    · exact .inl (Reply.done_status _ _)
  cell := fun t _ => by
    have hcell := t.rollbackRefusal_cell target
    unfold State.rollbackReply
    cases hr : t.rollbackRefusal target with
    | some m => rw [hr] at hcell; exact hcell
    | none => rw [hr] at hcell; dsimp only; rw [Reply.done_status]; exact hcell

theorem answers_release : Answers .release 0 (fun t =>
    if t.ec.bridge = .halted then Reply.done t.releaseJournal [] else Reply.not t .state) where
  row := fun _ => rfl
  refused := fun t => by
    split
    · exact .inl (Reply.done_status _ _)
    · exact .inr ⟨_, rfl⟩
  cell := fun t _ => by
    split
    · rename_i hb
      rw [hb, Reply.done_status]; simp
    · cases hc : t.ec.bridge <;> simp_all [Reply.not_status]

theorem answers_armExpected (ix : Byte) (value : Word32) :
    Answers (.armExpected ix value) 5 (fun t => t.armExpected ix value) where
  row := fun _ => rfl
  refused := fun t => by
    unfold State.armExpected
    split
    · exact .inr ⟨_, rfl⟩
    · split
      · exact .inr ⟨_, rfl⟩
      · split
        · exact .inl rfl
        · exact .inr ⟨_, rfl⟩
  cell := fun t _ => by
    unfold State.armExpected
    split
    · cases hc : t.ec.bridge <;> simp_all [Reply.not_status]
    · rename_i hb
      rw [Classical.not_not.1 hb]
      split
      · simp [Reply.not_status]
      · split <;> simp [Reply.not_status]

theorem answers_epochRead (start count : Byte) : Answers (.epochRead start count) 2 (fun t => t.epochRead start count) where
  row := fun _ => rfl
  refused := fun t => by
    unfold State.epochRead
    split
    · exact .inl rfl
    · exact .inr ⟨_, rfl⟩
  cell := fun t _ => by
    unfold State.epochRead
    split <;> simp [Reply.not_status]

/-- In PASSTHROUGH the table is empty, and SIGNATURE READ finds no epoch. -/
theorem answers_signatureRead (e : EpochNo) : Answers (.signatureRead e) 4 (fun t => t.signatureRead e) where
  row := fun _ => rfl
  refused := fun t => by
    unfold State.signatureRead
    split
    · exact .inr ⟨_, rfl⟩
    · exact .inl rfl
  cell := fun t h => by
    unfold State.signatureRead
    cases hs : t.sealedSigs? e with
    | none => cases t.ec.bridge <;> simp [Reply.not_status]
    | some l =>
      have hb : t.ec.bridge ≠ .passthrough := by
        intro hb
        simp [State.sealedSigs?, State.entry?, h hb] at hs
      cases hc : t.ec.bridge <;> simp_all

theorem answers_eventRead (count : Byte) : Answers (.eventRead count) 1 (fun t => t.eventRead count) where
  row := fun _ => rfl
  refused := fun t => by
    unfold State.eventRead
    split
    · exact .inr ⟨_, rfl⟩
    · exact .inl rfl
  cell := fun t _ => by
    unfold State.eventRead
    split <;> simp [Reply.not_status]

/-- Every command of the link, and the row of an unknown command byte, is a frame with its answer. -/
theorem exists_answers {c : Instr} (h : (encodeFrame c).isSome) : ∃ n f, Answers c n f := by
  cases c with
  | unknownCommand code =>
    exact ⟨0, fun t => Reply.not t .unknown, fun _ => rfl, fun _ => .inr ⟨_, rfl⟩, fun _ _ => by simp [Reply.not_status]⟩
  | statusRead => exact ⟨0, _, Answers.always (fun _ => rfl) (cell_always (by simp))⟩
  | windowWrite ix k b m f q => exact ⟨_, _, answers_windowWrite ix k b m f q⟩
  | windowRead sel ix => exact ⟨_, _, answers_windowRead sel ix⟩
  | apply => exact ⟨0, _, Answers.always (fun _ => rfl) (cell_always (by simp))⟩
  | applyCancel => exact ⟨0, _, Answers.always (fun _ => rfl) (cell_always (by simp))⟩
  | clearTrip set => exact ⟨2, _, Answers.always (fun _ => rfl) (cell_always (by simp))⟩
  | journalSetup b p => exact ⟨_, _, answers_journalSetup b p⟩
  | retentionSet d => exact ⟨_, _, answers_retentionSet d⟩
  | timerSet i e => exact ⟨_, _, answers_timerSet i e⟩
  | strobeSet e p => exact ⟨_, _, answers_strobeSet e p⟩
  | holdLimitSet l => exact ⟨2, _, Answers.always (fun _ => rfl) (cell_always (by simp))⟩
  | enable e => exact ⟨_, _, answers_enable e⟩
  | disable => exact ⟨_, _, answers_disable⟩
  | sealNow => exact ⟨_, _, answers_sealNow⟩
  | rollback e => exact ⟨_, _, answers_rollback e⟩
  | release => exact ⟨_, _, answers_release⟩
  | journalReset => exact ⟨0, _, Answers.always (fun _ => rfl) (cell_always (by simp))⟩
  | armExpected ix v => exact ⟨_, _, answers_armExpected ix v⟩
  | epochRead a b => exact ⟨_, _, answers_epochRead a b⟩
  | signatureRead e => exact ⟨_, _, answers_signatureRead e⟩
  | eventRead n => exact ⟨_, _, answers_eventRead n⟩
  | eventMaskSet m => exact ⟨1, _, Answers.always (fun _ => rfl) (cell_always (by simp))⟩
  | clearCounters => exact ⟨0, _, Answers.always (fun _ => rfl) (cell_always (by simp))⟩
  | uportRequest _ | daGrant _ | forwardedAck _ _ | undoReservation _ | oldGranuleReadAck _ _ | undoWriteAck _ _
  | padWriteAck _ _ | sealWriteAck _ _ | openWriteAck _ _ | recordReadAck _ _ | restoreWriteAck _ _ | discardedAck _ _
  | strayAck _ _ | holdLimitReached _ | epochTimerExpiry | epochInEdge _ | powerOnReset | resetEnd _ | frameEndedEarly _ =>
    simp [encodeFrame] at h

/-- While the MI listens the command is taken, and its answer is on MDO. -/
theorem Answers.listens {c : Instr} {n : Nat} {f : State → Reply} (h : Answers c n f) {s : State} (hl : s.Listens) :
    exec c s = .next ((f s.begin).1.withAnswer
      (.answer { args := n, status := (f s.begin).2.1, response := (f s.begin).2.2 })) := by
  rw [h.row, State.frame_listens hl]
  rfl

/-- Settles O6: an answer other than DONE comes with the state as it was and no response. -/
theorem refusedCommandChangesNothing : Obligations.RefusedCommandChangesNothing := by
  unfold Obligations.RefusedCommandChangesNothing
  intro c s hc hl
  obtain ⟨n, f, h⟩ := exists_answers hc
  refine ⟨_, _, h.listens hl, rfl, ?_⟩
  obtain hd | ⟨m, hm⟩ := h.refused s.begin
  · exact .inl hd
  · rw [hm]
    exact .inr ⟨rfl, rfl⟩

/-- Settles O7: each command's answers lie in its cells. -/
theorem statusByBridgeState : Obligations.StatusByBridgeState := by
  unfold Obligations.StatusByBridgeState
  intro c s hc hl ht
  obtain ⟨n, f, h⟩ := exists_answers hc
  exact ⟨_, _, h.listens hl, rfl, h.cell s.begin ht⟩

/-- Settles O5: no frame's row comes to a command without the MI listening. -/
theorem framesWithoutACommand : Obligations.FramesWithoutACommand := by
  unfold Obligations.FramesWithoutACommand
  refine fun s hr => ⟨fun bytes => ?early, fun code hn => ?unknown, fun c hc hn => ?cut⟩
  case early =>
    show execFrameEndedEarly bytes s = _
    simp [execFrameEndedEarly, hr]
  case unknown => exact congrArg Host.Outcome.next (State.frame_not ⟨hr, hn⟩ 0 _ .unknown rfl)
  case cut =>
    obtain ⟨n, f, h⟩ := exists_answers hc
    rw [h.row, State.frame_noFrame hr hn]

/-- Settles O1. -/
theorem stepTakesFrontCommand : Obligations.StepTakesFrontCommand := by
  unfold Obligations.StepTakesFrontCommand
  intro c rest s h
  simp only [step, h]

/-- Settles O3. -/
theorem resetValues : Obligations.ResetValues := by
  unfold Obligations.ResetValues
  refine ⟨fun i => ?_, fun i => ?_, rfl, rfl, rfl, rfl, rfl, rfl, rfl, rfl, rfl, rfl, rfl, rfl, rfl, rfl, rfl, rfl, rfl, rfl,
    rfl, rfl, rfl, rfl, rfl, fun i => ?_, rfl, rfl, fun i => ?_, rfl, rfl, rfl, rfl, rfl, rfl, rfl, rfl, rfl, rfl,
    fun p => ?_, rfl, rfl, rfl, rfl, rfl, rfl, rfl, rfl, rfl, rfl, rfl, rfl, rfl, rfl, rfl, rfl, rfl, rfl, rfl, rfl, rfl, rfl⟩
  all_goals simp [State.reset, WinEntry.reset, Bank.reset, BankEntry.reset]

/-! ## The bytes of a command (12.4) -/

/-- What the bytes of a command spell: its code, with as many argument bytes as the code's count, and nothing with fewer. -/
structure Spells (c : Instr) (code : Byte) (args : List Byte) : Prop where
  count : argCount code = some args.length
  taken : commandOf code args = some c
  short : ∀ l : List Byte, l.length < args.length → commandOf code l = none

theorem encodeFrame_spells {c : Instr} {bytes : List Byte} (hc : IsCommand c) (h : encodeFrame c = some bytes) :
    ∃ code args, bytes = code :: args ∧ Spells c code args := by
  have none_short : ∀ (code : Byte) (l : List Byte), l.length < 0 → commandOf code l = none :=
    fun _ _ hl => absurd hl (Nat.not_lt_zero _)
  cases c with
  | unknownCommand code => exact absurd rfl (hc.2 code)
  | statusRead => obtain rfl := Option.some.inj h; exact ⟨_, _, rfl, argCount_01, commandOf_01, none_short _⟩
  | windowWrite ix k b m f q =>
    obtain rfl := Option.some.inj h
    refine ⟨_, _, rfl, argCount_10, ?_, commandOf_short_10⟩
    simp only [bytes32, List.cons_append, List.nil_append, commandOf_10, word32_bytes]
  | windowRead sel ix => obtain rfl := Option.some.inj h; exact ⟨_, _, rfl, argCount_11, commandOf_11 _ _, commandOf_short_11⟩
  | apply => obtain rfl := Option.some.inj h; exact ⟨_, _, rfl, argCount_12, commandOf_12, none_short _⟩
  | applyCancel => obtain rfl := Option.some.inj h; exact ⟨_, _, rfl, argCount_13, commandOf_13, none_short _⟩
  | clearTrip set =>
    obtain rfl := Option.some.inj h
    refine ⟨_, _, rfl, argCount_14, ?_, commandOf_short_14⟩
    simp only [bytes16, commandOf_14, word16_bytes]
  | journalSetup b p =>
    obtain rfl := Option.some.inj h
    refine ⟨_, _, rfl, argCount_20, ?_, commandOf_short_20⟩
    simp only [bytes32, List.cons_append, List.nil_append, commandOf_20, word32_bytes]
  | retentionSet d => obtain rfl := Option.some.inj h; exact ⟨_, _, rfl, argCount_21, commandOf_21 _, commandOf_short_21⟩
  | timerSet i e =>
    obtain rfl := Option.some.inj h
    refine ⟨_, _, rfl, argCount_22, ?_, commandOf_short_22⟩
    simp only [bytes16, List.cons_append, List.nil_append, commandOf_22, word16_bytes]
  | strobeSet e p => obtain rfl := Option.some.inj h; exact ⟨_, _, rfl, argCount_23, commandOf_23 _ _, commandOf_short_23⟩
  | holdLimitSet l =>
    obtain rfl := Option.some.inj h
    refine ⟨_, _, rfl, argCount_24, ?_, commandOf_short_24⟩
    simp only [bytes16, commandOf_24, word16_bytes]
  | enable e =>
    obtain rfl := Option.some.inj h
    refine ⟨_, _, rfl, argCount_30, ?_, commandOf_short_30⟩
    simp only [bytes32, commandOf_30, word32_bytes]
  | disable => obtain rfl := Option.some.inj h; exact ⟨_, _, rfl, argCount_31, commandOf_31, none_short _⟩
  | sealNow => obtain rfl := Option.some.inj h; exact ⟨_, _, rfl, argCount_32, commandOf_32, none_short _⟩
  | rollback e =>
    obtain rfl := Option.some.inj h
    refine ⟨_, _, rfl, argCount_33, ?_, commandOf_short_33⟩
    simp only [bytes32, commandOf_33, word32_bytes]
  | release => obtain rfl := Option.some.inj h; exact ⟨_, _, rfl, argCount_34, commandOf_34, none_short _⟩
  | journalReset => obtain rfl := Option.some.inj h; exact ⟨_, _, rfl, argCount_35, commandOf_35, none_short _⟩
  | armExpected ix v =>
    obtain rfl := Option.some.inj h
    refine ⟨_, _, rfl, argCount_40, ?_, commandOf_short_40⟩
    simp only [bytes32, commandOf_40, word32_bytes]
  | epochRead a b => obtain rfl := Option.some.inj h; exact ⟨_, _, rfl, argCount_41, commandOf_41 _ _, commandOf_short_41⟩
  | signatureRead e =>
    obtain rfl := Option.some.inj h
    refine ⟨_, _, rfl, argCount_42, ?_, commandOf_short_42⟩
    simp only [bytes32, commandOf_42, word32_bytes]
  | eventRead n => obtain rfl := Option.some.inj h; exact ⟨_, _, rfl, argCount_50, commandOf_50 _, commandOf_short_50⟩
  | eventMaskSet m => obtain rfl := Option.some.inj h; exact ⟨_, _, rfl, argCount_51, commandOf_51 _, commandOf_short_51⟩
  | clearCounters => obtain rfl := Option.some.inj h; exact ⟨_, _, rfl, argCount_52, commandOf_52, none_short _⟩
  | uportRequest _ | daGrant _ | forwardedAck _ _ | undoReservation _ | oldGranuleReadAck _ _ | undoWriteAck _ _
  | padWriteAck _ _ | sealWriteAck _ _ | openWriteAck _ _ | recordReadAck _ _ | restoreWriteAck _ _ | discardedAck _ _
  | strayAck _ _ | holdLimitReached _ | epochTimerExpiry | epochInEdge _ | powerOnReset | resetEnd _ | frameEndedEarly _ =>
    simp [encodeFrame] at h

/-- Settles O8: the code's count takes exactly the argument bytes, which spell the command. -/
theorem frameRoundTrip : Obligations.FrameRoundTrip := by
  unfold Obligations.FrameRoundTrip
  intro c bytes extra hc h
  obtain ⟨code, args, rfl, hs⟩ := encodeFrame_spells hc h
  exact decodeFrame_taken hs.count rfl hs.taken extra

/-- Settles O9: a code with too few argument bytes spells nothing, and eight bits, most significant first, are their byte. -/
theorem framesRead : Obligations.FramesRead := by
  unfold Obligations.FramesRead
  refine ⟨fun c bytes n hc h hn => ?early, fun bytes part hp => bytesOfBits_bitsOfByte bytes part hp,
    rfl, rfl, rfl, rfl, rfl, rfl, rfl, rfl, rfl⟩
  case early =>
    obtain ⟨code, args, rfl, hs⟩ := encodeFrame_spells hc h
    cases n with
    | zero => rfl
    | succ m =>
      refine decodeFrame_early hs.count (hs.short _ ?_)
      simp only [List.length_cons] at hn
      simp only [List.length_take]
      omega

/-! ## Positions on MDO (R187) -/

theorem Answer.byteAt_status (a : Answer) : a.byteAt (a.args + 2) = a.status.byte := by
  simp [Answer.byteAt]

theorem Answer.byteAt_response (a : Answer) (j : Nat) : a.byteAt (a.args + 3 + j) = a.response.getD j 0#8 := by
  have h1 : ¬ a.args + 3 + j < a.args + 2 := by omega
  have h2 : a.args + 3 + j ≠ a.args + 2 := by omega
  simp only [Answer.byteAt, h1, h2, if_false, Nat.add_sub_cancel_left]

/-- Settles O10. -/
theorem answerPositions : Obligations.AnswerPositions := by
  unfold Obligations.AnswerPositions
  refine fun a => ⟨fun k hk => ?turnaround, ?status, fun j b hb => ?response, fun j hj => ?behind, fun k j hj => ?bits,
    fun k => ⟨rfl, rfl, rfl⟩⟩
  case turnaround => exact if_pos (by omega)
  case status => rw [a.byteAt_status]; cases a.status <;> rfl
  case response => rw [a.byteAt_response, List.getD_eq_getElem?_getD, hb]; rfl
  case behind => rw [a.byteAt_response, List.getD_eq_getElem?_getD, List.getElem?_eq_none hj]; rfl
  case bits =>
    have h1 : (8 * k + j) / 8 = k := by omega
    have h2 : (8 * k + j) % 8 = j := by omega
    simp only [Answer.bitAt, h1, h2]

end Sys2Proof.Machine

/-! When nothing follows an action: no head left to deal with, no seal due and no DRAIN. The rows of reset. -/
namespace Sys2Proof.Machine

/-! ## Nothing to deal with (R7, R97, R144) -/

/-- Slot `q` needs no dealing: it is FREE, not a WAITING head, or a head that has asked or stays at its capture point. -/
def State.SlotSettled (s : State) (q : SlotIx) : Prop :=
  ∀ x, s.slot? q = some x → x.state = .waiting → s.isHead x = true → x.outcome = none ∧
    (x.ix ∈ s.da.forward ∨ (x.needsCapture = true ∧ x.epoch.isSome ∧ x.atPoint = true))

theorem State.dealHead_self {s : State} {x : Slot} (ho : x.outcome = none)
    (h : x.ix ∈ s.da.forward ∨ (x.needsCapture = true ∧ x.epoch.isSome ∧ x.atPoint = true)) (n : Nat) :
    s.dealHead x n = s := by
  unfold State.dealHead
  rw [ho]
  dsimp only
  by_cases hf : x.ix ∈ s.da.forward
  · rw [if_pos hf]
  · obtain ⟨hc, he, hp⟩ := h.resolve_left hf
    obtain ⟨e, he⟩ := Option.isSome_iff_exists.1 he
    rw [if_neg hf, hc, he]
    exact if_pos hp

theorem State.dealSlot_self {s : State} {q : SlotIx} (h : s.SlotSettled q) (n : Nat) : s.dealSlot n q = s := by
  unfold State.dealSlot
  cases hx : s.slot? q with
  | none => rfl
  | some x =>
    dsimp only
    split
    · rename_i hw
      obtain ⟨ho, hd⟩ := h x hx hw.1 hw.2
      exact State.dealHead_self ho hd n
    · rfl

/-- A fold of steps that leave the state leaves it. -/
theorem foldl_self {α β : Type} {f : β → α → β} {s : β} {l : List α} (h : ∀ a ∈ l, f s a = s) : l.foldl f s = s := by
  induction l with
  | nil => rfl
  | cons a l ih =>
    rw [List.foldl_cons, h a List.mem_cons_self]
    exact ih (fun b hb => h b (List.mem_cons_of_mem _ hb))

theorem State.serve_self {s : State} (h : ∀ q, s.SlotSettled q) : s.serve = s :=
  foldl_self (fun q _ => State.dealSlot_self (h q) _)

theorem State.serve_of_none_waiting {s : State} (h : ∀ x ∈ s.iq.slots, x.state ≠ .waiting) : s.serve = s :=
  State.serve_self (fun _ x hx hw => absurd hw (h x (State.mem_of_slot? hx).1))

theorem State.serve_of_headsSettled {s : State} (k : s.IntakeOk) (h : s.HeadsSettled) : s.serve = s :=
  State.serve_self (fun _ x hx hw hh => by
    have hm := (State.mem_of_slot? hx).1
    exact h x hm hw (State.isHead_oldest k hm hh))

theorem State.writesDone_iff (s : State) (e : EpochNo) :
    s.writesDone e = true ↔ ∀ x ∈ s.iq.slots, x.epoch = some e → x.state = .held := by
  simp only [State.writesDone, List.all_eq_true, Bool.or_eq_true, bne_iff_ne, beq_iff_eq, ne_eq]
  exact forall₂_congr fun _ _ => Decidable.imp_iff_not_or.symm

theorem State.startSeal_self {s : State} (h : s.NoSealDue) : s.startSeal = s := by
  unfold State.startSeal
  cases he : s.sealingEntry? with
  | none => rfl
  | some e =>
    refine if_neg (fun hd => ?_)
    obtain hl | ⟨x, hx, hxe, hst⟩ := h e he
    · simp [Option.isNone_iff_eq_none.1 hd.1] at hl
    · exact hst ((s.writesDone_iff e.number).1 hd.2 x hx hxe)

theorem State.testDrain_self {s : State} (h : s.re.phase ≠ .drain) : s.testDrain = s := by
  unfold State.testDrain
  split
  · rename_i hp _; exact absurd hp h
  · rfl

/-- With no head to deal with, no seal due and no DRAIN nothing follows an action. -/
theorem State.settle_self {s : State} (hw : s.serve = s) (hp : s.re.phase ≠ .drain) (hn : s.NoSealDue) :
    s.settle = s := by
  simp only [State.settle, hw, State.startSeal_self hn, State.testDrain_self hp]

/-! ## Reset (R191, R197, R198) -/

theorem State.takePort_inReset {s : State} (h : s.inReset = true) : s.takePort = s := by
  unfold State.takePort
  split
  · exact if_pos h
  · rfl

theorem State.idle_inReset {s : State} (h : s.inReset = true) : s.idle = s.begin := by
  simp [State.idle, State.takesRequests, State.tick, h]

/-- A state with no request and no epoch has nothing left to do. -/
theorem State.settle_empty {s : State} (hs : s.iq.slots = []) (ht : s.ec.table = []) (hp : s.re.phase = .idle) :
    s.settle = s :=
  State.settle_self (State.serve_of_none_waiting (by simp [hs])) (by simp [hp])
    (fun e he => by simp [State.sealingEntry?, ht] at he)

/-- Settles O4: a reset state takes no command, grants nothing and counts nothing. -/
theorem reset : Obligations.Reset := by
  unfold Obligations.Reset
  refine ⟨⟨fun s => rfl, fun s b h => ?ends, fun s b h => ?noReset⟩, fun s h => ?inReset⟩
  case ends =>
    show execResetEnd b s = _
    simp [execResetEnd, State.begin, h]
  case noReset =>
    show execResetEnd b s = _
    simp [execResetEnd, State.begin, h]
  case inReset =>
    refine ⟨fun c hc => ?command, fun bytes => ?early, fun p => ?grant, fun e => ?edge, fun hp => ?idle,
      fun r hs ht hp => ?request⟩
    case command =>
      obtain ⟨n, f, ha⟩ := exists_answers hc
      rw [ha.row, State.frame_inReset h]
    case early =>
      show execFrameEndedEarly bytes s = _
      simp [execFrameEndedEarly, h]
    case grant =>
      show execDaGrant p s = _
      simp [execDaGrant, h]
    case edge =>
      show execEpochInEdge e s = _
      simp [execEpochInEdge, h]
    case idle => simp only [step, hp, State.idle_inReset h]
    case request =>
      have hr : (s.present r).inReset = true := h
      have hsettle : (s.present r).settle = s.present r := State.settle_empty (s := s.present r) hs ht hp
      rw [exec_uportRequest, State.takePort_inReset hr, hsettle]
      rfl

end Sys2Proof.Machine

/-! The commands of the window tables: the arguments of WINDOW WRITE, the bytes of WINDOW READ, APPLY in PASSTHROUGH. -/
namespace Sys2Proof.Machine

/-! ## Frames (R187, R188) -/

theorem State.answered_begin (s : State) (n : Nat) (m : MStatus) (bytes : List Byte) :
    s.begin.answered n m bytes = s.answered n m bytes := rfl

/-- A command that is refused leaves the state as it was, with its answer. -/
theorem Answers.refuses {c : Instr} {n : Nat} {f : State → Reply} (h : Answers c n f) {s : State} (hl : s.Listens)
    {m : MStatus} (hm : f s.begin = Reply.not s.begin m) : exec c s = .next (s.answered n m []) := by
  rw [h.listens hl, hm]
  rfl

/-- A command that only answers or only changes a part of the state. -/
theorem Answers.does {c : Instr} {n : Nat} {f : State → Reply} (h : Answers c n f) {s u : State} (hl : s.Listens)
    {bytes : List Byte} (hu : f s.begin = Reply.done u.begin bytes) : exec c s = .next (u.answered n .done bytes) := by
  rw [h.listens hl, hu]
  rfl

/-- A command whose effect has consequences. -/
theorem Answers.settles {c : Instr} {n : Nat} {f : State → Reply} (h : Answers c n f) {s u : State} (hl : s.Listens)
    {bytes : List Byte} (hu : f s.begin = Reply.done u.settle bytes) :
    exec c s = .next (u.settle.withAnswer (.answer { args := n, status := .done, response := bytes })) := by
  rw [h.listens hl, hu, Reply.done_fst, Reply.done_status, Reply.done_response]

/-! ## The arguments (R33, R202) -/

theorem kindOfCode_eq_none {b : Byte} (h : 4 < b.toNat) : kindOfCode b = none := by
  unfold kindOfCode
  split <;> first | rfl | simp at h

theorem kindOfCode_code (k : WinKind) {b : Byte} (h : k.code = b.toNat) : kindOfCode b = some k := by
  have hb : b = BitVec.ofNat 8 k.code := by rw [h, BitVec.ofNat_toNat, BitVec.setWidth_eq]
  rw [hb]
  cases k <;> rfl

theorem exists_kind {b : Byte} (h : b.toNat ≤ 4) : ∃ k : WinKind, k.code = b.toNat := by
  obtain h | h | h | h | h : b.toNat = 0 ∨ b.toNat = 1 ∨ b.toNat = 2 ∨ b.toNat = 3 ∨ b.toNat = 4 := by omega
  · exact ⟨.off, h.symm⟩
  · exact ⟨.pass, h.symm⟩
  · exact ⟨.journal, h.symm⟩
  · exact ⟨.guard, h.symm⟩
  · exact ⟨.fence, h.symm⟩

theorem winIxOf_val {b : Byte} {i : WinIx} (h : i.val = b.toNat) : winIxOf b = some i := by
  have hb : b.toNat < 16 := h ▸ i.isLt
  rw [winIxOf, dif_pos hb]
  exact congrArg some (Fin.ext h.symm)

theorem winIxOf_eq_none {b : Byte} (h : 15 < b.toNat) : winIxOf b = none := dif_neg (by omega)

theorem pageOf_eq_none {w : Word32} (h : 2 ^ 26 ≤ w.toNat) : pageOf w = none := if_neg (by omega)

theorem pageOf_eq_some {w : Word32} (h : w.toNat < 2 ^ 26) : pageOf w = some (w.setWidth 26) := if_pos h

theorem toNat_setWidth_page {w : Word32} (h : w.toNat < 2 ^ 26) : (w.setWidth 26 : Page).toNat = w.toNat := by
  rw [BitVec.toNat_setWidth, Nat.mod_eq_of_lt h]

/-- The cases of R33. -/
def WindowArgsBad (ix kind : Byte) (base mask : Word32) (flags : Byte) : Prop :=
  15 < ix.toNat ∨ 4 < kind.toNat ∨ 2 ^ 26 ≤ base.toNat ∨ 2 ^ 26 ≤ mask.toNat ∨
    (flags.getLsbD 0 = true ∧ kind ≠ 4#8) ∨ (flags.getLsbD 1 = true ∧ kind ≠ 3#8)

theorem WinKind.code_eq_iff {k : WinKind} {b : Byte} (h : k.code = b.toNat) (l : WinKind) :
    k = l ↔ b = BitVec.ofNat 8 l.code := by
  have hb : b = BitVec.ofNat 8 k.code := by rw [h, BitVec.ofNat_toNat, BitVec.setWidth_eq]
  rw [hb]
  cases k <;> cases l <;> decide

/-- The entry that valid arguments spell. -/
def spelled (k : WinKind) (base mask : Word32) (flags quiet : Byte) : WinEntry :=
  { kind := k, base := base.setWidth 26, mask := mask.setWidth 26, readFence := flags.getLsbD 0, quiet := quiet,
    action := if flags.getLsbD 1 then .trip else .report }

theorem windowArgs_bad {ix kind : Byte} {base mask : Word32} {flags : Byte} (quiet : Byte)
    (h : WindowArgsBad ix kind base mask flags) : windowArgs ix kind base mask flags quiet = none := by
  unfold windowArgs
  split
  · rename_i i k b m hi hk hb hm
    refine if_pos ?_
    have hcode : k.code = kind.toNat := by
      refine Classical.byContradiction (fun hne => ?_)
      obtain h4 | h4 := Nat.lt_or_ge 4 kind.toNat
      · rw [kindOfCode_eq_none h4] at hk; simp at hk
      · obtain ⟨k', hk'⟩ := exists_kind h4
        rw [kindOfCode_code k' hk', Option.some.injEq] at hk
        exact hne (hk ▸ hk')
    have h4 : k = .fence ↔ kind = 4#8 := WinKind.code_eq_iff hcode .fence
    have h3 : k = .guard ↔ kind = 3#8 := WinKind.code_eq_iff hcode .guard
    obtain h | h | h | h | ⟨hf, hk'⟩ | ⟨hf, hk'⟩ := h
    · rw [winIxOf_eq_none h] at hi; simp at hi
    · rw [kindOfCode_eq_none h] at hk; simp at hk
    · rw [pageOf_eq_none h] at hb; simp at hb
    · rw [pageOf_eq_none h] at hm; simp at hm
    · simp [hf, mt h4.1 hk']
    · simp [hf, mt h3.1 hk']
  · rfl

theorem windowArgs_good {ix kind : Byte} {base mask : Word32} {flags : Byte} (quiet : Byte)
    (h : ¬ WindowArgsBad ix kind base mask flags) :
    ∃ (i : WinIx) (k : WinKind), i.val = ix.toNat ∧ k.code = kind.toNat ∧ base.toNat < 2 ^ 26 ∧ mask.toNat < 2 ^ 26 ∧
      windowArgs ix kind base mask flags quiet = some (i, spelled k base mask flags quiet) := by
  simp only [WindowArgsBad, not_or, Nat.not_lt, Nat.not_le, not_and, Classical.not_not] at h
  obtain ⟨hix, hkind, hbase, hmask, hfence, htrip⟩ := h
  obtain ⟨k, hk⟩ := exists_kind hkind
  refine ⟨⟨ix.toNat, by omega⟩, k, rfl, hk, hbase, hmask, ?_⟩
  have h4 : k = .fence ↔ kind = 4#8 := WinKind.code_eq_iff hk .fence
  have h3 : k = .guard ↔ kind = 3#8 := WinKind.code_eq_iff hk .guard
  have hok : ((flags.getLsbD 0 && k != .fence) || (flags.getLsbD 1 && k != .guard)) = false := by
    cases h0 : flags.getLsbD 0 <;> cases h1 : flags.getLsbD 1 <;> simp_all
  rw [windowArgs, winIxOf_val (i := ⟨ix.toNat, by omega⟩) rfl, kindOfCode_code k hk, pageOf_eq_some hbase,
    pageOf_eq_some hmask]
  dsimp only
  rw [hok]
  rfl

theorem exec_windowWrite_good {s : State} (hl : s.Listens) {ix kind : Byte} {base mask : Word32} {flags : Byte}
    (quiet : Byte) {i : WinIx} {w : WinEntry} (h : windowArgs ix kind base mask flags quiet = some (i, w)) :
    exec (.windowWrite ix kind base mask flags quiet) s = .next ((s.stage i w).answered 12 .done []) := by
  refine (answers_windowWrite ix kind base mask flags quiet).does hl ?_
  simp only [State.windowWrite, h]
  rfl

theorem exec_windowWrite_bad {s : State} (hl : s.Listens) {ix kind : Byte} {base mask : Word32} {flags : Byte}
    (quiet : Byte) (h : windowArgs ix kind base mask flags quiet = none) :
    exec (.windowWrite ix kind base mask flags quiet) s = .next (s.answered 12 .argument []) := by
  refine (answers_windowWrite ix kind base mask flags quiet).refuses hl ?_
  simp only [State.windowWrite, h]

/-- Settles O11: the arguments spell an entry outside the cases of R33, and nothing in them. -/
theorem windowWrite : Obligations.WindowWrite := by
  unfold Obligations.WindowWrite
  refine ⟨fun s ix kind base mask flags quiet hl => ⟨fun hbad => ?bad, fun hgood => ?good⟩, fun args hlen => ?short,
    fun s bytes hl => ?early⟩
  case bad => exact exec_windowWrite_bad hl quiet (windowArgs_bad quiet hbad)
  case good =>
    obtain ⟨i, k, hi, hk, hb, hm, hw⟩ := windowArgs_good quiet hgood
    refine ⟨i, spelled k base mask flags quiet, hi, hk, toNat_setWidth_page hb, toNat_setWidth_page hm, rfl, rfl, ?_,
      exec_windowWrite_good hl quiet hw⟩
    show (if flags.getLsbD 1 then Action.trip else .report) = .trip ↔ _
    cases flags.getLsbD 1 <;> simp
  case short => exact decodeFrame_early argCount_10 (commandOf_short_10 _ (by rw [List.length_take]; omega))
  case early =>
    show execFrameEndedEarly bytes s = _
    obtain ⟨hr, hn⟩ := hl
    simp [execFrameEndedEarly, State.begin, hr, hn]

/-! ## WINDOW READ (R34) -/

theorem tableOf_eq_none {b : Byte} (h : 1 < b.toNat) : tableOf b = none := by
  unfold tableOf
  split <;> first | rfl | simp at h

theorem byte_le_one {b : Byte} (h : b.toNat ≤ 1) : b = 0#8 ∨ b = 1#8 := by
  obtain h | h : b.toNat = 0 ∨ b.toNat = 1 := by omega
  · exact .inl (BitVec.eq_of_toNat_eq h)
  · exact .inr (BitVec.eq_of_toNat_eq h)

theorem byteOf_val {b : Byte} {n : Nat} (h : n = b.toNat) : byteOf n = b := by
  rw [byteOf, h, BitVec.ofNat_toNat, BitVec.setWidth_eq]

/-- A page's field in four bytes. -/
theorem bytes32_page (p : Page) : bytes32 (p.setWidth 32) =
    [p.extractLsb' 0 8, p.extractLsb' 8 8, p.extractLsb' 16 8, (p.extractLsb' 24 2).setWidth 8] := by
  have hlow (k : Nat) (hk : k ≤ 16) : (p.setWidth 32 : Word32).extractLsb' k 8 = p.extractLsb' k 8 := by
    refine BitVec.eq_of_getLsbD_eq fun j hj => ?_
    have h32 : k + j < 32 := by omega
    simp [hj, h32]
  have htop : (p.setWidth 32 : Word32).extractLsb' 24 8 = (p.extractLsb' 24 2).setWidth 8 := by
    refine BitVec.eq_of_getLsbD_eq fun j hj => ?_
    have h32 : 24 + j < 32 := by omega
    simp only [BitVec.getLsbD_extractLsb', BitVec.getLsbD_setWidth, hj, h32, decide_true, Bool.true_and]
    by_cases h2 : j < 2
    · simp [h2]
    · simp [h2, BitVec.getLsbD_of_ge p (24 + j) (by omega)]
  rw [bytes32, hlow 0 (by omega), hlow 8 (by omega), hlow 16 (by omega), htop]

theorem exec_windowRead {s : State} (hl : s.Listens) {sel ix : Byte} {t : Table} {i : WinIx} (ht : tableOf sel = some t)
    (hi : i.val = ix.toNat) : exec (.windowRead sel ix) s = .next (s.answered 2 .done (s.windowBytes t i)) := by
  refine (answers_windowRead sel ix).does hl ?_
  simp only [State.windowRead, ht, winIxOf_val hi]
  rfl

/-- Settles O12: the selector and the index give the entry, or ARGUMENT. -/
theorem windowRead : Obligations.WindowRead := by
  unfold Obligations.WindowRead
  refine fun s sel ix hl => ⟨fun hbad => ?bad, fun i hi hsel => ?good⟩
  case bad =>
    refine (answers_windowRead sel ix).refuses hl ?_
    obtain h | h := hbad
    · simp only [State.windowRead, tableOf_eq_none h]
    · simp only [State.windowRead, winIxOf_eq_none h]
      cases tableOf sel <;> rfl
  case good =>
    intro w
    have hflags (v : WinEntry) : byteOf (bitOf v.readFence 0 + bitOf (decide (v.action = .trip)) 1) =
        BitVec.ofNat 8 ((if v.readFence then 1 else 0) + (if v.action = .trip then 2 else 0)) := by
      cases hr : v.readFence <;> by_cases ha : v.action = .trip <;> simp [byteOf, bitOf, ha]
    have hbit (b : Bool) : byteOf (bitOf b 0) = if b = true then 1#8 else 0#8 := by cases b <;> rfl
    obtain rfl | rfl := byte_le_one hsel
    · rw [exec_windowRead hl (t := .active) rfl hi]
      simp only [State.windowBytes, WinEntry.bytes, bytes32_page, byteOf_val hi, hflags, hbit, State.tripped, w, if_true,
        true_and]
      rfl
    · rw [exec_windowRead hl (t := .staged) rfl hi]
      simp only [State.windowBytes, WinEntry.bytes, bytes32_page, byteOf_val hi, hflags, hbit, w]
      simp only [BitVec.reduceEq, false_and, if_false]
      rfl

theorem setWidth_page {w : Word32} (h : w.toNat < 2 ^ 26) : ((w.setWidth 26 : Page).setWidth 32 : Word32) = w := by
  refine BitVec.eq_of_toNat_eq ?_
  rw [BitVec.toNat_setWidth, toNat_setWidth_page h, Nat.mod_eq_of_lt (by omega)]

/-- The flags byte is read back with its two low bits alone (R202). -/
theorem flags_byte (f : Byte) {k : WinKind} {base mask : Word32} {quiet : Byte} :
    byteOf (bitOf (spelled k base mask f quiet).readFence 0
      + bitOf (decide ((spelled k base mask f quiet).action = .trip)) 1) = f &&& 3#8 := by
  have hbits : f &&& 3#8 = byteOf (bitOf (f.getLsbD 0) 0 + bitOf (f.getLsbD 1) 1) := by
    refine BitVec.eq_of_getLsbD_eq fun j hj => ?_
    obtain rfl | rfl | hj2 : j = 0 ∨ j = 1 ∨ 2 ≤ j := by omega
    · rw [BitVec.getLsbD_and]
      cases f.getLsbD 0 <;> cases f.getLsbD 1 <;> rfl
    · rw [BitVec.getLsbD_and]
      cases f.getLsbD 0 <;> cases f.getLsbD 1 <;> rfl
    · have h3 : (3#8).getLsbD j = false := (show ∀ n < 8, 2 ≤ n → (3#8).getLsbD n = false by decide) j hj hj2
      have hr : (byteOf (bitOf (f.getLsbD 0) 0 + bitOf (f.getLsbD 1) 1)).getLsbD j = false :=
        (show ∀ b c : Bool, ∀ n < 8, 2 ≤ n → (byteOf (bitOf b 0 + bitOf c 1)).getLsbD n = false by decide) _ _ j hj hj2
      rw [BitVec.getLsbD_and, h3, hr, Bool.and_false]
  rw [hbits]
  show byteOf (bitOf (f.getLsbD 0) 0 + bitOf (decide ((if f.getLsbD 1 then Action.trip else .report) = .trip)) 1) = _
  cases f.getLsbD 1 <;> rfl

/-- Settles O13: an answer DONE means that the arguments spell an entry, which then stands in the staged table. -/
theorem windowWriteThenRead : Obligations.WindowWriteThenRead := by
  unfold Obligations.WindowWriteThenRead
  intro s t a ix kind base mask flags quiet hl ht ha hdone
  by_cases hbad : WindowArgsBad ix kind base mask flags
  · rw [exec_windowWrite_bad hl quiet (windowArgs_bad quiet hbad)] at ht
    obtain rfl := Host.Outcome.next.inj ht
    obtain rfl := Mdo.answer.inj ha
    simp at hdone
  · obtain ⟨i, k, hi, hk, hb, hm, hw⟩ := windowArgs_good quiet hbad
    rw [exec_windowWrite_good hl quiet hw] at ht
    obtain rfl := Host.Outcome.next.inj ht
    have hread : ((s.stage i (spelled k base mask flags quiet)).answered 12 .done []).wu.staged[i] =
        spelled k base mask flags quiet := by
      show (s.wu.staged.set i _)[i] = _
      simp
    rw [exec_windowRead (s := (s.stage i (spelled k base mask flags quiet)).answered 12 .done []) (t := .staged) hl rfl hi]
    simp only [State.windowBytes, WinEntry.bytes, hread, byteOf_val hi, flags_byte]
    have hkind : byteOf (spelled k base mask flags quiet).kind.code = kind := byteOf_val hk
    have hbase : bytes32 ((spelled k base mask flags quiet).base.setWidth 32) = bytes32 base :=
      congrArg bytes32 (setWidth_page hb)
    have hmask : bytes32 ((spelled k base mask flags quiet).mask.setWidth 32) = bytes32 mask :=
      congrArg bytes32 (setWidth_page hm)
    have harm : byteOf (bitOf s.wu.armed 0) = if s.wu.armed = true then 1#8 else 0#8 := by
      cases s.wu.armed <;> rfl
    rw [hkind, hbase, hmask]
    simp only [State.answered_wu]
    show _ = Host.Outcome.next (State.answered _ 2 .done _)
    rw [← harm]
    rfl

/-! ## APPLY (R35, R36, R120) -/

/-- A word of flags set one by one has exactly the flags of the windows that pass. -/
theorem foldl_flags_getLsbD (p : WinIx → Bool) (l : List WinIx) (b : BitVec 16) (j : WinIx) :
    (l.foldl (fun b i => if p i then b ||| BitVec.twoPow 16 i.val else b) b).getLsbD j.val =
      (b.getLsbD j.val || (decide (j ∈ l) && p j)) := by
  induction l generalizing b with
  | nil => simp
  | cons i l ih =>
    rw [List.foldl_cons, ih]
    by_cases hj : j = i
    · subst hj
      cases p j <;> simp
    · have hv : j.val ≠ i.val := fun h => hj (Fin.ext h)
      cases p i <;> simp [hj, hv]

theorem bits16_getLsbD (p : WinIx → Bool) (i : WinIx) : (bits16 p).getLsbD i.val = p i := by
  rw [bits16, foldl_flags_getLsbD]
  simp [List.mem_finRange]

theorem State.changedSet_iff (s : State) (i : WinIx) :
    s.changedSet.getLsbD i.val = true ↔ s.wu.active[i] ≠ s.wu.staged[i] := by
  rw [State.changedSet, bits16_getLsbD, bne_iff_ne]

theorem State.applied_quiet (s : State) (i : WinIx) :
    (s.su.applied s.changedSet).quiet[i] =
      if s.wu.active[i] ≠ s.wu.staged[i] then { counter := 0, dormant := false } else s.su.quiet[i] := by
  simp only [SignatureUnit.applied, Fin.getElem_fin, Vector.getElem_ofFn, Quiet.applied]
  exact ite_congr (propext (s.changedSet_iff i)) (fun _ => rfl) (fun _ => rfl)

theorem State.applied_sealing (s : State) (i : WinIx) :
    (s.su.applied s.changedSet).sealingBank.entries[i] =
      if s.wu.active[i] ≠ s.wu.staged[i] then { s.su.sealingBank.entries[i] with superseded := true }
      else s.su.sealingBank.entries[i] := by
  simp only [SignatureUnit.applied, Fin.getElem_fin, Vector.getElem_ofFn, BankEntry.applied]
  exact ite_congr (propext (s.changedSet_iff i)) (fun _ => rfl) (fun _ => rfl)

/-- Settles O14: the apply changes the windows of the changed set, and outside PASSTHROUGH APPLY only arms. -/
theorem apply : Obligations.Apply := by
  unfold Obligations.Apply
  refine ⟨fun s hl hb => exec_apply_arms hl hb, fun s hl hb => ?now⟩
  refine ⟨s.su.applied s.changedSet, s.changedSet, s.changedSet_iff, rfl, rfl, s.applied_quiet, s.applied_sealing, ?_⟩
  refine (Answers.always (fun _ => rfl) (cell_always (by simp)) :
    Answers .apply 0 (fun t => Reply.done t.applyCommand [])).does hl ?_
  have hc : s.begin.applyCommand = s.begin.applyTable none := if_pos hb
  rw [hc]
  rfl

end Sys2Proof.Machine

/-! Decisions at acceptance, the form check and back pressure, acceptance outside an epoch, the hold limit. -/
namespace Sys2Proof.Machine

/-! ## The region and the pages (R24) -/

theorem toNat_page (a : Addr) : (a.extractLsb' 12 26).toNat = a.toNat / 4096 := by
  have ha : a.toNat < 2 ^ 38 := a.isLt
  rw [BitVec.extractLsb'_toNat, Nat.shiftRight_eq_div_pow, Nat.mod_eq_of_lt (by omega)]

theorem pageArg_eq (a : Addr) : pageArg a = BitVec.ofNat 32 (a.toNat / 4096) := by
  refine BitVec.eq_of_toNat_eq ?_
  rw [pageArg, BitVec.toNat_setWidth, toNat_page, BitVec.toNat_ofNat]

theorem State.inRegion_iff {s : State} {g : Region} (h : s.jw.region = some g) (a : Addr) :
    s.inRegion a = true ↔ g.base * 4096 ≤ a.toNat ∧ a.toNat < (g.base + g.pages) * 4096 := by
  simp only [State.inRegion, h, Bool.and_eq_true, decide_eq_true_eq, toNat_page]
  omega

theorem State.classify_region {s : State} {r : Request} (h : s.inRegion r.addr = true) :
    s.classify r = (none, .pass, some (.fenced, .fenceHit)) := by
  simp only [State.classify, h, if_true]

/-- Outside the region the window found, its kind and its trip flag decide. -/
theorem State.classify_window {s : State} {r : Request} {i : WinIx} (hr : s.inRegion r.addr = false)
    (hi : (s.classify r).1 = some i) :
    s.classify r = (some i, s.wu.active[i].kind,
      if s.wu.active[i].kind = .fence ∧ (r.dir = .write ∨ s.wu.active[i].readFence = true) then some (.fenced, .fenceHit)
      else if r.dir = .write ∧ s.wu.active[i].kind ≠ .fence ∧ s.wu.trip.getLsbD i.val = true then
        some (.tripped, .trippedWrite)
      else none) := by
  cases hw : s.window? r.addr with
  | none => rw [(State.classify_window_none hw).1] at hi; simp at hi
  | some j =>
    obtain rfl : j = i := Option.some.inj ((State.classify_window_some hr hw).1.symm.trans hi)
    simp only [State.classify, hr, hw, Bool.false_eq_true, if_false]
    rw [show s.tripped (some j) = s.wu.trip.getLsbD j.val from rfl]
    split
    · rfl
    · split <;> rfl

theorem State.classify_unmatched {s : State} {r : Request} (hr : s.inRegion r.addr = false)
    (hi : (s.classify r).1 = none) : s.classify r = (none, .pass, none) := by
  cases hw : s.window? r.addr with
  | none => simp only [State.classify, hr, hw, Bool.false_eq_true, if_false]
  | some j => rw [(State.classify_window_some hr hw).1] at hi; simp at hi

theorem State.classifyEvent_of {s : State} {r : Request} {w : Option WinIx} {k : WinKind} {d : Decided} {c : EventCode}
    (h : s.classify r = (w, k, some (d, c))) :
    s.classifyEvent r = some { code := c, win := w, master := some r.master, arg := BitVec.ofNat 32 (r.addr.toNat / 4096) } := by
  simp only [State.classifyEvent, h, Option.map_some, pageArg_eq]

theorem State.classifyEvent_none {s : State} {r : Request} {w : Option WinIx} {k : WinKind}
    (h : s.classify r = (w, k, none)) : (s.classify r).2.2 = none ∧ s.classifyEvent r = none := by
  simp only [State.classifyEvent, h, Option.map_none, and_self]

/-- Settles O17: the region first, then the kind and the trip flag of the window found. -/
theorem decisionsAtAcceptance : Obligations.DecisionsAtAcceptance := by
  unfold Obligations.DecisionsAtAcceptance
  refine ⟨⟨fun s g r h => State.inRegion_iff h r.addr, fun s a h => ?unset, fun s r h => ?inside⟩,
    fun s r i hr hi => ?window, fun s r hr hi => State.classifyEvent_none (State.classify_unmatched hr hi)⟩
  case unset => simp only [State.inRegion, h]
  case inside => exact ⟨State.classify_region h, State.classifyEvent_of (State.classify_region h)⟩
  case window =>
    have hc := State.classify_window hr hi
    refine ⟨fun hk hd => ?_, fun hk hd hf => ?_, fun hk hd ht => ?_, fun hk hd => ?_⟩
    · rw [if_pos ⟨hk, hd⟩] at hc
      exact ⟨State.classifyEvent_of hc, by rw [hc]⟩
    · have h1 : ¬ (s.wu.active[i].kind = .fence ∧ (r.dir = .write ∨ s.wu.active[i].readFence = true))  := by
        rintro ⟨-, h | h⟩
        · rw [hd] at h; exact absurd h (by decide)
        · rw [hf] at h; exact absurd h (by decide)
      rw [if_neg h1, if_neg (fun h => h.2.1 hk)] at hc
      exact State.classifyEvent_none hc
    · rw [if_neg (fun h => hk h.1), if_pos ⟨hd, hk, ht⟩] at hc
      exact ⟨State.classifyEvent_of hc, by rw [hc]⟩
    · have h2 : ¬ (r.dir = .write ∧ s.wu.active[i].kind ≠ .fence ∧ s.wu.trip.getLsbD i.val = true) := by
        rintro ⟨hw, -, ht⟩
        obtain h | h := hd
        · rw [hw] at h; exact absurd h (by decide)
        · rw [ht] at h; exact absurd h (by decide)
      rw [if_neg (fun h => hk h.1), if_neg h2] at hc
      exact State.classifyEvent_none hc

/-! ## The form check and back pressure (R3, R4) -/

theorem toNat_offset (a : Addr) : (a.extractLsb' 0 6).toNat = a.toNat % 64 := by
  rw [BitVec.extractLsb'_toNat, Nat.shiftRight_zero]

theorem formOk_eq_false_iff (r : Request) : formOk r = false ↔
    r.length = 0 ∨ 64 < r.length ∨ 64 < r.addr.toNat % 64 + r.length ∨ (r.dir = .write ∧ ∀ b ∈ r.mask, b = false) := by
  have hdir : r.dir ≠ .read ↔ r.dir = .write := by cases r.dir <;> simp
  rw [← Bool.not_eq_true]
  simp only [formOk, Bool.and_eq_true, bne_iff_ne, ne_eq, decide_eq_true_eq, Bool.or_eq_true, beq_iff_eq, List.any_eq_true,
    id_eq, toNat_offset, Classical.not_and_iff_not_or_not, not_or, hdir, not_exists, Bool.not_eq_true, Classical.not_not, Nat.not_le]
  constructor
  · rintro (((h | h) | h) | ⟨h, hm⟩)
    · exact .inl h
    · exact .inr (.inl h)
    · exact .inr (.inr (.inl h))
    · exact .inr (.inr (.inr ⟨h, fun b hb => (hm b).resolve_left (Classical.not_not.2 hb)⟩))
  · rintro (h | h | h | ⟨h, hm⟩)
    · exact .inl (.inl (.inl h))
    · exact .inl (.inl (.inr h))
    · exact .inl (.inr h)
    · exact .inr ⟨h, fun b => Decidable.or_iff_not_imp_left.2 fun hb => hm b (Classical.not_not.1 hb)⟩

/-- The port takes the request presented when nothing waits there before it (R4). -/
theorem State.takePort_present {s : State} {q : SlotIx} {r : Request} (hr : s.inReset = false) (hp : s.port = [])
    (hq : s.freeSlot? = some q) : (s.present r).takePort = s.begin.take q r := by
  have hport : (s.present r).port = r :: [] := by simp [State.present, hp]
  have hfree : (s.present r).freeSlot? = some q := hq
  have hback : ∀ l, s.port = l → { s.present r with port := l } = s.begin := by
    rintro _ rfl
    rfl
  have hreset : (s.present r).inReset = false := hr
  unfold State.takePort
  rw [hport, hfree]
  dsimp only
  rw [if_neg (by simp [hreset])]
  exact congrArg (State.take · q r) (hback [] hp)

theorem State.takePort_full {s : State} (h : s.freeSlot? = none) : s.takePort = s := by
  unfold State.takePort
  rw [h]
  cases s.port <;> rfl

/-- Settles O18: the form check comes before everything else, and a full queue takes nothing. -/
theorem malformedAndBackPressure : Obligations.MalformedAndBackPressure := by
  unfold Obligations.MalformedAndBackPressure
  refine ⟨fun s q r hr hp hq hbad => ?malformed, fun s r hfull => ?full⟩
  case malformed =>
    have hf : ¬ formOk r = true := by rw [Bool.not_eq_true]; exact (formOk_eq_false_iff r).2 hbad
    rw [exec_uportRequest, State.takePort_present hr hp hq, State.take, if_neg hf]
    rfl
  case full =>
    rw [exec_uportRequest, State.takePort_full (s := s.present r) hfull]
    rfl

/-! ## Acceptance (R4, R5, R11, R12, R28) -/

/-- The state with the request in its slot and the event of its decision raised, before it enters by the bridge state. -/
def State.accepted (s : State) (q : SlotIx) (r : Request) : State :=
  match s.classifyEvent r with
  | none => s.pushSlot (s.newSlot q r)
  | some ev => (s.pushSlot (s.newSlot q r)).raise ev

/-- The event queue after the decision. -/
def State.decidedQueue (s : State) (r : Request) : EventQueue :=
  match s.classifyEvent r with
  | none => s.eq
  | some ev => s.eq.raise ev

theorem State.accepted_eq (s : State) (q : SlotIx) (r : Request) :
    s.accepted q r = { s.pushSlot (s.newSlot q r) with eq := s.decidedQueue r } := by
  unfold State.accepted State.decidedQueue
  cases s.classifyEvent r <;> rfl

theorem State.accept_eq (s : State) (q : SlotIx) (r : Request) :
    s.accept q r = (s.accepted q r).enter (s.newSlot q r) := rfl

/-- A request that the port accepts at once. -/
theorem exec_accepted {s : State} {q : SlotIx} {r : Request} (h : s.Accepts q r) :
    exec (.uportRequest r) s = .next (State.settle ((s.begin.accepted q r).enter (s.begin.newSlot q r))) := by
  obtain ⟨hr, hp, hq, hf⟩ := h
  rw [exec_uportRequest, State.takePort_present hr hp hq, State.take, if_pos hf, State.accept_eq]

theorem State.accepted_bridge (s : State) (q : SlotIx) (r : Request) : (s.accepted q r).ec = s.ec := by
  rw [State.accepted_eq]
  rfl

/-- Where R11 serves a request, or it is decided and no write of JOURNALING, nothing is added to its acceptance. -/
theorem State.enter_self {s : State} {x : Slot} (h : x.journaled = true →
      (x.outcome.isSome = true ∧ ¬ (s.ec.bridge = .journaling ∧ x.isWrite = true)) ∨
      (x.outcome = none ∧ entrance s.ec.bridge x.req.dir = .serve)) : s.enter x = s := by
  unfold State.enter
  split
  · rename_i hj
    obtain ⟨ho, hn⟩ | ⟨ho, he⟩ := h hj
    · obtain ⟨o, ho⟩ := Option.isSome_iff_exists.1 ho
      rw [ho]
      exact if_neg hn
    · rw [ho, he]
  · rfl

/-- What a journaled request with no decided outcome meets when it enters (R11). -/
def State.enterBy (s : State) (e : Entrance) (x : Slot) : State :=
  match e with
  | .serve => s
  | .assign => s.assignWrite x.ix
  | .hold => s.hold x.ix
  | .halt => s.setSlot x.ix (fun z => { z with outcome := some .halted })

theorem State.enter_open {s : State} {x : Slot} (hj : x.journaled = true) (ho : x.outcome = none) :
    s.enter x = s.enterBy (entrance s.ec.bridge x.req.dir) x := by
  cases he : entrance s.ec.bridge x.req.dir <;> simp only [State.enter, State.enterBy, hj, ho, he, if_true]

/-- The record of the slot just taken is the one that a change of that slot finds. -/
theorem map_append_new {l : List Slot} {x : Slot} (h : ∀ y ∈ l, y.ix ≠ x.ix) (f : Slot → Slot) :
    (l ++ [x]).map (fun y => if y.ix == x.ix then f y else y) = l ++ [f x] := by
  rw [List.map_append, List.map_singleton, beq_self_eq_true, if_pos rfl]
  have hl : l.map (fun y => if y.ix == x.ix then f y else y) = l.map id :=
    List.map_congr_left (fun y hy => if_neg (by simpa using h y hy))
  rw [hl, List.map_id]

/-- The new slot's record changed before anything else is done with it. -/
theorem State.setSlot_accepted {s : State} {q : SlotIx} (hq : s.freeSlot? = some q) (r : Request) (f : Slot → Slot) :
    (s.accepted q r).setSlot q f =
      { s.pushSlot (f (s.newSlot q r)) with eq := s.decidedQueue r } := by
  have hm := map_append_new (x := s.newSlot q r) (State.freeSlot?_free hq) f
  have hix : (s.newSlot q r).ix = q := rfl
  rw [hix] at hm
  rw [State.accepted_eq]
  simp only [State.setSlot, State.pushSlot, hm]

/-- Settles O19: what R11 serves stays as accepted; what it holds or halts has its new record changed. -/
theorem acceptedOutsideAnEpoch : Obligations.AcceptedOutsideAnEpoch := by
  unfold Obligations.AcceptedOutsideAnEpoch
  refine ⟨fun s q r ha hserve => ?served, fun s q r ha hj hd => ?entered⟩
  case served =>
    rw [exec_accepted ha, State.enter_self, State.accepted_eq]
    · rfl
    · intro hj
      have hj' : (s.classify r).2.1.journaled = true := hj
      show ((s.classify r).2.2.map (·.1)).isSome = true ∧ ¬ ((s.begin.accepted q r).ec.bridge = .journaling ∧
          (r.dir == .write) = true) ∨
        (s.classify r).2.2.map (·.1) = none ∧ entrance (s.begin.accepted q r).ec.bridge r.dir = .serve
      rw [State.accepted_bridge]
      show _ ∧ ¬ (s.ec.bridge = .journaling ∧ _) ∨ _ ∧ entrance s.ec.bridge r.dir = .serve
      cases hd : (s.classify r).2.2 with
      | none =>
        refine .inr ⟨rfl, ?_⟩
        obtain h | h | ⟨h, hb | hb⟩ | ⟨h, -⟩ := hserve
        · rw [hj'] at h; exact absurd h (by decide)
        · rw [h]; rfl
        · rw [hb, h]; rfl
        · rw [hb, h]; rfl
        · rw [hd] at h; exact absurd h (by decide)
      | some d =>
        refine .inl ⟨rfl, ?_⟩
        rintro ⟨hb, hw⟩
        have hw := beq_iff_eq.1 hw
        obtain h | h | ⟨h, -⟩ | ⟨-, h | h⟩ := hserve
        · rw [hj'] at h; exact absurd h (by decide)
        · rw [hb] at h; exact absurd h (by decide)
        · rw [hw] at h; exact absurd h (by decide)
        · exact h hb
        · rw [hw] at h; exact absurd h (by decide)
  case entered =>
    intro taken
    have hqueue : s.begin.decidedQueue r = s.eq := by
      have he : s.begin.classifyEvent r = none := by
        show (s.classify r).2.2.map _ = none
        rw [hd]; rfl
      rw [State.decidedQueue, he]; rfl
    have hout : (s.begin.newSlot q r).outcome = none := by
      show (s.classify r).2.2.map _ = none
      rw [hd]; rfl
    have henter : (s.begin.accepted q r).enter (s.begin.newSlot q r) =
        (s.begin.accepted q r).enterBy (entrance s.ec.bridge r.dir) (s.begin.newSlot q r) := by
      rw [State.enter_open (show (s.begin.newSlot q r).journaled = true from hj) hout, State.accepted_bridge]
      rfl
    have hq : s.begin.freeSlot? = some q := ha.2.2.1
    refine ⟨fun hb => ?held, fun hb => ?halted⟩
    case held =>
      have he : entrance s.ec.bridge r.dir = .hold := by
        obtain hb | ⟨hb, hw⟩ := hb
        · rw [hb]; rfl
        · rw [hb, hw]; rfl
      have htime : (s.begin.accepted q r).eq.time = s.eq.time := by
        rw [State.accepted_eq]
        show (s.begin.decidedQueue r).time = _
        rw [hqueue]
      rw [exec_accepted ha, henter, he]
      show Host.Outcome.next (((s.begin.accepted q r).setSlot q _).settle) = _
      rw [htime, State.setSlot_accepted hq, hqueue]
      congr 2
      have hdb : (s.begin.classify r).2.2 = none := hd
      simp only [taken, State.pushSlot, State.newSlot, hdb]
      rfl
    case halted =>
      have he : entrance s.ec.bridge r.dir = .halt := by rw [hb]; rfl
      rw [exec_accepted ha, henter, he]
      show Host.Outcome.next (((s.begin.accepted q r).setSlot q _).settle) = _
      rw [State.setSlot_accepted hq, hqueue]
      rfl

end Sys2Proof.Machine

/-! The hold limit, the settings, the event mask, ARM EXPECTED and the commands that read. -/
namespace Sys2Proof.Machine

/-! ## One slot among the others -/

theorem setSlot_fun (q : SlotIx) (f : Slot → Slot) :
    (fun y : Slot => if y.ix == q then f y else y) = fun y => if y.ix = q then f y else y := by
  funext y
  simp only [beq_iff_eq]

/-- The slots hold no index twice, so that a slot in their midst is the one its index finds. -/
theorem State.slot?_middle {s : State} {a b : List Slot} {x : Slot} (h : s.iq.slots = a ++ x :: b)
    (hd : (s.iq.slots.map (·.ix)).Nodup) : s.slot? x.ix = some x := by
  rw [h, List.map_append, List.map_cons, List.nodup_append] at hd
  rw [State.slot?, h, List.find?_append, List.find?_eq_none.2, Option.none_or, List.find?_cons_of_pos (by simp)]
  intro y hy hyx
  exact hd.2.2 y.ix (List.mem_map_of_mem hy) x.ix List.mem_cons_self (by simpa using hyx)

theorem map_middle {a b : List Slot} {x : Slot} (hd : ((a ++ x :: b).map (·.ix)).Nodup) (f : Slot → Slot) :
    (a ++ x :: b).map (fun y => if y.ix == x.ix then f y else y) = a ++ f x :: b := by
  have other {l : List Slot} (hl : ∀ y ∈ l, y.ix ≠ x.ix) :
      l.map (fun y => if y.ix == x.ix then f y else y) = l := by
    have : l.map (fun y => if y.ix == x.ix then f y else y) = l.map id :=
      List.map_congr_left (fun y hy => if_neg (by simpa using hl y hy))
    rw [this, List.map_id]
  simp only [List.map_append, List.map_cons, List.nodup_append, List.nodup_cons, List.mem_cons, List.mem_map] at hd
  obtain ⟨-, ⟨hb, -⟩, ha⟩ := hd
  rw [List.map_append, List.map_cons, beq_self_eq_true, if_pos rfl, other (l := a), other (l := b)]
  · exact fun y hy hyx => hb ⟨y, hy, hyx⟩
  · exact fun y hy => ha y.ix ⟨y, hy, rfl⟩ x.ix (.inl rfl)

/-! ## The hold limit (R17, R19) -/

/-- The record of a request that has timed out. -/
def Slot.timedOut (x : Slot) : Slot := { x with state := .waiting, holdEntry := none, outcome := some .heldTimeout }

def Slot.timeOutEvent (x : Slot) : Event :=
  { code := .holdTimeout, win := x.win, master := some x.req.master, arg := x.granule }

theorem State.holdDue_iff (s : State) (x : Slot) : s.holdDue x = true ↔
    x.state = .held ∧ s.iq.holdLimit ≠ 0#16 ∧ s.iq.holdLimit.toNat ≤ (s.eq.time - x.holdEntry.getD s.eq.time).toNat := by
  simp only [State.holdDue, Bool.and_eq_true, beq_iff_eq, bne_iff_ne, ne_eq, decide_eq_true_eq, and_assoc]
  rfl

theorem State.expireSlot_due {s : State} {q : SlotIx} {x : Slot} (hx : s.slot? q = some x) (h : s.holdDue x = true) :
    s.expireSlot q = s.timeOut x := by
  simp only [State.expireSlot, hx, h, if_true]

theorem State.expireSlot_not_due {s : State} {q : SlotIx} {x : Slot} (hx : s.slot? q = some x) (h : s.holdDue x = false) :
    s.expireSlot q = s := by
  simp only [State.expireSlot, hx, h, Bool.false_eq_true, if_false]

/-- Settles O22: the row is the time-out of one slot, when it is due. -/
theorem holdTimeout : Obligations.HoldTimeout := by
  unfold Obligations.HoldTimeout
  refine fun s q x hx => ⟨fun hs hl ht => ?due, fun h => ?passed⟩
  case due =>
    obtain rfl : x.ix = q := (State.mem_of_slot? hx).2
    show Host.Outcome.next (s.begin.expireSlot x.ix).settle = _
    rw [State.expireSlot_due (s := s.begin) hx ((State.holdDue_iff s x).2 ⟨hs, hl, ht⟩), ← setSlot_fun]
    rfl
  case passed =>
    show Host.Outcome.next (s.begin.expireSlot q).settle = _
    rw [State.expireSlot_not_due (s := s.begin) hx]
    rw [← Bool.not_eq_true]
    intro hd
    obtain ⟨h1, h2, h3⟩ := (State.holdDue_iff s x).1 hd
    obtain h | h | h := h
    · exact h h1
    · exact h2 h
    · omega

@[simp] theorem EventQueue.raise_time (q : EventQueue) (e : Event) : (q.raise e).time = q.time := by
  unfold EventQueue.raise
  split <;> rfl

@[simp] theorem EventQueue.raise_mask (q : EventQueue) (e : Event) : (q.raise e).mask = q.mask := by
  unfold EventQueue.raise
  split <;> rfl

@[simp] theorem EventQueue.raiseAll_time (q : EventQueue) (l : List Event) : (q.raiseAll l).time = q.time := by
  induction l generalizing q with
  | nil => rfl
  | cons e l ih => exact (ih (q.raise e)).trans (q.raise_time e)

@[simp] theorem EventQueue.raiseAll_mask (q : EventQueue) (l : List Event) : (q.raiseAll l).mask = q.mask := by
  induction l generalizing q with
  | nil => rfl
  | cons e l ih => exact (ih (q.raise e)).trans (q.raise_mask e)

@[simp] theorem EventQueue.raiseAll_nil (q : EventQueue) : q.raiseAll [] = q := rfl

theorem EventQueue.raiseAll_cons (q : EventQueue) (e : Event) (l : List Event) :
    q.raiseAll (e :: l) = (q.raise e).raiseAll l := rfl

theorem State.holdDue_congr {s t : State} (ht : t.eq.time = s.eq.time) (hl : t.iq.holdLimit = s.iq.holdLimit) (x : Slot) :
    t.holdDue x = s.holdDue x := by
  rw [Bool.eq_iff_iff, State.holdDue_iff, State.holdDue_iff, ht, hl]

/-- Slot by slot, in the order they stand, each request whose limit is reached is timed out. -/
theorem State.expire_from (b a : List Slot) (s : State) (h : s.iq.slots = a ++ b) (hd : (s.iq.slots.map (·.ix)).Nodup) :
    (b.map (·.ix)).foldl (fun t q => t.expireSlot q) s =
      { s with
        iq := { s.iq with slots := a ++ b.map (fun x => if s.holdDue x then x.timedOut else x) }
        eq := s.eq.raiseAll ((b.filter s.holdDue).map Slot.timeOutEvent) } := by
  induction b generalizing a s with
  | nil => 
    have hs : { s.iq with slots := a ++ [] } = s.iq := by rw [← h]
    simp only [List.map_nil, List.foldl_nil, List.filter_nil, EventQueue.raiseAll_nil, hs]
  | cons x b ih =>
    have hx := State.slot?_middle h hd
    rw [List.map_cons, List.foldl_cons]
    cases hdue : s.holdDue x with
    | false =>
      rw [State.expireSlot_not_due hx hdue, ih (a ++ [x]) s (by rw [h, List.append_assoc]; rfl) hd]
      simp only [List.map_cons, List.filter_cons, hdue, Bool.false_eq_true, if_false, List.append_assoc,
        List.singleton_append]
    | true =>
      have hslots : (s.timeOut x).iq.slots = a ++ x.timedOut :: b := by
        rw [h] at hd
        show s.iq.slots.map (fun y => if y.ix == x.ix then y.timedOut else y) = _
        rw [h, map_middle hd]
      have hkeys : ((s.timeOut x).iq.slots.map (·.ix)).Nodup := by
        rw [hslots]
        rw [h] at hd
        rw [List.map_append, List.map_cons] at hd ⊢
        exact hd
      have hcongr : (s.timeOut x).holdDue = s.holdDue :=
        
        funext fun y => State.holdDue_congr (s := s) (t := s.timeOut x) (EventQueue.raise_time _ _) rfl y
      rw [State.expireSlot_due hx hdue, ih (a ++ [x.timedOut]) _ (by rw [hslots, List.append_assoc]; rfl) hkeys, hcongr]
      simp only [List.map_cons, List.filter_cons, hdue, if_true, List.append_assoc, List.singleton_append]
      rfl

theorem State.expireAll_eq {s : State} (hd : (s.iq.slots.map (·.ix)).Nodup) : s.expireAll =
      { s with
        iq := { s.iq with slots := s.iq.slots.map (fun x => if s.holdDue x then x.timedOut else x) }
        eq := s.eq.raiseAll ((s.iq.slots.filter s.holdDue).map Slot.timeOutEvent) } :=
  State.expire_from s.iq.slots [] s rfl hd

/-! ## The settings (R31, R194 to R196) -/

theorem flagOf_eq_none {b : Byte} (h : 1 < b.toNat) : flagOf b = none := by
  unfold flagOf
  split <;> first | rfl | simp at h

theorem flagOf_eq_some {b : Byte} (h : b.toNat ≤ 1) : flagOf b = some (decide (b = 1#8)) := by
  obtain rfl | rfl := byte_le_one h <;> rfl

theorem polarityOf_eq_none {b : Byte} (h : 1 < b.toNat) : polarityOf b = none := by
  unfold polarityOf
  split <;> first | rfl | simp at h

theorem polarityOf_eq_some {b : Byte} (h : b.toNat ≤ 1) : polarityOf b = some (if b = 1#8 then .falling else .rising) := by
  obtain rfl | rfl := byte_le_one h <;> rfl

theorem State.setTimer_eq (s : State) (interval : BitVec 16) (on : Bool) : s.setTimer interval on =
    { s with ec := { s.ec with
        timerInterval := interval
        timerEnable := on
        timer := if s.ec.bridge = .journaling ∨ s.ec.bridge = .rolling then
            (if on = true then some (interval.toNat * 10) else none)
          else s.ec.timer } } := by
  unfold State.setTimer
  dsimp only
  split <;> rfl

theorem settings_timerSet {s : State} (hl : s.Listens) (interval : BitVec 16) (enable : Byte) :
    ((interval = 0#16 ∨ 1 < enable.toNat) → exec (.timerSet interval enable) s = .next (s.answered 3 .argument [])) ∧
    (interval ≠ 0#16 → enable.toNat ≤ 1 → exec (.timerSet interval enable) s =
      .next ((s.setTimer interval (decide (enable = 1#8))).answered 3 .done [])) := by
  refine ⟨fun h => (answers_timerSet interval enable).refuses hl ?_, fun hi he => (answers_timerSet interval enable).does hl ?_⟩
  · unfold State.timerSet
    obtain he | he := Nat.lt_or_ge 1 enable.toNat
    · rw [flagOf_eq_none he]
    · rw [flagOf_eq_some he]
      exact if_pos (h.resolve_right (by omega))
  · unfold State.timerSet
    rw [flagOf_eq_some he]
    dsimp only
    rw [if_neg hi, State.setTimer_eq, State.setTimer_eq]
    rfl

theorem settings_strobeSet {s : State} (hl : s.Listens) (enable polarity : Byte) :
    ((1 < enable.toNat ∨ 1 < polarity.toNat) →
      exec (.strobeSet enable polarity) s = .next (s.answered 2 .argument [])) ∧
    (enable.toNat ≤ 1 → polarity.toNat ≤ 1 → exec (.strobeSet enable polarity) s =
      .next ((s.setStrobe (decide (enable = 1#8)) (if polarity = 1#8 then .falling else .rising)).answered 2 .done [])) := by
  refine ⟨fun h => (answers_strobeSet enable polarity).refuses hl ?_,
    fun he hp => (answers_strobeSet enable polarity).does hl ?_⟩
  · unfold State.strobeSet
    obtain h | h := h
    · rw [flagOf_eq_none h]
    · rw [polarityOf_eq_none h]
      cases flagOf enable <;> rfl
  · unfold State.strobeSet
    rw [flagOf_eq_some he, polarityOf_eq_some hp]
    rfl

theorem exec_holdLimitSet {s : State} (hl : s.Listens) (limit : BitVec 16) :
    exec (.holdLimitSet limit) s = .next (((s.begin.setHoldLimit limit).expireAll).settle.withAnswer
      (.answer { args := 2, status := .done, response := [] })) :=
  (Answers.always (fun _ => rfl) (cell_always (by simp)) :
    Answers (.holdLimitSet limit) 2 (fun t => Reply.done ((t.setHoldLimit limit).expireAll).settle [])).settles hl rfl

/-- Settles O53: each row's arguments are read, and its setting is all it changes; a new hold limit is met slot by slot. -/
theorem settings : Obligations.Settings := by
  unfold Obligations.Settings
  refine fun s hl => ⟨fun interval enable => ⟨(settings_timerSet hl interval enable).1, fun hi he => ?timer⟩,
    fun enable polarity => ⟨(settings_strobeSet hl enable polarity).1, (settings_strobeSet hl enable polarity).2⟩,
    fun limit => ?hold, fun set => ?trip, ?counters⟩
  case timer =>
    rw [(settings_timerSet hl interval enable).2 hi he, State.setTimer_eq]
    simp only [decide_eq_true_eq]
  case hold =>
    intro due k
    have hdue : (s.begin.setHoldLimit limit).holdDue = due := by
      funext x
      rw [Bool.eq_iff_iff, State.holdDue_iff]
      exact decide_eq_true_iff.symm
    have hd : ((s.begin.setHoldLimit limit).iq.slots.map (·.ix)).Nodup := k.distinct
    rw [exec_holdLimitSet hl, State.expireAll_eq hd, hdue]
    rfl
  case trip =>
    refine ⟨s.wu.trip &&& ~~~set, fun i => ?_, (Answers.always (fun _ => rfl) (cell_always (by simp)) :
      Answers (.clearTrip set) 2 (fun t => Reply.done (t.clearTrip set) [])).does hl rfl⟩
    rw [BitVec.getLsbD_and, BitVec.getLsbD_not]
    simp
  case counters =>
    exact (Answers.always (fun _ => rfl) (cell_always (by simp)) :
      Answers .clearCounters 0 (fun t => Reply.done t.clearMerged [byteOf t.ec.merged])).does hl rfl

/-- Settles O54. -/
theorem armExpected : Obligations.ArmExpected := by
  unfold Obligations.ArmExpected
  refine fun s ix value hl => ⟨fun hb => ?state, fun hb hix => ?range, fun i hb hi => ⟨fun hk => ?kind, fun hk => ?armed⟩⟩
  case state => exact (answers_armExpected ix value).refuses hl (if_pos hb)
  case range =>
    refine (answers_armExpected ix value).refuses hl ((if_neg (Classical.not_not.2 hb)).trans ?_)
    rw [winIxOf_eq_none hix]
  case kind =>
    refine (answers_armExpected ix value).refuses hl ((if_neg (Classical.not_not.2 hb)).trans ?_)
    rw [winIxOf_val hi]
    exact if_neg hk
  case armed =>
    refine (answers_armExpected ix value).does hl ((if_neg (Classical.not_not.2 hb)).trans ?_)
    rw [winIxOf_val hi]
    exact if_pos hk

/-- Settles O51: an insertion, a drop and a new mask, and the level of the line in each. -/
theorem eventsAndLine : Obligations.EventsAndLine := by
  unfold Obligations.EventsAndLine
  refine ⟨fun q e h => ?inserted, fun q e h => ?dropped, fun s mask hl => ?mask⟩
  case inserted =>
    rw [EventQueue.raise_of_room h]
    exact ⟨rfl, rfl, rfl, rfl, rfl, EventQueue.line_eq_true_iff _⟩
  case dropped => exact if_neg (Nat.not_lt.2 h)
  case mask =>
    refine ⟨EventQueue.line { s.eq with mask := mask }, EventQueue.line_eq_true_iff _, ?_⟩
    exact (Answers.always (fun _ => rfl) (cell_always (by simp)) :
      Answers (.eventMaskSet mask) 1 (fun t => Reply.done { t with eq := t.eq.setMask mask } [mask])).does hl rfl

/-! ## The commands that read (R104, R115, R192) -/

theorem byteOf_flags (a b c d e f g h : Bool) :
    byteOf (bitOf a 0 + bitOf b 1 + bitOf c 2 + bitOf d 3 + bitOf e 4 + bitOf f 5 + bitOf g 6 + bitOf h 7) =
      BitVec.ofNat 8 ((if a then 1 else 0) + (if b then 2 else 0) + (if c then 4 else 0) + (if d then 8 else 0)
        + (if e then 16 else 0) + (if f then 32 else 0) + (if g then 64 else 0) + (if h then 128 else 0)) := rfl

theorem lineField_eq (l : Option Nat) : lineField l = (l.map (BitVec.ofNat 32)).getD 0xFFFFFFFF#32 := by
  cases l <;> rfl

theorem byteOf_reason (r : Option Reason) : byteOf (reasonCode r) =
    match r with | none => 0#8 | some .pressure => 1#8 | some .media => 2#8 := by
  cases r with
  | none => rfl
  | some r => cases r <;> rfl

/-- The chunks of equal length that a list is made of. -/
theorem flatMap_chunk {α β : Type} {n : Nat} {f : α → List β} (l : List α) (h : ∀ a ∈ l, (f a).length = n) {j : Nat} {a : α}
    (hj : l[j]? = some a) : ((l.flatMap f).drop (n * j)).take n = f a := by
  induction l generalizing j with
  | nil => simp at hj
  | cons b l ih =>
    have hb := h b List.mem_cons_self
    cases j with
    | zero =>
      obtain rfl : b = a := by simpa using hj
      rw [List.flatMap_cons, Nat.mul_zero, List.drop_zero, List.take_append_of_le_length (by omega), ← hb, List.take_length]
    | succ j =>
      have hdrop : n * (j + 1) = (f b).length + n * j := by rw [hb, Nat.mul_succ, Nat.add_comm]
      rw [List.flatMap_cons, hdrop, List.drop_append, List.drop_eq_nil_of_le (by omega), List.nil_append]
      rw [Nat.add_sub_cancel_left]
      exact ih (fun c hc => h c (List.mem_cons_of_mem b hc)) (by simpa using hj)

theorem length_flatMap_chunk {α β : Type} {n : Nat} {f : α → List β} (l : List α) (h : ∀ a ∈ l, (f a).length = n) :
    (l.flatMap f).length = n * l.length := by
  induction l with
  | nil => rfl
  | cons b l ih =>
    rw [List.flatMap_cons, List.length_append, h b List.mem_cons_self, ih (fun c hc => h c (List.mem_cons_of_mem b hc)),
      List.length_cons, Nat.mul_succ, Nat.add_comm]

theorem State.epochBytes_length (s : State) (p : Nat) : (s.epochBytes p).length = 32 := by
  unfold State.epochBytes
  split
  · rfl
  · simp [Entry.bytes, bytes32, bytes16, bytes24]

theorem epochReadOk_iff (start count : Byte) :
    epochReadOk start count = true ↔ start.toNat ≤ 63 ∧ 1 ≤ count.toNat ∧ count.toNat ≤ 64 := by
  simp only [epochReadOk, Bool.and_eq_true, decide_eq_true_eq, and_assoc]

/-- The bytes of EPOCH READ. -/
def State.epochReadBytes (s : State) (start count : Byte) : List Byte :=
  (List.range count.toNat).flatMap (fun j => s.epochBytes ((start.toNat + j) % 64))

theorem State.epochReadBytes_length (s : State) (start count : Byte) :
    (s.epochReadBytes start count).length = 32 * count.toNat := by
  rw [State.epochReadBytes, length_flatMap_chunk _ (fun j _ => s.epochBytes_length _), List.length_range]

theorem State.epochReadBytes_chunk (s : State) (start count : Byte) {j : Nat} (hj : j < count.toNat) :
    ((s.epochReadBytes start count).drop (32 * j)).take 32 = s.epochBytes ((start.toNat + j) % 64) :=
  flatMap_chunk _ (fun k _ => s.epochBytes_length _) (by rw [List.getElem?_range hj])

theorem Entry.sigCount_eq (e : Entry) : e.sigCount = (e.sigs.map List.length).getD 0 := by
  unfold Entry.sigCount
  cases e.sigs <;> rfl

theorem SigEntry.bytes_eq (g : SigEntry) : g.bytes =
    [BitVec.ofNat 8 g.win.val, (match g.status with | .notCompared => 0#8 | .matched => 1#8 | .mismatch => 2#8), 0#8, 0#8]
      ++ bytes32 g.signature := by
  unfold SigEntry.bytes
  cases g.status <;> rfl

/-- Settles O55: each command answers bytes made of the state and leaves it. -/
theorem reads : Obligations.Reads := by
  unfold Obligations.Reads
  refine fun s hl => ⟨?status, fun start count => ⟨fun hbad => ?range, fun h1 h2 h3 => ?entries⟩,
    fun e => ⟨fun hno => ?unsealed, fun x l hx hs hsig => ?sealed⟩⟩
  case status =>
    rw [(Answers.always (fun _ => rfl) (cell_always (by simp)) :
      Answers .statusRead 0 (fun t => Reply.done t t.statusBytes)).does (u := s) hl rfl]
    refine congrArg (fun l => Host.Outcome.next (s.answered 0 .done l)) ?_
    have hopen : s.begin.openEpoch?.isSome = s.openEntry?.isSome := Option.isSome_map
    have hbase : s.begin.basePage = (s.jw.region.map (·.base)).getD 0 := by
      unfold State.basePage
      rw [State.begin_jw]
      cases s.jw.region <;> rfl
    unfold State.statusBytes State.statusFlags
    rw [byteOf_flags, hopen, hbase, byteOf_reason]
    have h1 : byteOf s.begin.ec.bridge.code = (match s.ec.bridge with
         | .passthrough => 0#8 | .journaling => 1#8 | .closing => 2#8 | .rolling => 3#8 | .halted => 4#8) := by
      rw [State.begin_ec]; cases s.ec.bridge <;> rfl
    have h2 : byteOf s.begin.re.phase.code = (match s.re.phase with | .idle => 0#8 | .drain => 1#8 | .walk => 2#8) := by
      rw [State.begin_re]; cases s.re.phase <;> rfl
    have h3 : byteOf s.begin.jw.pressure.code =
        (match s.jw.pressure with | .normal => 0#8 | .warning => 1#8 | .constrained => 2#8 | .suspended => 3#8) := by
      rw [State.begin_jw]; cases s.jw.pressure <;> rfl
    have h4 : byteOf (Edge.code s.begin.ec.strobePolarity) = (match s.ec.strobePolarity with | .rising => 0#8 | .falling => 1#8) := by
      rw [State.begin_ec]; cases s.ec.strobePolarity <;> rfl
    rw [h1, h2, h3, h4]
    rfl
  case range =>
    refine (answers_epochRead start count).refuses hl (if_neg (fun h => ?_))
    have := (epochReadOk_iff start count).1 h
    omega
  case entries =>
    refine ⟨s.epochReadBytes start count, (answers_epochRead start count).does (u := s) hl
      (if_pos ((epochReadOk_iff start count).2 ⟨h1, h2, h3⟩)), s.epochReadBytes_length start count, fun j hj => ?_⟩
    rw [s.epochReadBytes_chunk start count hj]
    refine ⟨fun e he => ?_, fun he => ?_⟩
    · simp only [State.epochBytes, he, Entry.bytes, lineField_eq, byteOf_reason, Entry.sigCount_eq]
      have hstate : byteOf e.state.code = (match e.state with | .opened => 1#8 | .sealing => 2#8 | .sealed => 3#8) := by
        cases e.state <;> rfl
      rw [hstate]
      unfold State.writtenOf
      cases e.state <;> rfl
    · simp only [State.epochBytes, he]
      rfl
  case unsealed =>
    refine (answers_signatureRead e).refuses hl ?_
    have hno' : s.begin.sealedSigs? e = none := by
      have hb : s.begin.entry? e = s.entry? e := rfl
      unfold State.sealedSigs?
      rw [hb]
      cases hx : s.entry? e with
      | none => rfl
      | some x => exact if_neg (hno x hx)
    rw [State.signatureRead, hno']
  case sealed =>
    refine (answers_signatureRead e).does (u := s) hl ?_
    have hl' : s.begin.sealedSigs? e = some l := by
      have hb : s.begin.entry? e = some x := hx
      unfold State.sealedSigs?
      rw [hb]
      dsimp only
      rw [if_pos hs, hsig]
      rfl
    rw [State.signatureRead, hl']
    dsimp only
    rw [show SigEntry.bytes = _ from funext SigEntry.bytes_eq]
    rfl

end Sys2Proof.Machine

/-! What the operations on the ring, the table and the pressure do, exactly: the frames that `Calm` leaves open. -/
namespace Sys2Proof.Machine

/-! ## Events raised in turn -/

theorem EventQueue.raiseAll_singleton (q : EventQueue) (e : Event) : q.raiseAll [e] = q.raise e := rfl

/-- The events of a change of the pressure state (R124). -/
def State.codeEvents (s : State) (arg : Word32) (codes : List EventCode) : List Event :=
  codes.map (fun c => { code := c, epoch := s.openEpoch?, arg := arg })

theorem State.raiseCodes_eq (s : State) (arg : Word32) (codes : List EventCode) :
    s.raiseCodes arg codes = { s with eq := s.eq.raiseAll (s.codeEvents arg codes) } := by
  induction codes generalizing s with
  | nil => rfl
  | cons c l ih =>
    show State.raiseCodes (s.raise { code := c, epoch := s.openEpoch?, arg := arg }) arg l = _
    rw [ih]
    rfl

/-! ## Pressure (R122 to R124) -/

theorem State.setPressure_ec (s : State) (p : Pressure) (r : Option Reason) : (s.setPressure p r).ec = s.ec := by
  unfold State.setPressure
  dsimp only
  split <;> rfl

theorem State.setPressure_jw (s : State) (p : Pressure) (r : Option Reason) :
    (s.setPressure p r).jw = { s.jw with pressure := p, reason := r } := by
  unfold State.setPressure
  dsimp only
  split <;> rfl

theorem State.setPressure_eq (s : State) (p : Pressure) (r : Option Reason) : (s.setPressure p r).eq = s.eq := by
  unfold State.setPressure
  dsimp only
  split <;> rfl

/-- An evaluation takes place: not while SUSPENDED, nor with the region unset (R121, R123). -/
def State.Evaluates (s : State) : Prop := s.jw.pressure ≠ .suspended ∧ s.ringLines ≠ 0

theorem State.evaluate_of {s : State} (h : s.Evaluates) :
    s.evaluate =
      (s.raiseCodes (BitVec.ofNat 32 s.used) (changeEvents s.jw.pressure s.evaluated)).setPressure s.evaluated none :=
  if_neg (not_or.2 h)

theorem State.evaluate_not {s : State} (h : ¬ s.Evaluates) : s.evaluate = s :=
  if_pos (by simpa only [State.Evaluates, Classical.not_and_iff_not_or_not, Classical.not_not] using h)

theorem State.evaluate_ec (s : State) : s.evaluate.ec = s.ec := by
  by_cases h : s.Evaluates
  · rw [State.evaluate_of h, State.setPressure_ec, State.raiseCodes_eq]
  · rw [State.evaluate_not h]

theorem State.evaluate_jw (s : State) :
    s.evaluate.jw = { s.jw with pressure := s.evaluate.jw.pressure, reason := s.evaluate.jw.reason } := by
  by_cases h : s.Evaluates
  · rw [State.evaluate_of h, State.setPressure_jw, State.raiseCodes_eq]
  · rw [State.evaluate_not h]

theorem State.evaluate_head (s : State) : s.evaluate.jw.head = s.jw.head := by rw [State.evaluate_jw]

theorem State.evaluate_tail (s : State) : s.evaluate.jw.tail = s.jw.tail := by rw [State.evaluate_jw]

theorem State.evaluate_events {s : State} (h : s.Evaluates) :
    s.evaluate.eq = s.eq.raiseAll (s.codeEvents (BitVec.ofNat 32 s.used) (changeEvents s.jw.pressure s.evaluated)) := by
  rw [State.evaluate_of h, State.setPressure_eq, State.raiseCodes_eq]

theorem State.evaluate_pressure {s : State} (h : s.Evaluates) :
    s.evaluate.jw.pressure = s.evaluated ∧ s.evaluate.jw.reason = none := by
  rw [State.evaluate_of h, State.setPressure_jw]
  exact ⟨rfl, rfl⟩

theorem State.evaluate_suspended {s : State} (h : s.jw.pressure = .suspended) : s.evaluate = s :=
  State.evaluate_not (fun k => k.1 h)

/-- The events of a change of pressure are of class PRESSURE. -/
theorem changeEvents_class (a b : Pressure) : ∀ c ∈ changeEvents a b, c.codes.1 = 0 ∧ c ≠ .suspendedEntered ∧ c ≠ .suspendedLeft := by
  cases a <;> cases b <;> simp [changeEvents, EventCode.codes]

/-- An event of class PRESSURE that neither enters SUSPENDED nor leaves it. -/
def Event.Level (e : Event) : Prop := e.code.codes.1 = 0 ∧ e.code ≠ .suspendedEntered ∧ e.code ≠ .suspendedLeft

theorem State.codeEvents_level (s : State) (arg : Word32) (a b : Pressure) :
    ∀ e ∈ s.codeEvents arg (changeEvents a b), e.Level := by
  intro e he
  obtain ⟨c, hc, rfl⟩ := List.mem_map.1 he
  exact changeEvents_class a b c hc

theorem State.evaluate_levels (s : State) : ∃ evs, s.evaluate.eq = s.eq.raiseAll evs ∧ ∀ e ∈ evs, e.Level := by
  by_cases h : s.Evaluates
  · exact ⟨_, State.evaluate_events h, s.codeEvents_level _ _ _⟩
  · exact ⟨[], by rw [State.evaluate_not h]; rfl, by simp⟩

/-! ## Commits (R57, R103) -/

/-- The event of a commit. -/
def Entry.committed (e : Entry) (c : Cause) : Event :=
  { code := .epochCommitted, epoch := some e.number, arg := BitVec.ofNat 32 c.code }

/-- A commit before its evaluation. -/
def State.committed (s : State) (e : Entry) (rest : List Entry) (c : Cause) : State :=
  State.raise { s with jw := { s.jw with tail := e.endLine.getD s.jw.tail }, ec := { s.ec with table := rest } }
    (e.committed c)

theorem State.commitOldest_sealed {s : State} {e : Entry} {rest : List Entry} (ht : s.ec.table = e :: rest)
    (hs : e.state = .sealed) (c : Cause) : s.commitOldest c = (s.committed e rest c).evaluate := by
  unfold State.commitOldest
  rw [ht]
  exact if_pos hs

theorem State.commitOldest_unsealed {s : State} (h : ∀ e rest, s.ec.table = e :: rest → e.state ≠ .sealed) (c : Cause) :
    s.commitOldest c = s := by
  unfold State.commitOldest
  cases ht : s.ec.table with
  | nil => rfl
  | cons e rest => exact if_neg (h e rest ht)

/-- From `s` to `t` the entries `old` are committed with cause `c`, oldest first, each followed by an evaluation. -/
structure State.Commits (s t : State) (c : Cause) (old rest : List Entry) : Prop where
  calm : Calm s t
  ec   : t.ec = { s.ec with table := rest }
  head : t.jw.head = s.jw.head
  tail : t.jw.tail = old.foldl (fun a y => y.endLine.getD a) s.jw.tail
  eq   : ∃ evs, t.eq = s.eq.raiseAll evs ∧ evs.filter (fun ev => ev.code = .epochCommitted) = old.map (Entry.committed · c) ∧
           ∀ ev ∈ evs, ev.code = .epochCommitted ∨ ev.Level
  still : s.jw.pressure = .suspended → t.jw.pressure = .suspended ∧ t.jw.reason = s.jw.reason ∧ t.iq = s.iq ∧
           t.eq = s.eq.raiseAll (old.map (Entry.committed · c))
  calmed : s.jw.pressure ≠ .suspended → t.jw.pressure ≠ .suspended

theorem State.Commits.refl {s : State} {c : Cause} {rest : List Entry} (h : s.ec.table = rest) : s.Commits s c [] rest where
  calm := Calm.refl s
  ec := by rw [← h]
  head := rfl
  tail := rfl
  eq := ⟨[], rfl, rfl, by simp⟩
  still := fun h => ⟨h, rfl, rfl, rfl⟩
  calmed := id

theorem Event.Level.not_committed {e : Event} (h : e.Level) : ¬ e.code = .epochCommitted := by
  rintro he
  have h0 := h.1
  rw [he] at h0
  exact absurd h0 (by decide)

theorem filter_levels {l : List Event} (h : ∀ e ∈ l, e.Level) : l.filter (fun ev => ev.code = .epochCommitted) = [] :=
  List.filter_eq_nil_iff.2 (fun e he => by simpa using (h e he).not_committed)

theorem State.Commits.one {s : State} {e : Entry} {rest : List Entry} (ht : s.ec.table = e :: rest)
    (hs : e.state = .sealed) (c : Cause) : s.Commits (s.commitOldest c) c [e] rest := by
  have hc := State.commitOldest_sealed ht hs c
  obtain ⟨evs, he, hl⟩ := (s.committed e rest c).evaluate_levels
  constructor
  case calm => exact s.commitOldest_calm c
  case ec => rw [hc, State.evaluate_ec]; rfl
  case head => rw [hc, State.evaluate_head]; rfl
  case tail => rw [hc, State.evaluate_tail]; rfl
  case eq =>
    refine ⟨e.committed c :: evs, by rw [hc, he]; rfl, ?_, ?_⟩
    · rw [List.filter_cons_of_pos (by simp [Entry.committed]), filter_levels hl]
      rfl
    · intro ev hev
      obtain rfl | hev := List.mem_cons.1 hev
      · exact .inl rfl
      · exact .inr (hl ev hev)
  case still =>
    intro hp
    rw [hc, State.evaluate_suspended (s := s.committed e rest c) hp]
    exact ⟨hp, rfl, rfl, rfl⟩
  case calmed =>
    intro hp
    rw [hc]
    by_cases h : (s.committed e rest c).Evaluates
    · rw [(State.evaluate_pressure h).1]
      exact mt (State.evaluated_eq_suspended _).1 hp
    · rw [State.evaluate_not h]; exact hp

theorem State.Commits.trans {s t u : State} {c : Cause} {a b mid rest : List Entry} (h : s.Commits t c a mid)
    (k : t.Commits u c b rest) : s.Commits u c (a ++ b) rest where
  calm := h.calm.trans k.calm
  ec := by rw [k.ec, h.ec]
  head := k.head.trans h.head
  tail := by rw [k.tail, h.tail, List.foldl_append]
  eq := by
    obtain ⟨x, hx, hxf, hxl⟩ := h.eq
    obtain ⟨y, hy, hyf, hyl⟩ := k.eq
    refine ⟨x ++ y, by rw [hy, hx, EventQueue.raiseAll_append], by rw [List.filter_append, hxf, hyf, List.map_append], ?_⟩
    intro ev hev
    obtain hev | hev := List.mem_append.1 hev
    · exact hxl ev hev
    · exact hyl ev hev
  still := fun hp => by
    obtain ⟨h1, h2, h3, h4⟩ := h.still hp
    obtain ⟨k1, k2, k3, k4⟩ := k.still h1
    exact ⟨k1, k2.trans h2, k3.trans h3, by rw [k4, h4, List.map_append, EventQueue.raiseAll_append]⟩
  calmed := fun hp => k.calmed (h.calmed hp)

/-- As many commits as SEALED entries stand in front. -/
theorem State.commitN_commits {old : List Entry} (hold : ∀ y ∈ old, y.state = .sealed) {s : State} {rest : List Entry}
    (ht : s.ec.table = old ++ rest) (c : Cause) : s.Commits (s.commitN old.length c) c old rest := by
  induction old generalizing s with
  | nil => exact .refl ht
  | cons e old ih =>
    have h1 := State.Commits.one (s := s) ht (hold e List.mem_cons_self) c
    exact h1.trans (ih (fun y hy => hold y (List.mem_cons_of_mem e hy)) (by rw [h1.ec]; rfl))

theorem State.sealedCount_append {s : State} {old rest : List Entry} (ht : s.ec.table = old ++ rest)
    (hold : ∀ y ∈ old, y.state = .sealed) (hrest : ∀ y ∈ rest, y.state ≠ .sealed) : s.sealedCount = old.length := by
  rw [State.sealedCount, ht, List.countP_append, List.countP_eq_length.2 (by simpa using hold),
    List.countP_eq_zero.2 (by simpa using hrest), Nat.add_zero]

theorem State.commitSealed_commits {s : State} {old rest : List Entry} (ht : s.ec.table = old ++ rest)
    (hold : ∀ y ∈ old, y.state = .sealed) (hrest : ∀ y ∈ rest, y.state ≠ .sealed) (c : Cause) :
    s.Commits (s.commitSealed c) c old rest := by
  rw [State.commitSealed, State.sealedCount_append ht hold hrest]
  exact State.commitN_commits hold ht c

/-- Each `commitN` commits some SEALED entries from the front of the table. -/
theorem State.commitN_some (n : Nat) (s : State) (c : Cause) :
    ∃ old rest, s.ec.table = old ++ rest ∧ (∀ y ∈ old, y.state = .sealed) ∧ s.Commits (s.commitN n c) c old rest := by
  induction n generalizing s with
  | zero => exact ⟨[], s.ec.table, rfl, by simp, .refl rfl⟩
  | succ n ih =>
    by_cases h : ∃ e rest, s.ec.table = e :: rest ∧ e.state = .sealed
    · obtain ⟨e, rest, ht, hs⟩ := h
      have h1 := State.Commits.one ht hs c
      obtain ⟨old, rest', ht', hold, k⟩ := ih (s.commitOldest c)
      have hrest : rest = old ++ rest' := by
        have := h1.ec ▸ ht'
        exact this
      refine ⟨e :: old, rest', by rw [ht, hrest]; rfl, ?_, h1.trans k⟩
      intro y hy
      obtain rfl | hy := List.mem_cons.1 hy
      · exact hs
      · exact hold y hy
    · have hself : s.commitOldest c = s :=
        State.commitOldest_unsealed (fun e rest ht hs => h ⟨e, rest, ht, hs⟩) c
      obtain ⟨old, rest, ht, hold, k⟩ := ih s
      exact ⟨old, rest, ht, hold, by rw [State.commitN, hself]; exact k⟩


/-! ## Marks (R88) -/

theorem State.entry?_of_table {s t : State} (h : t.ec.table = s.ec.table) (e : EpochNo) : t.entry? e = s.entry? e := by
  rw [State.entry?, State.entry?, h]

/-- A change of entries that keeps their numbers changes what is found. -/
theorem find?_map_number {f : Entry → Entry} (hf : ∀ y, (f y).number = y.number) (l : List Entry) (e : EpochNo) :
    (l.map f).find? (fun x => x.number == e) = (l.find? (fun x => x.number == e)).map f := by
  rw [List.find?_map]
  congr 2
  funext y
  simp only [Function.comp, hf]

theorem State.entry?_number {s : State} {e : EpochNo} {y : Entry} (h : s.entry? e = some y) : y.number = e := by
  simpa using List.find?_some h

theorem State.entry?_mem {s : State} {e : EpochNo} {y : Entry} (h : s.entry? e = some y) : y ∈ s.ec.table :=
  List.mem_of_find?_eq_some h

theorem State.entry?_setEntry_same {s : State} {e : EpochNo} {y : Entry} {f : Entry → Entry}
    (hf : ∀ y, (f y).number = y.number) (h : s.entry? e = some y) : (s.setEntry e f).entry? e = some (f y) := by
  have hy := State.entry?_number h
  show (s.ec.table.map (fun x => if x.number == e then f x else x)).find? _ = _
  rw [find?_map_number (fun z => by split <;> simp [hf])]
  have h' : s.ec.table.find? (fun x => x.number == e) = some y := h
  rw [h', Option.map_some, if_pos (by simpa using hy)]

theorem State.entry?_setEntry_other {s : State} {e e' : EpochNo} (hne : e' ≠ e) {f : Entry → Entry}
    (hf : ∀ y, (f y).number = y.number) : (s.setEntry e f).entry? e' = s.entry? e' := by
  show (s.ec.table.map (fun x => if x.number == e then f x else x)).find? _ = s.ec.table.find? _
  rw [find?_map_number (fun z => by split <;> simp [hf])]
  cases h : s.ec.table.find? (fun x => x.number == e') with
  | none => rfl
  | some y =>
    have hy : y.number = e' := State.entry?_number (s := s) h
    rw [Option.map_some, if_neg (by simpa [hy] using hne)]

theorem State.setEntry_numbers (s : State) (e : EpochNo) {f : Entry → Entry} (hf : ∀ y, (f y).number = y.number) :
    (s.setEntry e f).ec.table.map (·.number) = s.ec.table.map (·.number) := by
  rw [State.setEntry_ec, List.map_map]
  refine List.map_congr_left (fun y _ => ?_)
  show (if y.number == e then f y else y).number = y.number
  split
  · exact hf y
  · rfl

theorem State.markBroken_jw (s : State) (e : EpochNo) (r : Reason) : (s.markBroken e r).jw = s.jw := by
  unfold State.markBroken
  split <;> rfl

theorem State.markBroken_eq (s : State) (e : EpochNo) (r : Reason) : (s.markBroken e r).eq = s.eq := by
  unfold State.markBroken
  split <;> rfl

theorem State.isBroken_iff {s : State} {e : EpochNo} {y : Entry} (h : s.entry? e = some y) :
    s.isBroken e = y.broken.isSome := by
  rw [State.isBroken, h]
  rfl

theorem Entry.mark_broken (r : Reason) {y : Entry} (h : y.broken.isSome) : y.mark r = y := by
  obtain ⟨r', hr⟩ := Option.isSome_iff_exists.1 h
  unfold Entry.mark
  rw [hr]
  cases y
  simp_all

/-- The marked epoch's entry, with the reason it had or the new one. -/
theorem State.markBroken_entry? {s : State} {e : EpochNo} {y : Entry} (h : s.entry? e = some y) (r : Reason) :
    (s.markBroken e r).entry? e = some (y.mark r) := by
  unfold State.markBroken
  rw [State.isBroken_iff h]
  split
  · rename_i hb
    rw [y.mark_broken r hb, h]
  · exact State.entry?_setEntry_same (fun _ => rfl) h

theorem State.markBroken_entry?_other {s : State} {e e' : EpochNo} (hne : e' ≠ e) (r : Reason) :
    (s.markBroken e r).entry? e' = s.entry? e' := by
  unfold State.markBroken
  split
  · rfl
  · exact State.entry?_setEntry_other hne (fun _ => rfl)

/-- What marks may change of the table: the broken marks. -/
def State.SameButMarks (s t : State) : Prop :=
  t.ec.table.map (fun y => { y with broken := none }) = s.ec.table.map (fun y => { y with broken := none })

theorem State.SameButMarks.refl (s : State) : s.SameButMarks s := rfl

theorem State.SameButMarks.trans {s t u : State} (h : s.SameButMarks t) (k : t.SameButMarks u) : s.SameButMarks u :=
  Eq.trans k h

theorem State.markBroken_marks (s : State) (e : EpochNo) (r : Reason) : s.SameButMarks (s.markBroken e r) := by
  unfold State.markBroken
  split
  · rfl
  · show ((s.ec.table.map _).map _) = _
    rw [List.map_map]
    refine List.map_congr_left (fun y _ => ?_)
    show ({ (if y.number == e then y.mark r else y) with broken := none } : Entry) = _
    split <;> rfl

theorem State.SameButMarks.numbers {s t : State} (h : s.SameButMarks t) :
    t.ec.table.map (·.number) = s.ec.table.map (·.number) := by
  have := congrArg (List.map (fun y : Entry => y.number)) h
  simpa only [List.map_map, Function.comp_def] using this

theorem State.SameButMarks.states {s t : State} (h : s.SameButMarks t) :
    t.ec.table.map (·.state) = s.ec.table.map (·.state) := by
  have := congrArg (List.map (fun y : Entry => y.state)) h
  simpa only [List.map_map, Function.comp_def] using this

/-- A split of the table stands after marks, entry by entry. -/
theorem State.SameButMarks.split {s t : State} (h : s.SameButMarks t) {old rest : List Entry}
    (hs : s.ec.table = old ++ rest) : ∃ old' rest', t.ec.table = old' ++ rest' ∧
      old'.map (fun y => { y with broken := none }) = old.map (fun y => { y with broken := none }) ∧
      rest'.map (fun y => { y with broken := none }) = rest.map (fun y => { y with broken := none }) := by
  have h' : t.ec.table.map (fun y => { y with broken := none }) = s.ec.table.map (fun y => { y with broken := none }) := h
  rw [hs, List.map_append] at h'
  obtain ⟨a, b, hab, ha, hb⟩ := List.map_eq_append_iff.1 h'
  exact ⟨a, b, hab, ha, hb⟩

theorem State.markOpen_jw (s : State) (r : Reason) : (s.markOpen r).jw = s.jw := by
  unfold State.markOpen
  split
  · rfl
  · exact s.markBroken_jw _ r

theorem State.markOpen_eq (s : State) (r : Reason) : (s.markOpen r).eq = s.eq := by
  unfold State.markOpen
  split
  · rfl
  · exact s.markBroken_eq _ r

theorem State.markOpen_marks (s : State) (r : Reason) : s.SameButMarks (s.markOpen r) := by
  unfold State.markOpen
  split
  · rfl
  · exact s.markBroken_marks _ r

end Sys2Proof.Machine

/-! The acknowledgments that are dropped; boundaries, merged and discarded boundary requests. -/
namespace Sys2Proof.Machine

/-! ## Dropped acknowledgments (R168, R172) -/

/-- An acknowledgment is dropped with an effect on the DA alone. -/
theorem State.dropAck_eq (s : State) (p : PortIx) : s.dropAck p = { s with da := (s.dropAck p).da } := by
  unfold State.dropAck State.releaseRecords
  split <;> rfl

theorem State.holdsBack_freePort (s : State) (p : PortIx) : (s.freePort p).holdsBack = true ↔
    ∃ p' k', p' ≠ p ∧ s.da.slots[p'] = some k' ∧ k'.discard = true ∧ k'.kind.isRing = true := by
  rw [State.holdsBack, State.anyPort_iff]
  have hslot (p' : PortIx) : (s.freePort p).da.slots[p'] = if p' = p then none else s.da.slots[p'] :=
    slots_set s.da.slots p p' none
  refine exists₂_congr fun p' k' => ?_
  rw [hslot, Bool.and_eq_true]
  by_cases h : p' = p
  · simp [h]
  · simp [h]

theorem State.dropAck_held {s : State} {p : PortIx} (h : (s.freePort p).holdsBack = true) :
    s.dropAck p = s.freePort p := if_pos h

theorem State.dropAck_released {s : State} {p : PortIx} (h : ¬ (s.freePort p).holdsBack = true) :
    (s.dropAck p).da = { (s.freePort p).da with
      capture := s.da.capture ++ s.da.heldCapture.map CaptureReq.undoWrite
      sealWriter := s.da.sealWriter ++ s.da.heldSealWriter
      heldCapture := []
      heldSealWriter := [] } := by
  unfold State.dropAck State.releaseRecords
  rw [if_neg h]
  rfl

/-- Every row that may bring the acknowledgment of a flagged request drops it. -/
theorem exec_flagged {s : State} {p : PortIx} {k : PortKind} {res : AckResult} {c : Instr}
    (h : s.da.slots[p] = some { kind := k, discard := true })
    (hc : c = .discardedAck p res ∨ (c = .oldGranuleReadAck p res ∧ ∃ q, k = .oldRead q) ∨
      (c = .undoWriteAck p res ∧ ∃ q, k = .undoWrite q) ∨ (c = .padWriteAck p res ∧ ∃ l e, k = .padWrite l e) ∨
      (c = .sealWriteAck p res ∧ ∃ l e, k = .sealWrite l e) ∨ (c = .openWriteAck p res ∧ ∃ l e, k = .openWrite l e) ∨
      (c = .recordReadAck p res ∧ k = .recordRead) ∨ (c = .restoreWriteAck p res ∧ k = .restoreWrite)) :
    exec c s = .next (s.begin.dropAck p).settle := by
  have hb : s.begin.da.slots[p] = some { kind := k, discard := true } := h
  obtain rfl | ⟨rfl, q, rfl⟩ | ⟨rfl, q, rfl⟩ | ⟨rfl, l, e, rfl⟩ | ⟨rfl, l, e, rfl⟩ | ⟨rfl, l, e, rfl⟩ | ⟨rfl, rfl⟩ |
    ⟨rfl, rfl⟩ := hc
  · show execDiscardedAck p res s = _
    have hk : s.begin.portSlot? p = some { kind := k, discard := true } := h
    unfold execDiscardedAck
    dsimp only
    rw [hk]
    rfl
  · exact (execOldGranuleReadAck_eq p res s).trans (congrArg Host.Outcome.next (State.ackRow_flagged (own := PortKind.oldReadOwner?) hb rfl _))
  · exact (execUndoWriteAck_eq p res s).trans (congrArg Host.Outcome.next (State.ackRow_flagged (own := PortKind.undoWriteOwner?) hb rfl _))
  · exact (execPadWriteAck_eq p res s).trans (congrArg Host.Outcome.next (State.ackRow_flagged (own := PortKind.pad?) hb rfl _))
  · exact (execSealWriteAck_eq p res s).trans (congrArg Host.Outcome.next (State.ackRow_flagged (own := PortKind.seal?) hb rfl _))
  · exact (execOpenWriteAck_eq p res s).trans (congrArg Host.Outcome.next (State.ackRow_flagged (own := PortKind.open?) hb rfl _))
  · exact (execRecordReadAck_eq p res s).trans (congrArg Host.Outcome.next (State.ackRow_flagged (own := PortKind.recordRead.is) hb rfl _))
  · exact (execRestoreWriteAck_eq p res s).trans (congrArg Host.Outcome.next (State.ackRow_flagged (own := PortKind.restoreWrite.is) hb rfl _))

/-- Settles O28: whatever the row, a flagged slot is freed and a FREE one is no request's. -/
theorem droppedAcks : Obligations.DroppedAcks := by
  unfold Obligations.DroppedAcks
  refine ⟨fun s p k res h => ?flagged, fun s p res h => ?free⟩
  case flagged =>
    refine ⟨(s.begin.dropAck p).da, ?_, ?_, ?_, ?_, fun hring => ?_, fun hnone => ?_, fun c hc => ?_⟩
    · exact (show (s.begin.dropAck p).da.slots = (s.begin.freePort p).da.slots by
        unfold State.dropAck State.releaseRecords; split <;> rfl)
    · exact (show (s.begin.dropAck p).da.forward = (s.begin.freePort p).da.forward by
        unfold State.dropAck State.releaseRecords; split <;> rfl)
    · exact (show (s.begin.dropAck p).da.rollback = (s.begin.freePort p).da.rollback by
        unfold State.dropAck State.releaseRecords; split <;> rfl)
    · exact (show (s.begin.dropAck p).da.lastGranted = (s.begin.freePort p).da.lastGranted by
        unfold State.dropAck State.releaseRecords; split <;> rfl)
    · rw [State.dropAck_held ((s.begin.holdsBack_freePort p).2 hring)]
      exact ⟨rfl, rfl, rfl, rfl⟩
    · have hn : ¬ (s.begin.freePort p).holdsBack = true := fun hh => by
        obtain ⟨p', k', hp, hk, hd⟩ := (s.begin.holdsBack_freePort p).1 hh
        exact hnone p' k' hp hk hd
      rw [State.dropAck_released hn]
      exact ⟨rfl, rfl, rfl, rfl⟩
    · rw [exec_flagged h hc]
      refine congrArg (fun u => Host.Outcome.next (State.settle u)) ?_
      rw [State.dropAck_eq]
      rfl
  case free =>
    have hb : s.begin.da.slots[p] = none := h
    have hk : s.begin.portSlot? p = none := h
    intro c hc
    simp only [List.mem_cons, List.not_mem_nil, or_false] at hc
    obtain rfl | rfl | rfl | rfl | rfl | rfl | rfl | rfl | rfl | rfl := hc
    · rfl
    · show execForwardedAck p res s = _
      unfold execForwardedAck
      dsimp only
      rw [hk]
      rfl
    · exact (execOldGranuleReadAck_eq p res s).trans (congrArg Host.Outcome.next (State.ackRow_free hb _ _))
    · exact (execUndoWriteAck_eq p res s).trans (congrArg Host.Outcome.next (State.ackRow_free hb _ _))
    · exact (execPadWriteAck_eq p res s).trans (congrArg Host.Outcome.next (State.ackRow_free hb _ _))
    · exact (execSealWriteAck_eq p res s).trans (congrArg Host.Outcome.next (State.ackRow_free hb _ _))
    · exact (execOpenWriteAck_eq p res s).trans (congrArg Host.Outcome.next (State.ackRow_free hb _ _))
    · exact (execRecordReadAck_eq p res s).trans (congrArg Host.Outcome.next (State.ackRow_free hb _ _))
    · exact (execRestoreWriteAck_eq p res s).trans (congrArg Host.Outcome.next (State.ackRow_free hb _ _))
    · show execDiscardedAck p res s = _
      unfold execDiscardedAck
      dsimp only
      rw [hk]
      rfl

/-! ## Requests that take no boundary (R90, R91, R92, R142) -/

theorem State.timerDue_iff (s : State) : s.timerDue = true ↔ s.ec.timer = some 0 := by
  rw [State.timerDue, beq_iff_eq]

theorem exec_epochTimerExpiry_due {s : State} (h : s.ec.timer = some 0) :
    exec .epochTimerExpiry s = .next s.begin.expireTimer.settle :=
  if_pos ((State.timerDue_iff s).2 h)

theorem exec_epochTimerExpiry_idle {s : State} (h : s.ec.timer ≠ some 0) : exec .epochTimerExpiry s = .next s.begin :=
  if_neg (mt (State.timerDue_iff s).1 h)

/-- An edge counts: reset is not in force, the strobe is enabled and the polarity is the edge's (R92, R197). -/
theorem exec_epochInEdge_counts {s : State} {e : Edge} (hr : s.inReset = false) (hs : s.ec.strobeEnable = true)
    (hp : s.ec.strobePolarity = e) : exec (.epochInEdge e) s = .next s.begin.strobe.settle :=
  if_pos ⟨by rw [State.begin_inReset, hr]; rfl, hs, hp⟩

theorem exec_epochInEdge_ignored {s : State} {e : Edge} (h : s.ec.strobeEnable = false ∨ s.ec.strobePolarity ≠ e) :
    exec (.epochInEdge e) s = .next s.begin := by
  refine if_neg ?_
  rintro ⟨-, hs, hp⟩
  obtain h | h := h
  · exact absurd hs (by rw [State.begin_ec, h]; decide)
  · exact h hp

/-- Settles O39. -/
theorem discardedAndIgnoredRequests : Obligations.DiscardedAndIgnoredRequests := by
  unfold Obligations.DiscardedAndIgnoredRequests
  refine fun s => ⟨fun ht hb => ?expiry, fun ht => exec_epochTimerExpiry_idle ht, fun e hr hs hp hb => ?counted,
    fun e hr hs hp hb => ?passed, fun e h => exec_epochInEdge_ignored h⟩
  case expiry =>
    have he : s.begin.expireTimer = s.begin.startTimer.discardBoundary := by
      unfold State.expireTimer
      rw [State.begin_ec, hb]
    rw [exec_epochTimerExpiry_due ht, he]
    rfl
  case counted =>
    have he : s.begin.strobe = s.begin.discardBoundary := by
      unfold State.strobe
      rw [State.begin_ec]
      obtain hb | hb := hb <;> rw [hb]
    rw [exec_epochInEdge_counts hr hs hp, he]
    rfl
  case passed =>
    have he : s.begin.strobe = s.begin := by
      unfold State.strobe
      rw [State.begin_ec]
      obtain hb | hb := hb <;> rw [hb]
    rw [exec_epochInEdge_counts hr hs hp, he]

/-! ## Boundary requests in JOURNALING (R83, R90, R96) -/

/-- The state a boundary request meets: an expiry has started the next interval (R91). -/
def State.requested (s : State) (src : Source) : State := if src = .timer then s.begin.startTimer else s.begin

theorem State.recordBoundary_mdo (s : State) (src : Source) : (s.recordBoundary src).mdo = s.mdo := by
  unfold State.recordBoundary
  dsimp only
  split <;> rfl

theorem State.requestBoundary_mdo (s : State) (src : Source) : (s.requestBoundary src).mdo = s.mdo := by
  unfold State.requestBoundary
  split
  · exact s.recordBoundary_mdo src
  · split
    · exact s.closingBoundary_within.keeps.mdo
    · exact s.boundary_within.keeps.mdo

/-- A step that no frame surrounds leaves MDO undriven. -/
theorem State.settle_undriven {u : State} (h : u.mdo = .undriven) : u.settle = u.settle.withAnswer .undriven := by
  have hm : u.settle.mdo = .undriven := u.settle_within.keeps.mdo.trans h
  rw [← hm, State.withAnswer_mdo]

/-- Every row that is a boundary request comes to the same, but for the timer and the answer. -/
theorem exec_requests {s : State} {c : Instr} {src : Source} {m : Mdo} (h : s.Requests c src m)
    (hb : s.ec.bridge = .journaling) :
    exec c s = .next (((s.requested src).requestBoundary src).settle.withAnswer m) := by
  unfold State.Requests at h
  split at h
  · obtain ⟨hl, rfl, rfl⟩ := h
    refine answers_sealNow.settles hl ?_
    unfold State.sealCommand
    rw [State.begin_ec, hb]
    rfl
  · obtain ⟨hl, rfl, rfl⟩ := h
    refine answers_disable.settles hl ?_
    unfold State.disable
    rw [State.begin_ec, hb]
    rfl
  · obtain ⟨ht, rfl, rfl⟩ := h
    have he : s.begin.expireTimer = s.begin.startTimer.requestBoundary .timer := by
      unfold State.expireTimer
      rw [State.begin_ec, hb]
    rw [exec_epochTimerExpiry_due ht, he]
    exact congrArg Host.Outcome.next (State.settle_undriven (State.requestBoundary_mdo _ _))
  · obtain ⟨hr, hs, hp, rfl, rfl⟩ := h
    have he : s.begin.strobe = s.begin.requestBoundary .strobe := by
      unfold State.strobe
      rw [State.begin_ec, hb]
    rw [exec_epochInEdge_counts hr hs hp, he]
    exact congrArg Host.Outcome.next (State.settle_undriven (State.requestBoundary_mdo _ _))
  · exact absurd h (by simp)

theorem State.requested_eq (s : State) (src : Source) : s.requested src =
    { s.begin with ec := { s.ec with timer := if src = .timer then s.fullTimer else s.ec.timer } } := by
  unfold State.requested
  split <;> rfl

theorem packBytes_two (a b : Nat) : packBytes a b 0 0 = word32 (byteOf a) (BitVec.ofNat 8 b) 0#8 0#8 := rfl

theorem packBytes_source (src : Source) (n : Nat) : packBytes src.code n 0 0 =
    word32 (match src with | .sealCommand => 1#8 | .timer => 2#8 | .strobe => 3#8 | .disable => 4#8)
      (BitVec.ofNat 8 n) 0#8 0#8 := by
  rw [packBytes_two]
  cases src <;> dsimp only <;> rfl

/-- Settles O37: the request is recorded in the pending flag, or merged. -/
theorem boundaryWhileSealing : Obligations.BoundaryWhileSealing := by
  unfold Obligations.BoundaryWhileSealing
  intro s c src m h hb hseal n after
  have hs : ((s.requested src).sealingEntry?).isSome = true := by
    rw [State.requested_eq]; exact hseal
  have hrow : exec c s = .next (((s.requested src).recordBoundary src).settle.withAnswer m) := by
    rw [exec_requests h hb, State.requestBoundary, if_pos hs]
  have hdis : (src == .disable) = decide (src = .disable) := by cases src <;> rfl
  refine ⟨fun hp => ?first, fun hp => ?merged⟩
  case first =>
    have hr : (s.requested src).recordBoundary src = after := by
      rw [State.requested_eq]
      unfold State.recordBoundary
      dsimp only
      rw [hp, hdis]
      rfl
    rw [hrow, hr]
  case merged =>
    have hr : (s.requested src).recordBoundary src =
        { after with
          ec := { after.ec with merged := n }
          eq := s.eq.raise { code := .boundaryMerged, epoch := s.openEpoch?, arg := packBytes src.code n 0 0 } } := by
      rw [State.requested_eq]
      unfold State.recordBoundary
      dsimp only
      rw [if_pos hp, hdis, hp]
      rfl
    rw [hrow, hr, packBytes_source] <;> rfl

end Sys2Proof.Machine

/-! An armed table applied with the OPEN bank filled behind it; boundaries, ENABLE and RELEASE. -/
namespace Sys2Proof.Machine

/-! ## Applying and filling (R36, R37, R106, R107) -/

/-- What a boundary, ENABLE and FINISH do with the window tables and the OPEN bank. -/
def State.applyFill (s : State) (e : Option EpochNo) : State := (s.applyArmed e).fillOpenBank e

theorem State.applyFill_clear {s : State} (h : s.wu.armed = false) (e : Option EpochNo) :
    s.applyFill e = s.fillOpenBank e := by
  rw [State.applyFill, State.applyArmed_of_clear h]

theorem State.applyFill_armed {s : State} (h : s.wu.armed = true) (e : Option EpochNo) :
    s.applyFill e = (s.applyTable e).fillOpenBank e := by
  rw [State.applyFill, State.applyArmed_of_armed h]

/-- Beyond the window tables, the banks, the quiet windows and the event queue nothing changes. -/
theorem State.applyFill_eq (s : State) (e : Option EpochNo) : s.applyFill e =
    { s with wu := (s.applyFill e).wu, su := (s.applyFill e).su, eq := (s.applyFill e).eq } := by
  cases h : s.wu.armed with
  | false => rw [State.applyFill_clear h]; rfl
  | true => rw [State.applyFill_armed h]; rfl

theorem State.applyFill_wu (s : State) (e : Option EpochNo) :
    (s.applyFill e).wu = { s.wu with active := s.activeNext, armed := false } := by
  cases h : s.wu.armed with
  | false =>
    have hn : s.activeNext = s.wu.active := if_neg (by simp [h])
    rw [State.applyFill_clear h, hn, ← h]
    rfl
  | true =>
    have hn : s.activeNext = s.wu.staged := if_pos h
    rw [State.applyFill_armed h, hn]
    rfl

theorem Bank.fill_reset (v : Vector WinEntry 16) (i : WinIx) : (Bank.reset.fill v).entries[i] = v[i].banked := by
  simp only [Bank.fill, Bank.reset, Fin.getElem_fin, Vector.getElem_ofFn, Vector.getElem_replicate]
  rfl

theorem State.applyFill_openBank (s : State) (e : Option EpochNo) :
    (s.applyFill e).su.openBank = { s.su.openBank.fill s.activeNext with epoch := e } := by
  cases h : s.wu.armed with
  | false =>
    have hn : s.activeNext = s.wu.active := if_neg (by simp [h])
    rw [State.applyFill_clear h, hn]
    rfl
  | true =>
    have hn : s.activeNext = s.wu.staged := if_pos h
    rw [State.applyFill_armed h, hn]
    rfl

theorem State.applyFill_sealingEpoch (s : State) (e : Option EpochNo) :
    (s.applyFill e).su.sealingBank.epoch = s.su.sealingBank.epoch := by
  cases h : s.wu.armed with
  | false => rw [State.applyFill_clear h]; rfl
  | true => rw [State.applyFill_armed h]; rfl

theorem State.applyFill_sealing (s : State) (e : Option EpochNo) (i : WinIx) :
    (s.applyFill e).su.sealingBank.entries[i] =
      if s.wu.armed ∧ s.wu.active[i] ≠ s.wu.staged[i] then { s.su.sealingBank.entries[i] with superseded := true }
      else s.su.sealingBank.entries[i] := by
  cases h : s.wu.armed with
  | false => rw [State.applyFill_clear h, if_neg (by simp)]; rfl
  | true =>
    rw [State.applyFill_armed h]
    exact (s.applied_sealing i).trans (ite_congr (by simp) (fun _ => rfl) (fun _ => rfl))

theorem State.applyFill_quiet_clear {s : State} (h : s.wu.armed = false) (e : Option EpochNo) :
    (s.applyFill e).su.quiet = s.su.quiet := by
  rw [State.applyFill_clear h]; rfl

theorem State.applyFill_quiet_armed {s : State} (h : s.wu.armed = true) (e : Option EpochNo) (i : WinIx) :
    (s.applyFill e).su.quiet[i] =
      if s.wu.active[i] ≠ s.wu.staged[i] then { counter := 0, dormant := false } else s.su.quiet[i] := by
  rw [State.applyFill_armed h]
  exact s.applied_quiet i

theorem State.applyFill_sealing_clear {s : State} (h : s.wu.armed = false) (e : Option EpochNo) :
    (s.applyFill e).su.sealingBank = s.su.sealingBank := by
  rw [State.applyFill_clear h]; rfl

theorem State.applyFill_events_clear {s : State} (h : s.wu.armed = false) (e : Option EpochNo) :
    (s.applyFill e).eq = s.eq := by
  rw [State.applyFill_clear h]; rfl

theorem State.applyFill_events_armed {s : State} (h : s.wu.armed = true) (e : Option EpochNo) :
    (s.applyFill e).eq = s.eq.raise { code := .tableApplied, epoch := e, arg := s.changedSet.setWidth 32 } := by
  rw [State.applyFill_armed h]; rfl

/-- The events of an armed apply: one at most. -/
theorem State.applyFill_events (s : State) (e : Option EpochNo) : ∃ evs, (s.applyFill e).eq = s.eq.raiseAll evs ∧
    ∀ ev ∈ evs, ev.code = .tableApplied := by
  cases h : s.wu.armed with
  | false => exact ⟨[], State.applyFill_events_clear h e, by simp⟩
  | true => exact ⟨[_], State.applyFill_events_armed h e, by simp⟩

/-- With a reset OPEN bank before it, this is what `AppliesAndFills` states. -/
theorem State.applyFill_spec {s t u : State} {e : Option EpochNo} (hw : t.wu = s.wu) (hq : t.su.quiet = s.su.quiet)
    (hb : t.su.openBank = Bank.reset) (hwu : u.wu = (t.applyFill e).wu) (hsu : u.su = (t.applyFill e).su) :
    s.AppliesAndFills u e := by
  have hn : t.activeNext = s.activeNext := by rw [State.activeNext, hw]; rfl
  refine ⟨?_, ?_, ?_, ?_, ?_, fun i => ?_, fun ha => ?_, fun ha i => ?_⟩
  · rw [hwu, State.applyFill_wu, hn]
  · rw [hwu, State.applyFill_wu, hw]
  · rw [hwu, State.applyFill_wu]
  · rw [hwu, State.applyFill_wu, hw]
  · rw [hsu, State.applyFill_openBank]
  · rw [hsu, State.applyFill_openBank, hb, hn]
    exact Bank.fill_reset _ i
  · rw [hsu, State.applyFill_quiet_clear (by rw [hw]; exact ha), hq]
  · rw [hsu, State.applyFill_quiet_armed (by rw [hw]; exact ha), hw, hq]

/-! ## Boundaries (R84, R94) -/

/-- The state a boundary leaves before the tables and the OPEN bank are dealt with. -/
def State.opened (s : State) (e : EpochNo) : State :=
  ((s.makeRoom.closeOpen.addEpoch e).clearTouched).exchangeBanks

theorem State.boundary_eq {s : State} {o : Entry} (h : s.openEntry? = some o) :
    s.boundary = ((s.opened (o.number + 1#32)).applyFill (some (o.number + 1#32))).startTimer := by
  have ho : s.openEpoch? = some o.number := by rw [State.openEpoch?, h]; rfl
  unfold State.boundary
  rw [ho]
  rfl

theorem State.makeRoom_self {s : State} (h : s.ec.table.length < 64) : s.makeRoom = s :=
  if_neg (fun hh => by
    have : s.ec.table.length = 64 := hh
    omega)

theorem State.makeRoom_full {s : State} (h : s.ec.table.length = 64) : s.makeRoom = s.commitOldest .depth :=
  if_pos h

/-- Nothing around the blocks changes from the state before the action to one that keeps what every effect keeps. -/
theorem State.SameAround.of_keeps {s u : State} (h : Keeps s.begin u) (he : ∃ evs, u.eq = s.eq.raiseAll evs) :
    s.SameAround u := by
  obtain ⟨evs, he⟩ := he
  exact ⟨h.port, h.inReset, h.noFrame, h.pending, h.staged, h.holdLimit, by rw [he, EventQueue.raiseAll_mask],
    by rw [he, EventQueue.raiseAll_time], h.dport⟩

theorem State.requested_openEntry? (s : State) (src : Source) : (s.requested src).openEntry? = s.openEntry? := by
  rw [State.requested_eq]; rfl

theorem State.requested_sealingEntry? (s : State) (src : Source) : (s.requested src).sealingEntry? = s.sealingEntry? := by
  rw [State.requested_eq]; rfl

theorem exec_boundary {s : State} {c : Instr} {src : Source} {m : Mdo} {o : Entry} (h : s.Requests c src m)
    (hsrc : src ≠ .disable) (hb : s.ec.bridge = .journaling) (hs : s.sealingEntry? = none)
    (ho : s.openEntry? = some o) :
    exec c s = .next ((State.startTimer (((s.requested src).opened (o.number + 1#32)).applyFill
      (some (o.number + 1#32)))).settle.withAnswer m) := by
  rw [exec_requests h hb, State.requestBoundary, State.requested_sealingEntry?, hs]
  rw [if_neg (by simp), if_neg hsrc, State.boundary_eq (by rw [State.requested_openEntry?, ho])]

/-- The table of a state whose OPEN epoch closes and whose next opens behind it. -/
theorem State.opened_ec (s : State) (e : EpochNo) : (s.opened e).ec =
    { s.makeRoom.ec with table := s.makeRoom.ec.table.map Entry.closed ++ [Entry.fresh e] } := rfl

theorem State.startTimer_congr {s t : State} (h1 : t.ec.timerEnable = s.ec.timerEnable)
    (h2 : t.ec.timerInterval = s.ec.timerInterval) : t.fullTimer = s.fullTimer := by
  rw [State.fullTimer, State.fullTimer, h1, h2]

/-- Settles O36: with room in the table the boundary is the closing of one epoch and the opening of the next; in a full
table the oldest is committed before it. -/
theorem boundaryTaken : Obligations.BoundaryTaken := by
  unfold Obligations.BoundaryTaken
  intro s c src m o h hsrc hb hs ho closed
  have hrow := exec_boundary h hsrc hb hs ho
  have hkeeps : Keeps s.begin (State.startTimer (((s.requested src).opened (o.number + 1#32)).applyFill
      (some (o.number + 1#32)))) := by
    have hopen : (s.requested src).openEntry? = some o := by rw [State.requested_openEntry?, ho]
    rw [← State.boundary_eq hopen]
    refine Keeps.trans ?_ (State.boundary_within _).keeps
    unfold State.requested
    split
    · exact (State.startTimer_within _).keeps
    · exact Keeps.refl _
  refine ⟨fun hroom => ?room, fun y rest ht hlen hy => ?full⟩
  case room =>
    have hself : (s.requested src).makeRoom = s.requested src := by
      refine State.makeRoom_self ?_
      rw [State.requested_eq]; exact hroom
    have hopened : (s.requested src).opened (o.number + 1#32) =
        ((((s.requested src).closeOpen).addEpoch (o.number + 1#32)).clearTouched).exchangeBanks := by
      rw [State.opened, hself]
    rw [hopened] at hrow hkeeps
    generalize ht : ((((s.requested src).closeOpen).addEpoch (o.number + 1#32)).clearTouched).exchangeBanks = t at hrow hkeeps
    have hwu : t.wu = s.wu := by rw [← ht, State.requested_eq]; rfl
    have hsu : t.su = { s.su with openBank := Bank.reset, sealingBank := s.su.openBank } := by
      rw [← ht, State.requested_eq]; rfl
    have heq : t.eq = s.eq := by rw [← ht, State.requested_eq]; rfl
    refine ⟨_, hrow, ?_, ?_, ?_, ?_, fun i => ?_, fun ha => ?_, fun ha => ?_, ?_, ?_, ?_, ?_, ?_⟩
    · show (State.startTimer (t.applyFill _)).ec = _
      rw [State.applyFill_eq, ← ht, State.requested_eq]
      rfl
    · show (t.applyFill _).cu = _
      rw [State.applyFill_eq, ← ht, State.requested_eq]
      rfl
    · exact State.applyFill_spec hwu (by rw [hsu]) (by rw [hsu]) rfl rfl
    · show (t.applyFill _).su.sealingBank.epoch = _
      rw [State.applyFill_sealingEpoch, hsu]
    · show (t.applyFill _).su.sealingBank.entries[i] = _
      rw [State.applyFill_sealing, hwu, hsu]
    · show (t.applyFill _).eq = _
      rw [State.applyFill_events_clear (by rw [hwu]; exact ha), heq]
    · refine ⟨t.changedSet.setWidth 32, ?_⟩
      show (t.applyFill _).eq = _
      rw [State.applyFill_events_armed (by rw [hwu]; exact ha), heq]
    · show (t.applyFill _).iq = _
      rw [State.applyFill_eq, ← ht, State.requested_eq]
      rfl
    · show (t.applyFill _).jw = _
      rw [State.applyFill_eq, ← ht, State.requested_eq]
      rfl
    · show (t.applyFill _).re = _
      rw [State.applyFill_eq, ← ht, State.requested_eq]
      rfl
    · show (t.applyFill _).da = _
      rw [State.applyFill_eq, ← ht, State.requested_eq]
      rfl
    · obtain ⟨evs, he, -⟩ := t.applyFill_events (some (o.number + 1#32))
      exact .of_keeps hkeeps ⟨evs, by rw [← heq]; exact he⟩
  case full =>
    have hrt : (s.requested src).ec.table = y :: rest := by rw [State.requested_eq]; exact ht
    have hfull : (s.requested src).makeRoom = (s.requested src).commitOldest .depth := by
      refine State.makeRoom_full ?_
      rw [State.requested_eq]; exact hlen
    have hcom := State.Commits.one hrt hy .depth
    have hev := State.commitOldest_sealed hrt hy .depth
    obtain ⟨levels, hlev, -⟩ := ((s.requested src).committed y rest .depth).evaluate_levels
    rw [← hfull] at hcom
    rw [← hev, ← hfull] at hlev
    generalize hr : (s.requested src).makeRoom = r at hcom hlev
    have hopened : (s.requested src).opened (o.number + 1#32) =
        ((r.closeOpen.addEpoch (o.number + 1#32)).clearTouched).exchangeBanks := by
      rw [State.opened, hr]
    rw [hopened] at hrow hkeeps
    generalize ht : ((r.closeOpen.addEpoch (o.number + 1#32)).clearTouched).exchangeBanks = t at hrow hkeeps
    have hwu : t.wu = s.wu := by rw [← ht]; exact hcom.calm.wu.trans (by rw [State.requested_eq]; rfl)
    have hrsu : r.su = s.su := hcom.calm.su.trans (by rw [State.requested_eq]; rfl)
    have hsu : t.su = { s.su with openBank := Bank.reset, sealingBank := s.su.openBank } := by
      rw [← hrsu, ← ht]; rfl
    have heq : t.eq = (s.eq.raise (y.committed .depth)).raiseAll levels := by
      rw [← ht]
      refine Eq.trans (show _ = r.eq from rfl) (hlev.trans ?_)
      rw [State.requested_eq]
      rfl
    obtain ⟨evs, he, -⟩ := t.applyFill_events (some (o.number + 1#32))
    refine ⟨_, levels ++ evs, hrow, ?_, ?_, ?_, ?_, ?_, ?_, ?_, ?_, ?_, ?_⟩
    · show (t.applyFill _).ec.table = _
      rw [State.applyFill_eq, ← ht]
      show r.ec.table.map Entry.closed ++ _ = _
      rw [hcom.ec]
      rfl
    · show (t.applyFill _).jw.head = _
      rw [State.applyFill_eq, ← ht]
      exact hcom.head.trans (by rw [State.requested_eq]; rfl)
    · show (t.applyFill _).jw.tail = _
      rw [State.applyFill_eq, ← ht]
      exact hcom.tail.trans (by rw [State.requested_eq]; rfl)
    · show (t.applyFill _).cu = _
      rw [State.applyFill_eq, ← ht]
      show { r.cu with touched := [] } = _
      rw [hcom.calm.cu, State.requested_eq]
      rfl
    · exact State.applyFill_spec hwu (by rw [hsu]) (by rw [hsu]) rfl rfl
    · have hslots : (State.startTimer (t.applyFill (some (o.number + 1#32)))).iq.slots = r.iq.slots := by
        show (t.applyFill _).iq.slots = _
        rw [State.applyFill_eq, ← ht]
        rfl
      intro q
      refine (congrArg (fun l => (l.find? (fun x : Slot => x.ix == q)).map Slot.reexamined) hslots).trans ?_
      refine (hcom.calm.sameSlots q).trans ?_
      rw [State.requested_eq]
      rfl
    · show (t.applyFill _).re = _
      rw [State.applyFill_eq, ← ht]
      exact hcom.calm.re.trans (by rw [State.requested_eq]; rfl)
    · show (t.applyFill _).da = _
      rw [State.applyFill_eq, ← ht]
      exact hcom.calm.da.trans (by rw [State.requested_eq]; rfl)
    · refine .of_keeps hkeeps ⟨y.committed .depth :: levels ++ evs, ?_⟩
      refine (show (State.startTimer (t.applyFill _)).eq = (t.applyFill _).eq from rfl).trans ?_
      rw [he, heq, EventQueue.raiseAll_append]
      rfl
    · refine (show (State.startTimer (t.applyFill _)).eq = (t.applyFill _).eq from rfl).trans ?_
      rw [he, heq, EventQueue.raiseAll_append]
      rfl

end Sys2Proof.Machine

/-! The closing boundary, ENABLE and RELEASE; the OPEN record where it is placed. -/
namespace Sys2Proof.Machine

/-! ## The closing boundary (R83, R84, R93) -/

/-- The state the closing boundary leaves before the tables and the OPEN bank are dealt with. -/
def State.closed (s : State) : State := ((s.closeOpen.setBridge .closing).clearTouched).exchangeBanks

theorem State.closingBoundary_eq (s : State) : s.closingBoundary = (s.closed.applyFill none).stopTimer := rfl

/-- Settles O38: DISABLE outside a seal closes the OPEN epoch and opens none. -/
theorem disableAndSeal : Obligations.DisableAndSeal := by
  unfold Obligations.DisableAndSeal
  refine fun s hl => ⟨fun hb hs => ?closing, fun hb => ⟨?_, ?_⟩, fun hb => ⟨?_, ?_⟩, fun hb => ⟨?_, ?_⟩⟩
  case closing =>
    have hrow : exec .disable s = .next ((s.begin.closed.applyFill none).stopTimer.settle.withAnswer (.answer answerDone)) := by
      have hreq : s.Requests .disable .disable (.answer answerDone) := ⟨hl, rfl, rfl⟩
      rw [exec_requests hreq hb, State.requestBoundary, State.requested_sealingEntry?, hs]
      rfl
    have hkeeps : Keeps s.begin (s.begin.closed.applyFill none).stopTimer := by
      rw [← State.closingBoundary_eq]
      exact (State.closingBoundary_within _).keeps
    generalize ht : s.begin.closed = t at hrow hkeeps
    have hwu : t.wu = s.wu := by rw [← ht]; rfl
    have hsu : t.su = { s.su with openBank := Bank.reset, sealingBank := s.su.openBank } := by rw [← ht]; rfl
    have heq : t.eq = s.eq := by rw [← ht]; rfl
    refine ⟨_, hrow, ?_, ?_, ?_, ?_, fun ha => ⟨?_, ?_⟩, fun ha => ?_, ?_, ?_, ?_, ?_, ?_⟩
    · show (State.stopTimer (t.applyFill _)).ec = _
      rw [State.applyFill_eq, ← ht]
      rfl
    · show (t.applyFill _).cu = _
      rw [State.applyFill_eq, ← ht]
      rfl
    · exact State.applyFill_spec hwu (by rw [hsu]) (by rw [hsu]) rfl rfl
    · show (t.applyFill _).su.sealingBank.epoch = _
      rw [State.applyFill_sealingEpoch, hsu]
    · show (t.applyFill _).su.sealingBank = _
      rw [State.applyFill_sealing_clear (by rw [hwu]; exact ha), hsu]
    · show (t.applyFill _).eq = _
      rw [State.applyFill_events_clear (by rw [hwu]; exact ha), heq]
    · refine ⟨t.changedSet.setWidth 32, ?_⟩
      show (t.applyFill _).eq = _
      rw [State.applyFill_events_armed (by rw [hwu]; exact ha), heq]
    · show (t.applyFill _).iq = _
      rw [State.applyFill_eq, ← ht]
      rfl
    · show (t.applyFill _).jw = _
      rw [State.applyFill_eq, ← ht]
      rfl
    · show (t.applyFill _).re = _
      rw [State.applyFill_eq, ← ht]
      rfl
    · show (t.applyFill _).da = _
      rw [State.applyFill_eq, ← ht]
      rfl
    · obtain ⟨evs, he, -⟩ := t.applyFill_events none
      exact .of_keeps hkeeps ⟨evs, by rw [← heq]; exact he⟩
  · refine answers_disable.does hl ?_
    unfold State.disable
    rw [State.begin_ec, hb]
  · refine answers_sealNow.refuses hl ?_
    unfold State.sealCommand
    rw [State.begin_ec, hb]
  · refine answers_disable.refuses hl ?_
    unfold State.disable
    rw [State.begin_ec]
    obtain hb | hb := hb <;> rw [hb]
  · refine answers_sealNow.refuses hl ?_
    unfold State.sealCommand
    rw [State.begin_ec]
    obtain hb | hb := hb <;> rw [hb]
  · refine answers_disable.refuses hl ?_
    unfold State.disable
    rw [State.begin_ec, hb]
  · refine answers_sealNow.refuses hl ?_
    unfold State.sealCommand
    rw [State.begin_ec, hb]

/-! ## Record writes and the OPEN record (R45, R46, R49, R51, R55) -/

/-- The DA with a record write made: it joins the ready list, or is held back. -/
def State.recordDa (s : State) (w : RecordReq) : Arbiter :=
  if s.holdsBack then { s.da with heldSealWriter := s.da.heldSealWriter ++ [w] }
  else { s.da with sealWriter := s.da.sealWriter ++ [w] }

theorem State.makeRecord_eq (s : State) (w : RecordReq) : s.makeRecord w = { s with da := s.recordDa w } := by
  unfold State.makeRecord State.recordDa
  split <;> rfl

theorem State.recordDa_ready {s : State} (h : s.holdsBack = false) (w : RecordReq) :
    s.recordDa w = { s.da with sealWriter := s.da.sealWriter ++ [w] } := if_neg (by simp [h])

theorem State.recordDa_held {s : State} (h : s.holdsBack = true) (w : RecordReq) :
    s.recordDa w = { s.da with heldSealWriter := s.da.heldSealWriter ++ [w] } := if_pos h

theorem State.recordDa_frame (s : State) (w : RecordReq) : s.recordDa w =
    { s.da with sealWriter := (s.recordDa w).sealWriter, heldSealWriter := (s.recordDa w).heldSealWriter } := by
  unfold State.recordDa
  split <;> rfl

/-- A record of one line never needs a PAD. -/
theorem State.padLines_one (s : State) : s.padLines 1 = 0 := by
  unfold State.padLines
  split <;> omega

theorem State.placeLine_one (s : State) : s.placeLine 1 = s.jw.head := if_pos s.padLines_one

theorem State.headAfter_one (s : State) : s.headAfter 1 = (s.jw.head + 1) % s.ringLines := by
  rw [State.headAfter, State.placeLine_one]

theorem State.recordRoom_one (s : State) : s.recordRoom 1 = true ↔ 1 ≤ s.free := by
  rw [State.recordRoom, State.padLines_one, Nat.zero_add, decide_eq_true_eq]

/-- The state in which the OPEN record of epoch `e` is placed, before the thresholds are evaluated. -/
def State.opening (s : State) (e : EpochNo) : State :=
  { s with
    jw := { s.jw with head := (s.jw.head + 1) % s.ringLines }
    ec := { s.ec with table := s.ec.table.map (fun x => if x.number == e then { x with openLine := some s.jw.head } else x) }
    da := s.recordDa (.openRec s.jw.head e (s.openBackLink e))
    iq := { s.iq with slots := s.iq.slots.map (fun x => if x.epoch == some e then x.reexamined else x) } }

theorem State.placeOpen_eq (s : State) (e : EpochNo) : s.placeOpen e = (s.opening e).evaluate := by
  unfold State.placeOpen State.opening
  rw [State.makeRecord_eq, ← State.headAfter_one]
  rfl

theorem State.placeOpen_ec (s : State) (e : EpochNo) : (s.placeOpen e).ec =
    { s.ec with table := s.ec.table.map (fun x => if x.number == e then { x with openLine := some s.jw.head } else x) } := by
  rw [State.placeOpen_eq, State.evaluate_ec]
  rfl

theorem State.placeOpen_head (s : State) (e : EpochNo) : (s.placeOpen e).jw.head = (s.jw.head + 1) % s.ringLines := by
  rw [State.placeOpen_eq, State.evaluate_head]
  rfl

theorem State.placeOpen_tail (s : State) (e : EpochNo) : (s.placeOpen e).jw.tail = s.jw.tail := by
  rw [State.placeOpen_eq, State.evaluate_tail]
  rfl

theorem State.placeOpen_da (s : State) (e : EpochNo) :
    (s.placeOpen e).da = s.recordDa (.openRec s.jw.head e (s.openBackLink e)) := by
  rw [State.placeOpen_eq, (State.evaluate_calm _).da]
  rfl

/-- What stays as it was when an OPEN record is placed, besides the table, the ring, the DA and the marks. -/
theorem State.placeOpen_frame (s : State) (e : EpochNo) : (s.placeOpen e).wu = s.wu ∧ (s.placeOpen e).cu = s.cu ∧
    (s.placeOpen e).su = s.su ∧ (s.placeOpen e).re = s.re ∧ (s.placeOpen e).uport = s.uport ∧
    (s.placeOpen e).jw.sealJob = s.jw.sealJob := by
  have h := State.evaluate_calm (s.opening e)
  rw [State.placeOpen_eq]
  exact ⟨h.wu, h.cu, h.su, h.re, h.uport, by rw [h.jw]; rfl⟩

theorem State.placeOpen_levels (s : State) (e : EpochNo) :
    ∃ evs, (s.placeOpen e).eq = s.eq.raiseAll evs ∧ ∀ ev ∈ evs, ev.Level := by
  rw [State.placeOpen_eq]
  exact (s.opening e).evaluate_levels

theorem State.reserveOpen_room {s : State} (h : 1 ≤ s.free) (e : EpochNo) : s.reserveOpen e = s.placeOpen e :=
  if_pos ((s.recordRoom_one).2 h)

/-! ## ENABLE (R81) -/

/-- The state ENABLE leaves after its third step, with the banks reset. -/
def State.enabling (s : State) (start : EpochNo) : State :=
  (((((s.clearTable.addEpoch start).setBridge .journaling).zeroRing).setPressure .normal none).clearTouched).resetBanks

theorem State.startJournaling_eq (s : State) (start : EpochNo) : s.startJournaling start =
    (((s.enabling start).applyFill (some start)).reserveOpen start).startTimer.raise
      { code := .journalingEnabled, epoch := some start,
        arg := BitVec.ofNat 32 (((s.enabling start).applyFill (some start)).reserveOpen start).startTimer.ringLines } := rfl

/-- What the first steps of ENABLE leave. -/
structure State.Enabling (s t : State) (start : EpochNo) : Prop where
  ec : t.ec = { s.ec with bridge := .journaling, table := [Entry.fresh start] }
  jw : t.jw = { s.jw with head := 0, tail := 0, pressure := .normal, reason := none }
  wu : t.wu = s.wu
  da : t.da = s.da
  re : t.re = s.re
  eq : t.eq = s.eq
  cu : t.cu = { s.cu with touched := [] }
  su : t.su = { s.su with openBank := Bank.reset, sealingBank := Bank.reset }

theorem State.enabling_spec (s : State) (start : EpochNo) : s.Enabling (s.enabling start) start := by
  have hcalm := State.setPressure_calm (((s.clearTable.addEpoch start).setBridge .journaling).zeroRing) .normal none
  refine ⟨?_, ?_, hcalm.wu, hcalm.da, hcalm.re, State.setPressure_eq _ _ _, ?_, ?_⟩
  · unfold State.enabling
    simp only [State.resetBanks_ec, State.clearTouched_ec, State.setPressure_ec]
    rfl
  · unfold State.enabling
    simp only [State.resetBanks_jw, State.clearTouched_jw, State.setPressure_jw]
    rfl
  · show { (State.setPressure _ _ _).cu with touched := [] } = _
    rw [hcalm.cu]
    rfl
  · show { (State.setPressure _ _ _).su with openBank := Bank.reset, sealingBank := Bank.reset } = _
    rw [hcalm.su]
    rfl

/-- An empty ring at line 0, with a region of at least 16 pages. -/
structure State.FreshRing (s : State) (pages : Nat) : Prop where
  lines    : s.ringLines = pages * 256
  many     : 16 ≤ pages
  head     : s.jw.head = 0
  tail     : s.jw.tail = 0
  pressure : s.jw.pressure = .normal

theorem State.FreshRing.free {s : State} {n : Nat} (h : s.FreshRing n) : 1 ≤ s.free := by
  have := h.many
  rw [State.free, State.used, State.lineDist, h.lines, h.head, h.tail, if_neg (by omega)]
  simp only [Nat.zero_add, Nat.sub_zero, Nat.mod_self]
  omega

/-- In a fresh ring the OPEN record leaves pressure NORMAL, without an event. -/
theorem State.FreshRing.evaluate_opening {s : State} {n : Nat} (h : s.FreshRing n) (e : EpochNo) :
    (s.placeOpen e).jw.pressure = .normal ∧ (s.placeOpen e).jw.reason = none ∧ (s.placeOpen e).eq = s.eq := by
  have hm := h.many
  have hp : (s.opening e).jw.pressure = .normal := h.pressure
  have hl : (s.opening e).ringLines = n * 256 := h.lines
  have hu : (s.opening e).used = 1 := by
    have hh : (s.opening e).jw.head = 1 := by
      show (s.jw.head + 1) % s.ringLines = 1
      rw [h.head, h.lines, Nat.mod_eq_of_lt (by omega)]
    have ht : (s.opening e).jw.tail = 0 := h.tail
    rw [State.used, State.lineDist, hl, hh, ht, if_neg (by omega), Nat.sub_zero, Nat.add_mod_right, Nat.mod_eq_of_lt (by omega)]
  have hev : (s.opening e).evaluated = .normal := by
    unfold State.evaluated State.percent
    rw [hp, hu, hl]
    dsimp only
    rw [if_neg (by omega), if_neg (by omega)]
  have hE : (s.opening e).Evaluates := ⟨by rw [hp]; decide, by rw [hl]; omega⟩
  rw [State.placeOpen_eq]
  refine ⟨(State.evaluate_pressure hE).1.trans hev, (State.evaluate_pressure hE).2, ?_⟩
  rw [State.evaluate_events hE, hp, hev]
  rfl

theorem State.SameMarks.sameSlots {s t : State} (h : s.SameMarks t) : s.SameSlots t := fun q => slot?_reexamined h.1 q

/-- Settles O41: ENABLE's steps in turn; in a fresh ring its OPEN record finds room and raises nothing. -/
theorem enable : Obligations.Enable := by
  unfold Obligations.Enable
  refine fun s start hl => ⟨fun g hb hg hpages => ?starts, fun hb hg => ?_, fun hb => ?_, fun hb => ?_⟩
  case starts =>
    have hrow : exec (.enable start) s = .next ((s.begin.startJournaling start).withAnswer
        (.answer { args := 4, status := .done, response := [] })) := by
      rw [(answers_enable start).listens hl]
      have hen : s.begin.enable start = Reply.done (s.begin.startJournaling start) [] := by
        unfold State.enable
        rw [State.begin_ec, State.begin_jw, hb, hg]
        rfl
      rw [hen, Reply.done_fst, Reply.done_status, Reply.done_response]
    have hmarks := s.begin.startJournaling_sameMarks start
    have hwithin := s.begin.startJournaling_within start
    obtain ⟨hen_ec, hen_jw, hen_wu, hen_da, hen_re, hen_eq, hen_cu, hen_su⟩ := s.begin.enabling_spec start
    rw [State.startJournaling_eq] at hrow hmarks hwithin
    generalize hv : (s.begin.enabling start).applyFill (some start) = v at hrow hmarks hwithin
    have hfill : v = { s.begin.enabling start with wu := v.wu, su := v.su, eq := v.eq } := by
      rw [← hv]; exact State.applyFill_eq _ _
    have hvjw : v.jw = { s.jw with head := 0, tail := 0, pressure := .normal, reason := none } := by
      rw [hfill]; exact hen_jw
    have hvec : v.ec = { s.ec with bridge := .journaling, table := [Entry.fresh start] } := by rw [hfill]; exact hen_ec
    have hvda : v.da = s.da := by rw [hfill]; exact hen_da
    have hring : v.FreshRing g.pages := by
      refine ⟨?_, hpages, by rw [hvjw], by rw [hvjw], by rw [hvjw]⟩
      rw [State.ringLines, hvjw]
      show (match s.jw.region with | none => 0 | some g => g.pages * 256) = _
      rw [hg]
    have hopen : v.reserveOpen start = v.placeOpen start := State.reserveOpen_room hring.free start
    obtain ⟨hp, hr, hq⟩ := hring.evaluate_opening start
    obtain ⟨hfwu, hfcu, hfsu, hfre, -, -⟩ := v.placeOpen_frame start
    have hpec := v.placeOpen_ec start
    have hpda := v.placeOpen_da start
    have hphead := v.placeOpen_head start
    have hptail := v.placeOpen_tail start
    have hpjw := (State.evaluate_jw (v.opening start)).symm
    rw [← State.placeOpen_eq] at hpjw
    have hvhead : v.jw.head = 0 := by rw [hvjw]
    have hlink : v.openBackLink start = none := by
      rw [State.openBackLink, hvec]
      simp [Entry.fresh]
    rw [hopen] at hrow hmarks hwithin
    rw [hvhead, hlink] at hpda
    generalize hw : v.placeOpen start = w at *
    have hwjw : w.jw = { s.jw with head := 1, tail := 0, pressure := .normal, reason := none } := by
      have hhead : (v.opening start).jw.head = 1 := by
        show (v.jw.head + 1) % v.ringLines = 1
        rw [hvhead, hring.lines, Nat.mod_eq_of_lt (by omega)]
      rw [← hpjw, hp, hr]
      show ({ v.jw with head := (v.opening start).jw.head, pressure := .normal, reason := none } : JournalWriter) = _
      rw [hhead, hvjw]
    have hlines : w.startTimer.ringLines = g.pages * 256 := by
      show w.ringLines = _
      rw [State.ringLines, hwjw]
      show (match s.jw.region with | none => 0 | some g => g.pages * 256) = _
      rw [hg]
    have hweq : w.eq = ((s.begin.enabling start).applyFill (some start)).eq := by rw [hq, hv]
    rw [hlines] at hrow hmarks hwithin
    refine ⟨_, hrow, ?_, ?_, ?_, ?_, fun ha => ?_, fun hh => ?_, fun hh => ?_, fun ha => ?_, fun ha => ?_, ?_, ?_, ?_⟩
    · show (State.startTimer w).ec = _
      show { w.ec with timer := w.fullTimer } = _
      rw [State.fullTimer, hpec, hvec, hvhead]
      simp only [List.map_cons, List.map_nil, Entry.fresh, beq_self_eq_true, if_true]
      rfl
    · exact hwjw
    · show w.cu = _
      rw [hfcu, hfill]
      exact hen_cu
    · refine State.applyFill_spec hen_wu (congrArg (·.quiet) hen_su) (congrArg (·.openBank) hen_su) ?_ ?_
      · exact hfwu.trans (by rw [hv])
      · exact hfsu.trans (by rw [hv])
    · show w.su.sealingBank = _
      rw [hfsu, ← hv, State.applyFill_sealing_clear (by rw [hen_wu]; exact ha), hen_su]
    · show w.da = _
      have hv' : v.holdsBack = false := by rw [State.holdsBack, State.anyPort, hvda]; exact hh
      rw [hpda, State.recordDa_ready hv', hvda]
    · show w.da = _
      have hv' : v.holdsBack = true := by rw [State.holdsBack, State.anyPort, hvda]; exact hh
      rw [hpda, State.recordDa_held hv', hvda]
    · show w.eq.raise _ = _
      rw [hweq, State.applyFill_events_clear (by rw [hen_wu]; exact ha), hen_eq]
      rfl
    · refine ⟨(s.begin.enabling start).changedSet.setWidth 32, ?_⟩
      show w.eq.raise _ = _
      rw [hweq, State.applyFill_events_armed (by rw [hen_wu]; exact ha), hen_eq]
      rfl
    · exact hmarks.sameSlots
    · show w.re = _
      rw [hfre, hfill]
      exact hen_re
    · exact .of_keeps hwithin.keeps hwithin.events
  · refine (answers_enable start).refuses hl ?_
    unfold State.enable
    rw [State.begin_ec, State.begin_jw, hb, hg]
    rfl
  · refine (answers_enable start).refuses hl ?_
    unfold State.enable
    rw [State.begin_ec]
    obtain hb | hb := hb <;> rw [hb]
  · refine (answers_enable start).refuses hl ?_
    unfold State.enable
    rw [State.begin_ec]
    obtain hb | hb := hb <;> rw [hb]

/-! ## RELEASE (R86, R134, R159) -/

theorem State.normalize_ec (s : State) : s.normalize.ec = s.ec := by
  unfold State.normalize
  split
  · exact State.setPressure_ec s .normal none
  · rw [State.setPressure_ec, State.raiseCodes_eq]

theorem State.normalize_jw (s : State) : s.normalize.jw = { s.jw with pressure := .normal, reason := none } := by
  unfold State.normalize
  split
  · exact State.setPressure_jw s .normal none
  · rw [State.setPressure_jw, State.raiseCodes_eq]

/-- The events of a way into PASSTHROUGH with an empty ring and no OPEN epoch (R86, R124, R134). -/
def leftEvents (p : Pressure) : List Event :=
  match p with
  | .normal => []
  | .warning => [{ code := .warningLeft }]
  | .constrained => [{ code := .constrainedLeft }, { code := .warningLeft }]
  | .suspended => [{ code := .suspendedLeft }]

theorem State.normalize_events {s : State} (ho : s.openEpoch? = none) (hu : s.used = 0) :
    s.normalize.eq = s.eq.raiseAll (leftEvents s.jw.pressure) := by
  unfold State.normalize
  split
  · rename_i hp
    rw [hp]
    show (State.setPressure _ _ _).eq.raise _ = _
    rw [State.setPressure_eq]
    rfl
  · rename_i hp
    rw [State.setPressure_eq, State.raiseCodes_eq, State.codeEvents, ho, hu]
    cases h : s.jw.pressure
    case suspended => exact absurd h hp
    all_goals rfl

theorem State.used_empty {s : State} (h : s.jw.tail = s.jw.head) : s.used = 0 := by
  unfold State.used
  split
  · rfl
  · rw [State.lineDist, h, Nat.add_sub_cancel_left, Nat.mod_self]

theorem State.openEpoch?_of_empty {s : State} (h : s.ec.table = []) : s.openEpoch? = none := by
  rw [State.openEpoch?, State.openEntry?, h]
  rfl

/-- Settles O48: RELEASE empties the table and the ring and normalizes pressure, in HALTED alone. -/
theorem release : Obligations.Release := by
  unfold Obligations.Release
  refine fun s hl => ⟨fun hb => ?released, fun hb => answers_release.refuses hl (if_neg hb)⟩
  case released =>
    have hrow : exec .release s = .next (s.begin.releaseJournal.withAnswer (.answer answerDone)) := by
      rw [answers_release.listens hl, if_pos (show s.begin.ec.bridge = .halted from hb), Reply.done_fst, Reply.done_status,
        Reply.done_response]
      rfl
    have hcalm := State.normalize_calm s.begin.clearTable.emptyRing
    refine ⟨_, hrow, ?_, ?_, ?_, ?_, ?_, ?_, ?_, ?_, ?_, ?_⟩
    · show { s.begin.clearTable.emptyRing.normalize.ec with bridge := .passthrough } = _
      rw [State.normalize_ec]
      rfl
    · show s.begin.clearTable.emptyRing.normalize.jw = _
      rw [State.normalize_jw]
      rfl
    · show { s.begin.clearTable.emptyRing.normalize.su with openBank := Bank.reset, sealingBank := Bank.reset } = _
      rw [hcalm.su]
      rfl
    · show { s.begin.clearTable.emptyRing.normalize.re with reach := none, discarded := 0 } = _
      rw [hcalm.re]
      rfl
    · show s.begin.clearTable.emptyRing.normalize.eq.raise _ = _
      rw [State.normalize_events (State.openEpoch?_of_empty rfl) (State.used_empty rfl)]
      show (s.eq.raiseAll (leftEvents s.jw.pressure)).raise _ = _
      cases s.jw.pressure <;> rfl
    · exact hcalm.sameSlots
    · exact hcalm.cu
    · exact hcalm.wu
    · exact hcalm.da
    · exact .of_keeps s.begin.releaseJournal_within.keeps s.begin.releaseJournal_within.events

end Sys2Proof.Machine

/-! The acknowledgments of forwarded requests, of the walk's record reads and of captures. -/
namespace Sys2Proof.Machine

/-! ## Propositions for tests of the model -/

theorem dropSlot_fun (q : SlotIx) : (fun y : Slot => y.ix != q) = fun y => decide (y.ix ≠ q) := by
  funext y
  rw [Bool.eq_iff_iff, bne_iff_ne, decide_eq_true_iff]

theorem number_fun (e : EpochNo) (f : Entry → Entry) :
    (fun y : Entry => if y.number == e then f y else y) = fun y => if y.number = e then f y else y := by
  funext y
  simp only [beq_iff_eq]

/-! ## FORWARDED_ACK (R9, R108) -/

theorem exec_forwardedAck {s : State} {p : PortIx} {k : PortSlot} {q : SlotIx} {x : Slot} (hk : s.da.slots[p] = some k)
    (hq : k.kind.forwardOwner? = some q) (hx : s.slot? q = some x) (res : AckResult) :
    exec (.forwardedAck p res) s = .next (s.begin.ackForward p x res).settle := by
  have hb : ((s.begin.portSlot? p).bind (fun k => k.kind.forwardOwner?)).bind s.begin.slot? = some x := by
    have hk' : s.begin.portSlot? p = some k := hk
    rw [hk', Option.bind_some, hq, Option.bind_some]
    exact hx
  show execForwardedAck p res s = _
  unfold execForwardedAck
  dsimp only
  rw [hb]

theorem State.feed_none {s : State} {x : Slot} (h : x.epoch = none ∨ x.win = none) : s.feed x = s := by
  unfold State.feed
  obtain h | h := h <;> rw [h]
  · cases x.isWrite <;> rfl
  · cases x.isWrite <;> cases x.epoch <;> rfl

theorem State.feed_assigned {s : State} {x : Slot} {e : EpochNo} {i : WinIx} (hw : x.req.dir = .write)
    (he : x.epoch = some e) (hi : x.win = some i) : s.feed x =
      (s.setBank e (fun b => b.update i (BankEntry.feed x.req))).setEntry e
        (fun t => { t with written := setBit t.written i }) := by
  have hwrite : x.isWrite = true := by rw [Slot.isWrite, hw]; rfl
  simp only [State.feed, hwrite, he, hi]

/-- The state in which the master is answered and the D-port slot is FREE. -/
def State.answeredFrom (s : State) (p : PortIx) (x : Slot) (status : Status) (data : List Byte) : State :=
  { s with
    da := { s.da with slots := s.da.slots.set p none }
    iq := { s.iq with slots := s.iq.slots.filter (fun y => decide (y.ix ≠ x.ix)) }
    uport := [{ master := x.req.master, tag := x.req.tag, status := status, data := data }]
    dport := []
    mdo := .undriven }

theorem State.answer_freePort (s : State) (p : PortIx) (x : Slot) (status : Status) (data : List Byte) :
    (s.begin.freePort p).answer x status data = s.answeredFrom p x status data := by
  unfold State.answer State.dropSlot State.answeredFrom
  rw [dropSlot_fun]
  rfl

theorem State.ackForward_read {s : State} {p : PortIx} {x : Slot} (h : x.req.dir = .read) (data : List Byte) :
    s.begin.ackForward p x (.ok data) = s.answeredFrom p x .okay data := by
  rw [← State.answer_freePort]
  unfold State.ackForward
  rw [h]

theorem State.ackForward_write {s : State} {p : PortIx} {x : Slot} (h : x.req.dir = .write) (data : List Byte) :
    s.begin.ackForward p x (.ok data) = ((s.begin.freePort p).feed x).answer x .okay [] := by
  unfold State.ackForward
  rw [h]

theorem State.ackForward_error (s : State) (p : PortIx) (x : Slot) :
    s.begin.ackForward p x .error = (s.answeredFrom p x .downstreamError []).raise
      { code := .downstreamError, win := x.win, master := some x.req.master, epoch := x.epoch, arg := x.granule } := by
  rw [← State.answer_freePort]
  unfold State.ackForward
  rfl

/-- What a feed does besides the bank: the entry's written set. -/
theorem State.answer_setEntry (s : State) (p : PortIx) (x : Slot) (e : EpochNo) (f : Entry → Entry) (u : SignatureUnit) :
    (State.setEntry { s.begin.freePort p with su := u } e f).answer x .okay [] =
      { s.answeredFrom p x .okay [] with
        su := u, ec := { s.ec with table := s.ec.table.map (fun y => if y.number = e then f y else y) } } := by
  rw [← number_fun, ← State.answer_freePort]
  rfl

theorem State.setBank_open {s : State} {e : EpochNo} (h : s.su.openBank.epoch = some e) (f : Bank → Bank) :
    s.setBank e f = { s with su := { s.su with openBank := f s.su.openBank } } := if_pos h

theorem State.setBank_sealing {s : State} {e : EpochNo} (h : s.su.openBank.epoch ≠ some e)
    (h' : s.su.sealingBank.epoch = some e) (f : Bank → Bank) :
    s.setBank e f = { s with su := { s.su with sealingBank := f s.su.sealingBank } } := (if_neg h).trans (if_pos h')

theorem State.setBank_none {s : State} {e : EpochNo} (h : s.su.openBank.epoch ≠ some e)
    (h' : s.su.sealingBank.epoch ≠ some e) (f : Bank → Bank) : s.setBank e f = s := (if_neg h).trans (if_neg h')

/-- Settles O27: a READ gives its bytes back, a WRITE feeds the bank of its epoch, an ERROR is reported. -/
theorem forwardedAckAnswers : Obligations.ForwardedAckAnswers := by
  unfold Obligations.ForwardedAckAnswers
  intro s p k q x hk hq hx left fed joined
  obtain rfl : x.ix = q := (State.mem_of_slot? hx).2
  have hrow := exec_forwardedAck hk hq hx
  refine ⟨fun data hd => ?read, fun data hd hn => ?unfed, fun data e i hd he hi ho => ?openFeed,
    fun data e i hd he hi ho hs => ?sealingFeed, fun data e i hd he hi ho hs => ?noBank, ?error⟩
  case read => rw [hrow, State.ackForward_read hd]; rfl
  case unfed => rw [hrow, State.ackForward_write hd, State.feed_none hn, State.answer_freePort]; rfl
  case openFeed =>
    rw [hrow, State.ackForward_write hd, State.feed_assigned hd he hi,
      State.setBank_open (s := s.begin.freePort p) ho, State.answer_setEntry]
    rfl
  case sealingFeed =>
    rw [hrow, State.ackForward_write hd, State.feed_assigned hd he hi,
      State.setBank_sealing (s := s.begin.freePort p) ho hs, State.answer_setEntry]
    rfl
  case noBank =>
    rw [hrow, State.ackForward_write hd, State.feed_assigned hd he hi,
      State.setBank_none (s := s.begin.freePort p) ho hs]
    refine congrArg (fun u => Host.Outcome.next (State.settle u)) ?_
    exact State.answer_setEntry s p x e _ s.su
  case error =>
    rw [hrow, State.ackForward_error]
    rfl

/-! ## RECORD_READ_ACK and a failed restore (R149, R150, R156) -/

theorem exec_recordReadAck {s : State} {p : PortIx} (h : s.Outstanding p .recordRead) (res : AckResult) :
    exec (.recordReadAck p res) s = .next ((s.begin.freePort p).ackRecord res).settle :=
  (execRecordReadAck_eq p res s).trans (congrArg Host.Outcome.next
    (State.ackRow_outstanding (s := s.begin) (own := PortKind.recordRead.is) (a := ()) h rfl rfl))

theorem exec_restoreWriteAck {s : State} {p : PortIx} (h : s.Outstanding p .restoreWrite) (res : AckResult) :
    exec (.restoreWriteAck p res) s = .next ((s.begin.freePort p).ackRestore res).settle :=
  (execRestoreWriteAck_eq p res s).trans (congrArg Host.Outcome.next
    (State.ackRow_outstanding (s := s.begin) (own := PortKind.restoreWrite.is) (a := ()) h rfl rfl))

/-- The header check in terms of the bytes (R150). -/
theorem State.headerOk_iff {s : State} {y : Entry} {o : Nat} (ho : y.openLine = some o) (l : Nat) (data : List Byte) :
    s.headerOk y l data = true ↔ byteAt data 0 = 0xA2#8 ∧ byteAt data 1 = 5#8 ∧ fieldAt data 4 = y.number ∧
      (fieldAt data 8 = 0xFFFFFFFF#32 ∨ ((fieldAt data 8).toNat < s.ringLines ∧
        ((fieldAt data 8).toNat + s.ringLines - o) % s.ringLines < (l + s.ringLines - o) % s.ringLines)) := by
  unfold State.headerOk backLinkOf
  rw [ho]
  by_cases hb : fieldAt data 8 = Config.noLine
  · rw [if_pos hb]
    simp only [Bool.and_true, Bool.and_eq_true, beq_iff_eq, and_assoc, hb, true_or, and_true]
  · rw [if_neg hb]
    simp only [Bool.and_eq_true, beq_iff_eq, decide_eq_true_eq, and_assoc]
    rw [or_iff_right (show ¬ fieldAt data 8 = 0xFFFFFFFF#32 from hb)]
    rfl

theorem State.recordOk_iff {s : State} {e : EpochNo} {l : Nat} {y : Entry} (he : s.re.walkEpoch = some e)
    (hl : s.re.walkLine = some l) (hy : s.entry? e = some y) (data : List Byte) :
    s.recordOk data = s.headerOk y l data := by
  unfold State.recordOk
  rw [he, hl, Option.bind_some, hy]

/-- A failed walk in full (R156). -/
theorem State.failWalk_eq (s : State) (why : WalkFailure) : s.failWalk why =
    { s with
      ec := { s.ec with bridge := .halted, timer := none }
      re := { s.re.ended with applied := 0, failures := satInc Config.count8Max s.re.failures }
      iq := { s.iq with slots := s.iq.slots.map Slot.haltHeld }
      eq := s.eq.raise { code := .rollbackFailed, epoch := s.re.walkEpoch,
                         arg := packLine (s.re.walkLine.getD 0) why.code } } := rfl

theorem haltHeld_fun : Slot.haltHeld = fun x : Slot => if x.state = .held then
    { x with state := .waiting, holdEntry := none, outcome := some .halted } else x := by
  funext x
  unfold Slot.haltHeld Slot.unheld
  split <;> rfl

/-- Settles O46: the header check decides between the restore and the failure of the walk. -/
theorem recordReadAck : Obligations.RecordReadAck := by
  unfold Obligations.RecordReadAck
  intro s p e l o y he hl hy ho passes failed
  have hok (data : List Byte) : (s.begin.freePort p).recordOk data = true ↔ passes data := by
    rw [State.recordOk_iff (s := s.begin.freePort p) he hl hy, State.headerOk_iff ho, State.entry?_number hy]
    rfl
  have hfail (why : WalkFailure) : (s.begin.freePort p).failWalk why = failed (BitVec.ofNat 4 why.code) := by
    have he' : (s.begin.freePort p).re.walkEpoch = some e := he
    have hl' : (s.begin.freePort p).re.walkLine = some l := hl
    rw [State.failWalk_eq, haltHeld_fun, he', hl']
    rfl
  refine ⟨fun data hp hd => ?passed, fun data hp hd => ?corrupt, fun hp => ?readError, fun hp => ?writeError⟩
  case passed =>
    rw [exec_recordReadAck hp]
    unfold State.ackRecord
    dsimp only
    rw [if_pos ((hok data).2 hd)]
    rfl
  case corrupt =>
    rw [exec_recordReadAck hp]
    unfold State.ackRecord
    dsimp only
    rw [if_neg (mt (hok data).1 hd), hfail]
    rfl
  case readError =>
    rw [exec_recordReadAck hp]
    exact congrArg (fun u => Host.Outcome.next (State.settle u)) (hfail .read)
  case writeError =>
    rw [exec_restoreWriteAck hp]
    exact congrArg (fun u => Host.Outcome.next (State.settle u)) (hfail .write)

end Sys2Proof.Machine

/-! The end of a capture, and the rows that bring it: acknowledgments, media faults, refused reservations. -/
namespace Sys2Proof.Machine

/-! ## Slots found after a change -/

theorem find?_map_ix {f : Slot → Slot} (hf : ∀ y, (f y).ix = y.ix) (l : List Slot) (q : SlotIx) :
    (l.map f).find? (fun x => x.ix == q) = (l.find? (fun x => x.ix == q)).map f := by
  rw [List.find?_map]
  congr 2
  funext y
  simp only [Function.comp, hf]

theorem State.slot?_setSlot_same {s : State} {q : SlotIx} {x : Slot} {f : Slot → Slot} (hf : ∀ y, (f y).ix = y.ix)
    (h : s.slot? q = some x) : (s.setSlot q f).slot? q = some (f x) := by
  have hx := (State.mem_of_slot? h).2
  show (s.iq.slots.map (fun y => if y.ix == q then f y else y)).find? _ = _
  rw [find?_map_ix (fun z => by split <;> simp [hf])]
  have h' : s.iq.slots.find? (fun y => y.ix == q) = some x := h
  rw [h', Option.map_some, if_pos (by simpa using hx)]

theorem State.slot?_setSlot_other {s : State} {q r : SlotIx} (hne : r ≠ q) {f : Slot → Slot} (hf : ∀ y, (f y).ix = y.ix) :
    (s.setSlot q f).slot? r = s.slot? r := by
  show (s.iq.slots.map (fun y => if y.ix == q then f y else y)).find? _ = s.iq.slots.find? _
  rw [find?_map_ix (fun z => by split <;> simp [hf])]
  cases h : s.iq.slots.find? (fun x => x.ix == r) with
  | none => rfl
  | some y =>
    have hy : y.ix = r := (State.mem_of_slot? (s := s) h).2
    rw [Option.map_some, if_neg (by simpa [hy] using hne)]

/-! ## The end of a capture (R10, R72) -/

/-- The record of a write whose capture has ended, tripped or to be asked for. -/
def Slot.proceeded (x : Slot) (tripped : Bool) : Slot :=
  if tripped then { x with state := .waiting, captureEnded := true, outcome := some .tripped, atPoint := false }
  else { x with state := .waiting, captureEnded := true }

/-- What the end of a capture does with the write `x` of slot `q`, which has no decided outcome. -/
structure State.EndsCapture (v u : State) (q : SlotIx) (x : Slot) : Prop where
  slot   : u.slot? q = some (x.proceeded (v.tripped x.win))
  others : ∀ r, r ≠ q → u.slot? r = v.slot? r
  asks   : v.tripped x.win = false → q ∈ u.da.forward ∧ u.eq = v.eq
  trips  : v.tripped x.win = true → u.eq = v.eq.raise
             { code := .trippedWrite, win := x.win, master := some x.req.master, arg := pageArg x.req.addr }
  frame  : u = { v with
             iq := { v.iq with slots := u.iq.slots }
             cu := { v.cu with captures := v.cu.captures.filter (fun c => c.slot != q) }
             da := { v.da with forward := u.da.forward }
             eq := u.eq }

theorem State.endCapture_ends {v : State} {q : SlotIx} {x : Slot} (hx : v.slot? q = some x) (ho : x.outcome = none) :
    v.EndsCapture (v.endCapture q) q x := by
  obtain rfl : x.ix = q := (State.mem_of_slot? hx).2
  have hslot : (v.leaveCapture x.ix).slot? x.ix = some { x with state := .waiting, captureEnded := true } :=
    State.slot?_setSlot_same (s := v.dropCapture x.ix) (fun _ => rfl) hx
  have hother (r : SlotIx) (hr : r ≠ x.ix) : (v.leaveCapture x.ix).slot? r = v.slot? r :=
    State.slot?_setSlot_other (s := v.dropCapture x.ix) hr (fun _ => rfl)
  have hend : v.endCapture x.ix =
      (v.leaveCapture x.ix).proceed { x with state := .waiting, captureEnded := true } := by
    unfold State.endCapture
    have hslot' : ((v.dropCapture x.ix).setSlot x.ix (fun z => { z with state := .waiting, captureEnded := true })).slot? x.ix =
      some { x with state := .waiting, captureEnded := true } := hslot
    dsimp only
    rw [hslot']
    rfl
  have hproceed : v.endCapture x.ix =
      if v.tripped x.win then (v.leaveCapture x.ix).decideTripped { x with state := .waiting, captureEnded := true }
      else (v.leaveCapture x.ix).askForward x.ix := by
    rw [hend, State.proceed, if_neg (by simp [ho])]
    rfl
  cases ht : v.tripped x.win with
  | true =>
    rw [if_pos ht] at hproceed
    rw [hproceed]
    refine ⟨?_, fun r hr => ?_, fun h => absurd (ht.symm.trans h) (by decide), fun _ => rfl, ?_⟩
    · rw [ht]
      exact State.slot?_setSlot_same (f := fun y => { y with outcome := some .tripped, atPoint := false }) (fun _ => rfl) hslot
    · exact (State.slot?_setSlot_other (f := fun y => { y with outcome := some .tripped, atPoint := false }) hr
        (fun _ => rfl)).trans (hother r hr)
    · rfl
  | false =>
    rw [if_neg (by simp [ht])] at hproceed
    rw [hproceed]
    refine ⟨?_, fun r hr => ?_, fun _ => ⟨State.mem_askForward _ _, ?_⟩, fun h => absurd (ht.symm.trans h) (by decide), ?_⟩
    · rw [ht]
      refine Eq.trans ?_ hslot
      unfold State.askForward
      split <;> rfl
    · refine Eq.trans ?_ (hother r hr)
      unfold State.askForward
      split <;> rfl
    · unfold State.askForward
      split <;> rfl
    · unfold State.askForward
      split <;> rfl

theorem Slot.proceeded_key (x : Slot) (b : Bool) : (x.proceeded b).key = x.key := by cases b <;> rfl

/-- The write proceeds from a state whose slots are those of `s` but for marks. -/
theorem State.EndsCapture.proceeds {s v u : State} {q : SlotIx} {x y : Slot} (h : v.EndsCapture u q y) (hcu : v.cu = s.cu)
    (hs : s.SameOthers v q) (hwu : v.wu = s.wu) (hk : y.key = x.key) (he : y.epoch = x.epoch) (ho : y.outcome = none) :
    s.Proceeds u q x := by
  have hwin : y.win = x.win := congrArg (fun k => k.2.2.2.1) hk
  have htrip : v.tripped y.win = s.tripped x.win := by rw [hwin]; unfold State.tripped; rw [hwu]
  refine ⟨by rw [h.frame, hcu], fun r hr => by rw [h.others r hr]; exact hs r hr, _, h.slot, ?_, ?_, ?_, ?_, ?_, ?_⟩
  · rw [y.proceeded_key, hk]
  · rw [← he]; cases v.tripped y.win <;> rfl
  · cases v.tripped y.win <;> rfl
  · cases v.tripped y.win <;> rfl
  · intro ht
    rw [htrip, ht]
    rfl
  · intro ht
    refine ⟨?_, (h.asks (htrip.trans ht)).1⟩
    rw [htrip, ht]
    exact ho

theorem State.SameSlots.others {s u : State} (h : s.SameSlots u) (q : SlotIx) : s.SameOthers u q := fun r _ => h r

/-- A slot found behind marks is as it was but for its mark. -/
theorem State.SameSlots.find {s u : State} (h : s.SameSlots u) {q : SlotIx} {x : Slot} (hx : s.slot? q = some x) :
    ∃ y, u.slot? q = some y ∧ y.reexamined = x.reexamined := by
  have hq := h q
  rw [hx, Option.map_some] at hq
  obtain ⟨y, hy, hyx⟩ := Option.map_eq_some_iff.1 hq
  exact ⟨y, hy, hyx⟩

/-! ## OLD_GRANULE_READ_ACK and UNDO_WRITE_ACK (R70 to R72) -/

theorem exec_oldRead {s : State} {p : PortIx} {q : SlotIx} {c : Capture} (h : s.Outstanding p (.oldRead q))
    (hc : s.capture? q = some c) (res : AckResult) :
    exec (.oldGranuleReadAck p res) s = .next (s.begin.ackOldRead p c res).settle := by
  have hc' : s.begin.capture? q = some c := hc
  refine (execOldGranuleReadAck_eq p res s).trans (congrArg Host.Outcome.next
    (State.ackRow_outstanding (s := s.begin) (own := PortKind.oldReadOwner?) (a := q) h rfl ?_))
  rw [hc', Option.map_some]

theorem exec_undoWrite {s : State} {p : PortIx} {q : SlotIx} {c : Capture} (h : s.Outstanding p (.undoWrite q))
    (hc : s.capture? q = some c) (res : AckResult) :
    exec (.undoWriteAck p res) s = .next (s.begin.ackUndoWrite p c res).settle := by
  have hc' : s.begin.capture? q = some c := hc
  refine (execUndoWriteAck_eq p res s).trans (congrArg Host.Outcome.next
    (State.ackRow_outstanding (s := s.begin) (own := PortKind.undoWriteOwner?) (a := q) h rfl ?_))
  rw [hc', Option.map_some]

theorem capture_fun (q : SlotIx) (f : Capture → Capture) :
    (fun d : Capture => if d.slot == q then f d else d) = fun d => if d.slot = q then f d else d := by
  funext d
  simp only [beq_iff_eq]

/-- A request that is not a ring request leaves the flagged ring requests as they are. -/
theorem State.holdsBack_freePort_of {s : State} {p : PortIx} {k : PortSlot} (hk : s.da.slots[p] = some k)
    (hd : k.discard = false) : (s.freePort p).holdsBack = s.holdsBack := by
  rw [Bool.eq_iff_iff, State.holdsBack_freePort, State.holdsBack, State.anyPort_iff]
  refine exists₂_congr fun p' k' => ?_
  rw [Bool.and_eq_true]
  constructor
  · rintro ⟨-, h, hdk, hr⟩; exact ⟨h, hdk, hr⟩
  · rintro ⟨h, hdk, hr⟩
    refine ⟨fun hp => ?_, h, hdk, hr⟩
    rw [hp, hk] at h
    obtain rfl := Option.some.inj h
    rw [hd] at hdk
    exact absurd hdk (by decide)

theorem State.storeOld_ready {t : State} (h : t.holdsBack = false) (q : SlotIx) (data : List Byte) :
    t.storeOld q data = { t.setCapture q (fun d => { d with old := some data }) with
      da := { t.da with capture := t.da.capture ++ [.undoWrite q] } } :=
  if_neg (by
    have h' : (t.setCapture q (fun d => { d with old := some data })).holdsBack = false := h
    rw [h']; decide)

theorem State.storeOld_held {t : State} (h : t.holdsBack = true) (q : SlotIx) (data : List Byte) :
    t.storeOld q data = { (t.setCapture q (fun d => { d with old := some data })).setCapture q
        (fun d => { d with step := .waitingForRing }) with
      da := { t.da with heldCapture := t.da.heldCapture ++ [q] } } := if_pos h

/-- Settles O31: the old bytes are stored and the UNDO write made; its acknowledgment ends the capture. -/
theorem captureAcks : Obligations.CaptureAcks := by
  unfold Obligations.CaptureAcks
  refine ⟨fun s p q c data hp hc => ?oldRead, fun s p q c x data hp hc hx ho => ?undoWrite⟩
  case oldRead =>
    intro stored
    have hslot : c.slot = q := State.capture?_slot hc
    have hb : (s.begin.freePort p).holdsBack = s.holdsBack := State.holdsBack_freePort_of (s := s.begin) hp rfl
    have hrow : exec (.oldGranuleReadAck p (.ok data)) s = .next ((s.begin.freePort p).storeOld q data).settle := by
      rw [exec_oldRead hp hc, ← hslot]
      rfl
    refine ⟨fun hh => ?_, fun hh => ?_⟩
    · rw [hrow, State.storeOld_ready (hb.trans hh)]
      refine congrArg (fun u => Host.Outcome.next (State.settle u)) ?_
      unfold State.setCapture
      rw [capture_fun]
      rfl
    · rw [hrow, State.storeOld_held (hb.trans hh)]
      refine congrArg (fun u => Host.Outcome.next (State.settle u)) ?_
      unfold State.setCapture
      rw [capture_fun, capture_fun]
      dsimp only
      rw [List.map_map]
      have hcomp : ((fun d : Capture => if d.slot = q then { d with step := .waitingForRing } else d) ∘
          fun d => if d.slot = q then { d with old := some data } else d) =
          fun d => if d.slot = q then { d with old := some data, step := .waitingForRing } else d := by
        funext d
        simp only [Function.comp]
        by_cases hd : d.slot = q
        · simp only [hd, if_true]
        · simp only [hd, if_false]
      rw [hcomp]
      rfl
  case undoWrite =>
    have hslot : c.slot = q := State.capture?_slot hc
    let v : State := (s.begin.freePort p).setSlot q (fun z => { z with duty := false })
    have hrow : exec (.undoWriteAck p (.ok data)) s = .next (v.endCapture q).settle := by
      rw [exec_undoWrite hp hc]
      exact congrArg (fun r => Host.Outcome.next (State.settle (((s.begin.freePort p).setSlot r
        (fun z => { z with duty := false })).endCapture r))) hslot
    have hvx : v.slot? q = some { x with duty := false } :=
      State.slot?_setSlot_same (s := s.begin.freePort p) (fun _ => rfl) hx
    have hvo (r : SlotIx) (hr : r ≠ q) : v.slot? r = s.slot? r :=
      State.slot?_setSlot_other (s := s.begin.freePort p) hr (fun _ => rfl)
    have hend := State.endCapture_ends (x := { x with duty := false }) hvx ho
    refine ⟨_, hrow, hend.proceeds rfl (fun r hr => by rw [hvo r hr]) rfl rfl rfl ho, fun y hy => ?_,
      fun r hr => (hend.others r hr).trans (hvo r hr), ?_, ?_, ?_, ?_, ?_, ?_, ?_, fun ht => (hend.asks ht).2, fun ht => ?_⟩
    · rw [hend.slot] at hy
      obtain rfl := Option.some.inj hy
      cases v.tripped { x with duty := false }.win <;> exact ⟨rfl, rfl⟩
    · rw [hend.frame]; rfl
    · rw [hend.frame]; rfl
    · rw [hend.frame]; rfl
    · rw [hend.frame]; rfl
    · rw [hend.frame]; rfl
    · cases ht : v.tripped { x with duty := false }.win with
      | true =>
        have he := hend.trips ht
        exact ⟨by rw [hend.frame]; rfl, by rw [hend.frame]; rfl, by rw [hend.frame]; rfl, by rw [hend.frame]; rfl,
          by rw [hend.frame]; rfl, by rw [hend.frame]; rfl, by rw [he, EventQueue.raise_mask]; rfl,
          by rw [he, EventQueue.raise_time]; rfl, by rw [hend.frame]; rfl⟩
      | false =>
        have he := (hend.asks ht).2
        exact ⟨by rw [hend.frame]; rfl, by rw [hend.frame]; rfl, by rw [hend.frame]; rfl, by rw [hend.frame]; rfl,
          by rw [hend.frame]; rfl, by rw [hend.frame]; rfl, by rw [he]; rfl,
          by rw [he]; rfl, by rw [hend.frame]; rfl⟩
    · rw [hend.frame]; rfl
    · rw [← pageArg_eq]
      exact hend.trips ht

end Sys2Proof.Machine

namespace Sys2Proof.Machine

/-! ## Right after reset -/

theorem reset_tableOk : State.reset.TableOk where
  few := by decide
  shape := ⟨[], [], [], rfl, by simp, by simp, by simp, by simp, rfl, rfl, rfl⟩
  order := fun first rest h => by cases h
  depth := by decide
  pending := fun h => by cases h
  closing := fun h => by cases h
  phase := by decide
  target := fun h => absurd rfl h
  live := fun x h => by cases h
  capture := fun c h => by cases h
  sealOnce := ⟨by decide, fun e h => by cases h⟩
  sealJob := ⟨fun y h => (nomatch h), fun job h => nomatch h⟩
  walk := fun h => by cases h
  walking := ⟨by decide, fun h => absurd h (by decide)⟩
  walkPort := by decide
  quiet := fun _ => ⟨by decide, rfl⟩
  done := fun _ x h => by cases h

theorem reset_ringOk : State.reset.RingOk where
  region := ⟨fun g h => (nomatch h), fun h => absurd rfl h⟩
  inside := ⟨rfl, rfl⟩
  lines := fun y h => by cases h
  present := fun y h => by cases h
  extents := rfl
  used := by decide
  nonempty := fun y h => by cases h
  after := fun job h => by cases h
  reserve := fun y h => by cases h
  short := fun y h => by cases h

theorem reset_aheadOk : State.reset.AheadOk where
  duty := fun x h => by cases h
  sent := fun x h => by cases h
  ended := fun x h => by cases h

/-- Settles O58: right after reset the queue, the table and the ring are empty. -/
theorem okAtReset : Obligations.OkAtReset :=
  ⟨State.reset_ok, State.reset_headsDealt, ⟨reset_tableOk, reset_ringOk, reset_aheadOk⟩⟩

end Sys2Proof.Machine

/-! Marks and the entry to SUSPENDED, exactly (R88, R128, R130). -/
namespace Sys2Proof.Machine

/-! ## What marks leave of the table (R88) -/

/-- An entry but for its mark. -/
def Entry.unmarked (y : Entry) : Entry := { y with broken := none }

theorem Entry.unmarked_mark (y : Entry) (r : Reason) : (y.mark r).unmarked = y.unmarked := rfl

theorem Entry.unmarked_number {y z : Entry} (h : z.unmarked = y.unmarked) : z.number = y.number := by
  show z.unmarked.number = y.unmarked.number
  rw [h]

theorem Entry.unmarked_state {y z : Entry} (h : z.unmarked = y.unmarked) : z.state = y.state := by
  show z.unmarked.state = y.unmarked.state
  rw [h]

theorem State.SameButMarks.of_ec {s t : State} (h : t.ec = s.ec) : s.SameButMarks t := by
  rw [State.SameButMarks, h]

/-- An entry found by what is not its mark is found still. -/
theorem State.SameButMarks.find {s t : State} (h : s.SameButMarks t) (p : Entry → Bool) (hp : ∀ y, p y.unmarked = p y) :
    (t.ec.table.find? p).map Entry.unmarked = (s.ec.table.find? p).map Entry.unmarked := by
  have hcomp : p ∘ Entry.unmarked = p := funext hp
  have hfind (l : List Entry) : (l.map Entry.unmarked).find? p = (l.find? p).map Entry.unmarked := by
    rw [List.find?_map, hcomp]
  rw [← hfind, ← hfind]
  exact congrArg (List.find? p) h

theorem State.SameButMarks.entry? {s t : State} (h : s.SameButMarks t) {e : EpochNo} {y : Entry}
    (hy : s.entry? e = some y) : ∃ z, t.entry? e = some z ∧ z.unmarked = y.unmarked := by
  have hf := h.find (fun x => x.number == e) (fun _ => rfl)
  have hy' : s.ec.table.find? (fun x => x.number == e) = some y := hy
  rw [hy', Option.map_some] at hf
  exact Option.map_eq_some_iff.1 hf

theorem State.SameButMarks.openEpoch? {s t : State} (h : s.SameButMarks t) : t.openEpoch? = s.openEpoch? := by
  have hf := congrArg (Option.map (fun x : Entry => x.number)) (h.find (fun x => x.state == .opened) (fun _ => rfl))
  rw [Option.map_map, Option.map_map] at hf
  exact hf

theorem State.openEpoch?_of_table {s t : State} (h : t.ec.table = s.ec.table) : t.openEpoch? = s.openEpoch? :=
  State.SameButMarks.openEpoch? (by rw [State.SameButMarks, h])

/-- Where commits leave the table: its unsealed entries are found still. -/
theorem State.Commits.entry? {s t : State} {c : Cause} {old rest : List Entry} (h : s.Commits t c old rest)
    (ht : s.ec.table = old ++ rest) (hold : ∀ y ∈ old, y.state = .sealed) {e : EpochNo} {y : Entry}
    (hy : s.entry? e = some y) (hs : y.state ≠ .sealed) : t.entry? e = some y := by
  have hy' : (old ++ rest).find? (fun x => x.number == e) = some y := ht ▸ hy
  rw [State.entry?, h.ec]
  rw [List.find?_append] at hy'
  cases ho : old.find? (fun x => x.number == e) with
  | none => rwa [ho] at hy'
  | some z =>
    rw [ho] at hy'
    obtain rfl : z = y := Option.some.inj hy'
    exact absurd (hold z (List.mem_of_find?_eq_some ho)) hs

theorem State.Commits.openEntry? {s t : State} {c : Cause} {old rest : List Entry} (h : s.Commits t c old rest)
    (ht : s.ec.table = old ++ rest) (hold : ∀ y ∈ old, y.state = .sealed) : t.openEntry? = s.openEntry? := by
  have hnone : old.find? (fun x => x.state == .opened) = none := by
    refine List.find?_eq_none.2 (fun y hy => ?_)
    rw [hold y hy]
    decide
  rw [State.openEntry?, State.openEntry?, h.ec, ht, List.find?_append, hnone, Option.none_or]

theorem State.Commits.openEpoch? {s t : State} {c : Cause} {old rest : List Entry} (h : s.Commits t c old rest)
    (ht : s.ec.table = old ++ rest) (hold : ∀ y ∈ old, y.state = .sealed) : t.openEpoch? = s.openEpoch? := by
  rw [State.openEpoch?, State.openEpoch?, h.openEntry? ht hold]

/-- The tail that commits leave is the last end line. -/
theorem foldl_endLine {old : List Entry} {y : Entry} {l : Nat} (h : old.getLast? = some y) (hl : y.endLine = some l)
    (a : Nat) : old.foldl (fun a y => y.endLine.getD a) a = l := by
  obtain ⟨init, rfl⟩ := List.getLast?_eq_some_iff.1 h
  rw [List.foldl_append]
  show y.endLine.getD _ = l
  rw [hl]
  rfl

theorem foldl_endLine_unmarked {a b : List Entry} (h : a.map Entry.unmarked = b.map Entry.unmarked) (t : Nat) :
    a.foldl (fun t y => y.endLine.getD t) t = b.foldl (fun t y => y.endLine.getD t) t := by
  have hmap (l : List Entry) : l.foldl (fun t y => y.endLine.getD t) t =
      (l.map Entry.unmarked).foldl (fun t y => y.endLine.getD t) t := by
    rw [List.foldl_map]
    rfl
  rw [hmap a, hmap b, h]

theorem map_committed_unmarked {a b : List Entry} (h : a.map Entry.unmarked = b.map Entry.unmarked) (c : Cause) :
    a.map (Entry.committed · c) = b.map (Entry.committed · c) := by
  have hmap (l : List Entry) : l.map (Entry.committed · c) = (l.map Entry.unmarked).map (Entry.committed · c) := by
    rw [List.map_map]; rfl
  rw [hmap a, hmap b, h]

theorem forall_state_unmarked {a b : List Entry} (h : a.map Entry.unmarked = b.map Entry.unmarked)
    {P : EpochState → Prop} (hb : ∀ y ∈ b, P y.state) : ∀ y ∈ a, P y.state := by
  intro y hy
  obtain ⟨z, hz, hzy⟩ := List.mem_map.1 (h ▸ List.mem_map_of_mem hy : y.unmarked ∈ b.map Entry.unmarked)
  rw [← Entry.unmarked_state hzy]
  exact hb z hz

/-! ## Entry to SUSPENDED (R128) -/

/-- SUSPENDED with its reason set, and the OPEN epoch marked: the first two steps of R128. -/
def State.suspendMarked (m : State) (r : Reason) : State := (m.setPressure .suspended (some r)).markOpen r

theorem State.suspendMarked_jw (m : State) (r : Reason) :
    (m.suspendMarked r).jw = { m.jw with pressure := .suspended, reason := some r } := by
  rw [State.suspendMarked, State.markOpen_jw, State.setPressure_jw]

theorem State.suspendMarked_eq (m : State) (r : Reason) : (m.suspendMarked r).eq = m.eq := by
  rw [State.suspendMarked, State.markOpen_eq, State.setPressure_eq]

theorem State.suspendMarked_marks (m : State) (r : Reason) : m.SameButMarks (m.suspendMarked r) :=
  (State.SameButMarks.of_ec (m.setPressure_ec .suspended (some r))).trans (State.markOpen_marks _ r)

theorem State.suspendMarked_entry? {m : State} {e : EpochNo} {y : Entry} (hy : m.entry? e = some y) (r : Reason) :
    (m.suspendMarked r).entry? e = some (if m.openEpoch? = some e then y.mark r else y) := by
  have hec := m.setPressure_ec .suspended (some r)
  have hy' : (m.setPressure .suspended (some r)).entry? e = some y :=
    (State.entry?_of_table (by rw [hec]) e).trans hy
  have ho : (m.setPressure .suspended (some r)).openEpoch? = m.openEpoch? := State.openEpoch?_of_table (by rw [hec])
  unfold State.suspendMarked State.markOpen
  rw [ho]
  cases hm : m.openEpoch? with
  | none => exact hy'
  | some o =>
    by_cases heo : o = e
    · subst heo
      rw [if_pos rfl]
      exact State.markBroken_entry? hy' r
    · rw [if_neg (fun h => heo (Option.some.inj h))]
      show State.entry? _ e = _
      rw [State.markBroken_entry?_other (Ne.symm heo), hy']

/-- The state that enters SUSPENDED, with its event (R128). -/
theorem State.enterSuspended_of {m : State} (h : m.jw.pressure ≠ .suspended) (r : Reason) :
    m.enterSuspended r = ((m.suspendMarked r).commitSealed .suspend).raise
      { code := .suspendedEntered, epoch := ((m.suspendMarked r).commitSealed .suspend).openEpoch?,
        arg := ((m.suspendMarked r).commitSealed .suspend).suspendedArg r
          (m.ec.table.length - ((m.suspendMarked r).commitSealed .suspend).ec.table.length) m.jw.pressure } :=
  if_neg h

theorem State.enterSuspended_self {m : State} (h : m.jw.pressure = .suspended) (r : Reason) : m.enterSuspended r = m :=
  if_pos h

/-- What is unsealed stays in the table, the OPEN epoch with a mark. -/
theorem State.enterSuspended_entry? {m : State} {e : EpochNo} {y : Entry} (hy : m.entry? e = some y)
    (hs : y.state ≠ .sealed) (r : Reason) : (m.enterSuspended r).entry? e =
      some (if m.jw.pressure ≠ .suspended ∧ m.openEpoch? = some e then y.mark r else y) := by
  by_cases hp : m.jw.pressure = .suspended
  · rw [State.enterSuspended_self hp, if_neg (fun h => h.1 hp), hy]
  · obtain ⟨old, rest, ht, hold, hc⟩ := (m.suspendMarked r).commitN_some (m.suspendMarked r).sealedCount .suspend
    rw [State.enterSuspended_of hp]
    show ((m.suspendMarked r).commitSealed .suspend).entry? e = _
    refine (hc.entry? ht hold (State.suspendMarked_entry? hy r) ?_).trans ?_
    · split <;> exact hs
    · simp only [hp, ne_eq, not_false_eq_true, true_and]

/-- The whole of an entry to SUSPENDED from a table whose SEALED epochs stand before the others. -/
structure State.EntersSuspended (m u : State) (r : Reason) (old rest : List Entry) : Prop where
  jw      : u.jw = { m.jw with pressure := .suspended, reason := some r,
                               tail := old.foldl (fun a y => y.endLine.getD a) m.jw.tail }
  table   : u.ec.table.map Entry.unmarked = rest.map Entry.unmarked
  events  : u.eq = (m.eq.raiseAll (old.map (Entry.committed · .suspend))).raise
              { code := .suspendedEntered, epoch := m.openEpoch?, arg := u.suspendedArg r old.length m.jw.pressure }

theorem State.enterSuspended_enters {m : State} (hp : m.jw.pressure ≠ .suspended) (r : Reason) {old rest : List Entry}
    (ht : m.ec.table = old ++ rest) (hold : ∀ y ∈ old, y.state = .sealed) (hrest : ∀ y ∈ rest, y.state ≠ .sealed) :
    m.EntersSuspended (m.enterSuspended r) r old rest := by
  obtain ⟨old', rest', ht', ho, hr⟩ := (m.suspendMarked_marks r).split ht
  have ho' : old'.map Entry.unmarked = old.map Entry.unmarked := ho
  have hr' : rest'.map Entry.unmarked = rest.map Entry.unmarked := hr
  have hlen : old'.length = old.length := by simpa using congrArg List.length ho'
  have hrlen : rest'.length = rest.length := by simpa using congrArg List.length hr'
  have hold' : ∀ y ∈ old', y.state = .sealed := forall_state_unmarked (P := (· = .sealed)) ho' hold
  have hc := State.commitSealed_commits ht' hold' (forall_state_unmarked (P := (· ≠ .sealed)) hr' hrest) .suspend
  have hjw := m.suspendMarked_jw r
  obtain ⟨hps, hrs, -, heq⟩ := hc.still (by rw [hjw])
  have htab : ((m.suspendMarked r).commitSealed .suspend).ec.table = rest' := by rw [hc.ec]
  have hcount : m.ec.table.length - ((m.suspendMarked r).commitSealed .suspend).ec.table.length = old.length := by
    rw [htab, ht, List.length_append, hrlen]
    omega
  rw [State.enterSuspended_of hp, hcount, hc.openEpoch? ht' hold', (m.suspendMarked_marks r).openEpoch?]
  constructor
  · show ((m.suspendMarked r).commitSealed .suspend).jw = _
    have hcalm := hc.calm.jw
    rw [hcalm, hps, hrs, hc.tail, hjw, foldl_endLine_unmarked ho']
  · show ((m.suspendMarked r).commitSealed .suspend).ec.table.map Entry.unmarked = _
    rw [htab, hr']
  · show ((m.suspendMarked r).commitSealed .suspend).eq.raise _ = _
    rw [heq, m.suspendMarked_eq r, map_committed_unmarked ho']
    rfl

/-! ## What a fault or a failed reservation leaves (R88, R128, R130) -/

theorem State.Breaks.of_ec {s u v : State} {e : EpochNo} {r : Reason} (h : s.Breaks u e r) (hec : v.ec = u.ec) :
    s.Breaks v e r := fun y hy hs => (State.entry?_of_table (by rw [hec]) e).trans (h y hy hs)

theorem State.Suspends.of_same {s u v : State} {r : Reason} (h : s.Suspends u r) (hec : v.ec = u.ec) (hjw : v.jw = u.jw) :
    s.Suspends v r := by
  obtain ⟨h1, h2⟩ := h
  refine ⟨fun hp => ?_, fun hp => ?_⟩
  · rw [hec, hjw]
    exact h1 hp
  · obtain ⟨hj, ho, ht⟩ := h2 hp
    rw [hec, hjw]
    refine ⟨hj, fun o hoe hoo => ?_, ht⟩
    obtain ⟨y, hy, hb⟩ := ho o hoe hoo
    exact ⟨y, (State.entry?_of_table (by rw [hec]) _).trans hy, hb⟩

theorem State.markBroken_breaks (s : State) (e : EpochNo) (r : Reason) : s.Breaks (s.markBroken e r) e r :=
  fun _ hy _ => State.markBroken_entry? hy r

/-- A mark, then the entry to SUSPENDED: the mark that stands keeps its reason. -/
theorem State.enterSuspended_breaks {s m : State} {e : EpochNo} {r : Reason} (hm : m.ec = (s.markBroken e r).ec)
    (r' : Reason) : s.Breaks (m.enterSuspended r') e r := by
  intro y hy hs
  have hmy : m.entry? e = some (y.mark r) :=
    (State.entry?_of_table (by rw [hm]) e).trans (State.markBroken_entry? hy r)
  refine (State.enterSuspended_entry? hmy hs r').trans ?_
  split
  · exact congrArg some ((y.mark r).mark_broken r' rfl)
  · rfl

theorem State.enterSuspended_suspends {s m : State} {e : EpochNo} {r' : Reason} (hm : m.ec = (s.markBroken e r').ec)
    (hjw : m.jw = s.jw) (r : Reason) : s.Suspends (m.enterSuspended r) r := by
  have hmarks : s.SameButMarks m := (s.markBroken_marks e r').trans (.of_ec hm)
  refine ⟨fun hp => ?_, fun hp => ⟨?_, fun o ho hoo => ?_, fun old rest ht hold hrest => ?_⟩⟩
  · rw [State.enterSuspended_self (by rw [hjw, hp])]
    exact ⟨hjw, hmarks.numbers⟩
  · rw [← hjw] at hp ⊢
    obtain ⟨old, rest, ht, hold, hc⟩ := (m.suspendMarked r).commitN_some (m.suspendMarked r).sealedCount .suspend
    obtain ⟨hps, hrs, -, -⟩ := hc.still (by rw [m.suspendMarked_jw])
    rw [State.enterSuspended_of hp]
    show ((m.suspendMarked r).commitSealed .suspend).jw = { m.jw with
      pressure := .suspended, reason := some r, tail := ((m.suspendMarked r).commitSealed .suspend).jw.tail }
    have hj := hc.calm.jw
    rw [hps, hrs, m.suspendMarked_jw] at hj
    exact hj
  · obtain ⟨z, hz, hzo⟩ := hmarks.entry? hoo
    have hzs : z.state = .opened := by
      rw [Entry.unmarked_state hzo]
      simpa using List.find?_some (show s.ec.table.find? (fun x => x.state == .opened) = some o from ho)
    have hoe : m.openEpoch? = some o.number := by rw [hmarks.openEpoch?, State.openEpoch?, ho]; rfl
    refine ⟨_, State.enterSuspended_entry? hz (by rw [hzs]; decide) r, ?_⟩
    rw [if_pos ⟨by rw [hjw]; exact hp, hoe⟩]
    rfl
  · obtain ⟨old', rest', ht', ho, hr⟩ := hmarks.split ht
    have ho' : old'.map Entry.unmarked = old.map Entry.unmarked := ho
    have hr' : rest'.map Entry.unmarked = rest.map Entry.unmarked := hr
    have hu := State.enterSuspended_enters (by rw [hjw]; exact hp) r ht'
      (forall_state_unmarked (P := (· = .sealed)) ho' hold) (forall_state_unmarked (P := (· ≠ .sealed)) hr' hrest)
    refine ⟨?_, fun y l hy hl => ?_⟩
    · have hn := congrArg (List.map (fun x : Entry => x.number)) (hu.table.trans hr')
      rw [List.map_map, List.map_map] at hn
      exact hn
    · rw [hu.jw]
      show old'.foldl _ _ = l
      rw [foldl_endLine_unmarked ho']
      exact foldl_endLine hy hl _

end Sys2Proof.Machine

/-! Media faults and refused reservations (R75, R76, R130, R170). -/
namespace Sys2Proof.Machine

theorem Calm.sameAround {s v u : State} (h : Calm v u) (hv : s.SameAround v) : s.SameAround u := by
  obtain ⟨evs, he⟩ := h.events
  obtain ⟨hport, hreset, hframe, hpending, hstaged, hlimit, hmask, htime, hdport⟩ := hv
  exact ⟨h.port.trans hport, h.inReset.trans hreset, h.noFrame.trans hframe, h.pending.trans hpending,
    by rw [h.wu]; exact hstaged, by rw [h.iq]; exact hlimit, by rw [he, EventQueue.raiseAll_mask]; exact hmask,
    by rw [he, EventQueue.raiseAll_time]; exact htime, h.dport.trans hdport⟩

theorem State.freePort_sameAround (s : State) (p : PortIx) : s.SameAround (s.begin.freePort p) :=
  ⟨rfl, rfl, rfl, rfl, rfl, rfl, rfl, rfl, rfl⟩

theorem State.begin_sameAround (s : State) : s.SameAround s.begin := ⟨rfl, rfl, rfl, rfl, rfl, rfl, rfl, rfl, rfl⟩

theorem State.EndsCapture.sameAround {s v u : State} {q : SlotIx} {x : Slot} (h : v.EndsCapture u q x)
    (hv : s.SameAround v) : s.SameAround u := by
  obtain ⟨hport, hreset, hframe, hpending, hstaged, hlimit, hmask, htime, hdport⟩ := hv
  have heq : u.eq.mask = v.eq.mask ∧ u.eq.time = v.eq.time := by
    cases ht : v.tripped x.win with
    | true =>
      rw [h.trips ht]
      exact ⟨EventQueue.raise_mask _ _, EventQueue.raise_time _ _⟩
    | false =>
      rw [(h.asks ht).2]
      exact ⟨rfl, rfl⟩
  obtain ⟨hm, hti⟩ := heq
  rw [h.frame]
  exact ⟨hport, hreset, hframe, hpending, hstaged, hlimit, hm.trans hmask, hti.trans htime, hdport⟩

/-! ## PAD_WRITE_ACK and OPEN_WRITE_ACK (R170) -/

theorem State.recordFault_spec {s v : State} (hv : v = s) (line : Nat) (e : EpochNo) (kind : FaultKind) :
    s.Breaks (v.recordFault line e kind) e .media ∧ s.Suspends (v.recordFault line e kind) .media ∧
    ∃ evs, (v.recordFault line e kind).eq =
      (s.eq.raise { code := .mediaFault, epoch := some e, arg := packLine line kind.code }).raiseAll evs := by
  subst hv
  let m : State := (v.markBroken e .media).raise { code := .mediaFault, epoch := some e, arg := packLine line kind.code }
  refine ⟨State.enterSuspended_breaks (m := m) rfl .media, State.enterSuspended_suspends (m := m) rfl
    (v.markBroken_jw e .media) .media, ?_⟩
  obtain ⟨evs, he⟩ := (m.enterSuspended_calm .media).events
  refine ⟨evs, he.trans ?_⟩
  show ((v.markBroken e .media).eq.raise _).raiseAll evs = _
  rw [v.markBroken_eq]

theorem State.freePort_begin (s : State) (p : PortIx) : s.begin.freePort p =
    { s with uport := [], dport := [], mdo := .undriven, da := { s.da with slots := s.da.slots.set p none } } := rfl

theorem State.faultOnError_ok (s : State) (l : Nat × EpochNo) (kind : FaultKind) (data : List Byte) :
    s.faultOnError l kind (.ok data) = s := rfl

theorem State.faultOnError_error (s : State) (l : Nat) (e : EpochNo) (kind : FaultKind) :
    s.faultOnError (l, e) kind .error = s.recordFault l e kind := rfl

theorem exec_recordAck {s : State} {p : PortIx} {l : Nat} {e : EpochNo} {row : Instr} {kind : FaultKind} {res : AckResult}
    (h : (s.Outstanding p (.padWrite l e) ∧ row = .padWriteAck p res ∧ kind = .padWrite) ∨
      (s.Outstanding p (.openWrite l e) ∧ row = .openWriteAck p res ∧ kind = .openWrite)) :
    exec row s = .next (((s.begin.freePort p).faultOnError (l, e) kind res)).settle := by
  obtain ⟨hp, rfl, rfl⟩ | ⟨hp, rfl, rfl⟩ := h
  · exact (execPadWriteAck_eq p res s).trans (congrArg Host.Outcome.next
      (State.ackRow_outstanding (s := s.begin) (own := PortKind.pad?) (a := (l, e)) hp rfl rfl))
  · exact (execOpenWriteAck_eq p res s).trans (congrArg Host.Outcome.next
      (State.ackRow_outstanding (s := s.begin) (own := PortKind.open?) (a := (l, e)) hp rfl rfl))

/-- Settles O33: OK frees the slot; ERROR is a media fault of the record's epoch. -/
theorem padAndOpenAcks : Obligations.PadAndOpenAcks := by
  unfold Obligations.PadAndOpenAcks
  refine fun s p l e => ⟨fun row data h => ?ok, fun row kind h => ?error⟩
  case ok =>
    obtain ⟨hp, rfl⟩ | ⟨hp, rfl⟩ := h
    · rw [exec_recordAck (kind := .padWrite) (res := .ok data) (.inl ⟨hp, rfl, rfl⟩), State.faultOnError_ok]
      exact congrArg (fun u => Host.Outcome.next (State.settle u)) (s.freePort_begin p)
    · rw [exec_recordAck (kind := .openWrite) (res := .ok data) (.inr ⟨hp, rfl, rfl⟩), State.faultOnError_ok]
      exact congrArg (fun u => Host.Outcome.next (State.settle u)) (s.freePort_begin p)
  case error =>
    have hrow : ∃ k : FaultKind, BitVec.ofNat 4 k.code = kind ∧
        exec row s = .next ((s.begin.freePort p).recordFault l e k).settle := by
      obtain ⟨hp, rfl, rfl⟩ | ⟨hp, rfl, rfl⟩ := h
      · refine ⟨.padWrite, rfl, ?_⟩
        rw [exec_recordAck (kind := .padWrite) (res := .error) (.inl ⟨hp, rfl, rfl⟩), State.faultOnError_error]
      · refine ⟨.openWrite, rfl, ?_⟩
        rw [exec_recordAck (kind := .openWrite) (res := .error) (.inr ⟨hp, rfl, rfl⟩), State.faultOnError_error]
    obtain ⟨k, rfl, hrow⟩ := hrow
    obtain ⟨hb, hs, evs, he⟩ := State.recordFault_spec (s := s.begin.freePort p) rfl l e k
    have hc := (s.begin.freePort p).recordFault_calm l e k
    exact ⟨_, evs, hrow, hb, hs, he, hc.sameSlots, hc.cu, hc.su, hc.wu, hc.re, hc.sameAround (s.freePort_sameAround p),
      hc.ec, hc.da⟩

/-! ## What an examination leaves of a request -/

theorem Slot.reexamined_epoch {x y : Slot} (h : y.reexamined = x.reexamined) : y.epoch = x.epoch := by
  show y.reexamined.epoch = x.reexamined.epoch
  rw [h]

theorem Slot.reexamined_outcome {x y : Slot} (h : y.reexamined = x.reexamined) : y.outcome = x.outcome := by
  show y.reexamined.outcome = x.reexamined.outcome
  rw [h]

theorem Slot.reexamined_key {x y : Slot} (h : y.reexamined = x.reexamined) : y.key = x.key := by
  show y.reexamined.key = x.reexamined.key
  rw [h]

/-! ## Media faults of a capture (R76) -/

/-- The event of a capture's media fault. -/
def Capture.fault (c : Capture) (k : FaultKind) : Event :=
  { code := .mediaFault, win := c.win, epoch := some c.epoch, arg := packLine (c.undoLine.getD 0) k.code }

/-- Settles O32: the mark, MEDIA-FAULT and the entry to SUSPENDED; then the write proceeds. -/
theorem captureMediaFaults : Obligations.CaptureMediaFaults := by
  unfold Obligations.CaptureMediaFaults
  intro s p q c x row kind hc hx ho h
  have hslot : c.slot = q := State.capture?_slot hc
  have hrow : ∃ k : FaultKind, BitVec.ofNat 4 k.code = kind ∧
      exec row s = .next ((s.begin.freePort p).captureFault c k).settle := by
    obtain ⟨hp, rfl, rfl⟩ | ⟨hp, rfl, rfl⟩ := h
    · exact ⟨.captureRead, rfl, exec_oldRead hp hc .error⟩
    · exact ⟨.undoWrite, rfl, exec_undoWrite hp hc .error⟩
  obtain ⟨k, rfl, hrow⟩ := hrow
  let f : State := s.begin.freePort p
  let m : State := (f.markBroken c.epoch .media).raise (c.fault k)
  let v : State := m.enterSuspended .media
  have hcalm : Calm f v := ((f.markBroken_calm _ _).trans (State.raise_calm _ _)).trans (m.enterSuspended_calm .media)
  have hv : ((f.captureFault c k) : State) = v.endCapture q := by rw [← hslot]; rfl
  have hbreaks : s.Breaks v c.epoch .media := State.enterSuspended_breaks (s := f) (m := m) rfl .media
  have hsusp : s.Suspends v .media :=
    State.enterSuspended_suspends (s := f) (m := m) rfl (f.markBroken_jw c.epoch .media) .media
  have hsame : s.SameSlots v := hcalm.sameSlots
  obtain ⟨y, hy, hyx⟩ := hsame.find hx
  have hkey : y.key = x.key := Slot.reexamined_key hyx
  have hout : y.outcome = none := (Slot.reexamined_outcome hyx).trans ho
  have hend := State.endCapture_ends hy hout
  have hec : (v.endCapture q).ec = v.ec := by rw [hend.frame]
  have hjw : (v.endCapture q).jw = v.jw := by rw [hend.frame]
  have hevents : ∃ evs, (v.endCapture q).eq = (s.eq.raise (c.fault k)).raiseAll evs := by
    obtain ⟨evs, he⟩ := (m.enterSuspended_calm .media).events
    have hm : m.eq = s.eq.raise (c.fault k) := congrArg (fun z => EventQueue.raise z _) (f.markBroken_eq _ _)
    rw [hm] at he
    cases ht : v.tripped y.win with
    | true =>
      exact ⟨evs ++ [_], by rw [hend.trips ht, EventQueue.raiseAll_append, ← he]; rfl⟩
    | false => exact ⟨evs, by rw [(hend.asks ht).2, ← he]⟩
  obtain ⟨evs, he⟩ := hevents
  refine ⟨_, evs, hrow.trans (congrArg (fun u => Host.Outcome.next (State.settle u)) hv), ?_, hbreaks.of_ec hec,
    hsusp.of_same hec hjw, he, ?_, ?_, ?_, hend.sameAround (hcalm.sameAround (s.freePort_sameAround p)), ?_, ?_⟩
  · exact hend.proceeds hcalm.cu (hsame.others q) hcalm.wu hkey (Slot.reexamined_epoch hyx) hout
  · rw [hend.frame]; exact hcalm.su
  · rw [hend.frame]; exact hcalm.wu
  · rw [hend.frame]; exact hcalm.re
  · rw [hec]; exact hcalm.ec
  · rw [hend.frame]
    exact congrArg (fun d : Arbiter => { d with forward := (v.endCapture q).da.forward }) hcalm.da

end Sys2Proof.Machine

/-! UNDO_RESERVATION (R46, R48, R69, R75, R125). -/
namespace Sys2Proof.Machine

theorem exec_undoReservation {s : State} {q : SlotIx} {c : Capture} (h : s.Reserving q c) :
    exec (.undoReservation q) s = .next (s.begin.reserveUndo c).settle := by
  obtain ⟨hc, hline, hfirst⟩ := h
  have hc' : s.begin.capture? q = some c := hc
  have hmay : s.begin.mayReserve c = true := by
    rw [State.mayReserve, hline, Option.isNone_none, Bool.true_and, List.all_eq_true]
    intro d hd
    cases hdl : d.undoLine with
    | some _ => rfl
    | none =>
      rw [Option.isSome_none, Bool.false_or, decide_eq_true_eq]
      exact hfirst d hd hdl
  show execUndoReservation q s = _
  unfold execUndoReservation
  dsimp only
  rw [hc']
  exact if_pos hmay

theorem State.undoRoom_iff (s : State) : s.undoRoom = true ↔ 10 + s.undoPad + 5 + s.allowance ≤ s.free :=
  decide_eq_true_iff

theorem State.reserveUndo_suspended {s : State} (h : s.jw.pressure = .suspended) (c : Capture) :
    s.reserveUndo c = (s.markBroken c.epoch (s.jw.reason.getD .pressure)).endCapture c.slot := if_pos h

theorem State.reserveUndo_full {s : State} (h : s.jw.pressure ≠ .suspended)
    (hroom : s.free < 10 + s.undoPad + 5 + s.allowance) (c : Capture) :
    s.reserveUndo c = ((s.markBroken c.epoch .pressure).enterSuspended .pressure).endCapture c.slot :=
  (if_neg h).trans (if_neg (fun hr => absurd (s.undoRoom_iff.1 hr) (Nat.not_le.2 hroom)))

theorem State.reserveUndo_room {s : State} (h : s.jw.pressure ≠ .suspended)
    (hroom : 10 + s.undoPad + 5 + s.allowance ≤ s.free) (c : Capture) : s.reserveUndo c = s.placeUndo c :=
  (if_neg h).trans (if_pos (s.undoRoom_iff.2 hroom))

/-! ## A refused reservation (R75, R130) -/

/-- The end of a capture after marks and commits: the write proceeds. -/
theorem Calm.endsCapture {s v : State} (h : Calm s v) {q : SlotIx} {x : Slot} (hx : s.slot? q = some x)
    (ho : x.outcome = none) : ∃ y, v.EndsCapture (v.endCapture q) q y ∧ y.key = x.key ∧ s.Proceeds (v.endCapture q) q x := by
  have hsame := h.sameSlots
  obtain ⟨y, hy, hyx⟩ := hsame.find hx
  have hout := (Slot.reexamined_outcome hyx).trans ho
  have hend := State.endCapture_ends hy hout
  exact ⟨y, hend, Slot.reexamined_key hyx,
    hend.proceeds h.cu (hsame.others q) h.wu (Slot.reexamined_key hyx) (Slot.reexamined_epoch hyx) hout⟩

theorem Slot.key_win {x y : Slot} (h : y.key = x.key) : y.win = x.win := congrArg (fun k => k.2.2.2.1) h

theorem Slot.key_req {x y : Slot} (h : y.key = x.key) : y.req = x.req := congrArg (fun k => k.2.1) h

theorem State.tripped_of_wu {s v : State} (h : v.wu = s.wu) (w : Option WinIx) : v.tripped w = s.tripped w := by
  unfold State.tripped
  rw [h]

theorem State.fill_of_jw {s v : State} (h : v.jw = s.jw) : v.fill = s.fill := by
  unfold State.fill State.used State.lineDist State.ringLines
  rw [h]

theorem packBytes_pressure (a b c : Nat) : packBytes Reason.pressure.code a b c =
    word32 1#8 (BitVec.ofNat 8 a) (BitVec.ofNat 8 b) (BitVec.ofNat 8 c) := rfl

/-- Settles O30: the reservation fails, and the write proceeds uncaptured. -/
theorem undoReservationRefused : Obligations.UndoReservationRefused := by
  unfold Obligations.UndoReservationRefused
  intro s q c x hres hx ho
  have hslot : c.slot = q := State.capture?_slot hres.1
  refine ⟨fun hp => ?suspended, fun hp hroom => ?fails⟩
  case suspended =>
    let v : State := s.begin.markBroken c.epoch (s.jw.reason.getD .pressure)
    have hcalm : Calm s.begin v := s.begin.markBroken_calm _ _
    have hrow : exec (.undoReservation q) s = .next (v.endCapture q).settle := by
      rw [exec_undoReservation hres, State.reserveUndo_suspended (s := s.begin) hp, hslot]
      rfl
    obtain ⟨y, hend, hkey, hproceeds⟩ := hcalm.endsCapture hx ho
    have htrip : v.tripped y.win = s.tripped x.win := by rw [State.tripped_of_wu hcalm.wu, Slot.key_win hkey]; rfl
    have heq : v.eq = s.eq := s.begin.markBroken_eq _ _
    have hec : (v.endCapture q).ec = v.ec := by rw [hend.frame]
    refine ⟨_, hrow, hproceeds, (s.begin.markBroken_breaks c.epoch _).of_ec hec, ?_, ?_, ?_, ?_,
      hend.sameAround (hcalm.sameAround s.begin_sameAround), ?_, ?_, ?_, fun ht => ?_, fun ht => ?_⟩
    · rw [hend.frame]; exact s.begin.markBroken_jw _ _
    · rw [hend.frame]; exact hcalm.su
    · rw [hend.frame]; exact hcalm.wu
    · rw [hend.frame]; exact hcalm.re
    · rw [hend.frame]
      exact congrArg (fun d : Arbiter => { d with forward := (v.endCapture q).da.forward }) hcalm.da
    · rw [hec]; exact hcalm.ec
    · rw [hec]; exact (s.begin.markBroken_marks _ _).numbers
    · exact (hend.asks (htrip.trans ht)).2.trans heq
    · rw [hend.trips (htrip.trans ht), heq, Slot.key_win hkey, Slot.key_req hkey, pageArg_eq]
  case fails =>
    let m : State := s.begin.markBroken c.epoch .pressure
    let v : State := m.enterSuspended .pressure
    have hcalm : Calm s.begin v := (s.begin.markBroken_calm _ _).trans (m.enterSuspended_calm .pressure)
    have hmjw : m.jw = s.jw := s.begin.markBroken_jw _ _
    have hrow : exec (.undoReservation q) s = .next (v.endCapture q).settle := by
      rw [exec_undoReservation hres, State.reserveUndo_full (s := s.begin) hp hroom, hslot]
    obtain ⟨y, hend, hkey, hproceeds⟩ := hcalm.endsCapture hx ho
    have htrip : v.tripped y.win = s.tripped x.win := by rw [State.tripped_of_wu hcalm.wu, Slot.key_win hkey]; rfl
    have hec : (v.endCapture q).ec = v.ec := by rw [hend.frame]
    have hjw : (v.endCapture q).jw = v.jw := by rw [hend.frame]
    have hmarks : s.SameButMarks m := s.begin.markBroken_marks _ _
    refine ⟨_, hrow, hproceeds, (State.enterSuspended_breaks (s := s.begin) (m := m) rfl .pressure).of_ec hec,
      (State.enterSuspended_suspends (s := s.begin) (m := m) rfl hmjw .pressure).of_same hec hjw, ?_, ?_, ?_,
      hend.sameAround (hcalm.sameAround s.begin_sameAround), ?_, ?_, fun ht old rest htab hold hrest => ?_⟩
    · rw [hend.frame]; exact hcalm.su
    · rw [hend.frame]; exact hcalm.wu
    · rw [hend.frame]; exact hcalm.re
    · rw [hend.frame]
      exact congrArg (fun d : Arbiter => { d with forward := (v.endCapture q).da.forward }) hcalm.da
    · rw [hec]; exact hcalm.ec
    · obtain ⟨old', rest', htab', ho', hr'⟩ := hmarks.split htab
      have hold' := forall_state_unmarked (P := (· = .sealed)) ho' hold
      have hrest' := forall_state_unmarked (P := (· ≠ .sealed)) hr' hrest
      have hlen : old'.length = old.length := by simpa using congrArg List.length ho'
      have henters := State.enterSuspended_enters (m := m) (by rw [hmjw]; exact hp) .pressure htab' hold' hrest'
      have hmeq : m.eq = s.eq := s.begin.markBroken_eq _ _
      rw [(hend.asks (htrip.trans ht)).2, State.fill_of_jw hjw]
      show (m.enterSuspended .pressure).eq = _
      rw [henters.events, hlen, map_committed_unmarked ho', hmarks.openEpoch?, State.suspendedArg, packBytes_pressure,
        hmjw, hmeq]
      rfl

end Sys2Proof.Machine

/-! UNDO_RESERVATION with room (R46, R48, R69, R125). -/
namespace Sys2Proof.Machine

/-! ## Where the record goes -/

theorem ring_used {h t r : Nat} (hh : h < r) (ht : t < r) : (h + r - t) % r = if t ≤ h then h - t else h + r - t := by
  split
  · rw [show h + r - t = h - t + r by omega, Nat.add_mod_right, Nat.mod_eq_of_lt (by omega)]
  · exact Nat.mod_eq_of_lt (by omega)

theorem State.used_of_ring {s : State} (h : s.ringLines ≠ 0) :
    s.used = (s.jw.head + s.ringLines - s.jw.tail) % s.ringLines := if_neg h

theorem State.usedAfterUndo_eq {s : State} (h : s.ringLines ≠ 0) :
    s.usedAfterUndo = (s.undoHead + s.ringLines - s.jw.tail) % s.ringLines := if_neg h

/-- The reservation uses its five lines and those of the PAD. -/
theorem State.usedAfterUndo_add {s : State} (hh : s.jw.head < s.ringLines) (ht : s.jw.tail < s.ringLines)
    (hroom : s.undoPad + 5 ≤ s.free) : s.usedAfterUndo = s.used + s.undoPad + 5 := by
  have hr : s.ringLines ≠ 0 := by omega
  have hpad : s.undoPad = if s.ringLines - s.jw.head < 5 then s.ringLines - s.jw.head else 0 := rfl
  have hline : s.undoLine = if s.undoPad = 0 then s.jw.head else 0 := rfl
  have hfree : s.free = s.ringLines - 1 - s.used := rfl
  have hused := State.used_of_ring hr
  rw [ring_used hh ht] at hused
  have hhead : s.undoHead = (s.undoLine + 5) % s.ringLines := rfl
  have hnew : s.undoHead = if s.undoLine + 5 < s.ringLines then s.undoLine + 5 else s.undoLine + 5 - s.ringLines := by
    rw [hhead]
    split
    · exact Nat.mod_eq_of_lt (by assumption)
    · rw [Nat.mod_eq_sub_mod (by omega), Nat.mod_eq_of_lt]
      split at hline <;> split at hpad <;> omega
  have hlt : s.undoHead < s.ringLines := Nat.mod_lt _ (by omega)
  rw [State.usedAfterUndo_eq hr, ring_used hlt ht]
  split at hpad <;> split at hline <;> split at hnew <;> split at hused <;> split <;> omega

/-- The state in which the record is placed, before the thresholds are evaluated. -/
def State.undoPlaced (s : State) (c : Capture) : State :=
  { s with
    jw := { s.jw with head := s.undoHead }
    ec := { s.ec with table := s.ec.table.map (fun x => if x.number == c.epoch then Entry.undoAt s.undoLine x else x) }
    cu := { s.cu with captures := s.cu.captures.map (fun d => if d.slot == c.slot then
      { d with undoLine := some s.undoLine, backLink := s.undoBackLink c.epoch } else d) }
    da := (s.makePad c.epoch Config.undoLines).da }

theorem State.makePad_eq (s : State) (e : EpochNo) (len : Nat) :
    s.makePad e len = { s with da := (s.makePad e len).da } := by
  unfold State.makePad
  split
  · rfl
  · rw [State.makeRecord_eq]

theorem State.undoPlaced_eq (s : State) (c : Capture) :
    ((((s.makePad c.epoch Config.undoLines).advanceHead Config.undoLines).setEntry c.epoch
      (Entry.undoAt (s.placeLine Config.undoLines))).setCapture c.slot
        (fun d => { d with undoLine := some (s.placeLine Config.undoLines), backLink := s.undoBackLink c.epoch })) =
      s.undoPlaced c := by
  rw [State.makePad_eq]
  rfl

theorem State.placeUndo_eq (s : State) (c : Capture) :
    s.placeUndo c = { (s.undoPlaced c).evaluate.forcedCommit with
      da := { (s.undoPlaced c).evaluate.forcedCommit.da with
        capture := (s.undoPlaced c).evaluate.forcedCommit.da.capture ++ [.oldRead c.slot] } } := by
  unfold State.placeUndo
  dsimp only
  rw [State.undoPlaced_eq]

theorem State.makePad_da_none {s : State} (h : s.undoPad = 0) (e : EpochNo) :
    (s.makePad e Config.undoLines).da = s.da :=
  congrArg State.da (if_pos h : s.makePad e Config.undoLines = s)

theorem State.makePad_da {s : State} (h : s.undoPad ≠ 0) (e : EpochNo) :
    (s.makePad e Config.undoLines).da = s.recordDa (.pad s.jw.head e s.undoPad) := by
  have hpad : s.makePad e Config.undoLines = s.makeRecord (.pad s.jw.head e s.undoPad) := if_neg h
  rw [hpad, State.makeRecord_eq]

theorem State.makePad_da_frame (s : State) (e : EpochNo) : (s.makePad e Config.undoLines).da =
    { s.da with sealWriter := (s.makePad e Config.undoLines).da.sealWriter,
                heldSealWriter := (s.makePad e Config.undoLines).da.heldSealWriter } := by
  by_cases h : s.undoPad = 0
  · rw [State.makePad_da_none h]
  · rw [State.makePad_da h]
    exact s.recordDa_frame _

/-! ## The table after a change of entries that keeps number and state -/

theorem State.setEntry_openEpoch? (s : State) (e : EpochNo) {f : Entry → Entry} (hn : ∀ y, (f y).number = y.number)
    (hs : ∀ y, (f y).state = y.state) : (s.setEntry e f).openEpoch? = s.openEpoch? := by
  have hstate : (fun x : Entry => x.state == EpochState.opened) ∘ (fun x : Entry => if x.number == e then f x else x) =
      fun x => x.state == .opened := by
    funext y
    simp only [Function.comp]
    split
    · rw [hs]
    · rfl
  show ((s.ec.table.map (fun x => if x.number == e then f x else x)).find? _).map (·.number) = _
  rw [List.find?_map, hstate, Option.map_map]
  refine congrArg (fun g => Option.map g _) (funext fun y => ?_)
  simp only [Function.comp]
  split
  · exact hn y
  · rfl

/-! ## The forced commit (R125) -/

theorem State.percent_mono (s : State) {a b : Nat} (h : a ≤ b) : s.percent a ≤ s.percent b :=
  Nat.div_le_div_right (Nat.mul_le_mul_left _ h)

/-- At 90 percent used an evaluation moves to CONSTRAINED. -/
theorem State.evaluated_high {s : State} (h : s.jw.pressure ≠ .suspended) (hn : s.percent 90 ≤ s.used) :
    s.evaluated = .constrained := by
  have h70 := s.percent_mono (show 70 ≤ 90 by decide)
  have h85 := s.percent_mono (show 85 ≤ 90 by decide)
  unfold State.evaluated
  cases hp : s.jw.pressure with
  | normal => exact if_pos hn
  | warning => exact if_pos hn
  | constrained => exact (if_neg (by omega)).trans (if_neg (by omega))
  | suspended => exact absurd hp h

/-- No commit is forced. -/
theorem State.forcedCommit_self {s : State} (h : s.used < s.percent 90 ∨ (s.ec.bridge ≠ .journaling ∧ s.ec.bridge ≠ .closing) ∨
    ∀ y rest, s.ec.table = y :: rest → y.state ≠ .sealed) : s.forcedCommit = s := by
  unfold State.forcedCommit
  split
  · rename_i hf
    obtain ⟨hb, -, hn⟩ := hf
    obtain h | ⟨h1, h2⟩ | h := h
    · omega
    · exact absurd hb (not_or.2 ⟨h1, h2⟩)
    · exact State.commitOldest_unsealed h .forced
  · rfl

theorem State.forcedCommit_of {s : State} (hb : s.ec.bridge = .journaling ∨ s.ec.bridge = .closing)
    (hp : s.jw.pressure = .constrained) (hn : s.percent 90 ≤ s.used) {y : Entry} {rest : List Entry}
    (ht : s.ec.table = y :: rest) (hs : y.state = .sealed) :
    s.forcedCommit = (s.committed y rest .forced).evaluate :=
  (if_pos ⟨hb, hp, hn⟩).trans (State.commitOldest_sealed ht hs .forced)

/-- The forced commit is a commit of one entry or of none. -/
theorem State.forcedCommit_commits (s : State) : ∃ old rest, s.ec.table = old ++ rest ∧ (∀ y ∈ old, y.state = .sealed) ∧
    s.Commits s.forcedCommit .forced old rest := by
  unfold State.forcedCommit
  split
  · exact s.commitN_some 1 .forced
  · exact ⟨[], s.ec.table, rfl, by simp, .refl rfl⟩

theorem State.evaluate_reason {s : State} (h : s.jw.reason = none) : s.evaluate.jw.reason = none := by
  by_cases hev : s.Evaluates
  · exact (State.evaluate_pressure hev).2
  · rw [State.evaluate_not hev, h]

theorem State.forcedCommit_reason {s : State} (h : s.jw.reason = none) : s.forcedCommit.jw.reason = none := by
  unfold State.forcedCommit
  split
  · unfold State.commitOldest
    split
    · exact h
    · split
      · exact State.evaluate_reason h
      · exact h
  · exact h

end Sys2Proof.Machine

/-! UNDO_RESERVATION with room, its thresholds and its forced commit (R123, R125). -/
namespace Sys2Proof.Machine

/-! ## What the evaluation and the forced commit do with a placed record -/

theorem State.evaluated_of_normal {s : State} (h : s.jw.pressure = .normal) (hn : s.used < s.percent 90) :
    s.evaluated = if s.percent 75 ≤ s.used then .warning else .normal := by
  unfold State.evaluated
  rw [h]
  exact if_neg (Nat.not_le.2 hn)

theorem State.evaluated_of_warning {s : State} (h : s.jw.pressure = .warning) (hn : s.used < s.percent 90) :
    s.evaluated = if s.used < s.percent 70 then .normal else .warning := by
  unfold State.evaluated
  rw [h]
  exact if_neg (Nat.not_le.2 hn)

theorem State.evaluated_of_constrained {s : State} (h : s.jw.pressure = .constrained) :
    s.evaluated = if s.used < s.percent 70 then .normal else if s.used < s.percent 85 then .warning else .constrained := by
  unfold State.evaluated
  rw [h]

/-- A record placed: nothing but the ring, the table, its capture and the seal writer's list changes. -/
theorem State.undoPlaced_sameAround (s : State) (c : Capture) : s.SameAround (s.begin.undoPlaced c) :=
  ⟨rfl, rfl, rfl, rfl, rfl, rfl, rfl, rfl, rfl⟩

theorem State.undoPlaced_openEpoch? (s : State) (c : Capture) : (s.undoPlaced c).openEpoch? = s.openEpoch? :=
  s.setEntry_openEpoch? c.epoch (f := Entry.undoAt s.undoLine) (fun _ => rfl) (fun _ => rfl)

theorem State.undoPlaced_numbers (s : State) (c : Capture) :
    (s.undoPlaced c).ec.table.map (·.number) = s.ec.table.map (·.number) :=
  s.setEntry_numbers c.epoch (f := Entry.undoAt s.undoLine) (fun _ => rfl)

theorem State.undoPlaced_entry? {s : State} {c : Capture} {e : Entry} (h : s.entry? c.epoch = some e) :
    (s.undoPlaced c).entry? c.epoch = some (Entry.undoAt s.undoLine e) :=
  State.entry?_setEntry_same (f := Entry.undoAt s.undoLine) (fun _ => rfl) h

/-- The first entry after the record is placed. -/
def State.undoOldest (s : State) (c : Capture) (y : Entry) : Entry :=
  if y.number == c.epoch then Entry.undoAt s.undoLine y else y

theorem State.undoPlaced_table {s : State} {y : Entry} {rest : List Entry} (h : s.ec.table = y :: rest) (c : Capture) :
    (s.undoPlaced c).ec.table = s.undoOldest c y :: rest.map (s.undoOldest c) := by
  show s.ec.table.map (s.undoOldest c) = _
  rw [h, List.map_cons]

theorem State.undoOldest_kept (s : State) (c : Capture) (y : Entry) : (s.undoOldest c y).number = y.number ∧
    (s.undoOldest c y).state = y.state ∧ (s.undoOldest c y).endLine = y.endLine := by
  unfold State.undoOldest
  split <;> exact ⟨rfl, rfl, rfl⟩

theorem State.undoOldest_numbers (s : State) (c : Capture) (l : List Entry) :
    (l.map (s.undoOldest c)).map (·.number) = l.map (·.number) := by
  rw [List.map_map]
  exact List.map_congr_left (fun y _ => (s.undoOldest_kept c y).1)

/-- What an UNDO record that is placed leaves below 90 percent used, or with nothing to commit (R123, R125). -/
structure State.PlacedQuietly (p u : State) : Prop where
  pressure : u.jw.pressure = p.evaluated
  tail     : u.jw.tail = p.jw.tail
  table    : u.ec.table = p.ec.table
  events   : u.eq = p.eq.raiseAll (p.codeEvents (BitVec.ofNat 32 p.used) (changeEvents p.jw.pressure p.evaluated))

theorem State.evaluate_used (s : State) : s.evaluate.used = s.used := by
  unfold State.used State.lineDist State.ringLines
  rw [State.evaluate_jw]

theorem State.evaluate_percent (s : State) (n : Nat) : s.evaluate.percent n = s.percent n := by
  unfold State.percent State.ringLines
  rw [State.evaluate_jw]

theorem State.placedQuietly {p : State} (hp : p.Evaluates) (h : p.used < p.percent 90 ∨
    (p.ec.bridge ≠ .journaling ∧ p.ec.bridge ≠ .closing) ∨ ∀ y rest, p.ec.table = y :: rest → y.state ≠ .sealed) :
    p.PlacedQuietly p.evaluate.forcedCommit := by
  have hself : p.evaluate.forcedCommit = p.evaluate := by
    refine State.forcedCommit_self ?_
    rw [State.evaluate_used, State.evaluate_percent, State.evaluate_ec]
    exact h
  rw [hself]
  exact ⟨(State.evaluate_pressure hp).1, p.evaluate_tail, by rw [State.evaluate_ec], State.evaluate_events hp⟩

/-- What a forced commit of `y` leaves (R125). -/
structure State.PlacedForced (p u : State) (y : Entry) (rest : List Entry) (m : Nat) : Prop where
  tail     : ∀ l, y.endLine = some l → u.jw.tail = l
  table    : u.ec.table = rest
  pressure : u.jw.pressure =
               if m < p.percent 70 then .normal else if m < p.percent 85 then .warning else .constrained
  events   : u.eq = (((p.eq.raiseAll (p.codeEvents (BitVec.ofNat 32 p.used) (changeEvents p.jw.pressure .constrained))).raise
               (y.committed .forced)).raiseAll (p.codeEvents (BitVec.ofNat 32 m)
                 (if m < p.percent 70 then [.constrainedLeft, .warningLeft]
                  else if m < p.percent 85 then [.constrainedLeft] else [])))

theorem State.openEpoch?_of_sealed {s t : State} {y : Entry} {rest : List Entry} (hs : s.ec.table = y :: rest)
    (ht : t.ec.table = rest) (hy : y.state = .sealed) : t.openEpoch? = s.openEpoch? := by
  rw [State.openEpoch?, State.openEpoch?, State.openEntry?, State.openEntry?, hs, ht,
    List.find?_cons_of_neg (by rw [hy]; decide)]

theorem State.codeEvents_of_open {s t : State} (h : t.openEpoch? = s.openEpoch?) (arg : Word32) (l : List EventCode) :
    t.codeEvents arg l = s.codeEvents arg l := by
  unfold State.codeEvents
  rw [h]

theorem State.placedForced {p : State} (hp : p.Evaluates) (hn : p.percent 90 ≤ p.used)
    (hb : p.ec.bridge = .journaling ∨ p.ec.bridge = .closing) {y : Entry} {rest : List Entry} (ht : p.ec.table = y :: rest)
    (hs : y.state = .sealed) {l : Nat} (hl : y.endLine = some l) :
    p.PlacedForced p.evaluate.forcedCommit y rest ((p.jw.head + p.ringLines - l) % p.ringLines) := by
  have hev := State.evaluated_high hp.1 hn
  obtain ⟨hpress, hreason⟩ := State.evaluate_pressure hp
  rw [hev] at hpress
  have hec := p.evaluate_ec
  have hev_eq := State.evaluate_events hp
  rw [hev] at hev_eq
  have hrings : p.evaluate.ringLines = p.ringLines := by unfold State.ringLines; rw [State.evaluate_jw]
  have hhead := p.evaluate_head
  have hforced : p.evaluate.forcedCommit = (p.evaluate.committed y rest .forced).evaluate := by
    refine State.forcedCommit_of (by rw [hec]; exact hb) hpress ?_ (by rw [hec, ht]) hs
    rw [State.evaluate_used, State.evaluate_percent]
    exact hn
  have htabv : p.evaluate.ec.table = y :: rest := by rw [hec, ht]
  generalize p.evaluate = v at *
  let w : State := v.committed y rest .forced
  have hwring : w.ringLines = p.ringLines := hrings
  have hw : w.Evaluates := ⟨by show v.jw.pressure ≠ _; rw [hpress]; decide, by rw [hwring]; exact hp.2⟩
  have hwtail : w.jw.tail = l := by show y.endLine.getD _ = l; rw [hl]; rfl
  have hwused : w.used = (p.jw.head + p.ringLines - l) % p.ringLines := by
    rw [State.used_of_ring hw.2, hwring, hwtail]
    show (v.jw.head + _ - l) % _ = _
    rw [hhead]
  have hwpercent (n : Nat) : w.percent n = p.percent n := by rw [State.percent, State.percent, hwring]
  have hwopen : w.openEpoch? = p.openEpoch? :=
    State.openEpoch?_of_sealed ht (show w.ec.table = rest from rfl) hs
  have hweval := State.evaluated_of_constrained (s := w) hpress
  rw [hwpercent, hwpercent, hwused] at hweval
  have hwevents := State.evaluate_events hw
  rw [State.codeEvents_of_open hwopen, hwused, hweval] at hwevents
  rw [hforced]
  refine ⟨fun l' hl' => ?_, ?_, ?_, ?_⟩
  · rw [hl] at hl'
    obtain rfl := Option.some.inj hl'
    exact w.evaluate_tail.trans hwtail
  · exact congrArg (fun x : EpochController => x.table) w.evaluate_ec
  · exact (State.evaluate_pressure hw).1.trans hweval
  · refine hwevents.trans ?_
    have hwp : w.jw.pressure = .constrained := hpress
    have hweq : w.eq = (p.eq.raiseAll (p.codeEvents (BitVec.ofNat 32 p.used) (changeEvents p.jw.pressure .constrained))).raise
        (y.committed .forced) := by
      show v.eq.raise _ = _
      rw [hev_eq]
    rw [hweq, hwp]
    refine congrArg (fun l => EventQueue.raiseAll _ (p.codeEvents _ l)) ?_
    split
    · rfl
    · split <;> rfl

/-- The room an UNDO record needs means that the region is set. -/
theorem State.undoPlaced_evaluates {s : State} (hp : s.jw.pressure ≠ .suspended)
    (hroom : 10 + s.undoPad + 5 + s.allowance ≤ s.free) (c : Capture) : (s.undoPlaced c).Evaluates := by
  have hfree : s.free = s.ringLines - 1 - s.used := rfl
  exact ⟨hp, show s.ringLines ≠ 0 by omega⟩

/-- Settles O29: the record placed, then the evaluation and the forced commit. -/
theorem undoReservationPlaces : Obligations.UndoReservationPlaces := by
  unfold Obligations.UndoReservationPlaces
  intro s q c e hres hp hroom he hes
  have hslot : c.slot = q := State.capture?_slot hres.1
  let p : State := s.begin.undoPlaced c
  let u : State := p.evaluate.forcedCommit
  have hpev : p.Evaluates := State.undoPlaced_evaluates (s := s.begin) hp hroom c
  have hcalm : Calm p u := p.evaluate_calm.trans (State.forcedCommit_calm _)
  obtain ⟨old, rest, htab, hold, hcom⟩ := p.evaluate.forcedCommit_commits
  have hhead : u.jw.head = s.undoHead := hcom.head.trans p.evaluate_head
  have hreason : u.jw.reason = none := State.forcedCommit_reason (State.evaluate_pressure hpev).2
  have hjw : u.jw = { s.jw with head := s.undoHead, tail := u.jw.tail, pressure := u.jw.pressure, reason := none } := by
    have h := hcalm.jw
    rw [hreason] at h
    exact h
  have hentry : u.entry? c.epoch = some (Entry.undoAt s.undoLine e) := by
    refine hcom.entry? htab hold ?_ hes
    exact (State.entry?_of_table (by rw [p.evaluate_ec]) c.epoch).trans (State.undoPlaced_entry? (s := s.begin) he)
  have hda : u.da = { s.da with
      sealWriter := (s.begin.makePad c.epoch Config.undoLines).da.sealWriter
      heldSealWriter := (s.begin.makePad c.epoch Config.undoLines).da.heldSealWriter } :=
    hcalm.da.trans (s.begin.makePad_da_frame c.epoch)
  have hopen : p.openEpoch? = s.openEpoch? := s.begin.undoPlaced_openEpoch? c
  have hused : p.used = s.usedAfterUndo := rfl
  have hpercent (n : Nat) : p.percent n = s.percent n := rfl
  have hnumbers : p.ec.table.map (·.number) = s.ec.table.map (·.number) := s.begin.undoPlaced_numbers c
  have holdest {y : Entry} {rest : List Entry} (h : s.ec.table = y :: rest) :
      p.ec.table = s.begin.undoOldest c y :: rest.map (s.begin.undoOldest c) := State.undoPlaced_table (s := s.begin) h c
  have hunsealed (h : ∀ y rest, s.ec.table = y :: rest → y.state ≠ .sealed) :
      ∀ y rest, p.ec.table = y :: rest → y.state ≠ .sealed := by
    intro y' rest' hy'
    cases ht : s.ec.table with
    | nil =>
      have hnil : p.ec.table = [] := List.map_eq_nil_iff.2 ht
      rw [hnil] at hy'
      exact absurd hy' (by simp)
    | cons y rest =>
      rw [holdest ht] at hy'
      obtain ⟨rfl, -⟩ := List.cons.inj hy'
      rw [(s.begin.undoOldest_kept c y).2.1]
      exact h y rest ht
  have hquiet (h : s.usedAfterUndo < s.percent 90 ∨ (s.ec.bridge ≠ .journaling ∧ s.ec.bridge ≠ .closing) ∨
      ∀ y rest, s.ec.table = y :: rest → y.state ≠ .sealed) : p.PlacedQuietly u :=
    State.placedQuietly hpev (h.imp_right (Or.imp_right hunsealed))
  have hforced {y : Entry} {rest : List Entry} {l : Nat} (hn : s.percent 90 ≤ s.usedAfterUndo)
      (hb : s.ec.bridge = .journaling ∨ s.ec.bridge = .closing) (ht : s.ec.table = y :: rest) (hs : y.state = .sealed)
      (hl : y.endLine = some l) : p.PlacedForced u (s.begin.undoOldest c y) (rest.map (s.begin.undoOldest c))
        ((s.undoHead + s.ringLines - l) % s.ringLines) :=
    State.placedForced hpev hn hb (holdest ht) ((s.begin.undoOldest_kept c y).2.1.trans hs)
      ((s.begin.undoOldest_kept c y).2.2.trans hl)
  refine ⟨{ u with da := { u.da with capture := u.da.capture ++ [.oldRead q] } }, ?row, hjw, hentry, ?cu, ?da, fun h => ?nopad,
    fun h hh => ?ready, fun h hh => ?held, fun h => ?quiet, fun y rest l hn hb ht hs hl => ?forced, fun hh ht htail => ?free,
    fun hn => ?low, fun hn => ?high, ?around, ?slots, hcalm.su, hcalm.wu, hcalm.re, hcalm.ec⟩
  case row =>
    rw [exec_undoReservation hres, State.reserveUndo_room (s := s.begin) hp hroom, State.placeUndo_eq, hslot]
  case cu =>
    refine hcalm.cu.trans ?_
    have hback : s.begin.undoBackLink c.epoch = e.lastUndo := by
      have he' : s.begin.entry? c.epoch = some e := he
      rw [State.undoBackLink, he']
      rfl
    show ({ s.cu with captures := s.cu.captures.map (fun d => if d.slot == c.slot then _ else d) } : CaptureUnit) = _
    rw [capture_fun, hslot, hback]
    rfl
  case da =>
    show ({ u.da with capture := u.da.capture ++ [.oldRead q] } : Arbiter) = _
    rw [hda]
  case nopad =>
    show u.da.sealWriter = _ ∧ u.da.heldSealWriter = _
    rw [hda, State.makePad_da_none (s := s.begin) h]
    exact ⟨rfl, rfl⟩
  case ready =>
    show u.da.sealWriter = _ ∧ u.da.heldSealWriter = _
    rw [hda, State.makePad_da (s := s.begin) h, State.recordDa_ready (s := s.begin) hh]
    exact ⟨rfl, rfl⟩
  case held =>
    show u.da.sealWriter = _ ∧ u.da.heldSealWriter = _
    rw [hda, State.makePad_da (s := s.begin) h, State.recordDa_held (s := s.begin) hh]
    exact ⟨rfl, rfl⟩
  case quiet =>
    have hq := hquiet h
    refine ⟨hq.tail, ?_⟩
    show u.ec.table.map (·.number) = _
    rw [hq.table, hnumbers]
  case forced =>
    have hf := hforced hn hb ht hs hl
    refine ⟨hf.tail l ((s.begin.undoOldest_kept c y).2.2.trans hl), ?_⟩
    show u.ec.table.map (·.number) = _
    rw [hf.table, State.undoOldest_numbers]
  case free =>
    have hring : u.ringLines = s.ringLines := by unfold State.ringLines; rw [hjw]
    have hr : s.ringLines ≠ 0 := hpev.2
    have hadd := State.usedAfterUndo_add hh ht (by omega)
    have hfree : s.free = s.ringLines - 1 - s.used := rfl
    have hufree : u.free = s.ringLines - 1 - s.usedAfterUndo := by
      have htail' : u.jw.tail = s.jw.tail := htail
      rw [State.free, State.used_of_ring (by rw [hring]; exact hr), State.usedAfterUndo_eq hr, hring, hhead, htail']
    show 10 + s.allowance ≤ u.free
    omega
  case low =>
    have hq := hquiet (.inl hn)
    have hev := hq.events
    rw [State.codeEvents_of_open hopen] at hev
    show u.jw.pressure = _ ∧ u.eq = _
    rw [hq.pressure, hev]
    cases hs : s.jw.pressure with
    | normal =>
      have hps : p.jw.pressure = .normal := hs
      rw [State.evaluated_of_normal hps hn, hps]
      refine ⟨rfl, ?_⟩
      show s.eq.raiseAll _ = _
      rw [hused, hpercent]
      dsimp only
      split <;> rfl
    | warning =>
      have hps : p.jw.pressure = .warning := hs
      rw [State.evaluated_of_warning hps hn, hps]
      refine ⟨rfl, ?_⟩
      show s.eq.raiseAll _ = _
      rw [hused, hpercent]
      dsimp only
      split <;> rfl
    | constrained =>
      have hps : p.jw.pressure = .constrained := hs
      rw [State.evaluated_of_constrained hps, hps]
      refine ⟨rfl, ?_⟩
      show s.eq.raiseAll _ = _
      rw [hused, hpercent, hpercent]
      dsimp only
      split
      · rfl
      · split <;> rfl
    | suspended => exact absurd hs hp
  case high =>
    intro event entered
    have hentered : p.codeEvents (BitVec.ofNat 32 p.used) (changeEvents p.jw.pressure .constrained) = entered := by
      rw [State.codeEvents_of_open hopen]
      show s.codeEvents (BitVec.ofNat 32 s.usedAfterUndo) (changeEvents s.jw.pressure .constrained) = entered
      dsimp only [entered, event]
      cases hs : s.jw.pressure <;> rfl
    refine ⟨fun h => ?_, fun y rest l hb ht hs hl => ?_⟩
    · have hq := hquiet (.inr h)
      have hhigh := State.evaluated_high hpev.1 hn
      have hev := hq.events
      rw [hhigh, hentered] at hev
      exact ⟨hq.pressure.trans hhigh, hev⟩
    · intro m
      have hf := hforced hn hb ht hs hl
      refine ⟨hf.pressure, ?_⟩
      have hev := hf.events
      rw [hentered, State.codeEvents_of_open hopen] at hev
      refine hev.trans ?_
      rw [EventQueue.raiseAll_append, EventQueue.raiseAll_append, EventQueue.raiseAll_singleton, Entry.committed,
        (s.begin.undoOldest_kept c y).1]
      rfl
  case around =>
    obtain ⟨h1, h2, h3, h4, h5, h6, h7, h8, h9⟩ := hcalm.sameAround (s.undoPlaced_sameAround c)
    exact ⟨h1, h2, h3, h4, h5, h6, h7, h8, h9⟩
  case slots => exact hcalm.sameSlots

end Sys2Proof.Machine

/-! RETENTION SET, ROLLBACK accepted, JOURNAL SETUP and JOURNAL RESET (R43, R102, R140, R199). -/
namespace Sys2Proof.Machine

/-! ## RETENTION SET (R102) -/

theorem State.begin_setRetention_sameAround (s : State) (n : Nat) : s.SameAround (s.begin.setRetention n) :=
  ⟨rfl, rfl, rfl, rfl, rfl, rfl, rfl, rfl, rfl⟩

theorem exec_retentionSet {s : State} (hl : s.Listens) {depth : Byte} (hr : s.ec.bridge ≠ .rolling) (hh : s.ec.bridge ≠ .halted)
    (h1 : 1 ≤ depth.toNat) (h63 : depth.toNat ≤ 63) : exec (.retentionSet depth) s =
      .next ((((s.begin.setRetention depth.toNat).commitExcess .depth).settle).withAnswer
        (.answer { args := 1, status := .done, response := [] })) :=
  (answers_retentionSet depth).settles hl
    ((if_neg (not_or.2 ⟨hr, hh⟩)).trans (if_neg (by omega)))

/-- Settles O42: the excess is committed, oldest first. -/
theorem retentionSet : Obligations.RetentionSet := by
  unfold Obligations.RetentionSet
  refine fun s depth hl => ⟨fun hb => ?state, fun hr hh hd => ?range, fun hr hh h1 h63 => ⟨fun hfew => ?few,
    fun old y rest l ht hold hy hcount hline => ?excess⟩⟩
  case state => exact (answers_retentionSet depth).refuses hl (if_pos hb)
  case range =>
    exact (answers_retentionSet depth).refuses hl ((if_neg (not_or.2 ⟨hr, hh⟩)).trans (if_pos (by omega)))
  case few =>
    have hexcess : (s.begin.setRetention depth.toNat).commitExcess .depth = s.begin.setRetention depth.toNat := by
      have hzero : (s.begin.setRetention depth.toNat).sealedCount - (s.begin.setRetention depth.toNat).ec.retention = 0 :=
        Nat.sub_eq_zero_of_le hfew
      rw [State.commitExcess, hzero]
      rfl
    rw [exec_retentionSet hl hr hh h1 h63, hexcess]
    rfl
  case excess =>
    let v : State := s.begin.setRetention depth.toNat
    have hv : v.ec.table = (old ++ [y]) ++ rest := by
      rw [List.append_assoc]
      exact ht
    have hsealed : ∀ z ∈ old ++ [y], z.state = .sealed := by
      intro z hz
      obtain hz | hz := List.mem_append.1 hz
      · exact hold z hz
      · rw [List.mem_singleton.1 hz, hy]
    have hn : v.sealedCount - v.ec.retention = (old ++ [y]).length := by
      have h : v.sealedCount = depth.toNat + (old.length + 1) := hcount
      have hr : v.ec.retention = depth.toNat := rfl
      rw [h, hr, List.length_append, List.length_singleton]
      omega
    have hc : v.Commits (v.commitExcess .depth) .depth (old ++ [y]) rest := by
      rw [State.commitExcess, hn]
      exact State.commitN_commits hsealed hv .depth
    obtain ⟨evs, he, hf, -⟩ := hc.eq
    refine ⟨v.commitExcess .depth, exec_retentionSet hl hr hh h1 h63, hc.ec, hc.head, ?_, ⟨evs, he, hf⟩, hc.calm.sameSlots,
      hc.calm.cu, hc.calm.su, hc.calm.wu, hc.calm.re, hc.calm.da,
      hc.calm.sameAround (s.begin_setRetention_sameAround depth.toNat)⟩
    rw [hc.tail]
    exact foldl_endLine List.getLast?_concat hline _

/-! ## ROLLBACK accepted (R140) -/

/-- The record of a request moved to HELD at time `now`. -/
def Slot.heldAt (x : Slot) (now : Word32) : Slot := { x with state := .held, holdEntry := some now, atPoint := false }

/-- Slot by slot, in the order they stand, each request that an acceptance moves is HELD and withdrawn. -/
theorem State.hold_from (b a : List Slot) (s : State) (h : s.iq.slots = a ++ b) (hd : (s.iq.slots.map (·.ix)).Nodup) :
    ((b.filter Slot.toHold).map (·.ix)).foldl (fun t q => (t.withdraw q).hold q) s =
      { s with
        iq := { s.iq with slots := a ++ b.map (fun x => if x.toHold then x.heldAt s.eq.time else x) }
        da := { s.da with forward := s.da.forward.filter (fun q => b.all (fun x => x.ix != q || !x.toHold)) } } := by
  induction b generalizing a s with
  | nil =>
    have hs : { s.iq with slots := a ++ [] } = s.iq := by rw [← h]
    have hf : { s.da with forward := s.da.forward.filter (fun _ => true) } = s.da := by
      rw [List.filter_eq_self.2 (fun _ _ => rfl)]
    simp only [List.filter_nil, List.map_nil, List.foldl_nil, List.all_nil, hs, hf]
  | cons x b ih =>
    cases hx : x.toHold with
    | false =>
      rw [List.filter_cons_of_neg (by simp [hx]), ih (a ++ [x]) s (by rw [h, List.append_assoc]; rfl) hd]
      simp only [List.map_cons, List.all_cons, hx, Bool.false_eq_true, if_false, Bool.not_false, Bool.or_true, Bool.true_and,
        List.append_assoc, List.singleton_append]
    | true =>
      let u : State := (s.withdraw x.ix).hold x.ix
      have hslots : u.iq.slots = a ++ x.heldAt s.eq.time :: b := by
        rw [h] at hd
        show s.iq.slots.map (fun y => if y.ix == x.ix then y.heldAt s.eq.time else y) = _
        rw [h, map_middle hd]
      have hkeys : (u.iq.slots.map (·.ix)).Nodup := by
        rw [hslots]
        rw [h] at hd
        rw [List.map_append, List.map_cons] at hd ⊢
        exact hd
      have hforward : u.da.forward.filter (fun q => b.all (fun x => x.ix != q || !x.toHold)) =
          s.da.forward.filter (fun q => (x :: b).all (fun x => x.ix != q || !x.toHold)) := by
        show (s.da.forward.filter (fun q => q != x.ix)).filter _ = _
        rw [List.filter_filter]
        refine List.filter_congr (fun q _ => ?_)
        rw [List.all_cons, hx, Bool.not_true, Bool.or_false, Bool.and_comm, bne_comm]
      rw [List.filter_cons_of_pos hx, List.map_cons, List.foldl_cons]
      show List.foldl _ u _ = _
      rw [ih (a ++ [x.heldAt s.eq.time]) u (by rw [hslots, List.append_assoc]; rfl) hkeys, hforward]
      simp only [List.map_cons, hx, if_true, List.append_assoc, List.singleton_append]
      rfl

theorem State.holdWaiting_eq {s : State} (hd : (s.iq.slots.map (·.ix)).Nodup) : s.holdWaiting =
    { s with
      iq := { s.iq with slots := s.iq.slots.map (fun x => if x.toHold then x.heldAt s.eq.time else x) }
      da := { s.da with forward := s.da.forward.filter (fun q => s.iq.slots.all (fun x => x.ix != q || !x.toHold)) } } :=
  State.hold_from s.iq.slots [] s rfl hd

/-- ROLLING entered, with the counts of R140 and a pending boundary dropped. -/
def State.rollingTo (s : State) (t : EpochNo) : State :=
  { s with
    ec := { s.ec with bridge := .rolling, pending := false, closing := if s.ec.pending then false else s.ec.closing }
    re := { s.re with
      phase := .drain
      target := some t
      applied := 0
      failures := if s.ec.bridge = .journaling then 0 else s.re.failures
      discarded :=
        let base := if s.ec.bridge = .journaling then 0 else s.re.discarded
        if s.ec.pending then (if base < 255 then base + 1 else 255) else base
      reach := if s.ec.bridge = .journaling then none else s.re.reach } }

theorem State.rollingTo_eq (s : State) (t : EpochNo) :
    (s.freshRollback.enterRolling t).dropPending = s.rollingTo t := by
  unfold State.rollingTo
  cases hp : s.ec.pending with
  | true =>
    by_cases hb : s.ec.bridge = .journaling
    · have hf : s.freshRollback = { s with re := { s.re with failures := 0, discarded := 0, reach := none } } := if_pos hb
      rw [hf, if_pos hb, if_pos hb, if_pos hb]
      exact if_pos hp
    · have hf : s.freshRollback = s := if_neg hb
      rw [hf, if_neg hb, if_neg hb, if_neg hb]
      exact if_pos hp
  | false =>
    have hec : { s.ec with bridge := .rolling, pending := false } = { s.ec with bridge := .rolling } := by rw [← hp]
    by_cases hb : s.ec.bridge = .journaling
    · have hf : s.freshRollback = { s with re := { s.re with failures := 0, discarded := 0, reach := none } } := if_pos hb
      rw [hf, if_pos hb, if_pos hb, if_pos hb]
      refine (if_neg (by show ¬ s.ec.pending = true; rw [hp]; decide) : State.dropPending _ = _).trans ?_
      simp only [Bool.false_eq_true, if_false, hec]
      rfl
    · have hf : s.freshRollback = s := if_neg hb
      rw [hf, if_neg hb, if_neg hb, if_neg hb]
      refine (if_neg (by show ¬ s.ec.pending = true; rw [hp]; decide) : State.dropPending _ = _).trans ?_
      simp only [Bool.false_eq_true, if_false, hec]
      rfl

theorem Slot.toHold_iff (x : Slot) : x.toHold = true ↔
    x.state = .waiting ∧ (x.kind = .journal ∨ x.kind = .guard) ∧ x.outcome = none ∧ x.captureEnded = false := by
  unfold Slot.toHold Slot.journaled WinKind.journaled
  simp only [Bool.and_eq_true, Bool.or_eq_true, beq_iff_eq, Option.isNone_iff_eq_none, Bool.not_eq_true', and_assoc]

/-- Settles O44: the conditions of R139 fail, and the acceptance moves each request in turn. -/
theorem rollbackAccepted : Obligations.RollbackAccepted := by
  unfold Obligations.RollbackAccepted
  intro s t hl k hin hspan hready moves base
  have hmoves : Slot.toHold = moves := by
    funext x
    rw [Bool.eq_iff_iff, x.toHold_iff]
    exact decide_eq_true_iff.symm
  have hno : s.rollbackRefusal t = none := by
    have hbroken : ¬ s.spanBroken t = true := by
      rintro h
      obtain ⟨y, hy, hb⟩ := (s.spanBroken_iff t).1 h
      rw [hspan y hy] at hb
      exact absurd hb (by decide)
    have hnew : ¬ (s.ec.bridge = .halted ∧ s.re.reach.any (fun r => s.newer t r) = true) := by
      rintro ⟨hh, hn⟩
      obtain ⟨r, hr, hlt⟩ := (s.newerThanReach_iff t).1 hn
      obtain ⟨hj, -⟩ | ⟨-, hle⟩ := hready
      · exact absurd (hj.symm.trans hh) (by decide)
      · exact absurd (hle r hr) (Nat.not_le.2 hlt)
    rw [State.rollbackRefusal_of_ready t (hready.imp_right And.left), if_neg (State.entry?_isNone_of_mem hin), if_neg hbroken,
      if_neg hnew]
  have hd : ((s.begin.rollingTo t).iq.slots.map (·.ix)).Nodup := k.distinct
  refine ⟨(s.begin.rollingTo t).holdWaiting, ?_, ?_⟩
  · rw [exec_rollback_accepted hl hno, State.acceptRollback, State.rollingTo_eq]
    rfl
  · rw [State.holdWaiting_eq hd, hmoves]
    exact ⟨rfl, rfl, rfl, rfl, rfl, rfl, rfl, rfl, rfl, rfl, rfl, rfl, rfl, rfl, rfl, rfl, rfl, rfl⟩

end Sys2Proof.Machine

/-! JOURNAL SETUP and JOURNAL RESET (R24, R43, R199). -/
namespace Sys2Proof.Machine

/-! ## The new region (R24, R43) -/

/-- The request is fenced by the region (R24). -/
def State.fences (s : State) (x : Slot) : Bool := decide (x.state ≠ .issued ∧ x.outcome = none ∧ s.inRegion x.req.addr = true)

/-- The record of a request that the region fences. -/
def Slot.fenced (x : Slot) : Slot := { x.unheld with outcome := some .fenced, atPoint := false }

def Slot.fenceEvent (x : Slot) : Event :=
  { code := .fenceHit, master := some x.req.master, arg := pageArg x.req.addr }

theorem Slot.unheld_ix (x : Slot) : x.unheld.ix = x.ix := by unfold Slot.unheld; split <;> rfl

theorem Slot.unheld_state (x : Slot) : x.unheld.state ≠ .held := by
  unfold Slot.unheld
  split
  · simp
  · assumption

theorem Slot.fenced_ix (x : Slot) : x.fenced.ix = x.ix := x.unheld_ix

theorem State.refence_not {s : State} {x : Slot} (hx : s.slot? x.ix = some x) (h : s.fences x = false) :
    s.refence x.ix = s := by
  have h' : ¬ (x.state ≠ .issued ∧ x.outcome.isNone = true ∧ s.inRegion x.req.addr = true) := by
    rw [Option.isNone_iff_eq_none]
    exact of_decide_eq_false h
  unfold State.refence
  rw [hx]
  exact if_neg h'

theorem State.refence_of {s : State} {x : Slot} (hx : s.slot? x.ix = some x) (h : s.fences x = true) :
    s.refence x.ix = ((s.withdraw x.ix).setSlot x.ix Slot.fenced).raise x.fenceEvent := by
  have h' : x.state ≠ .issued ∧ x.outcome.isNone = true ∧ s.inRegion x.req.addr = true := by
    rw [Option.isNone_iff_eq_none]
    exact of_decide_eq_true h
  unfold State.refence
  rw [hx]
  exact if_pos h'

/-- Slot by slot, in the order they stand, each request that the region fences is decided and withdrawn. -/
theorem State.refence_from (b a : List Slot) (s : State) (h : s.iq.slots = a ++ b) (hd : (s.iq.slots.map (·.ix)).Nodup) :
    (b.map (·.ix)).foldl (fun t q => t.refence q) s =
      { s with
        iq := { s.iq with slots := a ++ b.map (fun x => if s.fences x then x.fenced else x) }
        da := { s.da with forward := s.da.forward.filter (fun q => b.all (fun x => x.ix != q || !s.fences x)) }
        eq := s.eq.raiseAll ((b.filter s.fences).map Slot.fenceEvent) } := by
  induction b generalizing a s with
  | nil =>
    have hs : { s.iq with slots := a ++ [] } = s.iq := by rw [← h]
    have hf : { s.da with forward := s.da.forward.filter (fun _ => true) } = s.da := by
      rw [List.filter_eq_self.2 (fun _ _ => rfl)]
    simp only [List.filter_nil, List.map_nil, List.foldl_nil, List.all_nil, hs, hf, EventQueue.raiseAll_nil]
  | cons x b ih =>
    have hx := State.slot?_middle h hd
    rw [List.map_cons, List.foldl_cons]
    cases hfx : s.fences x with
    | false =>
      rw [State.refence_not hx hfx, ih (a ++ [x]) s (by rw [h, List.append_assoc]; rfl) hd]
      simp only [List.map_cons, List.all_cons, List.filter_cons, hfx, Bool.false_eq_true, if_false, Bool.not_false,
        Bool.or_true, Bool.true_and, List.append_assoc, List.singleton_append]
    | true =>
      let u : State := ((s.withdraw x.ix).setSlot x.ix Slot.fenced).raise x.fenceEvent
      have hslots : u.iq.slots = a ++ x.fenced :: b := by
        rw [h] at hd
        show s.iq.slots.map (fun y => if y.ix == x.ix then y.fenced else y) = _
        rw [h, map_middle hd]
      have hkeys : (u.iq.slots.map (·.ix)).Nodup := by
        rw [hslots]
        rw [h] at hd
        rw [List.map_append, List.map_cons] at hd ⊢
        rw [x.fenced_ix]
        exact hd
      have hforward : u.da.forward.filter (fun q => b.all (fun x => x.ix != q || !s.fences x)) =
          s.da.forward.filter (fun q => (x :: b).all (fun x => x.ix != q || !s.fences x)) := by
        show (s.da.forward.filter (fun q => q != x.ix)).filter _ = _
        rw [List.filter_filter]
        refine List.filter_congr (fun q _ => ?_)
        rw [List.all_cons, hfx, Bool.not_true, Bool.or_false, Bool.and_comm, bne_comm]
      have hfences : u.fences = s.fences := rfl
      rw [State.refence_of hx hfx]
      show List.foldl _ u _ = _
      rw [ih (a ++ [x.fenced]) u (by rw [hslots, List.append_assoc]; rfl) hkeys, hfences, hforward]
      simp only [List.map_cons, List.filter_cons, hfx, if_true, List.append_assoc, List.singleton_append]
      rfl

theorem State.refenceAll_eq {s : State} (hd : (s.iq.slots.map (·.ix)).Nodup) : s.refenceAll =
    { s with
      iq := { s.iq with slots := s.iq.slots.map (fun x => if s.fences x then x.fenced else x) }
      da := { s.da with forward := s.da.forward.filter (fun q => s.iq.slots.all (fun x => x.ix != q || !s.fences x)) }
      eq := s.eq.raiseAll ((s.iq.slots.filter s.fences).map Slot.fenceEvent) } :=
  State.refence_from s.iq.slots [] s rfl hd

/-- The state with the region set, before the thresholds are evaluated. -/
def State.regioned (s : State) (base pages : Word32) : State :=
  { s with jw := { s.jw with
      region := some { base := base.toNat, pages := pages.toNat }, head := 0, tail := 0, reason := none } }

/-- With pressure NORMAL the empty ring stays NORMAL. -/
theorem State.setRegion_normal {s : State} {base pages : Word32} (hp : s.jw.pressure = .normal) (h16 : 16 ≤ pages.toNat) :
    s.setRegion base pages = s.regioned base pages := by
  let v : State :=
    { s with jw := { s.jw with region := some { base := base.toNat, pages := pages.toNat }, head := 0, tail := 0 } }
  have hring : v.ringLines = pages.toNat * 256 := rfl
  have hev : v.Evaluates := ⟨by show s.jw.pressure ≠ _; rw [hp]; decide, by omega⟩
  have hused : v.used = 0 := by
    rw [State.used_of_ring hev.2]
    show (0 + v.ringLines - 0) % v.ringLines = 0
    simp
  have hpercent (n : Nat) (hn : 1 ≤ n) : ¬ v.percent n ≤ v.used := by
    rw [hused, State.percent, hring, Nat.not_le]
    have : 100 ≤ pages.toNat * 256 * n := by
      calc 100 ≤ pages.toNat * 256 * 1 := by omega
        _ ≤ pages.toNat * 256 * n := Nat.mul_le_mul_left _ hn
    omega
  have hvp : v.jw.pressure = .normal := hp
  have hnormal : v.evaluated = .normal := by
    unfold State.evaluated
    rw [hvp]
    exact (if_neg (hpercent 90 (by decide))).trans (if_neg (hpercent 75 (by decide)))
  show v.evaluate = _
  rw [State.evaluate_of hev, hnormal, hvp]
  show v.setPressure .normal none = _
  unfold State.setPressure
  dsimp only
  rw [if_pos hvp]
  show ({ s with jw := { s.jw with region := _, head := 0, tail := 0, pressure := .normal, reason := none } } : State) = _
  rw [← hp]
  rfl

theorem State.ringOutstanding_iff (s : State) : s.ringOutstanding = true ↔
    ∃ (p : PortIx) (k : PortSlot), s.da.slots[p] = some k ∧ k.kind.isRing = true := s.anyPort_iff _

theorem setupInvalid_iff (base pages : Word32) : setupInvalid base pages = true ↔
    pages.toNat < 16 ∨ 262144 < pages.toNat ∨ 67108864 < base.toNat + pages.toNat := by
  unfold setupInvalid
  simp only [Bool.or_eq_true, decide_eq_true_eq, or_assoc]

/-- Settles O52: the conditions in their order; then the region is set, and each request in it is fenced in turn. -/
theorem journalSetup : Obligations.JournalSetup := by
  unfold Obligations.JournalSetup
  intro s base pages hl invalid busy
  have hrow := answers_journalSetup base pages
  refine ⟨fun hb => hrow.refuses hl (if_pos hb), fun hb hi => hrow.refuses hl ?argument,
    fun hb hi hbusy => hrow.refuses hl ?busy, fun hb hi hbusy k hp => ?done⟩
  case argument => exact (if_neg (Classical.not_not.2 hb)).trans (if_pos ((setupInvalid_iff base pages).2 hi))
  case busy =>
    exact (if_neg (Classical.not_not.2 hb)).trans ((if_neg (mt (setupInvalid_iff base pages).1 hi)).trans
      (if_pos ((s.begin.ringOutstanding_iff).2 hbusy)))
  case done =>
    intro hit
    let v : State := s.begin.regioned base pages
    have h16 : 16 ≤ pages.toNat := by
      have := not_or.1 hi
      omega
    have hset : s.begin.setRegion base pages = v := State.setRegion_normal (s := s.begin) hp h16
    have hd : (v.iq.slots.map (·.ix)).Nodup := k.distinct
    have hfences : v.fences = hit := by
      funext x
      rw [Bool.eq_iff_iff]
      refine decide_eq_true_iff.trans (Iff.trans ?_ decide_eq_true_iff.symm)
      rw [State.inRegion_iff (s := v) rfl]
    have hu := State.refenceAll_eq hd
    rw [hfences] at hu
    have hslot (q : SlotIx) : v.refenceAll.slot? q = (s.slot? q).map (fun x => if hit x then x.fenced else x) := by
      have hix (x : Slot) : (if hit x then x.fenced else x).ix = x.ix := by
        split
        · exact x.fenced_ix
        · rfl
      rw [hu]
      exact find?_map_ix hix s.iq.slots q
    refine ⟨v.refenceAll, ?_, ?_, ?_, ?_, fun q x hx => ⟨fun hh => ⟨?_, ?_⟩, fun hh => ?_⟩, ?_⟩
    · refine hrow.settles hl ((if_neg (Classical.not_not.2 hb)).trans ((if_neg (mt (setupInvalid_iff base pages).1 hi)).trans
        ((if_neg (mt (s.begin.ringOutstanding_iff).1 hbusy)).trans ?_)))
      rw [hset]
    · rw [hu]; rfl
    · rw [hu]; rfl
    · rw [hu]
      show s.eq.raiseAll _ = _
      refine congrArg (fun l => s.eq.raiseAll l) (List.map_congr_left (fun x _ => ?_))
      rw [Slot.fenceEvent, pageArg_eq]
    · rw [hu]
      intro hq
      obtain ⟨hxm, hxq⟩ := State.mem_of_slot? hx
      have hall := (List.mem_filter.1 hq).2
      have := List.all_eq_true.1 hall x hxm
      rw [hh, hxq] at this
      simp at this
    · refine ⟨x.fenced, ?_, x.unheld_key, rfl, x.unheld_state⟩
      rw [hslot, hx, Option.map_some, if_pos hh]
    · rw [hslot, hx, Option.map_some, if_neg (by rw [hh]; decide)]
    · rw [hu]
      exact ⟨rfl, rfl, rfl, rfl, rfl, rfl, rfl, rfl, rfl, rfl, rfl, rfl, EventQueue.raiseAll_mask _ _,
        EventQueue.raiseAll_time _ _, rfl⟩

end Sys2Proof.Machine

/-! JOURNAL RESET (R199). -/
namespace Sys2Proof.Machine

/-! ## Captures abandoned (R20, R78) -/

/-- The record of a request whose capture, if it has one, is abandoned. -/
def Slot.abandoned (x : Slot) (tripped : Bool) : Slot :=
  if x.state = .capturing then
    if x.outcome.isNone ∧ tripped then
      { x with state := .waiting, captureEnded := true, outcome := some .tripped, atPoint := false }
    else { x with state := .waiting, captureEnded := true }
  else x

theorem Slot.abandoned_ix (x : Slot) (b : Bool) : (x.abandoned b).ix = x.ix := by
  unfold Slot.abandoned
  split
  · split <;> rfl
  · rfl

theorem Slot.abandoned_win (x : Slot) (b : Bool) : (x.abandoned b).win = x.win := by
  unfold Slot.abandoned
  split
  · split <;> rfl
  · rfl

theorem Slot.abandoned_key (x : Slot) (b : Bool) : (x.abandoned b).key = x.key := by
  unfold Slot.abandoned
  split
  · split <;> rfl
  · rfl

theorem Slot.abandoned_state (x : Slot) (b : Bool) :
    (x.abandoned b).state = if x.state = .capturing then .waiting else x.state := by
  unfold Slot.abandoned
  split
  · split <;> rfl
  · rfl

theorem Slot.abandoned_outcome (x : Slot) (b : Bool) : (x.abandoned b).outcome =
    if x.state = .capturing ∧ x.outcome = none ∧ b = true then some .tripped else x.outcome := by
  unfold Slot.abandoned
  by_cases hs : x.state = .capturing
  · by_cases ho : x.outcome.isNone ∧ b = true
    · rw [if_pos hs, if_pos ho, if_pos ⟨hs, Option.isNone_iff_eq_none.1 ho.1, ho.2⟩]
    · rw [if_pos hs, if_neg ho, if_neg (fun h => ho ⟨Option.isNone_iff_eq_none.2 h.2.1, h.2.2⟩)]
  · rw [if_neg hs, if_neg (fun h => hs h.1)]

/-- Abandoned twice is abandoned. -/
theorem Slot.abandoned_idem (x : Slot) (b : Bool) : (x.abandoned b).abandoned b = x.abandoned b := by
  have h : ¬ (x.abandoned b).state = .capturing := by
    rw [x.abandoned_state]
    split
    · decide
    · assumption
  exact if_neg h

/-- What abandoning captures changes: the slots and the event queue, which takes TRIPPED-WRITE alone. -/
structure State.Abandons (s u : State) : Prop where
  frame  : u = { s with iq := { s.iq with slots := u.iq.slots }, eq := u.eq }
  events : ∃ evs, u.eq = s.eq.raiseAll evs ∧ ∀ ev ∈ evs, ev.code = .trippedWrite

theorem State.Abandons.refl (s : State) : s.Abandons s := ⟨rfl, [], rfl, by simp⟩

theorem State.Abandons.trans {s t u : State} (h : s.Abandons t) (k : t.Abandons u) : s.Abandons u where
  frame := by
    refine k.frame.trans ?_
    rw [h.frame]
  events := by
    obtain ⟨a, ha, hac⟩ := h.events
    obtain ⟨b, hb, hbc⟩ := k.events
    refine ⟨a ++ b, by rw [hb, ha, EventQueue.raiseAll_append], fun ev hev => ?_⟩
    obtain hev | hev := List.mem_append.1 hev
    · exact hac ev hev
    · exact hbc ev hev

theorem State.abandonCapture_none {s : State} {q : SlotIx} (h : s.slot? q = none) : s.abandonCapture q = s := by
  unfold State.abandonCapture
  rw [h]

/-- One capture abandoned. -/
theorem State.abandonCapture_some {s : State} {q : SlotIx} {x : Slot} (h : s.slot? q = some x) :
    s.Abandons (s.abandonCapture q) ∧ (s.abandonCapture q).slot? q = some (x.abandoned (s.tripped x.win)) ∧
    ∀ r, r ≠ q → (s.abandonCapture q).slot? r = s.slot? r := by
  obtain rfl : x.ix = q := (State.mem_of_slot? h).2
  let ended : Slot → Slot := fun z => { z with state := .waiting, captureEnded := true }
  have hsame := State.slot?_setSlot_same (f := ended) (fun _ => rfl) h
  have hother (r : SlotIx) (hr : r ≠ x.ix) := State.slot?_setSlot_other (s := s) (f := ended) hr (fun _ => rfl)
  have hab : s.abandonCapture x.ix = if x.state = .capturing then
      (if x.outcome.isNone ∧ s.tripped x.win then (s.setSlot x.ix ended).decideTripped x else s.setSlot x.ix ended) else s := by
    unfold State.abandonCapture
    rw [h]
  unfold Slot.abandoned
  rw [hab]
  by_cases hs : x.state = .capturing
  · rw [if_pos hs, if_pos hs]
    by_cases ho : x.outcome.isNone ∧ s.tripped x.win
    · rw [if_pos ho, if_pos ho]
      refine ⟨⟨rfl, [_], rfl, fun ev hev => ?_⟩, ?_, fun r hr => ?_⟩
      · rw [List.mem_singleton.1 hev]
      · exact State.slot?_setSlot_same (f := fun y => { y with outcome := some .tripped, atPoint := false }) (fun _ => rfl) hsame
      · exact (State.slot?_setSlot_other (f := fun y => { y with outcome := some .tripped, atPoint := false }) hr
          (fun _ => rfl)).trans (hother r hr)
    · rw [if_neg ho, if_neg ho]
      exact ⟨⟨rfl, [], rfl, by simp⟩, hsame, hother⟩
  · rw [if_neg hs, if_neg hs]
    exact ⟨.refl s, h, fun _ _ => rfl⟩

theorem State.abandonCapture_abandons (s : State) (q : SlotIx) : s.Abandons (s.abandonCapture q) := by
  cases h : s.slot? q with
  | none => rw [State.abandonCapture_none h]; exact .refl s
  | some x => exact (State.abandonCapture_some h).1

theorem State.Abandons.tripped {s u : State} (h : s.Abandons u) (w : Option WinIx) : u.tripped w = s.tripped w :=
  State.tripped_of_wu (by rw [h.frame]) w

/-- Captures abandoned one after the other: each slot named is abandoned, and no other is changed. -/
theorem State.abandonAll (l : List SlotIx) (s : State) : s.Abandons (l.foldl (fun t q => t.abandonCapture q) s) ∧
    ∀ r x, s.slot? r = some x → (l.foldl (fun t q => t.abandonCapture q) s).slot? r =
      some (if r ∈ l then x.abandoned (s.tripped x.win) else x) := by
  induction l generalizing s with
  | nil => exact ⟨.refl s, fun r x hx => hx⟩
  | cons q l ih =>
    have h1 := s.abandonCapture_abandons q
    obtain ⟨h2, hslots⟩ := ih (s.abandonCapture q)
    refine ⟨h1.trans h2, fun r x hx => ?_⟩
    rw [List.foldl_cons]
    by_cases hr : r = q
    · subst hr
      rw [hslots r _ (State.abandonCapture_some hx).2.1, if_pos List.mem_cons_self, x.abandoned_win, h1.tripped,
        x.abandoned_idem]
      split <;> rfl
    · have hx' : (s.abandonCapture q).slot? r = some x := by
        cases hq : s.slot? q with
        | none => rw [State.abandonCapture_none hq, hx]
        | some z => rw [(State.abandonCapture_some hq).2.2 r hr, hx]
      rw [hslots r x hx', h1.tripped]
      simp only [List.mem_cons, hr, false_or]

/-- The record of a request after JOURNAL RESET (R20). -/
def Slot.resetBy (x : Slot) (tripped : Bool) : Slot := (x.abandoned tripped).unassigned.unheld

theorem Slot.unheld_epoch (x : Slot) : x.unheld.epoch = x.epoch := by unfold Slot.unheld; split <;> rfl

theorem Slot.unheld_marking (x : Slot) : x.unheld.marking = x.marking := by unfold Slot.unheld; split <;> rfl

theorem Slot.unheld_outcome (x : Slot) : x.unheld.outcome = x.outcome := by unfold Slot.unheld; split <;> rfl

theorem Slot.resetBy_state (x : Slot) (b : Bool) :
    (x.resetBy b).state = if x.state = .issued then .issued else .waiting := by
  have h : (x.abandoned b).unassigned.state = if x.state = .capturing then .waiting else x.state := x.abandoned_state b
  unfold Slot.resetBy Slot.unheld
  cases hs : x.state <;> rw [hs] at h <;> simp [h]

theorem Slot.resetBy_outcome (x : Slot) (b : Bool) : (x.resetBy b).outcome =
    if x.state = .capturing ∧ x.outcome = none ∧ b = true then some .tripped else x.outcome :=
  (Slot.unheld_outcome _).trans (x.abandoned_outcome b)

theorem State.resetIntake_slot? {s : State} {q : SlotIx} {x : Slot} (h : s.slot? q = some x) :
    s.resetIntake.slot? q = some (x.resetBy (s.tripped x.win)) := by
  obtain ⟨hxm, hxq⟩ := State.mem_of_slot? h
  have hall := (s.abandonAll (s.iq.slots.map (·.ix))).2 q x h
  rw [if_pos (List.mem_map.2 ⟨x, hxm, hxq⟩)] at hall
  refine (find?_map_ix (f := fun x => x.unassigned.unheld) (fun y => (Slot.unheld_ix _)) _ q).trans ?_
  show ((List.foldl (fun t q => t.abandonCapture q) s _).slot? q).map _ = _
  rw [hall]
  rfl

theorem State.resetIntake_abandons (s : State) : s.Abandons s.resetIntake :=
  (s.abandonAll (s.iq.slots.map (·.ix))).1.trans ⟨rfl, [], rfl, by simp⟩

/-! ## The blocks' parts (R56, R160, R172) -/

/-- The queue after a rollback in progress is aborted (R160). -/
def State.abortedEvents (s : State) : EventQueue :=
  if s.ec.bridge = .rolling then
    s.eq.raise { code := .rollbackAborted, epoch := s.re.target, arg := packCount s.re.applied s.re.phase.code }
  else s.eq

theorem State.abortedEvents_kept (s : State) : s.abortedEvents.mask = s.eq.mask ∧ s.abortedEvents.time = s.eq.time := by
  unfold State.abortedEvents
  split
  · exact ⟨EventQueue.raise_mask _ _, EventQueue.raise_time _ _⟩
  · exact ⟨rfl, rfl⟩

theorem State.abortRollback_eq (s : State) : s.abortRollback =
    { s with re := { RollbackEngine.reset with failures := s.re.failures }, eq := s.abortedEvents } := by
  unfold State.abortRollback State.abortedEvents
  dsimp only
  split <;> rfl

/-- The state JOURNAL RESET leaves, before the consequences. -/
theorem State.journalReset_frame (s : State) : ∃ evs, (∀ ev ∈ evs, ev.code = .trippedWrite) ∧ s.journalReset =
    { s with
      iq := { s.iq with slots := s.journalReset.iq.slots }
      cu := { touched := [], captures := [] }
      jw := s.jw.journalReset
      ec := s.ec.journalReset
      su := { s.su with openBank := Bank.reset, sealingBank := Bank.reset }
      re := { RollbackEngine.reset with failures := s.re.failures }
      da := s.da.journalReset
      eq := (s.abortedEvents.raiseAll evs).raise
        { code := .journalReset, epoch := s.resetEpoch, arg := packBytes s.ec.bridge.code s.ec.table.length 0 0 } } := by
  have hab := s.abortRollback.resetIntake_abandons
  obtain ⟨evs, he, hc⟩ := hab.events
  have hframe := hab.frame
  rw [he, s.abortRollback_eq] at hframe
  refine ⟨evs, hc, ?_⟩
  unfold State.journalReset
  dsimp only
  rw [s.abortRollback_eq, hframe]
  rfl

theorem State.journalReset_slot? {s : State} {q : SlotIx} {x : Slot} (h : s.slot? q = some x) :
    s.journalReset.slot? q = some (x.resetBy (s.tripped x.win)) := by
  have h' : s.abortRollback.slot? q = some x := by rw [s.abortRollback_eq]; exact h
  have htrip : s.abortRollback.tripped x.win = s.tripped x.win := State.tripped_of_wu (by rw [s.abortRollback_eq]) _
  rw [← htrip]
  exact State.resetIntake_slot? h'

theorem PortSlot.flagged_eq (k : PortSlot) :
    k.flagged = if k.kind.forwardOwner?.isSome then k else { k with discard := true } := by
  obtain ⟨kind, discard⟩ := k
  cases kind <;> simp [PortSlot.flagged, PortKind.claimant, PortKind.forwardOwner?]

theorem Arbiter.journalReset_slots (a : Arbiter) (p : PortIx) :
    a.journalReset.slots[p] = (a.slots[p]).map PortSlot.flagged := Vector.getElem_ofFn _

theorem packCount_phase (n : Nat) (ph : Phase) : packCount n ph.code =
    (BitVec.ofNat 8 (match ph with | .idle => 0 | .drain => 1 | .walk => 2) ++ BitVec.ofNat 24 n : BitVec 32) := by
  cases ph <;> rfl

theorem packBytes_bridge (b : Bridge) (n : Nat) : packBytes b.code n 0 0 =
    word32 (match b with
      | .passthrough => 0#8 | .journaling => 1#8 | .closing => 2#8 | .rolling => 3#8 | .halted => 4#8)
      (BitVec.ofNat 8 n) 0#8 0#8 := by
  rw [packBytes_two]
  cases b <;> dsimp only <;> rfl

theorem State.resetEpoch_eq (s : State) : s.resetEpoch = match s.openEntry? with
    | some o => some o.number
    | none => if s.ec.bridge = .closing then s.sealingEntry?.map (·.number) else none := by
  unfold State.resetEpoch State.openEpoch?
  cases s.openEntry? <;> rfl

/-- Settles O49: every block's part, with each request's record read off slot by slot. -/
theorem journalReset : Obligations.JournalReset := by
  unfold Obligations.JournalReset
  intro s hl
  obtain ⟨evs, hc, hu⟩ := s.begin.journalReset_frame
  have hrow : exec .journalReset s = .next (s.begin.journalReset.settle.withAnswer (.answer answerDone)) :=
    (Answers.always (fun _ => rfl) (cell_always (by simp)) :
      Answers .journalReset 0 (fun t => Reply.done t.journalReset.settle [])).settles hl rfl
  refine ⟨s.begin.journalReset, evs, hrow, ?ec, ?jw, ?cu, ?su, ?wu, ?around, ?re, ?forward, ?capture, ?sealWriter, ?rollback,
    ?heldCapture, ?heldSealWriter, ?granted, fun p hp => ?free, fun p k hp => ?flagged, fun q x hx => ?slots, hc, ?events⟩
  case events =>
    have he := congrArg State.eq hu
    refine he.trans ?_
    show ((s.abortedEvents.raiseAll evs).raise { code := .journalReset, epoch := s.resetEpoch, arg := _ }) = _
    rw [packBytes_bridge, State.resetEpoch_eq, State.abortedEvents, packCount_phase] <;> rfl
  case slots =>
    refine ⟨_, State.journalReset_slot? (s := s.begin) hx, ?_, ?_, ?_, fun hs => ?_, fun hs => ?_, fun ho => ?_, fun ho hs => ?_⟩
    · exact (Slot.unheld_key _).trans (x.abandoned_key _)
    · exact Slot.unheld_epoch _
    · exact Slot.unheld_marking _
    · rw [x.resetBy_state, if_pos hs]
    · rw [x.resetBy_state, if_neg hs]
    · rw [x.resetBy_outcome, if_neg]
      rintro ⟨-, h, -⟩
      rw [h] at ho
      exact absurd ho (by decide)
    · rw [x.resetBy_outcome, if_neg, ho]
      rintro ⟨hs', -, ht⟩
      obtain hs | hs := hs
      · exact hs hs'
      · exact absurd (ht.symm.trans hs) (by decide)
  all_goals rw [hu]
  case around =>
    refine ⟨rfl, rfl, rfl, rfl, rfl, rfl, ?_, ?_, rfl⟩
    · exact (EventQueue.raise_mask _ _).trans ((EventQueue.raiseAll_mask _ _).trans s.begin.abortedEvents_kept.1)
    · exact (EventQueue.raise_time _ _).trans ((EventQueue.raiseAll_time _ _).trans s.begin.abortedEvents_kept.2)
  case free =>
    show s.da.journalReset.slots[p] = none
    rw [s.da.journalReset_slots, hp]
    rfl
  case flagged =>
    show s.da.journalReset.slots[p] = _
    rw [s.da.journalReset_slots, hp, Option.map_some, PortSlot.flagged_eq]
  all_goals rfl

end Sys2Proof.Machine

/-! DA_GRANT: the rotation, what is sent, and what is withdrawn (R162 to R167). -/
namespace Sys2Proof.Machine

/-! ## The rotation (R166) -/

/-- What a claimant that is passed over leaves: nothing withdrawn, and nothing granted. -/
theorem State.PassedOver.skip {s : State} {c : Claimant} (h : s.PassedOver c) (p : PortIx) :
    s.prune c = s ∧ s.grantTo p c = none := by
  obtain ⟨hno, hfwd⟩ := h
  cases c with
  | forwardPath =>
    have hnil : s.da.forward = [] := hfwd rfl
    simp only [State.prune, State.grantTo, hnil, State.pruneForward, and_self]
  | capturePath =>
    refine ⟨rfl, ?_⟩
    unfold State.grantTo
    cases hc : s.da.capture with
    | nil => rfl
    | cons r rest =>
      have hnone : ¬ s.CanSend .capturePath := hno
      cases r with
      | oldRead q =>
        have hq : s.capture? q = none := by
          refine Classical.byContradiction (fun hq => ?_)
          exact hnone ⟨_, rest, hc, Option.isSome_iff_ne_none.2 hq⟩
        show (s.capture? q).map _ = none
        rw [hq]
        rfl
      | undoWrite q =>
        have hq : s.capture? q = none := by
          refine Classical.byContradiction (fun hq => ?_)
          exact hnone ⟨_, rest, hc, Option.isSome_iff_ne_none.2 hq⟩
        show (s.capture? q).map _ = none
        rw [hq]
        rfl
  | sealWriter =>
    refine ⟨rfl, ?_⟩
    unfold State.grantTo
    cases hw : s.da.sealWriter with
    | nil => rfl
    | cons w rest =>
      have hnone : ¬ s.CanSend .sealWriter := hno
      cases w with
      | pad line e len => exact absurd ⟨_, rest, hw, trivial⟩ hnone
      | openRec line e link => exact absurd ⟨_, rest, hw, trivial⟩ hnone
      | sealRec line e sigs =>
        have hb : s.sealBlocked e = true := by
          refine Classical.byContradiction (fun hb => ?_)
          exact hnone ⟨_, rest, hw, Bool.eq_false_iff.2 hb⟩
        exact if_pos hb
  | rollbackEngine =>
    refine ⟨rfl, ?_⟩
    unfold State.grantTo
    cases hw : s.da.rollback with
    | none => rfl
    | some w =>
      have hnone : ¬ s.CanSend .rollbackEngine := hno
      have hout : s.walkOut = true := by
        refine Classical.byContradiction (fun hout => ?_)
        exact hnone ⟨by rw [hw]; rfl, (s.walkOut_iff).1 (Bool.eq_false_iff.2 hout)⟩
      exact if_pos hout

theorem State.grantAlong_skip {s : State} {c : Claimant} (h : s.PassedOver c) (p : PortIx) (rest : List Claimant) :
    s.grantAlong p (c :: rest) = s.grantAlong p rest := by
  obtain ⟨hp, hg⟩ := h.skip p
  simp only [State.grantAlong, hp, hg]

theorem State.grantAlong_some {s t : State} {p : PortIx} {c : Claimant} (h : (s.prune c).grantTo p c = some t)
    (rest : List Claimant) : s.grantAlong p (c :: rest) = { t with da := { t.da with lastGranted := c } } := by
  simp only [State.grantAlong, h]

/-- Claimants passed over come to nothing. -/
theorem State.grantAlong_dropWhile {s : State} (p : PortIx) (f : Claimant → Bool) (cs : List Claimant)
    (h : ∀ d ∈ cs.takeWhile f, s.PassedOver d) : s.grantAlong p cs = s.grantAlong p (cs.dropWhile f) := by
  induction cs with
  | nil => rfl
  | cons d cs ih =>
    cases hd : f d with
    | true =>
      rw [List.takeWhile_cons_of_pos hd] at h
      rw [List.dropWhile_cons_of_pos hd, State.grantAlong_skip (h d List.mem_cons_self)]
      exact ih (fun e he => h e (List.mem_cons_of_mem d he))
    | false => rw [List.dropWhile_cons_of_neg (by simp [hd])]

theorem State.grantAlong_none {s : State} (h : ∀ c, s.PassedOver c) (p : PortIx) (cs : List Claimant) :
    s.grantAlong p cs = s := by
  induction cs with
  | nil => rfl
  | cons d cs ih => rw [State.grantAlong_skip (h d), ih]

theorem rotation_dropWhile (c d : Claimant) : ∃ rest, (rotation d).dropWhile (fun e => e != c) = c :: rest := by
  cases c <;> cases d <;> exact ⟨_, rfl⟩

theorem exec_daGrant {s : State} {p : PortIx} (h : s.Grantable p) :
    exec (.daGrant p) s = .next (s.begin.grantAlong p (rotation s.da.lastGranted)).settle := by
  obtain ⟨hr, hp⟩ := h
  have hno : ¬ (s.begin.inReset = true ∨ (s.begin.portSlot? p).isSome = true) := by
    have hp' : s.begin.portSlot? p = none := hp
    have hr' : s.begin.inReset = false := hr
    rw [hp', hr']
    decide
  show execDaGrant p s = _
  unfold execDaGrant
  dsimp only
  rw [if_neg hno]
  rfl

theorem State.PassedOver.begin {s : State} {c : Claimant} (h : s.PassedOver c) : s.begin.PassedOver c := by
  obtain ⟨hno, hf⟩ := h
  refine ⟨fun hc => hno ?_, hf⟩
  cases c <;> exact hc

/-- The grant goes to the claimant whose turn it is. -/
theorem exec_grant {s t : State} {p : PortIx} {c : Claimant} (h : s.Grantable p) (hturn : s.Turn c)
    (ht : (s.begin.prune c).grantTo p c = some t) :
    exec (.daGrant p) s = .next (State.settle { t with da := { t.da with lastGranted := c } }) := by
  obtain ⟨rest, hrest⟩ := rotation_dropWhile c s.da.lastGranted
  rw [exec_daGrant h, State.grantAlong_dropWhile p _ _ (fun d hd => (hturn d hd).begin), hrest, State.grantAlong_some ht]

/-! ## The lengths of what is sent (R50, R163) -/

theorem bytes32_length (x : BitVec 32) : (bytes32 x).length = 4 := rfl

theorem bytes16_length (x : BitVec 16) : (bytes16 x).length = 2 := rfl

theorem undoBytes_length (e : EpochNo) (w : Option WinIx) (dup : Bool) (link : Option Nat) (g : Granule) (old : List Byte) :
    (undoBytes e w dup link g old).length = 16 + old.length := by
  simp only [undoBytes, List.length_append, List.length_cons, List.length_nil, bytes32_length]

theorem padBytes_length (e : EpochNo) (len : Nat) : (padBytes e len).length = 16 := by
  simp only [padBytes, List.length_append, List.length_cons, List.length_nil, bytes32_length, List.length_replicate]

theorem openBytes_length (e : EpochNo) (link : Option Nat) : (openBytes e link).length = 16 := by
  simp only [openBytes, List.length_append, List.length_cons, List.length_nil, bytes32_length, List.length_replicate]

theorem SigEntry.bytes_length (e : SigEntry) : e.bytes.length = 8 := rfl

theorem sealBytes_length (e : EpochNo) (broken : Option Reason) (undos overflow : Nat) (sigs : List SigEntry) :
    (sealBytes e broken undos overflow sigs).length = 16 * (1 + (sigs.length + 1) / 2) := by
  have hsigs : (sigs.flatMap SigEntry.bytes).length = sigs.length * 8 := by
    rw [List.length_flatMap]
    simp only [SigEntry.bytes_length, List.map_const', List.sum_replicate_nat]
  have hpad : (if sigs.length % 2 = 1 then List.replicate 8 (0#8 : Byte) else []).length =
      if sigs.length % 2 = 1 then 8 else 0 := by split <;> rfl
  have h24 (n : Nat) : (bytes24 n).length = 3 := rfl
  simp only [sealBytes, List.length_append, List.length_cons, List.length_nil, bytes32_length, bytes16_length, h24, hsigs,
    hpad]
  split <;> omega

/-! ## What a grant sends (R162, R163) -/

/-- Nothing is withdrawn before a forwarded request that may be sent. -/
theorem State.prune_forward_self {s : State} {q : SlotIx} {rest : List SlotIx} {x : Slot} (hf : s.da.forward = q :: rest)
    (hx : s.slot? q = some x) (hno : ¬ (x.req.dir = .write ∧ s.tripped x.win = true)) : s.prune .forwardPath = s := by
  have hno' : ¬ (x.isWrite = true ∧ s.tripped x.win = true) := by
    rw [Slot.isWrite, beq_iff_eq]
    exact hno
  show s.pruneForward s.da.forward = s
  rw [hf]
  unfold State.pruneForward
  rw [hx]
  exact if_neg hno'

theorem State.grantTo_forward {s : State} {q : SlotIx} {rest : List SlotIx} {x : Slot} (hf : s.da.forward = q :: rest)
    (hx : s.slot? q = some x) (p : PortIx) : s.grantTo p .forwardPath = some (s.sendForward p x) := by
  unfold State.grantTo
  rw [hf]
  dsimp only
  rw [hx]
  rfl

theorem State.grantTo_capture {s t : State} {r : CaptureReq} {rest : List CaptureReq} (hf : s.da.capture = r :: rest)
    (p : PortIx) (ht : State.sendCapture { s with da := { s.da with capture := rest } } p r = some t) :
    (s.prune .capturePath).grantTo p .capturePath = some t := by
  show s.grantTo p .capturePath = _
  unfold State.grantTo
  rw [hf]
  exact ht

theorem State.grantTo_record {s t : State} {w : RecordReq} {rest : List RecordReq} (hf : s.da.sealWriter = w :: rest)
    (p : PortIx) (ht : State.sendRecord { s with da := { s.da with sealWriter := rest } } p w = some t) :
    (s.prune .sealWriter).grantTo p .sealWriter = some t := by
  show s.grantTo p .sealWriter = _
  unfold State.grantTo
  rw [hf]
  exact ht

theorem State.grantTo_walk {s : State} {w : WalkReq} (hf : s.da.rollback = some w) (hfree : s.WalkPortFree) (p : PortIx) :
    (s.prune .rollbackEngine).grantTo p .rollbackEngine =
      some (State.sendWalk { s with da := { s.da with rollback := none } } p w) := by
  show s.grantTo p .rollbackEngine = _
  unfold State.grantTo
  rw [hf]
  exact if_neg (by rw [(s.walkOut_iff).2 hfree]; decide)

theorem writeReq_eq (p : PortIx) (a : Addr) {data : List Byte} {n : Nat} (h : data.length = n) : writeReq p a data =
    { slot := p, dir := .write, addr := a, length := n, data := data, mask := List.replicate n true } := by
  rw [writeReq, h]

/-- Settles O23: each claimant's request, sent when the turn is its claimant's. -/
theorem grantShapes : Obligations.GrantShapes := by
  unfold Obligations.GrantShapes
  intro s p hg sends stepped
  refine ⟨fun q rest x hf hx hno hturn => ?forward, fun q rest c hf hc hturn => ?oldRead,
    fun q rest c line old hf hc hline hold hlen hturn => ?undoWrite, fun line e len rest hf hturn => ?pad,
    fun line e link rest hf hturn => ?openRec, fun line e sigs rest y hf hturn he hb => ?sealRec,
    fun line hf hfree hturn => ?read, fun rec w hf hlen hw hfree hturn => ?restore⟩
  case forward =>
    have hq : x.ix = q := (State.mem_of_slot? hx).2
    have hprune : s.begin.prune .forwardPath = s.begin := State.prune_forward_self (s := s.begin) hf hx hno
    rw [exec_grant hg hturn (by rw [hprune]; exact State.grantTo_forward (s := s.begin) hf hx p)]
    refine congrArg (fun u => Host.Outcome.next (State.settle u)) ?_
    subst hq
    have hkind : forwardKind x = match x.req.dir with | .read => .fwdRead x.ix | .write => .fwdWrite x.ix := by
      unfold forwardKind
      cases x.req.dir <;> rfl
    unfold State.sendForward State.setSlot
    rw [setSlot_fun, hkind] <;> rfl
  case oldRead =>
    have hc' : s.begin.capture? q = some c := hc
    have hsend : State.sendCapture { s.begin with da := { s.begin.da with capture := rest } } p (.oldRead q) = some _ :=
      congrArg (Option.map _) hc'
    rw [exec_grant hg hturn (State.grantTo_capture (s := s.begin) hf p hsend)]
    refine congrArg (fun u => Host.Outcome.next (State.settle u)) ?_
    unfold State.setCapture
    rw [capture_fun]
    rfl
  case undoWrite =>
    have hc' : s.begin.capture? q = some c := hc
    have hsend : State.sendCapture { s.begin with da := { s.begin.da with capture := rest } } p (.undoWrite q) = some _ :=
      congrArg (Option.map _) hc'
    rw [exec_grant hg hturn (State.grantTo_capture (s := s.begin) hf p hsend)]
    refine congrArg (fun u => Host.Outcome.next (State.settle u)) ?_
    have hlength : (undoBytes c.epoch c.win c.dup c.backLink c.granule old).length = 80 := by
      rw [undoBytes_length, hlen]
    unfold State.setCapture
    rw [capture_fun]
    dsimp only
    rw [hline, hold, Option.getD_some, Option.getD_some, writeReq_eq p _ hlength]
    rfl
  case pad =>
    rw [exec_grant hg hturn (State.grantTo_record (s := s.begin) hf p rfl)]
    refine congrArg (fun u => Host.Outcome.next (State.settle u)) ?_
    rw [writeReq_eq p _ (padBytes_length e len)]
    rfl
  case openRec =>
    rw [exec_grant hg hturn (State.grantTo_record (s := s.begin) hf p rfl)]
    refine congrArg (fun u => Host.Outcome.next (State.settle u)) ?_
    rw [writeReq_eq p _ (openBytes_length e link)]
    rfl
  case sealRec =>
    have hb' : ¬ s.begin.sealBlocked e = true := by
      have : s.begin.sealBlocked e = false := hb
      rw [this]
      decide
    rw [exec_grant hg hturn (State.grantTo_record (s := s.begin) hf p (if_neg hb'))]
    refine congrArg (fun u => Host.Outcome.next (State.settle u)) ?_
    have hbytes : State.sealBytesOf { s.begin with da := { s.begin.da with sealWriter := rest } } e sigs =
        sealBytes e y.broken y.undos y.overflow sigs := by
      unfold State.sealBytesOf
      have he' : State.entry? { s.begin with da := { s.begin.da with sealWriter := rest } } e = some y := he
      rw [he']
    rw [hbytes, writeReq_eq p _ (sealBytes_length e y.broken y.undos y.overflow sigs)]
    rfl
  case read =>
    rw [exec_grant hg hturn (State.grantTo_walk (s := s.begin) hf hfree p)]
    refine congrArg (fun u => Host.Outcome.next (State.settle u)) ?_
    rfl
  case restore =>
    rw [exec_grant hg hturn (State.grantTo_walk (s := s.begin) hf hfree p)]
    refine congrArg (fun u => Host.Outcome.next (State.settle u)) ?_
    have hreach : State.reachOnSend { s.begin with da := { s.begin.da with rollback := none } } = match s.re.reach with
        | none => some w
        | some r => if s.ec.table.findIdx (fun y => y.number == w) < s.ec.table.findIdx (fun y => y.number == r)
            then some w else some r := by
      unfold State.reachOnSend
      have hw' : State.re { s.begin with da := { s.begin.da with rollback := none } } = s.re := rfl
      rw [hw', hw]
      cases s.re.reach with
      | none => rfl
      | some r => exact ite_congr (propext decide_eq_true_iff) (fun _ => rfl) (fun _ => rfl)
    unfold State.sendWalk
    dsimp only
    rw [hreach, writeReq_eq p _ hlen] <;> rfl

/-! ## Turns and withdrawals (R166, R167) -/

theorem State.sendRecord_some {s : State} {w : RecordReq} (h : ∀ line e sigs, w = .sealRec line e sigs → s.sealBlocked e = false)
    (p : PortIx) : ∃ t, s.sendRecord p w = some t ∧ t.dport.length = s.dport.length + 1 := by
  cases w with
  | pad line e len => exact ⟨_, rfl, List.length_append⟩
  | openRec line e link => exact ⟨_, rfl, List.length_append⟩
  | sealRec line e sigs => exact ⟨_, if_neg (by rw [h line e sigs rfl]; decide), List.length_append⟩

theorem State.sendCapture_some {s : State} {r : CaptureReq}
    (h : match r with | .oldRead q | .undoWrite q => (s.capture? q).isSome) (p : PortIx) :
    ∃ t, s.sendCapture p r = some t ∧ t.dport.length = s.dport.length + 1 := by
  cases r with
  | oldRead q =>
    obtain ⟨c, hc⟩ := Option.isSome_iff_exists.1 h
    exact ⟨_, congrArg (Option.map _) hc, List.length_append⟩
  | undoWrite q =>
    obtain ⟨c, hc⟩ := Option.isSome_iff_exists.1 h
    exact ⟨_, congrArg (Option.map _) hc, List.length_append⟩

/-- A claimant that can send is granted. -/
theorem State.CanSend.grant {s : State} {c : Claimant} (h : s.CanSend c) (p : PortIx) :
    ∃ t, (s.prune c).grantTo p c = some t ∧ t.dport.length = s.dport.length + 1 := by
  cases c with
  | forwardPath =>
    obtain ⟨q, rest, x, hf, hx, hno⟩ := h
    rw [State.prune_forward_self hf hx (by rwa [Slot.isWrite, beq_iff_eq] at hno)]
    exact ⟨_, State.grantTo_forward hf hx p, List.length_append⟩
  | capturePath =>
    obtain ⟨r, rest, hf, hr⟩ := h
    obtain ⟨t, ht, hl⟩ := State.sendCapture_some (s := { s with da := { s.da with capture := rest } }) (r := r)
      (by cases r <;> exact hr) p
    exact ⟨t, State.grantTo_capture hf p ht, hl⟩
  | sealWriter =>
    obtain ⟨w, rest, hf, hw⟩ := h
    obtain ⟨t, ht, hl⟩ := State.sendRecord_some (s := { s with da := { s.da with sealWriter := rest } }) (w := w)
      (fun line e sigs he => by subst he; exact hw) p
    exact ⟨t, State.grantTo_record hf p ht, hl⟩
  | rollbackEngine =>
    obtain ⟨hsome, hfree⟩ := h
    obtain ⟨w, hw⟩ := Option.isSome_iff_exists.1 hsome
    refine ⟨_, State.grantTo_walk hw hfree p, ?_⟩
    cases w <;> exact List.length_append

theorem State.CanSend.begin {s : State} {c : Claimant} (h : s.CanSend c) : s.begin.CanSend c := by
  cases c <;> exact h

/-- The front request, a WRITE to a tripped window, withdrawn and decided. -/
def State.tripFront (s : State) (q : SlotIx) (rest : List SlotIx) (x : Slot) : State :=
  { s with
    uport := []
    dport := []
    mdo := .undriven
    da := { s.da with forward := rest }
    iq := { s.iq with slots := s.iq.slots.map (fun y => if y.ix = q then
      { y with outcome := some .tripped, atPoint := false } else y) }
    eq := s.eq.raise { code := .trippedWrite, win := x.win, master := some x.req.master,
                       arg := BitVec.ofNat 32 (x.req.addr.toNat / 4096) } }

theorem State.tripFront_begin (s : State) (q : SlotIx) (rest : List SlotIx) (x : Slot) :
    (s.tripFront q rest x).begin = s.tripFront q rest x := rfl

/-- A claimant other than the forward path is passed over still. -/
theorem State.PassedOver.tripFront {s : State} {c : Claimant} (h : s.PassedOver c) (hc : c ≠ .forwardPath) (q : SlotIx)
    (rest : List SlotIx) (x : Slot) : (s.tripFront q rest x).PassedOver c := by
  obtain ⟨hno, -⟩ := h
  refine ⟨fun hs => hno ?_, fun he => absurd he hc⟩
  cases c with
  | forwardPath => exact absurd rfl hc
  | capturePath => exact hs
  | sealWriter => exact hs
  | rollbackEngine => exact hs

theorem State.prune_tripFront {s : State} {q : SlotIx} {rest : List SlotIx} {x : Slot} (hf : s.da.forward = q :: rest)
    (hn : s.da.forward.Nodup) (hx : s.slot? q = some x) (hd : x.req.dir = .write) (ht : s.tripped x.win = true) :
    s.begin.prune .forwardPath = (s.tripFront q rest x).prune .forwardPath := by
  have hq : x.ix = q := (State.mem_of_slot? hx).2
  have hx' : s.begin.slot? q = some x := hx
  have hwrite : x.isWrite = true ∧ s.begin.tripped x.win = true := ⟨by rw [Slot.isWrite, hd]; rfl, ht⟩
  have hfilter : s.da.forward.filter (fun y => y != q) = rest := by
    rw [hf] at hn ⊢
    rw [List.filter_cons_of_neg (by simp), List.filter_eq_self]
    intro y hy
    have hne : y ≠ q := fun e => (List.nodup_cons.1 hn).1 (e ▸ hy)
    simpa using hne
  have hstep : s.begin.pruneForward (q :: rest) = ((s.begin.withdraw q).decideTripped x).pruneForward rest := by
    rw [State.pruneForward, hx']
    exact if_pos hwrite
  have hdecided : (s.begin.withdraw q).decideTripped x = s.tripFront q rest x := by
    unfold State.decideTripped State.setSlot State.withdraw
    rw [setSlot_fun, hq, pageArg_eq]
    show ({ s.begin with da := { s.da with forward := s.da.forward.filter (fun y => y != q) }, iq := _, eq := _ } : State) = _
    rw [hfilter]
    rfl
  show s.begin.pruneForward s.da.forward = State.pruneForward rest _
  rw [hf, hstep, hdecided]

/-- Claimants before another in the rotation are not that one. -/
theorem mem_takeWhile_ne {c d : Claimant} {l : List Claimant} (h : d ∈ l.takeWhile (fun e => e != c)) : d ≠ c := by
  simpa using List.all_eq_true.1 List.all_takeWhile d h

/-- Settles O24: claimants passed over are skipped, and a tripped front request is withdrawn before the forward path is. -/
theorem grantRotation : Obligations.GrantRotation := by
  unfold Obligations.GrantRotation
  have nothing {s : State} {p : PortIx} (hg : s.Grantable p) (h : ∀ c, s.PassedOver c) :
      exec (.daGrant p) s = .next s.begin.settle := by
    rw [exec_daGrant hg, State.grantAlong_none (fun c => (h c).begin)]
  refine ⟨fun s p hr => ⟨fun c hp hturn hc => ?granted, fun hp h => nothing ⟨hr, hp⟩ h, fun hp => ?occupied⟩,
    fun s p q rest x hg hturn hf hn hx hd ht => ?withdrawn⟩
  case granted =>
    obtain ⟨t, ht, hl⟩ := hc.begin.grant p
    have hw := State.settle_within { t with da := { t.da with lastGranted := c } }
    refine ⟨_, exec_grant ⟨hr, hp⟩ hturn ht, hw.keeps.lastGranted, ?_⟩
    rw [hw.keeps.dport]
    exact hl
  case occupied =>
    have hsome : s.begin.inReset = true ∨ (s.begin.portSlot? p).isSome = true :=
      .inr (Option.isSome_iff_ne_none.2 hp)
    exact if_pos hsome
  case withdrawn =>
    intro withdrawn
    have hgw : (s.tripFront q rest x).Grantable p := hg
    have hsame : exec (.daGrant p) s = exec (.daGrant p) (s.tripFront q rest x) := by
      obtain ⟨cs, hcs⟩ := rotation_dropWhile .forwardPath s.da.lastGranted
      have hrot : (s.tripFront q rest x).da.lastGranted = s.da.lastGranted := rfl
      rw [exec_daGrant hg, exec_daGrant hgw, State.tripFront_begin, hrot,
        State.grantAlong_dropWhile p _ _ (fun d hd => (hturn d hd).begin),
        State.grantAlong_dropWhile p _ _ (fun d hd => (hturn d hd).tripFront (mem_takeWhile_ne hd) q rest x), hcs]
      have hprune := State.prune_tripFront hf hn hx hd ht
      simp only [State.grantAlong, hprune]
    refine ⟨hsame, fun hrest hothers => ?_⟩
    subst hrest
    refine hsame.trans (nothing hgw fun c => ?_)
    by_cases hc : c = .forwardPath
    · subst hc
      refine ⟨?_, fun _ => rfl⟩
      rintro ⟨q', rest', x', hf', -⟩
      exact absurd hf' (by simp [State.tripFront])
    · exact (hothers c hc).tripFront hc q [] x

end Sys2Proof.Machine

/-! What follows an action: heads dealt with one at a time (R7, R65, R66). -/
namespace Sys2Proof.Machine

/-! ## One head left to deal with -/

theorem State.slot?_of_mem {s : State} (hd : (s.iq.slots.map (·.ix)).Nodup) {x : Slot} (hx : x ∈ s.iq.slots) :
    s.slot? x.ix = some x := by
  obtain ⟨a, b, hab⟩ := List.append_of_mem hx
  exact State.slot?_middle hab hd

/-- A head that still waits has asked for a forward-path slot, wherever nothing of the other slots has changed. -/
theorem Spares.settled {s t : State} {q : SlotIx} {m : Nat} (sp : Spares s t q m) (k : s.IntakeOk)
    (hasked : ∀ y ∈ s.iq.slots, y.ix ≠ q → y.state = .waiting → s.Oldest y → y.ix ∈ s.da.forward) {p : SlotIx} (hp : p ≠ q)
    (hold : ∀ y z, t.slot? p = some y → z ∈ s.iq.slots → z.key = y.key → t.isHead y = true → s.Oldest z) :
    t.SlotSettled p := by
  intro y hy hw hh
  obtain ⟨hym, hyp⟩ := State.mem_of_slot? hy
  obtain ⟨z, hz, hkey, hstate, hout, -⟩ := sp.others y hym (hyp ▸ hp)
  have hix : z.ix = y.ix := Slot.ix_of_key hkey
  have hzf : z.ix ∈ s.da.forward :=
    hasked z hz (by rw [hix, hyp]; exact hp) (hstate ▸ hw) (hold y z hy hz hkey hh)
  obtain ⟨z', hz', hz'x, -, hnone, -⟩ := k.asked z.ix hzf
  obtain rfl := k.unique hz' hz hz'x
  exact ⟨hout.trans hnone, .inl (hix ▸ sp.forward z'.ix (by rw [hix, hyp]; exact hp) hzf)⟩

/-- Where no request has left, heads are the heads there were. -/
theorem Spares.settled_of_keys {s t : State} {q : SlotIx} {m : Nat} (sp : Spares s t q m) (k : s.IntakeOk)
    (hkeys : t.iq.slots.map Slot.key = s.iq.slots.map Slot.key)
    (hasked : ∀ y ∈ s.iq.slots, y.ix ≠ q → y.state = .waiting → s.Oldest y → y.ix ∈ s.da.forward) {p : SlotIx} (hp : p ≠ q) :
    t.SlotSettled p :=
  sp.settled k hasked hp (fun _ _ _ hz hkey hh =>
    State.isHead_oldest k hz (State.isHead_of_keys hkeys.symm hkey hh))

/-- In front of a request that has left, heads are the heads there were. -/
theorem Spares.settled_before {s t : State} {x : Slot} {m : Nat} (sp : Spares s t x.ix m) (k : s.IntakeOk) (kt : t.IntakeOk)
    (hx : x ∈ s.iq.slots)
    (hasked : ∀ y ∈ s.iq.slots, y.ix ≠ x.ix → y.state = .waiting → s.Oldest y → y.ix ∈ s.da.forward) {p : SlotIx}
    (hp : p ≠ x.ix) (hpos : ∀ z ∈ s.iq.slots, z.ix = p → z.pos < x.pos) : t.SlotSettled p := by
  refine sp.settled k hasked hp (fun y z hy hz hkey hh w hw hg => ?_)
  obtain ⟨hym, hyp⟩ := State.mem_of_slot? hy
  have hzp : z.ix = p := (Slot.ix_of_key hkey).trans hyp
  by_cases hwx : w.ix = x.ix
  · rw [k.unique hw hx hwx]
    exact Nat.le_of_lt (hpos z hz hzp)
  · obtain ⟨v, hv, hvk⟩ := sp.kept w hw hwx
    have hle := State.isHead_oldest kt hym hh v hv
      (by rw [Slot.granule_of_key hvk, hg, Slot.granule_of_key hkey])
    rwa [Slot.pos_of_key hvk, ← Slot.pos_of_key hkey] at hle

/-- The slots are dealt with in turn: those settled are passed over. -/
theorem State.serve_from {s t : State} {n : Nat} {a b : List Slot} (hs : s.iq.slots = a ++ b) (hn : s.nextGroup = n)
    (ha : ∀ y ∈ a, s.SlotSettled y.ix) (ht : (b.map (·.ix)).foldl (fun t q => t.dealSlot n q) s = t) : s.serve = t := by
  unfold State.serve
  rw [hs, hn, List.map_append, List.foldl_append, foldl_self (s := s) (l := a.map (·.ix)), ht]
  intro q hq
  obtain ⟨y, hy, rfl⟩ := List.mem_map.1 hq
  exact State.dealSlot_self (ha y hy) n

theorem State.settle_of_serve {s u : State} (h : s.serve = u.serve) : s.settle = u.settle := by
  unfold State.settle
  rw [h]

/-- What there is about the one head that is still to be dealt with. -/
structure State.HeadIn (s : State) (x : Slot) (a b : List Slot) : Prop where
  intake : s.IntakeOk
  slots  : s.iq.slots = a ++ x :: b
  before : ∀ y ∈ a, y.ix ≠ x.ix ∧ y.pos < x.pos
  deals  : ∀ n, s.dealSlot n x.ix = s.dealHead x n
  asked  : ∀ y ∈ s.iq.slots, y.ix ≠ x.ix → y.state = .waiting → s.Oldest y → y.ix ∈ s.da.forward

theorem State.OnlyHead.headIn {s : State} {x : Slot} (k : s.IntakeOk) (h : s.OnlyHead x) : ∃ a b, s.HeadIn x a b := by
  obtain ⟨hx, hw, ho, -, hothers⟩ := h
  obtain ⟨a, b, hab⟩ := List.append_of_mem hx
  refine ⟨a, b, k, hab, fun y hy => ?_, fun n => ?_, fun y hy hne hyw hyo => ?_⟩
  · have horder := k.order
    rw [hab, List.pairwise_append] at horder
    have hpos := horder.2.2 y hy x List.mem_cons_self
    refine ⟨fun hix => ?_, hpos⟩
    have hya : y ∈ s.iq.slots := by rw [hab]; exact List.mem_append_left _ hy
    rw [k.unique hya hx hix] at hpos
    exact absurd hpos (Nat.lt_irrefl _)
  · unfold State.dealSlot
    rw [State.slot?_of_mem k.distinct hx]
    exact if_pos ⟨hw, State.oldest_isHead k hx ho⟩
  · obtain rfl | hf := hothers y hy hyw hyo
    · exact absurd rfl hne
    · exact hf

/-- In `s` itself every other slot is settled. -/
theorem State.HeadIn.others {s : State} {x : Slot} {a b : List Slot} (h : s.HeadIn x a b) {p : SlotIx} (hp : p ≠ x.ix) :
    s.SlotSettled p :=
  (Spares.refl s x.ix x.pos).settled_of_keys h.intake rfl h.asked hp

/-- The head dealt with, the slots behind it follow. -/
theorem State.HeadIn.serve {s : State} {x : Slot} {a b : List Slot} (h : s.HeadIn x a b) :
    s.serve = (b.map (·.ix)).foldl (fun t q => t.dealSlot s.nextGroup q) (s.dealHead x s.nextGroup) := by
  refine State.serve_from h.slots rfl (fun y hy => h.others (h.before y hy).1) ?_
  rw [List.map_cons, List.foldl_cons, h.deals]

/-- A head that stays in its slot, dealt with: nothing is left to deal with. -/
theorem State.HeadIn.stays {s u : State} {x : Slot} {a b : List Slot} (h : s.HeadIn x a b)
    (hu : s.dealHead x s.nextGroup = u) (hkeys : u.iq.slots.map Slot.key = s.iq.slots.map Slot.key)
    (hx : u.SlotSettled x.ix) : s.settle = u.settle := by
  have hx' : s.slot? x.ix = some x :=
    State.slot?_of_mem h.intake.distinct (by rw [h.slots]; exact List.mem_append_right _ List.mem_cons_self)
  have sp := s.dealSlot_spares s.nextGroup hx' h.intake.distinct
  rw [h.deals, hu] at sp
  have hsettled (q : SlotIx) : u.SlotSettled q := by
    by_cases hq : q = x.ix
    · rw [hq]; exact hx
    · exact sp.settled_of_keys h.intake hkeys h.asked hq
  refine State.settle_of_serve ?_
  rw [h.serve, hu, State.serve_self hsettled]
  exact foldl_self (fun q _ => State.dealSlot_self (hsettled q) _)

/-- A head that leaves its slot, dealt with: the slots behind it are dealt with as from where it has left. -/
theorem State.HeadIn.leaves {s u : State} {x : Slot} {a b : List Slot} (h : s.HeadIn x a b)
    (hu : s.dealHead x s.nextGroup = u) {g : Slot → Slot} (hslots : u.iq.slots = (a ++ b).map g)
    (hg : ∀ y, (g y).ix = y.ix) (hcap : u.cu.captures = s.cu.captures) : s.settle = u.settle := by
  have hxm : x ∈ s.iq.slots := by rw [h.slots]; exact List.mem_append_right _ List.mem_cons_self
  have hx' : s.slot? x.ix = some x := State.slot?_of_mem h.intake.distinct hxm
  have sp := s.dealSlot_spares s.nextGroup hx' h.intake.distinct
  have hwith := s.dealSlot_within s.nextGroup x.ix
  rw [h.deals, hu] at sp hwith
  have hgroup : u.nextGroup = s.nextGroup := by unfold State.nextGroup; rw [hcap]
  have hix : (b.map g).map (·.ix) = b.map (·.ix) := by
    rw [List.map_map]
    exact List.map_congr_left (fun y _ => hg y)
  refine State.settle_of_serve ?_
  rw [h.serve, hu]
  rw [List.map_append] at hslots
  refine (State.serve_from hslots hgroup (fun y hy => ?_) (by rw [hix])).symm
  obtain ⟨z, hz, rfl⟩ := List.mem_map.1 hy
  obtain ⟨hne, hpos⟩ := h.before z hz
  have hzm : z ∈ s.iq.slots := by rw [h.slots]; exact List.mem_append_left _ hz
  refine sp.settled_before h.intake (hwith.intake h.intake) hxm h.asked (by rw [hg]; exact hne) (fun w hw hwi => ?_)
  rw [h.intake.unique hw hzm (hwi.trans (hg z))]
  exact hpos

/-- The head decided in `w` as it is examined in `s`: the slots behind it are dealt with alike. -/
theorem State.HeadIn.decides {s w : State} {x : Slot} {a b c d : List Slot} {x' : Slot} (h : s.HeadIn x a b)
    (hw : s.dealHead x s.nextGroup = w.dealSlot s.nextGroup x.ix) (hslots : w.iq.slots = c ++ x' :: d) (hx' : x'.ix = x.ix)
    (hd : d.map (·.ix) = b.map (·.ix)) (hcap : w.cu.captures = s.cu.captures) (hc : ∀ y ∈ c, w.SlotSettled y.ix) :
    s.settle = w.settle := by
  have hgroup : w.nextGroup = s.nextGroup := by unfold State.nextGroup; rw [hcap]
  refine State.settle_of_serve ?_
  rw [h.serve, hw]
  refine (State.serve_from hslots hgroup hc ?_).symm
  rw [List.map_cons, List.foldl_cons, hx', hd]

end Sys2Proof.Machine

/-! The dealing with one head, case by case (R7, R65 to R68). -/
namespace Sys2Proof.Machine

/-! ## Answered from a decided outcome (R7, R65) -/

/-- The state once the head `x` is answered from outcome `o`, its duty not passed on yet. -/
def State.answeredBy (s : State) (x : Slot) (o : Decided) : State :=
  { s with
    uport := s.uport ++ [{ master := x.req.master, tag := x.req.tag, status := o.status, data := [] }]
    iq := { s.iq with slots := s.iq.slots.filter (fun y => decide (y.ix ≠ x.ix)) } }

theorem State.withdraw_self {s : State} {q : SlotIx} (h : q ∉ s.da.forward) : s.withdraw q = s := by
  have hf : s.da.forward.filter (fun y => y != q) = s.da.forward :=
    List.filter_eq_self.2 (fun y hy => by
      have : y ≠ q := fun e => h (e ▸ hy)
      simpa using this)
  unfold State.withdraw
  rw [hf]

theorem State.answerDecided_eq {s : State} {x : Slot} (h : x.ix ∉ s.da.forward) (o : Decided) :
    s.answerDecided x o = (s.answeredBy x o).passDuty x := by
  unfold State.answerDecided
  rw [State.withdraw_self h]
  unfold State.answer State.dropSlot
  rw [dropSlot_fun]
  rfl

theorem State.dealHead_decided {s : State} {x : Slot} {o : Decided} (ho : x.outcome = some o) (h : x.ix ∉ s.da.forward)
    (n : Nat) : s.dealHead x n = (s.answeredBy x o).passDuty x := by
  unfold State.dealHead
  rw [ho]
  exact State.answerDecided_eq h o

theorem State.passDuty_none {s : State} {x : Slot} (h : x.duty = false) : s.passDuty x = s := if_neg (by simp [h])

theorem State.passDuty_heir {s : State} {x y : Slot} (h : x.duty = true) (hy : s.heir? x = some y) :
    s.passDuty x = s.setSlot y.ix (fun z => { z with marking := some .capture, duty := true }) := by
  unfold State.passDuty
  rw [if_pos h, hy]

theorem State.passDuty_untouch {s : State} {x : Slot} (h : x.duty = true) (hy : s.heir? x = none) :
    s.passDuty x = if x.epoch.isSome ∧ x.epoch = s.openEpoch? then s.untouch x.granule else s := by
  unfold State.passDuty
  rw [if_pos h, hy]

/-- What the search for an heir tests (R65). -/
def Slot.inherits (x y : Slot) : Bool :=
  y.granule == x.granule && decide (x.pos < y.pos) && y.epoch == x.epoch && y.marking == some .noCapture && y.outcome.isNone

theorem Slot.inherits_iff (x y : Slot) : x.inherits y = true ↔ y.granule = x.granule ∧ x.pos < y.pos ∧ y.epoch = x.epoch ∧
    y.marking = some .noCapture ∧ y.outcome = none := by
  simp only [Slot.inherits, Bool.and_eq_true, beq_iff_eq, decide_eq_true_eq, Option.isNone_iff_eq_none, and_assoc]

theorem State.heir?_eq (s : State) (x : Slot) : s.heir? x = s.iq.slots.find? x.inherits := rfl

theorem State.mayInherit_iff (s : State) (x y : Slot) : s.MayInherit x y ↔ y ∈ s.iq.slots ∧ x.inherits y = true := by
  rw [State.MayInherit, x.inherits_iff]

/-- A later request is behind `x`, so that it is there still when `x` is answered. -/
theorem State.mem_answeredBy {s : State} {x y : Slot} (k : s.IntakeOk) (hx : x ∈ s.iq.slots) (h : s.MayInherit x y)
    (o : Decided) : y ∈ (s.answeredBy x o).iq.slots := by
  obtain ⟨hy, -, hpos, -⟩ := h
  refine List.mem_filter.2 ⟨hy, decide_eq_true (fun hix => ?_)⟩
  rw [k.unique hy hx hix] at hpos
  exact absurd hpos (Nat.lt_irrefl _)

theorem find?_first {l : List Slot} {p : Slot → Bool} {y : Slot} (hord : l.Pairwise (fun a b => a.pos < b.pos)) (hy : y ∈ l)
    (hp : p y = true) (hmin : ∀ z ∈ l, p z = true → y.pos ≤ z.pos) : l.find? p = some y := by
  induction l with
  | nil => exact absurd hy (by simp)
  | cons a l ih =>
    obtain ⟨ha, hl⟩ := List.pairwise_cons.1 hord
    obtain rfl | hyl := List.mem_cons.1 hy
    · rw [List.find?_cons_of_pos hp]
    · have hpa : ¬ p a = true := fun h =>
        absurd (hmin a List.mem_cons_self h) (Nat.not_le.2 (ha y hyl))
      rw [List.find?_cons_of_neg hpa]
      exact ih hl hyl (fun z hz => hmin z (List.mem_cons_of_mem a hz))

theorem State.heir?_answeredBy {s : State} {x y : Slot} (k : s.IntakeOk) (hx : x ∈ s.iq.slots) (h : s.HeirOf x y)
    (o : Decided) : (s.answeredBy x o).heir? x = some y := by
  obtain ⟨hy, hmin⟩ := h
  rw [State.heir?_eq]
  exact find?_first (k.order.sublist List.filter_sublist) (State.mem_answeredBy k hx hy o)
    ((s.mayInherit_iff x y).1 hy).2
    (fun z hz hp => hmin z ((s.mayInherit_iff x z).2 ⟨(List.mem_filter.1 hz).1, hp⟩))

theorem State.heir?_answeredBy_none {s : State} {x : Slot} (h : ∀ y, ¬ s.MayInherit x y) (o : Decided) :
    (s.answeredBy x o).heir? x = none := by
  rw [State.heir?_eq]
  exact List.find?_eq_none.2 (fun z hz hp =>
    h z ((s.mayInherit_iff x z).2 ⟨(List.mem_filter.1 hz).1, hp⟩))

theorem State.HeadIn.filter {s : State} {x : Slot} {a b : List Slot} (h : s.HeadIn x a b) :
    s.iq.slots.filter (fun y => decide (y.ix ≠ x.ix)) = a ++ b := by
  have hd := h.intake.distinct
  rw [h.slots, List.map_append, List.map_cons, List.nodup_append, List.nodup_cons] at hd
  obtain ⟨-, ⟨hb, -⟩, -⟩ := hd
  rw [h.slots, List.filter_append, List.filter_cons_of_neg (by simp), List.filter_eq_self.2, List.filter_eq_self.2]
  · exact fun y hy => decide_eq_true (fun e => hb (e ▸ List.mem_map_of_mem hy))
  · exact fun y hy => decide_eq_true (h.before y hy).1

/-! ## The capture point (R66) -/

theorem State.dealHead_asks {s : State} {x : Slot} (ho : x.outcome = none) (hf : x.ix ∉ s.da.forward)
    (hn : x.needsCapture = false ∨ x.epoch = none) (n : Nat) : s.dealHead x n = s.askForward x.ix := by
  unfold State.dealHead
  rw [ho]
  dsimp only
  rw [if_neg hf]
  cases hc : x.needsCapture with
  | false => rfl
  | true =>
    cases he : x.epoch with
    | none => rfl
    | some e =>
      rw [hc, he] at hn
      exact absurd hn (by simp)

theorem State.dealHead_examines {s : State} {x : Slot} {e : EpochNo} (ho : x.outcome = none) (hf : x.ix ∉ s.da.forward)
    (hn : x.needsCapture = true) (he : x.epoch = some e) (hp : x.atPoint = false) (n : Nat) :
    s.dealHead x n = s.examine x e n := by
  unfold State.dealHead
  rw [ho]
  dsimp only
  rw [if_neg hf, hn, he]
  exact if_neg (by rw [hp]; decide)

theorem State.askForward_new {s : State} {q : SlotIx} (h : q ∉ s.da.forward) :
    s.askForward q = { s with da := { s.da with forward := s.da.forward ++ [q] } } := if_neg h

theorem State.markBroken_new {s : State} {e : EpochNo} (h : s.isBroken e = false) (r : Reason) : s.markBroken e r =
    { s with
      ec := { s.ec with table := s.ec.table.map (fun y => if y.number = e then { y with broken := some (y.broken.getD r) } else y) }
      iq := { s.iq with slots := s.iq.slots.map (fun y => if y.epoch = some e then { y with atPoint := false } else y) } } := by
  have hmark : (fun y : Entry => if y.number = e then { y with broken := some (y.broken.getD r) } else y) =
      fun y => if y.number == e then y.mark r else y := (number_fun e (Entry.mark r)).symm
  have hslots : (fun y : Slot => if y.epoch = some e then { y with atPoint := false } else y) =
      fun y => if y.epoch == some e then y.reexamined else y := by
    funext y
    simp only [beq_iff_eq]
    rfl
  rw [hmark, hslots]
  exact if_neg (by rw [h]; decide)

/-- The record of one slot changed. -/
theorem State.setSlot_becomes {s : State} (k : s.IntakeOk) {x : Slot} (hx : x ∈ s.iq.slots) {f : Slot → Slot} {z : Slot}
    (hz : f x = z) : s.setSlot x.ix f =
      { s with iq := { s.iq with slots := s.iq.slots.map (fun y => if y.ix = x.ix then z else y) } } := by
  unfold State.setSlot
  refine congrArg (fun l => { s with iq := { s.iq with slots := l } }) (List.map_congr_left (fun y hy => ?_))
  by_cases h : y.ix = x.ix
  · rw [if_pos (by simpa using h), if_pos h, k.unique hy hx h, hz]
  · rw [if_neg (by simpa using h), if_neg h]

theorem Slot.atPoint_false {x : Slot} (h : x.atPoint = false) : { x with atPoint := false } = x := by rw [← h]

/-- The slot of a head changed in what is not its key: no other slot is. -/
theorem keys_setSlot (s : State) (q : SlotIx) {f : Slot → Slot} (hf : ∀ y, (f y).key = y.key) :
    (s.setSlot q f).iq.slots.map Slot.key = s.iq.slots.map Slot.key := by
  show (s.iq.slots.map (fun y => if y.ix == q then f y else y)).map Slot.key = _
  rw [List.map_map]
  refine List.map_congr_left (fun y _ => ?_)
  show (if y.ix == q then f y else y).key = y.key
  split
  · exact hf y
  · rfl

theorem State.SlotSettled.asked {s : State} {x : Slot} (h : s.slot? x.ix = some x) (ho : x.outcome = none)
    (hf : x.ix ∈ s.da.forward) : s.SlotSettled x.ix := by
  intro y hy _ _
  rw [h] at hy
  obtain rfl := Option.some.inj hy
  exact ⟨ho, .inl hf⟩

end Sys2Proof.Machine

/-! The start of a seal: the SU's work, and the SEAL record placed (R97, R113, R114, R117). -/
namespace Sys2Proof.Machine

/-! ## The work of the SU at a seal (R113, R117) -/

/-- The SU's work touches the SU, the trip flags and the event queue. -/
def State.SealsOnly (s t : State) : Prop := t = { s with su := t.su, wu := t.wu, eq := t.eq }

theorem State.SealsOnly.jw {s t : State} (h : s.SealsOnly t) : t.jw = s.jw := by
  rw [State.SealsOnly] at h
  rw [h]

theorem State.SealsOnly.kept {s t : State} (h : s.SealsOnly t) : t.re = s.re ∧ t.ec = s.ec ∧ t.da = s.da := by
  rw [State.SealsOnly] at h
  rw [h]
  exact ⟨rfl, rfl, rfl⟩

theorem State.free_of_jw {s v : State} (h : v.jw = s.jw) : v.free = s.free := by
  unfold State.free State.used State.lineDist State.ringLines
  rw [h]

theorem State.SealsOnly.refl (s : State) : s.SealsOnly s := rfl

theorem State.SealsOnly.trans {s t u : State} (h : s.SealsOnly t) (k : t.SealsOnly u) : s.SealsOnly u := by
  refine Eq.trans (show u = { t with su := u.su, wu := u.wu, eq := u.eq } from k) ?_
  rw [show t = { s with su := t.su, wu := t.wu, eq := t.eq } from h]

theorem State.compareWindow_seals (s : State) (e : EpochNo) (i : WinIx) : s.SealsOnly (s.compareWindow e i) := by
  unfold State.compareWindow
  dsimp only
  split
  · exact .refl s
  · split
    · exact .refl s
    · split <;> rfl

theorem State.countQuiet_seals (s : State) (e : EpochNo) (i : WinIx) : s.SealsOnly (s.countQuiet e i) := by
  unfold State.countQuiet
  dsimp only
  split
  · split
    · rfl
    · split <;> rfl
  · exact .refl s

theorem SealsOnly_foldl {f : State → WinIx → State} (h : ∀ (s : State) i, s.SealsOnly (f s i)) (l : List WinIx) (s : State) :
    s.SealsOnly (l.foldl f s) := by
  induction l generalizing s with
  | nil => exact .refl s
  | cons i l ih => exact (h s i).trans (ih (f s i))

theorem State.sealWork_seals (s : State) (e : EpochNo) : s.SealsOnly (s.sealWork e) :=
  (SealsOnly_foldl (fun t i => t.compareWindow_seals e i) _ s).trans
    (SealsOnly_foldl (fun t i => t.countQuiet_seals e i) _ _)

/-- It does not look at the slots. -/
theorem State.compareWindow_iq (s : State) (q : Intake) (e : EpochNo) (i : WinIx) :
    State.compareWindow { s with iq := q } e i = { s.compareWindow e i with iq := q } := by
  unfold State.compareWindow
  dsimp only
  cases (s.su.sealingBank.entries[i]).expected with
  | none => rfl
  | some v =>
    dsimp only
    by_cases hv : v = (s.su.sealingBank.entries[i]).acc
    · rw [if_pos hv, if_pos hv]
    · rw [if_neg hv, if_neg hv]
      cases (s.su.sealingBank.entries[i]).action <;> rfl

theorem State.countQuiet_iq (s : State) (q : Intake) (e : EpochNo) (i : WinIx) :
    State.countQuiet { s with iq := q } e i = { s.countQuiet e i with iq := q } := by
  unfold State.countQuiet
  dsimp only
  split
  · split
    · rfl
    · split <;> rfl
  · rfl

theorem foldl_iq {f : State → WinIx → State} (h : ∀ (s : State) q i, f { s with iq := q } i = { f s i with iq := q })
    (l : List WinIx) (s : State) (q : Intake) : l.foldl f { s with iq := q } = { l.foldl f s with iq := q } := by
  induction l generalizing s with
  | nil => rfl
  | cons i l ih => rw [List.foldl_cons, List.foldl_cons, h, ih]

theorem State.sealWork_iq (s : State) (q : Intake) (e : EpochNo) :
    State.sealWork { s with iq := q } e = { s.sealWork e with iq := q } := by
  unfold State.sealWork
  rw [foldl_iq (f := fun t i => t.compareWindow e i) (fun t q i => t.compareWindow_iq q e i),
    foldl_iq (f := fun t i => t.countQuiet e i) (fun t q i => t.countQuiet_iq q e i)]

theorem State.sigList_length (s : State) : s.sigList.length ≤ 16 :=
  Nat.le_trans (List.length_filterMap_le _ _) (by simp)

/-! ## The SEAL record placed (R46, R53, R97) -/

/-- The state in which the SEAL record of `e` is placed, before the thresholds are evaluated. -/
def State.sealPlaced (s : State) (e : EpochNo) (sigs : List SigEntry) : State :=
  let len := sealLines sigs.length
  { s with
    jw := { s.jw with
      head := s.headAfter len
      sealJob := some { epoch := e, line := s.placeLine len, sigs := sigs, after := s.headAfter len } }
    ec := { s.ec with table := s.ec.table.map (fun x => if x.number == e then { x with sealLine := some (s.placeLine len) } else x) }
    da := (s.makePad e len).recordDa (.sealRec (s.placeLine len) e sigs) }

theorem State.placeSeal_eq (s : State) (e : EpochNo) (sigs : List SigEntry) :
    s.placeSeal e sigs = (s.sealPlaced e sigs).evaluate := by
  unfold State.placeSeal State.sealPlaced
  dsimp only
  rw [State.makeRecord_eq, s.makePad_eq]
  rfl

/-- The record writes of a SEAL record, with the PAD there may be. -/
def sealRecords (head pad line : Nat) (e : EpochNo) (sigs : List SigEntry) : List RecordReq :=
  (if pad = 0 then [] else [.pad head e pad]) ++ [.sealRec line e sigs]

theorem State.makePad_none {s : State} {len : Nat} (h : s.padLines len = 0) (e : EpochNo) : s.makePad e len = s := if_pos h

theorem State.makePad_some {s : State} {len : Nat} (h : s.padLines len ≠ 0) (e : EpochNo) :
    s.makePad e len = s.makeRecord (.pad s.jw.head e (s.padLines len)) := if_neg h

theorem State.sealDa_ready {s : State} (h : s.holdsBack = false) (e : EpochNo) (sigs : List SigEntry) (len line : Nat) :
    (s.makePad e len).recordDa (.sealRec line e sigs) =
      { s.da with sealWriter := s.da.sealWriter ++ sealRecords s.jw.head (s.padLines len) line e sigs } := by
  unfold sealRecords
  by_cases hp : s.padLines len = 0
  · rw [State.makePad_none hp, State.recordDa_ready h, if_pos hp]
    rfl
  · have hh : (s.makePad e len).holdsBack = false := by
      rw [State.makePad_some hp, State.makeRecord_eq, State.recordDa_ready h]
      exact h
    rw [State.recordDa_ready hh, State.makePad_some hp, State.makeRecord_eq, State.recordDa_ready h, if_neg hp,
      ← List.append_assoc]

theorem State.sealDa_held {s : State} (h : s.holdsBack = true) (e : EpochNo) (sigs : List SigEntry) (len line : Nat) :
    (s.makePad e len).recordDa (.sealRec line e sigs) =
      { s.da with heldSealWriter := s.da.heldSealWriter ++ sealRecords s.jw.head (s.padLines len) line e sigs } := by
  unfold sealRecords
  by_cases hp : s.padLines len = 0
  · rw [State.makePad_none hp, State.recordDa_held h, if_pos hp]
    rfl
  · have hh : (s.makePad e len).holdsBack = true := by
      rw [State.makePad_some hp, State.makeRecord_eq, State.recordDa_held h]
      exact h
    rw [State.recordDa_held hh, State.makePad_some hp, State.makeRecord_eq, State.recordDa_held h, if_neg hp,
      ← List.append_assoc]

/-- Seventeen free lines are room for any SEAL record with its PAD. -/
theorem State.recordRoom_seal {s : State} (h : 17 ≤ s.free) {n : Nat} (hn : n ≤ 16) : s.recordRoom (sealLines n) = true := by
  unfold State.recordRoom State.padLines sealLines
  rw [decide_eq_true_eq]
  split <;> omega

theorem State.reserveSeal_room {s : State} (h : 17 ≤ s.free) (e : EpochNo) {sigs : List SigEntry} (hn : sigs.length ≤ 16) :
    s.reserveSeal e sigs = (s.sealPlaced e sigs).evaluate :=
  (if_pos (State.recordRoom_seal h hn)).trans (s.placeSeal_eq e sigs)

/-- The seal of epoch `e` starts: the SU's work is done and the SEAL record placed. -/
theorem State.startSeal_of {s : State} {e : Entry} (he : s.sealingEntry? = some e) (hl : e.sealLine = none)
    (hd : ∀ x ∈ s.iq.slots, x.epoch = some e.number → x.state = .held) (hroom : 17 ≤ s.free) :
    s.startSeal = (State.sealPlaced { s.sealWork e.number with iq := (s.loseAssignments e.number).iq } e.number
      (s.sealWork e.number).sigList).evaluate := by
  have hgo : e.sealLine.isNone ∧ s.writesDone e.number = true :=
    ⟨by rw [hl]; rfl, (s.writesDone_iff e.number).2 hd⟩
  have hwork : (s.loseAssignments e.number).sealWork e.number =
      { s.sealWork e.number with iq := (s.loseAssignments e.number).iq } :=
    s.sealWork_iq (s.loseAssignments e.number).iq e.number
  have hjw := (s.sealWork_seals e.number).jw
  unfold State.startSeal
  rw [he]
  dsimp only
  rw [if_pos hgo, hwork]
  generalize s.sealWork e.number = w at hjw ⊢
  exact State.reserveSeal_room (Nat.le_trans hroom (Nat.le_of_eq
    (State.free_of_jw (s := s) (v := { w with iq := (s.loseAssignments e.number).iq }) hjw).symm)) _ w.sigList_length

/-! ## The seal that starts is all that follows -/

theorem Slot.reexamined_state {x y : Slot} (h : y.reexamined = x.reexamined) : y.state = x.state := by
  show y.reexamined.state = x.reexamined.state
  rw [h]

theorem Calm.slot_of {s t : State} (h : Calm s t) {x : Slot} (hx : x ∈ t.iq.slots) :
    ∃ z ∈ s.iq.slots, x.reexamined = z.reexamined := by
  obtain ⟨z, hz, hzx⟩ := List.mem_map.1 (h.slots ▸ List.mem_map_of_mem hx : x.reexamined ∈ s.iq.slots.map Slot.reexamined)
  exact ⟨z, hz, hzx.symm⟩

theorem Slot.unassigned_state (x : Slot) : x.unassigned.state = x.state := rfl

/-- What a seal's start leaves, and that nothing follows it. -/
theorem State.settle_seal {s : State} {e : Entry} (hw : ∀ x ∈ s.iq.slots, x.state ≠ .waiting) (hp : s.re.phase ≠ .drain)
    (he : s.sealingEntry? = some e) (hl : e.sealLine = none)
    (hd : ∀ x ∈ s.iq.slots, x.epoch = some e.number → x.state = .held) (hroom : 17 ≤ s.free) :
    s.settle = (State.sealPlaced { s.sealWork e.number with iq := (s.loseAssignments e.number).iq } e.number
      (s.sealWork e.number).sigList).evaluate ∧ ∀ x ∈ s.settle.iq.slots, x.epoch ≠ some e.number := by
  have hstart := State.startSeal_of he hl hd hroom
  have hre := (s.sealWork_seals e.number).kept.1
  generalize s.sealWork e.number = w at hstart hre ⊢
  generalize hv : State.sealPlaced { w with iq := (s.loseAssignments e.number).iq } e.number w.sigList = v at hstart ⊢
  have hvslots : v.iq.slots = s.iq.slots.map (fun x => if x.state = .held ∧ x.epoch = some e.number then x.unassigned else x) := by
    rw [← hv]; rfl
  have hvre : v.re = s.re := by rw [← hv]; exact hre
  have hcalm := v.evaluate_calm
  have hwaiting : ∀ x ∈ v.evaluate.iq.slots, x.state ≠ .waiting := by
    intro x hx
    obtain ⟨z, hz, hzx⟩ := hcalm.slot_of hx
    rw [hvslots] at hz
    obtain ⟨y, hy, rfl⟩ := List.mem_map.1 hz
    rw [Slot.reexamined_state hzx]
    split
    · exact hw y hy
    · exact hw y hy
  have hsettle : s.settle = v.evaluate := by
    unfold State.settle
    rw [State.serve_of_none_waiting hw, hstart, State.serve_of_none_waiting hwaiting,
      State.testDrain_self (by rw [hcalm.re, hvre]; exact hp), State.serve_of_none_waiting hwaiting]
  refine ⟨hsettle, fun x hx => ?_⟩
  rw [hsettle] at hx
  obtain ⟨z, hz, hzx⟩ := hcalm.slot_of hx
  rw [hvslots] at hz
  obtain ⟨y, hy, rfl⟩ := List.mem_map.1 hz
  rw [Slot.reexamined_epoch hzx]
  split
  · simp [Slot.unassigned]
  · rename_i hne
    exact fun hye => hne ⟨hd y hy hye, hye⟩

end Sys2Proof.Machine

/-! Everything that follows an action: O40. -/
namespace Sys2Proof.Machine

/-- A head answered from its decided outcome, in each way its duty may go (R65). -/
theorem State.HeadIn.answered {s : State} {x : Slot} {a b : List Slot} (h : s.HeadIn x a b) (hf : x.ix ∉ s.da.forward)
    {o : Decided} (ho : x.outcome = some o) :
    (x.duty = false → s.settle = (s.answeredBy x o).settle) ∧
    (∀ y, x.duty = true → s.HeirOf x y → s.settle = ((s.answeredBy x o).setSlot y.ix
      (fun z => { z with marking := some .capture, duty := true })).settle) ∧
    (x.duty = true → (∀ y, ¬ s.MayInherit x y) → x.epoch.isSome → x.epoch = s.openEpoch? →
      s.settle = ((s.answeredBy x o).untouch x.granule).settle) ∧
    (x.duty = true → (∀ y, ¬ s.MayInherit x y) → (x.epoch = none ∨ x.epoch ≠ s.openEpoch?) →
      s.settle = (s.answeredBy x o).settle) := by
  have hdeal := State.dealHead_decided ho hf s.nextGroup
  have hslots : (s.answeredBy x o).iq.slots = (a ++ b).map id := by rw [List.map_id]; exact h.filter
  have hopen : (s.answeredBy x o).openEpoch? = s.openEpoch? := rfl
  have hx : x ∈ s.iq.slots := by rw [h.slots]; exact List.mem_append_right _ List.mem_cons_self
  refine ⟨fun hd => ?_, fun y hd hy => ?_, fun hd hno he hopen' => ?_, fun hd hno he => ?_⟩
  · rw [State.passDuty_none hd] at hdeal
    exact h.leaves hdeal hslots (fun _ => rfl) rfl
  · rw [State.passDuty_heir hd (State.heir?_answeredBy h.intake hx hy o)] at hdeal
    refine h.leaves (g := fun z => if z.ix == y.ix then { z with marking := some .capture, duty := true } else z) hdeal ?_
      (fun z => by split <;> rfl) rfl
    show (s.answeredBy x o).iq.slots.map _ = _
    rw [hslots, List.map_id]
  · rw [State.passDuty_untouch hd (State.heir?_answeredBy_none hno o), if_pos ⟨he, hopen'⟩] at hdeal
    exact h.leaves hdeal hslots (fun _ => rfl) rfl
  · rw [State.passDuty_untouch hd (State.heir?_answeredBy_none hno o), if_neg] at hdeal
    · exact h.leaves hdeal hslots (fun _ => rfl) rfl
    · rintro ⟨hs, he'⟩
      obtain he | he := he
      · rw [he] at hs
        exact absurd hs (by decide)
      · exact he he'

/-- A head that asks for a forward-path slot. -/
theorem State.HeadIn.asks {s u : State} {x : Slot} {a b : List Slot} (h : s.HeadIn x a b) (ho : x.outcome = none)
    {f : Slot → Slot} (hslots : u.iq.slots = s.iq.slots.map f) (hkey : ∀ y, (f y).key = y.key)
    (hout : ∀ y, (f y).outcome = y.outcome) (hu : s.dealHead x s.nextGroup = u) (hf : x.ix ∈ u.da.forward) :
    s.settle = u.settle := by
  have hkeys : u.iq.slots.map Slot.key = s.iq.slots.map Slot.key := by
    rw [hslots, List.map_map]
    exact List.map_congr_left (fun y _ => hkey y)
  have hx : x ∈ s.iq.slots := by rw [h.slots]; exact List.mem_append_right _ List.mem_cons_self
  refine h.stays hu hkeys (fun y hy _ _ => ?_)
  obtain ⟨hym, hyx⟩ := State.mem_of_slot? hy
  rw [hslots] at hym
  obtain ⟨z, hz, rfl⟩ := List.mem_map.1 hym
  obtain rfl := h.intake.unique hz hx ((Slot.ix_of_key (hkey z)).symm.trans hyx)
  exact ⟨(hout z).trans ho, .inl (hyx ▸ hf)⟩

/-- A head that stays with a record of its own, neither waiting as a head nor to be asked for. -/
theorem State.HeadIn.records {s u : State} {x : Slot} {a b : List Slot} (h : s.HeadIn x a b) {f : Slot → Slot}
    (hslots : u.iq.slots = (s.setSlot x.ix f).iq.slots) (hkey : ∀ y, (f y).key = y.key)
    (hu : s.dealHead x s.nextGroup = u)
    (hfx : (f x).state = .waiting → (f x).outcome = none ∧
      ((f x).ix ∈ u.da.forward ∨ ((f x).needsCapture = true ∧ (f x).epoch.isSome ∧ (f x).atPoint = true))) :
    s.settle = u.settle := by
  have hx : x ∈ s.iq.slots := by rw [h.slots]; exact List.mem_append_right _ List.mem_cons_self
  refine h.stays hu (by rw [hslots, keys_setSlot s x.ix hkey]) (fun y hy hw _ => ?_)
  have hsame : (s.setSlot x.ix f).slot? x.ix = some (f x) :=
    State.slot?_setSlot_same (fun y => Slot.ix_of_key (hkey y)) (State.slot?_of_mem h.intake.distinct hx)
  have hy' : (s.setSlot x.ix f).slot? x.ix = some y := by
    rw [State.slot?, ← hslots]
    exact hy
  rw [hsame] at hy'
  obtain rfl := Option.some.inj hy'
  exact hfx hw

/-- A head at its capture point with the trip flag set is decided TRIPPED, and then answered. -/
theorem State.HeadIn.trips {s : State} {x : Slot} {a b : List Slot} (h : s.HeadIn x a b) {e : EpochNo}
    (hw : x.state = .waiting) (hold : s.Oldest x)
    (hu : ∀ n, s.dealHead x n = s.examine x e n) (ht : s.tripped x.win = true) : s.settle = (s.decideTripped x).settle := by
  let f : Slot → Slot := fun y => { y with outcome := some .tripped, atPoint := false }
  have hx : x ∈ s.iq.slots := by rw [h.slots]; exact List.mem_append_right _ List.mem_cons_self
  have hd := h.intake.distinct
  have hkeys : (s.decideTripped x).iq.slots.map Slot.key = s.iq.slots.map Slot.key := keys_setSlot s x.ix (f := f) (fun _ => rfl)
  have hslots : (s.decideTripped x).iq.slots = a ++ f x :: b := by
    rw [h.slots] at hd
    show s.iq.slots.map (fun y => if y.ix == x.ix then f y else y) = _
    rw [h.slots, map_middle hd]
  have hslot : (s.decideTripped x).slot? x.ix = some (f x) :=
    State.slot?_setSlot_same (f := f) (fun _ => rfl) (State.slot?_of_mem hd hx)
  have hdeal : s.dealHead x s.nextGroup = (s.decideTripped x).dealSlot s.nextGroup x.ix := by
    rw [hu, State.examine, if_pos ht]
    unfold State.dealSlot
    rw [hslot]
    exact (if_pos ⟨hw, State.isHead_of_keys (x := x) (y := f x) hkeys rfl (State.oldest_isHead h.intake hx hold)⟩).symm
  have sp := s.decideTripped_spares x x.pos
  exact h.decides hdeal hslots rfl rfl rfl
    (fun y hy => sp.settled_of_keys h.intake hkeys h.asked (h.before y hy).1)

theorem State.untouch_filter (s : State) (g : Granule) : s.untouch g =
    { s with cu := { s.cu with touched := s.cu.touched.filter (fun y => decide (y ≠ g)) } } := by
  have hne : (fun y : Granule => y != g) = fun y => decide (y ≠ g) := by
    funext y
    rw [Bool.eq_iff_iff, bne_iff_ne, decide_eq_true_iff]
  unfold State.untouch
  rw [hne]

/-- What the start of a seal leaves, read off part by part. -/
theorem State.sealPlaced_spec {s w u : State} {e : Entry} {q : Intake} (hjw : w.jw = s.jw) (hec : w.ec = s.ec) (hda : w.da = s.da)
    (he : s.entry? e.number = some e) (hu : u = (State.sealPlaced { w with iq := q } e.number w.sigList).evaluate) :
    let len := sealLines w.sigList.length
    let pad := if s.ringLines - s.jw.head < len then s.ringLines - s.jw.head else 0
    let line := if pad = 0 then s.jw.head else 0
    u.jw.head = (line + len) % s.ringLines ∧
    u.jw.sealJob = some { epoch := e.number, line := line, sigs := w.sigList, after := u.jw.head } ∧
    (u.entry? e.number).map (·.sealLine) = some (some line) ∧
    (s.holdsBack = false →
      u.da = { s.da with sealWriter := s.da.sealWriter ++ sealRecords s.jw.head pad line e.number w.sigList }) ∧
    (s.holdsBack = true →
      u.da = { s.da with heldSealWriter := s.da.heldSealWriter ++ sealRecords s.jw.head pad line e.number w.sigList }) ∧
    u.wu = w.wu ∧ u.su = w.su ∧ ∃ evs, u.eq = w.eq.raiseAll evs ∧ ∀ ev ∈ evs, ev.code.codes.1 = 0 := by
  intro len pad line
  let t : State := { w with iq := q }
  let p : State := t.sealPlaced e.number w.sigList
  have hup : u = p.evaluate := hu
  have hcalm : Calm p u := hup ▸ p.evaluate_calm
  have hring : t.ringLines = s.ringLines := by show w.ringLines = _; unfold State.ringLines; rw [hjw]
  have hhead : t.jw.head = s.jw.head := by show w.jw.head = _; rw [hjw]
  have hpad : t.padLines len = pad := by unfold State.padLines; rw [hring, hhead]
  have hline : t.placeLine len = line := by unfold State.placeLine; rw [hpad, hhead]
  have hafter : t.headAfter len = (line + len) % s.ringLines := by unfold State.headAfter; rw [hline, hring]
  have hheld : t.holdsBack = s.holdsBack := by show w.holdsBack = _; unfold State.holdsBack State.anyPort; rw [hda]
  have hue : u.jw.head = (line + len) % s.ringLines := by rw [hup, p.evaluate_head]; exact hafter
  have hte : t.entry? e.number = some e := (State.entry?_of_table (by show w.ec.table = _; rw [hec]) _).trans he
  have hpe := State.entry?_setEntry_same (f := fun x => { x with sealLine := some (t.placeLine len) }) (fun _ => rfl) hte
  have hda' : t.da = s.da := hda
  obtain ⟨evs, hev, hlevel⟩ := p.evaluate_levels
  refine ⟨hue, ?_, ?_, fun hh => ?_, fun hh => ?_, hcalm.wu, hcalm.su, evs, hup ▸ hev, fun ev h => (hlevel ev h).1⟩
  · have hjob : u.jw.sealJob = p.jw.sealJob := by rw [hcalm.jw]
    rw [hjob, hue, ← hafter, ← hline]
    rfl
  · rw [hup, State.entry?_of_table (s := p) (by rw [p.evaluate_ec]) e.number]
    refine (congrArg (Option.map (·.sealLine)) hpe).trans ?_
    rw [Option.map_some, hline]
  · rw [hcalm.da]
    refine (State.sealDa_ready (s := t) (hheld.trans hh) _ _ _ _).trans ?_
    rw [hpad, hline, hhead, hda']
  · rw [hcalm.da]
    refine (State.sealDa_held (s := t) (hheld.trans hh) _ _ _ _).trans ?_
    rw [hpad, hline, hhead, hda']

/-- The capture record of the write `x` as its capture begins (R68). -/
def Slot.newCapture (x : Slot) (e : EpochNo) (asked : Nat) : Capture :=
  { slot := x.ix, epoch := e, win := x.win, granule := x.granule, dup := decide (x.marking = some .captureDup),
    step := .reserving, undoLine := none, backLink := none, old := none, asked := asked }

/-- Settles O40: each way of dealing with the one head leaves a state from which the same follows. -/
theorem consequencesOfAnAction : Obligations.ConsequencesOfAnAction := by
  unfold Obligations.ConsequencesOfAnAction
  refine fun s => ⟨?keeps, fun h hp hn => ?nothing, fun x k hx => ?head, fun e hw hp he hee hl hd hhead hroom => ?starts⟩
  case keeps =>
    have h := s.settle_within
    have k := h.keeps
    exact ⟨k.staged, k.region, k.retention, k.timerInterval, k.timerEnable, k.strobeEnable, k.strobePolarity, k.merged,
      k.holdLimit, k.nextPos, k.ports, k.lastGranted, k.port, k.inReset, k.noFrame, k.dport, k.mdo, k.pending, h.events⟩
  case nothing =>
    obtain hw | ⟨k, hs⟩ := h
    · exact State.settle_self (State.serve_of_none_waiting hw) hp hn
    · exact State.settle_self (State.serve_of_headsSettled k hs) hp hn
  case head =>
    intro answered becomes asks
    obtain ⟨a, b, h⟩ := hx.headIn k
    obtain ⟨hxm, hw, hold, hf, -⟩ := hx
    have hanswered (o : Decided) : answered o = s.answeredBy x o := by cases o <;> rfl
    have hasks : s.askForward x.ix = { s with da := asks } := State.askForward_new hf
    have hasked : x.ix ∈ asks.forward := List.mem_append_right _ (by simp)
    refine ⟨fun o ho => ?decided, fun ho hn => ?asks, fun e ho hn he hp => ?point⟩
    case decided =>
      obtain ⟨h1, h2, h3, h4⟩ := h.answered hf ho
      rw [hanswered]
      refine ⟨h1, fun y hd hy => ?_, fun hd hno hs he => by rw [h3 hd hno hs he, State.untouch_filter]; rfl, h4⟩
      rw [h2 y hd hy]
      refine congrArg State.settle ?_
      unfold State.setSlot
      rw [setSlot_fun]
      rfl
    case asks =>
      exact h.asks (f := id) ho (List.map_id _).symm (fun _ => rfl) (fun _ => rfl)
        ((State.dealHead_asks ho hf hn _).trans hasks) hasked
    case point =>
      have hdeal := State.dealHead_examines ho hf hn he hp
      have hrecord (f : Slot → Slot) (z : Slot) (hz : f x = z) := State.setSlot_becomes k hxm hz
      refine ⟨fun ht => ?_, fun ht hb => ?_, fun ht hb hs => ?_, fun ht hb hs hno => ?_, fun ht hb hs hopen => ?_⟩
      · rw [h.trips hw hold hdeal ht]
        refine congrArg State.settle ?_
        unfold State.decideTripped
        have hz : { x with outcome := some .tripped, atPoint := false } = { x with outcome := some .tripped } := by rw [← hp]
        rw [hrecord _ _ hz, pageArg_eq]
        rfl
      · refine h.asks (f := id) ho (List.map_id _).symm (fun _ => rfl) (fun _ => rfl) ?_ hasked
        rw [hdeal, State.examine, if_neg (by simp [ht]), if_pos hb, hasks]
      · refine h.asks (f := fun y => if y.epoch = some e then { y with atPoint := false } else y) ho rfl
          (fun y => by split <;> rfl) (fun y => by split <;> rfl) ?_ hasked
        rw [hdeal, State.examine, if_neg (by simp [ht]), if_neg (by simp [hb]), if_pos hs, State.markBroken_new hb]
        exact State.askForward_new hf
      · have hz : s.setSlot x.ix (fun z => { z with atPoint := true }) = { s with iq := becomes { x with atPoint := true } } :=
          hrecord _ _ rfl
        refine h.records (f := fun z => { z with atPoint := true }) (by rw [hz]) (fun _ => rfl) ?_
          (fun _ => ⟨ho, .inr ⟨hn, by show x.epoch.isSome; rw [he]; rfl, rfl⟩⟩)
        rw [hdeal, State.examine, if_neg (by simp [ht]), if_neg (by simp [hb]), if_neg hs,
          if_pos (Option.isNone_iff_eq_none.2 hno), hz]
      · have hz : { x with state := .capturing, atPoint := false } = { x with state := .capturing } := by rw [← hp]
        have hset := hrecord (fun z => { z with state := .capturing, atPoint := false }) _ hz
        have hdup : (x.marking == some .captureDup) = decide (x.marking = some .captureDup) := by
          rw [Bool.eq_iff_iff, beq_iff_eq, decide_eq_true_iff]
        refine h.records (f := fun z => { z with state := .capturing, atPoint := false }) (by rw [hset]) (fun _ => rfl) ?_
          (fun hc => absurd hc (by simp))
        rw [hdeal, State.examine, if_neg (by simp [ht]), if_neg (by simp [hb]), if_neg hs,
          if_neg (by rw [Option.isNone_iff_eq_none]; exact Option.isSome_iff_ne_none.1 hopen)]
        unfold State.beginCapture
        rw [hdup]
        exact congrArg (fun u : State => { u with cu := { s.cu with
          captures := s.cu.captures ++ [x.newCapture e s.nextGroup] } }) hset
  case starts =>
    intro w sigs len pad line writes
    obtain ⟨hsettle, hepochs⟩ := State.settle_seal hw hp he hl hd hroom
    obtain ⟨-, hec, hda⟩ := (s.sealWork_seals e.number).kept
    obtain ⟨h1, h2, h3, h4, h5, h6, h7, h8⟩ := State.sealPlaced_spec (q := (s.loseAssignments e.number).iq)
      (s.sealWork_seals e.number).jw hec hda hee hsettle
    exact ⟨h1, h2, h3, h4, h5, hepochs, h6, h7, h8⟩

end Sys2Proof.Machine

/-! A journaled write accepted into the OPEN epoch (R60 to R63, R109, R119). -/
namespace Sys2Proof.Machine

/-! ## A write taken for its window (R109, R119) -/

/-- The window of a write taken wakes. -/
def State.wakes (s : State) (w : Option WinIx) : Bool :=
  match w with
  | some i => (s.su.quiet[i]).dormant
  | none => false

/-- The event of a window that wakes. -/
def Slot.wakeEvent (x : Slot) (e : EpochNo) : Event :=
  { code := .windowWake, win := x.win, master := some x.req.master, epoch := some e, arg := x.granule }

/-- From `s` to `t` the write `x` of epoch `e` is taken for its window. -/
structure State.Takes (s t : State) (x : Slot) (e : EpochNo) : Prop where
  frame  : t = { s with su := t.su, eq := t.eq }
  events : t.eq = s.eq.raiseAll (if s.wakes x.win then [x.wakeEvent e] else [])
  quiet  : ∀ i, x.win = some i →
             t.su.quiet[i] = if s.wakes x.win then { counter := 0, dormant := false } else s.su.quiet[i]
  bank   : ∀ i, x.win = some i → s.su.openBank.epoch = some e →
             t.su.openBank.entries[i] = { s.su.openBank.entries[i] with accepted := true } ∧
             t.su.sealingBank = s.su.sealingBank
  others : ∀ i, x.win ≠ some i → t.su.quiet[i] = s.su.quiet[i] ∧
             t.su.openBank.entries[i] = s.su.openBank.entries[i] ∧ t.su.sealingBank.entries[i] = s.su.sealingBank.entries[i]

theorem State.setBank_su (s : State) (e : EpochNo) (f : Bank → Bank) : s.setBank e f = { s with su := (s.setBank e f).su } := by
  unfold State.setBank
  split
  · rfl
  · split <;> rfl

theorem State.setBank_quiet (s : State) (e : EpochNo) (f : Bank → Bank) : (s.setBank e f).su.quiet = s.su.quiet := by
  unfold State.setBank
  split
  · rfl
  · split <;> rfl

theorem Bank.update_other (b : Bank) {i j : WinIx} (h : i ≠ j) (f : BankEntry → BankEntry) :
    (b.update i f).entries[j] = b.entries[j] :=
  Vector.getElem_set_ne i.isLt j.isLt (fun hij => h (Fin.ext hij))

theorem Bank.update_same (b : Bank) (i : WinIx) (f : BankEntry → BankEntry) :
    (b.update i f).entries[i] = f b.entries[i] := Vector.getElem_set_self i.isLt

theorem State.setBank_other (s : State) (e : EpochNo) {i j : WinIx} (h : i ≠ j) (f : BankEntry → BankEntry) :
    (s.setBank e (fun b => b.update i f)).su.openBank.entries[j] = s.su.openBank.entries[j] ∧
    (s.setBank e (fun b => b.update i f)).su.sealingBank.entries[j] = s.su.sealingBank.entries[j] := by
  unfold State.setBank
  split
  · exact ⟨Bank.update_other _ h f, rfl⟩
  · split
    · exact ⟨rfl, Bank.update_other _ h f⟩
    · exact ⟨rfl, rfl⟩

theorem State.takeWrite_takes (s : State) (x : Slot) (e : EpochNo) : s.Takes (s.takeWrite x e) x e := by
  unfold State.takeWrite
  cases hw : x.win with
  | none =>
    refine ⟨rfl, ?_, fun i hi => ?_, fun i hi => ?_, fun _ _ => ⟨rfl, rfl, rfl⟩⟩
    · rw [hw]; rfl
    · rw [hw] at hi; exact absurd hi (by simp)
    · rw [hw] at hi; exact absurd hi (by simp)
  | some i =>
    have hwakes : s.wakes x.win = (s.su.quiet[i]).dormant := by rw [hw]; rfl
    have hframe := s.setBank_su e (fun b => b.update i (fun y => { y with accepted := true }))
    have hquiet := s.setBank_quiet e (fun b => b.update i (fun y => { y with accepted := true }))
    have hbank (h : s.su.openBank.epoch = some e) :
        (s.setBank e (fun b => b.update i (fun y => { y with accepted := true }))).su.openBank.entries[i] =
          { s.su.openBank.entries[i] with accepted := true } ∧
        (s.setBank e (fun b => b.update i (fun y => { y with accepted := true }))).su.sealingBank = s.su.sealingBank := by
      rw [State.setBank_open h]
      exact ⟨Bank.update_same _ i _, rfl⟩
    have hother (j : WinIx) (hj : x.win ≠ some j) := s.setBank_other e (fun hij => hj (hw.trans (congrArg some hij)))
      (fun y : BankEntry => { y with accepted := true })
    dsimp only
    generalize s.setBank e (fun b => b.update i (fun y => { y with accepted := true })) = t at hframe hquiet hbank hother ⊢
    generalize t.su = u at hframe hquiet hbank hother
    subst hframe
    have hquiet' : u.quiet = s.su.quiet := hquiet
    by_cases hd : (u.quiet[i]).dormant = true
    · have hd' : s.wakes x.win = true := by rw [hwakes, ← hquiet']; exact hd
      rw [if_pos hd]
      refine ⟨rfl, ?_, fun j hj => ?_, fun j hj he => ?_, fun j hj => ⟨?_, hother j hj⟩⟩
      · rw [if_pos hd', Slot.wakeEvent, hw]
        rfl
      · rw [if_pos hd']
        obtain rfl := Option.some.inj (hw.symm.trans hj)
        exact Vector.getElem_set_self i.isLt
      · obtain rfl := Option.some.inj (hw.symm.trans hj)
        exact hbank he
      · rw [← hquiet']
        exact Vector.getElem_set_ne i.isLt j.isLt (fun hij => hj (hw.trans (congrArg some (Fin.ext hij))))
    · have hd' : ¬ s.wakes x.win = true := by rw [hwakes, ← hquiet']; exact hd
      rw [if_neg hd]
      refine ⟨rfl, ?_, fun j hj => ?_, fun j hj he => ?_, fun j hj => ⟨?_, hother j hj⟩⟩
      · rw [if_neg hd']
        rfl
      · rw [if_neg hd', ← hquiet']
      · obtain rfl := Option.some.inj (hw.symm.trans hj)
        exact hbank he
      · rw [← hquiet']

/-! ## The lookup of a new write (R60 to R63) -/

/-- The record of a write looked up. -/
def Slot.marked (x : Slot) (absent room : Bool) : Slot :=
  { x with marking := some (if !absent then .noCapture else if room then .capture else .captureDup),
           duty := if absent && room then true else x.duty }

/-- What a lookup of the newest write leaves: nothing behind it carries the duty. -/
theorem State.lookup_new {v : State} {l : List Slot} {x y : Slot} {e : Entry} (hs : v.iq.slots = l ++ [y]) (hix : x.ix = y.ix)
    (hfree : ∀ z ∈ l, z.ix ≠ y.ix) (hpos : ∀ z ∈ v.iq.slots, ¬ x.pos < z.pos) :
    let absent := decide (x.granule ∉ v.cu.touched)
    let room := decide (v.cu.touched.length < 1024)
    v.lookup x e =
      { v with
        iq := { v.iq with slots := l ++ [y.marked absent room] }
        cu := { v.cu with touched := if absent && room then x.granule :: v.cu.touched else v.cu.touched }
        ec := if absent && !room then
            { v.ec with table := v.ec.table.map (fun z => if z.number = e.number then
                { z with overflow := if z.overflow < 65535 then z.overflow + 1 else 65535 } else z) }
          else v.ec
        eq := v.eq.raiseAll (if absent && !room && e.overflow == 0 then
            [{ code := .touchedOverflow, win := x.win, master := some x.req.master, epoch := some e.number, arg := x.granule }]
          else []) } := by
  intro absent room
  have hset (u : State) (hu : u.iq.slots = l ++ [y]) (f : Slot → Slot) :
      u.setSlot x.ix f = { u with iq := { u.iq with slots := l ++ [f y] } } := by
    unfold State.setSlot
    rw [hu, hix, map_append_new hfree f]
  unfold State.lookup
  by_cases hg : x.granule ∈ v.cu.touched
  · have habs : absent = false := decide_eq_false (Classical.not_not.2 hg)
    have hnone : v.iq.slots.find? (fun z => z.granule == x.granule && z.duty && z.epoch == some e.number &&
        decide (x.pos < z.pos)) = none :=
      List.find?_eq_none.2 (fun z hz => by simp [hpos z hz])
    rw [if_pos hg]
    unfold State.takeDuty
    rw [hnone, habs]
    exact hset v hs _
  · have habs : absent = true := decide_eq_true hg
    rw [if_neg hg]
    by_cases hr : v.cu.touched.length < 1024
    · have hroom : room = true := decide_eq_true hr
      rw [if_pos hr, habs, hroom]
      exact hset { v with cu := { v.cu with touched := x.granule :: v.cu.touched } } hs _
    · have hroom : room = false := decide_eq_false hr
      rw [if_neg hr, habs, hroom]
      unfold State.overflowLookup
      dsimp only
      rw [hset (v.setEntry e.number _) hs]
      unfold State.setEntry
      rw [number_fun]
      by_cases ho : e.overflow = 0
      · rw [if_pos ho, ho]
        rfl
      · rw [if_neg ho]
        have hne : (e.overflow == 0) = false := by simpa using ho
        rw [hne]
        rfl

/-! ## Acceptance of a journaled write in JOURNALING (R61) -/

/-- The state with the write in its slot, assigned to epoch `e`, the event of its decision raised. -/
def State.assigned (s : State) (q : SlotIx) (r : Request) (e : EpochNo) : State :=
  { s.pushSlot { s.newSlot q r with epoch := some e } with eq := s.decidedQueue r }

theorem State.accepted_slot? {s : State} {q : SlotIx} (hq : s.freeSlot? = some q) (r : Request) :
    (s.accepted q r).slot? q = some (s.newSlot q r) := by
  have hfree := State.freeSlot?_free hq
  rw [State.accepted_eq]
  show (s.iq.slots ++ [s.newSlot q r]).find? _ = _
  rw [List.find?_append, List.find?_eq_none.2 (fun y hy => by simpa using hfree y hy), Option.none_or,
    List.find?_cons_of_pos (by exact beq_self_eq_true q)]

/-- Acceptance of a journaled write in JOURNALING, up to its marking. -/
theorem exec_assigned {s : State} {q : SlotIx} {r : Request} {e : Entry} (h : s.Accepts q r) (hb : s.ec.bridge = .journaling)
    (hw : r.dir = .write) (hj : (s.classify r).2.1.journaled = true) (he : s.openEntry? = some e) :
    exec (.uportRequest r) s = .next (State.settle
      ((if (s.begin.newSlot q r).outcome.isNone then
        (s.begin.assigned q r e.number).takeWrite (s.begin.newSlot q r) e.number
        else s.begin.assigned q r e.number).markWrite (s.begin.newSlot q r) e)) := by
  have hq : s.begin.freeSlot? = some q := h.2.2.1
  have hopen : (s.begin.accepted q r).openEntry? = some e := by
    rw [State.openEntry?, State.accepted_bridge]
    exact he
  have hassign : (s.begin.accepted q r).assignWrite q = (if (s.begin.newSlot q r).outcome.isNone then
        (s.begin.assigned q r e.number).takeWrite (s.begin.newSlot q r) e.number
        else s.begin.assigned q r e.number).markWrite (s.begin.newSlot q r) e := by
    unfold State.assignWrite
    rw [State.accepted_slot? hq r, hopen]
    dsimp only
    rw [State.setSlot_accepted hq r]
    rfl
  have henter : (s.begin.accepted q r).enter (s.begin.newSlot q r) = (s.begin.accepted q r).assignWrite q := by
    have hbridge : (s.begin.accepted q r).ec.bridge = .journaling := by rw [State.accepted_bridge]; exact hb
    have hwrite : (s.begin.newSlot q r).isWrite = true := by
      show (r.dir == .write) = true
      rw [hw]; rfl
    have hj' : (s.begin.newSlot q r).journaled = true := hj
    cases ho : (s.begin.newSlot q r).outcome with
    | none =>
      rw [State.enter_open hj' ho, hbridge]
      show State.enterBy _ (entrance .journaling r.dir) _ = _
      rw [hw]
      rfl
    | some o =>
      unfold State.enter
      rw [if_pos hj', ho]
      exact if_pos ⟨hbridge, hwrite⟩
  rw [exec_accepted h, henter, hassign]

/-- Settles O20: the write is taken for its window, then looked up. -/
theorem journaledWriteLookedUp : Obligations.JournaledWriteLookedUp := by
  unfold Obligations.JournaledWriteLookedUp
  intro s q r e ha hb hw hj hd he hbroken hp hpos g win absent room wakes event
  have hq : s.freeSlot? = some q := ha.2.2.1
  have hfree : ∀ y ∈ s.iq.slots, y.ix ≠ q := State.freeSlot?_free hq
  let x : Slot := s.begin.newSlot q r
  let p : State := s.begin.assigned q r e.number
  let v : State := p.takeWrite x e.number
  have hnone : (s.begin.classify r).2.2 = none := hd
  have hout : x.outcome = none := by show (s.begin.classify r).2.2.map _ = none; rw [hnone]; rfl
  have hqueue : s.begin.decidedQueue r = s.eq := by
    have hev : s.begin.classifyEvent r = none := by show (s.begin.classify r).2.2.map _ = none; rw [hnone]; rfl
    rw [State.decidedQueue, hev]; rfl
  have htakes : p.Takes v x e.number := p.takeWrite_takes x e.number
  have hwakes : p.wakes x.win = wakes := rfl
  have hpeq : p.eq = s.eq := hqueue
  have hviq : v.iq = p.iq := by rw [htakes.frame]
  have hvcu : v.cu = s.cu := by rw [htakes.frame]; rfl
  have hvec : v.ec = s.ec := by rw [htakes.frame]; rfl
  have hmark : v.markWrite x e = v.lookup x e := by
    unfold State.markWrite
    have hvp : v.jw.pressure ≠ .suspended := by rw [htakes.frame]; exact hp
    dsimp only
    rw [if_neg hvp, hbroken, hout]
    rfl
  have hrow : exec (.uportRequest r) s = .next (v.lookup x e).settle := by
    rw [exec_assigned ha hb hw hj he, ← hmark]
    have hout' : (s.begin.newSlot q r).outcome.isNone = true := by rw [show (s.begin.newSlot q r).outcome = none from hout]; rfl
    rw [if_pos hout']
  have hlook := State.lookup_new (v := v) (l := s.iq.slots) (x := x) (y := { x with epoch := some e.number }) (e := e)
    (by rw [hviq]; rfl) rfl hfree (fun z hz => by
      rw [hviq] at hz
      obtain hz | hz := List.mem_append.1 hz
      · exact Nat.not_lt.2 (Nat.le_of_lt (hpos z hz))
      · rw [List.mem_singleton.1 hz]; exact Nat.lt_irrefl _)
  simp only [hvcu, hvec] at hlook
  refine ⟨v.lookup x e, hrow, ?_⟩
  rw [hlook]
  have hvf := htakes.frame
  refine ⟨?around, ?uport, ?pos, rfl, ?jw, ?da, ?re, ?wu, ?events, ?slots, ?last, rfl, rfl, fun i hi => htakes.quiet i hi,
    fun i hi ho => htakes.bank i hi ho, fun i hi => htakes.others i hi⟩
  case around =>
    refine ⟨?_, ?_, ?_, ?_, ?_, ?_, ?_, ?_, ?_⟩
    · show v.port = _; rw [hvf]; rfl
    · show v.inReset = _; rw [hvf]; rfl
    · show v.noFrame = _; rw [hvf]; rfl
    · show v.pending = _; rw [hvf]; rfl
    · show v.wu.staged = _; rw [hvf]; rfl
    · show v.iq.holdLimit = _; rw [hvf]; rfl
    · refine (EventQueue.raiseAll_mask _ _).trans ?_
      rw [htakes.events, EventQueue.raiseAll_mask, hpeq]
    · refine (EventQueue.raiseAll_time _ _).trans ?_
      rw [htakes.events, EventQueue.raiseAll_time, hpeq]
    · show v.dport = _; rw [hvf]; rfl
  case uport => show v.uport = _; rw [hvf]; rfl
  case pos => show v.iq.nextPos = _; rw [hviq]; rfl
  case jw => show v.jw = _; rw [hvf]; rfl
  case da => show v.da = _; rw [hvf]; rfl
  case re => show v.re = _; rw [hvf]; rfl
  case wu => show v.wu = _; rw [hvf]; rfl
  case events =>
    show v.eq.raiseAll _ = _
    rw [htakes.events, hpeq, hwakes, EventQueue.raiseAll_append]
    rfl
  case slots =>
    show s.iq.slots ++ [({ x with epoch := some e.number } : Slot).marked absent room] = _
    have hduty : (if (absent && room) = true then true else false) = (absent && room) := by
      cases absent && room <;> rfl
    rw [← hduty]
    show s.iq.slots ++ [{ x with epoch := some e.number, marking := _, duty := _ }] = _
    rw [show x.outcome = none from hout]
    rfl
  case last =>
    show (s.iq.slots ++ [_]).find? _ = (s.iq.slots ++ [_]).getLast?
    rw [List.find?_append, List.find?_eq_none.2 (fun y hy => by simpa using hfree y hy), Option.none_or,
      List.find?_cons_of_pos (by exact beq_self_eq_true q), List.getLast?_concat]

/-! ## Marked without a lookup (R61) -/

/-- The mark that SUSPENDED makes before a write is marked without a lookup. -/
def State.unlookedMark (s : State) (e : EpochNo) : State :=
  if s.jw.pressure = .suspended then s.markBroken e (s.jw.reason.getD .pressure) else s

theorem State.unlookedMark_calm (s : State) (e : EpochNo) : Calm s (s.unlookedMark e) := by
  unfold State.unlookedMark
  split
  · exact s.markBroken_calm _ _
  · exact Calm.refl s

theorem State.markWrite_unlooked {s : State} {x : Slot} {e : Entry}
    (h : s.jw.pressure = .suspended ∨ e.broken.isSome ∨ x.outcome.isSome) :
    s.markWrite x e = (s.unlookedMark e.number).setSlot x.ix (fun z => { z with marking := some .noCapture }) := by
  unfold State.markWrite State.unlookedMark
  by_cases hp : s.jw.pressure = .suspended
  · rw [if_pos hp, if_pos hp]
  · rw [if_neg hp, if_neg hp]
    exact if_pos (by rw [Bool.or_eq_true]; exact h.resolve_left hp)

/-- The state in which a write assigned at acceptance is marked: taken for its window when nothing is decided of it. -/
theorem State.assigned_frame (s : State) (q : SlotIx) (r : Request) (e : EpochNo) (x : Slot) (b : Bool) :
    ∃ su eq, (if b then (s.assigned q r e).takeWrite x e else s.assigned q r e) = { s.assigned q r e with su := su, eq := eq } ∧
      eq.mask = s.eq.mask ∧ eq.time = s.eq.time := by
  have hqueue : (s.decidedQueue r).mask = s.eq.mask ∧ (s.decidedQueue r).time = s.eq.time := by
    unfold State.decidedQueue
    cases s.classifyEvent r with
    | none => exact ⟨rfl, rfl⟩
    | some ev => exact ⟨EventQueue.raise_mask _ _, EventQueue.raise_time _ _⟩
  cases b with
  | true =>
    have h := (s.assigned q r e).takeWrite_takes x e
    refine ⟨_, _, h.frame, ?_, ?_⟩
    · rw [h.events, EventQueue.raiseAll_mask]
      exact hqueue.1
    · rw [h.events, EventQueue.raiseAll_time]
      exact hqueue.2
  | false => exact ⟨_, _, rfl, hqueue.1, hqueue.2⟩

/-- Settles O21: the OPEN epoch takes the write without a lookup, broken first while SUSPENDED. -/
theorem uncapturedWhenNotLookedUp : Obligations.UncapturedWhenNotLookedUp := by
  unfold Obligations.UncapturedWhenNotLookedUp
  intro s q r e ha hb hw hj he hwhy
  have hfree : ∀ y ∈ s.iq.slots, y.ix ≠ q := State.freeSlot?_free ha.2.2.1
  let x : Slot := s.begin.newSlot q r
  obtain ⟨su, eq, hv, hmask, htime⟩ := s.begin.assigned_frame q r e.number x x.outcome.isNone
  let v : State := { s.begin.assigned q r e.number with su := su, eq := eq }
  let w : State := v.unlookedMark e.number
  let u : State := w.setSlot q (fun z => { z with marking := some .noCapture })
  have hcalm : Calm v w := v.unlookedMark_calm e.number
  have hout : x.outcome.isSome = (s.classify r).2.2.isSome := Option.isSome_map
  have hrow : exec (.uportRequest r) s = .next u.settle := by
    rw [exec_assigned ha hb hw hj he, hv, State.markWrite_unlooked (s := v) (x := x) (e := e)]
    · rfl
    · rw [hout]
      exact hwhy
  have haround : s.SameAround u := hcalm.sameAround ⟨rfl, rfl, rfl, rfl, rfl, rfl, hmask, htime, rfl⟩
  have hvslot : v.slot? q = some { x with epoch := some e.number } := by
    show (s.iq.slots ++ [_]).find? _ = _
    rw [List.find?_append, List.find?_eq_none.2 (fun y hy => by simpa using hfree y hy), Option.none_or,
      List.find?_cons_of_pos (by exact beq_self_eq_true q)]
  have hvother (p : SlotIx) (hp : p ≠ q) : v.slot? p = s.slot? p := by
    show (s.iq.slots ++ [_]).find? _ = _
    rw [List.find?_append, List.find?_cons_of_neg (by rw [beq_iff_eq]; exact Ne.symm hp), List.find?_nil,
      Option.or_none]
    rfl
  refine ⟨u, hrow, haround, hcalm.uport, hcalm.cu, ?jw, hcalm.da, hcalm.re, hcalm.wu, ?pos, fun p hp => ?others, hcalm.ec,
    ?slot, fun hp => ?kept, fun hp hen => ?marked⟩
  case jw =>
    show w.jw = _
    dsimp only [w]
    unfold State.unlookedMark
    split
    · exact v.markBroken_jw _ _
    · rfl
  case pos => show w.iq.nextPos = _; rw [hcalm.iq]; rfl
  case others =>
    have hu : u.slot? p = w.slot? p :=
      State.slot?_setSlot_other (f := fun z => { z with marking := some .noCapture }) hp (fun _ => rfl)
    rw [hu, hcalm.sameSlots p, hvother p hp]
  case slot =>
    obtain ⟨y, hy, hyx⟩ := hcalm.sameSlots.find hvslot
    have hkey := Slot.reexamined_key hyx
    refine ⟨_, State.slot?_setSlot_same (f := fun z => { z with marking := some .noCapture }) (fun _ => rfl) hy,
      (Slot.key_req hkey :), Slot.reexamined_state hyx, Slot.reexamined_epoch hyx, rfl, Slot.reexamined_outcome hyx⟩
  case kept =>
    show w.ec = _
    have hw : w = v := if_neg hp
    rw [hw]
    rfl
  case marked =>
    have hw : w = v.markBroken e.number (s.jw.reason.getD .pressure) := if_pos hp
    have hent : v.entry? e.number = some e := hen
    refine ⟨_, ?_, rfl⟩
    show w.entry? e.number = _
    rw [hw]
    exact State.markBroken_entry? hent _

end Sys2Proof.Machine

/-! The end of CLOSING (R86). -/
namespace Sys2Proof.Machine

theorem State.SameButMarks.mem {s t : State} (h : s.SameButMarks t) {z : Entry} (hz : z ∈ t.ec.table) :
    ∃ y ∈ s.ec.table, z.unmarked = y.unmarked := by
  have hm : z.unmarked ∈ s.ec.table.map Entry.unmarked :=
    (show t.ec.table.map Entry.unmarked = s.ec.table.map Entry.unmarked from h) ▸ List.mem_map_of_mem hz
  obtain ⟨y, hy, hyz⟩ := List.mem_map.1 hm
  exact ⟨y, hy, hyz.symm⟩

theorem State.enterSuspended_mem {m : State} {r : Reason} {z : Entry} (hz : z ∈ (m.enterSuspended r).ec.table) :
    ∃ y ∈ m.ec.table, z.unmarked = y.unmarked := by
  by_cases hp : m.jw.pressure = .suspended
  · rw [State.enterSuspended_self hp] at hz
    exact ⟨z, hz, rfl⟩
  · obtain ⟨old, rest, ht, -, hc⟩ := (m.suspendMarked r).commitN_some (m.suspendMarked r).sealedCount .suspend
    rw [State.enterSuspended_of hp] at hz
    have hz' : z ∈ ((m.suspendMarked r).commitSealed .suspend).ec.table := hz
    rw [State.commitSealed, hc.ec] at hz'
    refine (m.suspendMarked_marks r).mem ?_
    rw [ht]
    exact List.mem_append_right _ hz'

theorem State.faultOnError_calm (s : State) (l : Nat × EpochNo) (kind : FaultKind) (res : AckResult) :
    Calm s (s.faultOnError l kind res) := by
  cases res with
  | ok data => exact Calm.refl s
  | error => exact s.recordFault_calm l.1 l.2 kind

theorem State.faultOnError_mem {s : State} {l : Nat × EpochNo} {kind : FaultKind} {res : AckResult} {z : Entry}
    (hz : z ∈ (s.faultOnError l kind res).ec.table) : ∃ y ∈ s.ec.table, z.unmarked = y.unmarked := by
  cases res with
  | ok data => exact ⟨z, hz, rfl⟩
  | error =>
    obtain ⟨y, hy, hzy⟩ := State.enterSuspended_mem (m := (s.markBroken l.2 .media).raise _) hz
    obtain ⟨x, hx, hyx⟩ := (s.markBroken_marks l.2 .media).mem hy
    exact ⟨x, hx, hzy.trans hyx⟩

theorem exec_sealWriteAck {s : State} {p : PortIx} {l : Nat} {e : EpochNo} (hp : s.Outstanding p (.sealWrite l e))
    (res : AckResult) : exec (.sealWriteAck p res) s =
      .next (((s.begin.freePort p).faultOnError (l, e) .sealWrite res).ackSeal e).settle :=
  (execSealWriteAck_eq p res s).trans (congrArg Host.Outcome.next
    (State.ackRow_outstanding (s := s.begin) (own := PortKind.seal?) (a := (l, e)) hp rfl rfl))

/-! ## The state after the SEALED mark -/

theorem State.becomeSealed_allSealed {s : State} {e : EpochNo} (h : ∀ y ∈ s.ec.table, y.number = e ∨ y.state = .sealed) :
    ∀ y ∈ (s.becomeSealed e).ec.table, y.state = .sealed := by
  intro z hz
  obtain ⟨y, hy, rfl⟩ := List.mem_map.1 (show z ∈ s.ec.table.map _ from hz)
  split
  · rfl
  · rename_i hn
    exact (h y hy).resolve_left (fun he => hn (beq_iff_eq.2 he))

/-- The event of an epoch that becomes SEALED (R98). -/
def State.sealedEvent (s : State) (e : EpochNo) : Event :=
  { code := .epochSealed, epoch := some e, arg := BitVec.ofNat 32 ((s.entry? e).elim 0 (·.undos)) }

theorem State.becomeSealed_eq (s : State) (e : EpochNo) : (s.becomeSealed e).eq = s.eq.raise (s.sealedEvent e) := rfl

theorem Within.sameAround {s v u : State} (h : Within v u) (hv : s.SameAround v) : s.SameAround u := by
  obtain ⟨evs, he⟩ := h.events
  obtain ⟨hport, hreset, hframe, hpending, hstaged, hlimit, hmask, htime, hdport⟩ := hv
  exact ⟨h.keeps.port.trans hport, h.keeps.inReset.trans hreset, h.keeps.noFrame.trans hframe,
    h.keeps.pending.trans hpending, h.keeps.staged.trans hstaged, h.keeps.holdLimit.trans hlimit,
    by rw [he, EventQueue.raiseAll_mask]; exact hmask, by rw [he, EventQueue.raiseAll_time]; exact htime,
    h.keeps.dport.trans hdport⟩

theorem State.becomeSealed_length (s : State) (e : EpochNo) :
    (s.becomeSealed e).ec.table.length = s.ec.table.length := List.length_map ..

theorem State.sealedCount_all {s : State} (h : ∀ y ∈ s.ec.table, y.state = .sealed) :
    s.sealedCount = s.ec.table.length :=
  State.sealedCount_append (List.append_nil _).symm h (by simp)

/-! ## The release of R86 -/

/-- What becomes of a request where CLOSING ends. -/
def Slot.passed (x : Slot) : Slot := if x.state = .held then x.unassigned.unheld else x

theorem Slot.passed_ix (x : Slot) : x.passed.ix = x.ix := by
  unfold Slot.passed
  split
  · exact Slot.unheld_ix _
  · rfl

theorem Slot.passed_of_held {x y : Slot} (h : y.reexamined = x.reexamined) (hx : x.state = .held) :
    y.passed = { x with
      state := .waiting, holdEntry := none, epoch := none, marking := none, duty := false, atPoint := false } := by
  have hs : y.state = .held := (show y.reexamined.state = x.reexamined.state by rw [h]).trans hx
  rw [Slot.passed, if_pos hs]
  have hu : y.unassigned.unheld = { y.reexamined with
      state := .waiting, holdEntry := none, epoch := none, marking := none, duty := false } :=
    if_pos hs
  rw [hu, h]
  rfl

theorem Slot.passed_of_unheld {y : Slot} (h : y.state ≠ .held) : y.passed = y := if_neg h

theorem Slot.passed_state (x : Slot) : x.passed.state ≠ .held := by
  unfold Slot.passed
  split
  · rename_i h
    rw [show x.unassigned.unheld.state = .waiting from congrArg Slot.state (if_pos (c := x.unassigned.state = .held) h)]
    decide
  · assumption

theorem State.releasePassthrough_slot? (s : State) (q : SlotIx) :
    s.releasePassthrough.slot? q = (s.slot? q).map Slot.passed :=
  find?_map_ix Slot.passed_ix _ q

/-- The end of CLOSING from a table that is SEALED whole. -/
structure State.Closes (s u : State) (e : EpochNo) : Prop where
  ec     : u.ec = { s.ec with table := [], bridge := .passthrough }
  jw     : u.jw = { s.jw with tail := s.jw.head, pressure := .normal, reason := none }
  su     : u.su = { s.su with openBank := Bank.reset, sealingBank := Bank.reset }
  wu     : u.wu = s.wu
  cu     : u.cu = s.cu
  re     : u.re = s.re
  da     : u.da = s.da
  slots  : ∃ t : State, s.SameSlots t ∧ (∀ q, u.slot? q = (t.slot? q).map Slot.passed) ∧
             u.iq.slots = t.iq.slots.map Slot.passed
  events : ∃ evs, u.eq = (s.eq.raiseAll evs).raise
             { code := .journalingDisabled, epoch := some e, arg := BitVec.ofNat 32 s.ec.table.length }

theorem State.endClosing_closes {s : State} (h : ∀ y ∈ s.ec.table, y.state = .sealed) (e : EpochNo) :
    s.Closes (s.endClosing e) e := by
  have hc := State.commitSealed_commits (s := s) (List.append_nil _).symm h (by simp) .close
  have hcount := State.sealedCount_all h
  let t : State := (s.commitSealed .close).emptyRing
  have hn : Calm t t.normalize := t.normalize_calm
  have hsame : s.SameSlots t.normalize := fun q => (hn.sameSlots q).trans (hc.calm.sameSlots q)
  constructor
  case ec =>
    show { t.normalize.ec with bridge := .passthrough } = _
    rw [t.normalize_ec]
    show { (s.commitSealed .close).ec with bridge := .passthrough } = _
    rw [hc.ec]
  case jw =>
    show t.normalize.jw = _
    rw [t.normalize_jw]
    show { (s.commitSealed .close).jw with tail := (s.commitSealed .close).jw.head, pressure := .normal, reason := none } = _
    rw [hc.head, hc.calm.jw]
  case su =>
    show { t.normalize.su with openBank := Bank.reset, sealingBank := Bank.reset } = _
    rw [hn.su]
    show { (s.commitSealed .close).su with openBank := Bank.reset, sealingBank := Bank.reset } = _
    rw [hc.calm.su]
  case wu => exact hn.wu.trans hc.calm.wu
  case cu => exact hn.cu.trans hc.calm.cu
  case re => exact hn.re.trans hc.calm.re
  case da => exact hn.da.trans hc.calm.da
  case slots => exact ⟨t.normalize, hsame, fun q => State.releasePassthrough_slot? _ q, rfl⟩
  case events =>
    obtain ⟨evs, he, -⟩ := hc.eq
    obtain ⟨evs', he'⟩ := hn.events
    refine ⟨evs ++ evs', ?_⟩
    show t.normalize.eq.raise _ = _
    rw [he', EventQueue.raiseAll_append, hcount, ← he]
    rfl

theorem State.Closes.notHeld {s u : State} {e : EpochNo} (h : s.Closes u e) : ∀ y ∈ u.iq.slots, y.state ≠ .held := by
  obtain ⟨t, -, -, hs⟩ := h.slots
  intro y hy
  rw [hs] at hy
  obtain ⟨x, -, rfl⟩ := List.mem_map.1 hy
  exact x.passed_state

theorem State.Closes.held {s u : State} {e : EpochNo} (h : s.Closes u e) {q : SlotIx} {x : Slot}
    (hx : (s.slot? q).map Slot.reexamined = some x.reexamined) (hs : x.state = .held) : u.slot? q = some { x with
      state := .waiting, holdEntry := none, epoch := none, marking := none, duty := false, atPoint := false } := by
  obtain ⟨t, ht, hu, -⟩ := h.slots
  obtain ⟨y, hy, hyx⟩ := Option.map_eq_some_iff.1 ((ht q).trans hx)
  rw [hu q, hy, Option.map_some, Slot.passed_of_held hyx hs]

theorem State.Closes.unheld {s u : State} {e : EpochNo} (h : s.Closes u e) {q : SlotIx} {x : Slot}
    (hx : (s.slot? q).map Slot.reexamined = some x.reexamined) (hs : x.state ≠ .held) : (u.slot? q).map Slot.reexamined = some x.reexamined := by
  obtain ⟨t, ht, hu, -⟩ := h.slots
  obtain ⟨y, hy, hyx⟩ := Option.map_eq_some_iff.1 ((ht q).trans hx)
  have hys : y.state ≠ .held := (show y.reexamined.state = x.reexamined.state by rw [hyx]) ▸ hs
  rw [hu q, hy, Option.map_some, Slot.passed_of_unheld hys, Option.map_some, hyx]

/-- Settles O35: with the last epoch SEALED every epoch is committed, the ring is empty and the bridge passes through. -/
theorem closingEnds : Obligations.ClosingEnds := by
  unfold Obligations.ClosingEnds
  intro s p l e x res hp hb _hx hall
  let v : State := (s.begin.freePort p).faultOnError (l, e) .sealWrite res
  have hv : Calm (s.begin.freePort p) v := State.faultOnError_calm _ _ _ _
  have hsealed : ∀ y ∈ (v.becomeSealed e).ec.table, y.state = .sealed := by
    refine State.becomeSealed_allSealed (fun z hz => ?_)
    obtain ⟨y, hy, hzy⟩ := State.faultOnError_mem hz
    rw [Entry.unmarked_number hzy, Entry.unmarked_state hzy]
    exact hall y hy
  have hbridge : (v.becomeSealed e).ec.bridge = .closing := by
    show v.ec.bridge = _
    rw [hv.ec]
    exact hb
  have hack : v.ackSeal e = (v.becomeSealed e).endClosing e := if_pos hbridge
  have hcl := State.endClosing_closes hsealed e
  have hslots {q : SlotIx} {y : Slot} (hy : s.slot? q = some y) :
      ((v.becomeSealed e).slot? q).map Slot.reexamined = some y.reexamined :=
    (hv.sameSlots q).trans (congrArg (Option.map Slot.reexamined) hy)
  obtain ⟨evs, hevs⟩ := hv.events
  obtain ⟨evs', hevs'⟩ := hcl.events
  have hwithin := (v.becomeSealed_within e).trans ((v.becomeSealed e).endClosing_within e)
  refine ⟨_, evs ++ [v.sealedEvent e] ++ evs', (v.becomeSealed e).ec.table.length, ?_, ?_, ?_, ?_, ?_, ?_,
    fun q y hy hh => hcl.unheld (hslots hy) hh, fun q y hy hh => hcl.held (hslots hy) hh, hcl.notHeld, ?_, ?_, ?_, ?_, ?_⟩
  · rw [exec_sealWriteAck hp res, hack]
  · rw [hcl.ec]
    show { v.ec with table := [], bridge := .passthrough } = _
    rw [hv.ec]
    rfl
  · rw [hcl.jw]
    show { v.jw with
      sealJob := none, tail := v.jw.head, pressure := .normal, reason := none } = _
    rw [hv.jw]
    rfl
  · rw [hcl.su]
    show { v.su with openBank := Bank.reset, sealingBank := Bank.reset } = _
    rw [hv.su]
    rfl
  · exact hwithin.sameAround (hv.sameAround (s.freePort_sameAround p))
  · rw [hcl.da]
    exact hv.da
  · exact hcl.wu.trans hv.wu
  · exact hcl.cu.trans hv.cu
  · exact hcl.re.trans hv.re
  · have hfirst : v.eq = s.eq.raiseAll evs := hevs
    rw [hevs', v.becomeSealed_eq, hfirst, EventQueue.raiseAll_append, EventQueue.raiseAll_append]
    rfl
  · intro hok
    rw [v.becomeSealed_length e]
    cases res with
    | ok data => rfl
    | error => exact absurd rfl hok

end Sys2Proof.Machine

/-! What the dealing with heads leaves as it was (R7, R65 to R68). -/
namespace Sys2Proof.Machine

/-- What the dealing with heads changes: the requests, the captures, the touched set, the forward path's list and the
responses; of the table the marks, of which those that stand stay. -/
structure Serves (s t : State) : Prop where
  jw     : t.jw = s.jw
  su     : t.su = s.su
  wu     : t.wu = s.wu
  re     : t.re = s.re
  da     : t.da = { s.da with forward := t.da.forward }
  ec     : t.ec = { s.ec with table := t.ec.table }
  marks  : s.SameButMarks t
  kept   : ∀ e y, s.entry? e = some y → y.broken.isSome → t.entry? e = some y
  events : ∃ evs, t.eq = s.eq.raiseAll evs ∧ ∀ ev ∈ evs, ev.code = .trippedWrite

theorem Serves.refl (s : State) : Serves s s :=
  ⟨rfl, rfl, rfl, rfl, rfl, rfl, rfl, fun _ _ h _ => h, [], rfl, by simp⟩

theorem Serves.trans {s t u : State} (h : Serves s t) (k : Serves t u) : Serves s u where
  jw := k.jw.trans h.jw
  su := k.su.trans h.su
  wu := k.wu.trans h.wu
  re := k.re.trans h.re
  da := by rw [k.da, h.da]
  ec := by rw [k.ec, h.ec]
  marks := h.marks.trans k.marks
  kept := fun e y hy hb => k.kept e y (h.kept e y hy hb) hb
  events := by
    obtain ⟨a, ha, hal⟩ := h.events
    obtain ⟨b, hb, hbl⟩ := k.events
    refine ⟨a ++ b, by rw [hb, ha, EventQueue.raiseAll_append], fun ev hev => ?_⟩
    exact (List.mem_append.1 hev).elim (hal ev) (hbl ev)

/-- The requests, the captures, the touched set, the forward path's list and the responses change alone. -/
theorem Serves.of_requests {s t : State} (hjw : t.jw = s.jw) (hsu : t.su = s.su) (hwu : t.wu = s.wu) (hre : t.re = s.re)
    (hda : t.da = { s.da with forward := t.da.forward }) (hec : t.ec = s.ec) (heq : t.eq = s.eq) : Serves s t :=
  ⟨hjw, hsu, hwu, hre, hda, by rw [hec], .of_ec hec, fun e _ hy _ => (State.entry?_of_table (by rw [hec]) e).trans hy, [],
    heq, by simp⟩

theorem State.askForward_serves (s : State) (q : SlotIx) : Serves s (s.askForward q) := by
  unfold State.askForward
  split
  · exact .refl s
  · exact .of_requests rfl rfl rfl rfl rfl rfl rfl

theorem State.setSlot_serves (s : State) (q : SlotIx) (f : Slot → Slot) : Serves s (s.setSlot q f) :=
  .of_requests rfl rfl rfl rfl rfl rfl rfl

theorem State.passDuty_serves (s : State) (x : Slot) : Serves s (s.passDuty x) := by
  unfold State.passDuty
  split
  · split
    · exact s.setSlot_serves _ _
    · split
      · exact .of_requests rfl rfl rfl rfl rfl rfl rfl
      · exact .refl s
  · exact .refl s

theorem State.answerDecided_serves (s : State) (x : Slot) (o : Decided) : Serves s (s.answerDecided x o) := by
  unfold State.answerDecided
  refine Serves.trans ?_ (State.passDuty_serves _ x)
  exact .of_requests rfl rfl rfl rfl rfl rfl rfl

theorem State.decideTripped_serves (s : State) (x : Slot) : Serves s (s.decideTripped x) := by
  refine (s.setSlot_serves x.ix (fun y => { y with outcome := some .tripped, atPoint := false })).trans ?_
  exact ⟨rfl, rfl, rfl, rfl, rfl, rfl, rfl, fun _ _ h _ => h, [_], rfl, by simp⟩

theorem State.markBroken_serves (s : State) (e : EpochNo) (r : Reason) : Serves s (s.markBroken e r) where
  jw := s.markBroken_jw e r
  su := (s.markBroken_calm e r).su
  wu := (s.markBroken_calm e r).wu
  re := (s.markBroken_calm e r).re
  da := by rw [(s.markBroken_calm e r).da]
  ec := (s.markBroken_calm e r).ec
  marks := s.markBroken_marks e r
  kept := fun e' y hy hb => by
    by_cases he : e' = e
    · subst he
      rw [State.markBroken_entry? hy, y.mark_broken r hb]
    · rw [State.markBroken_entry?_other he, hy]
  events := ⟨[], s.markBroken_eq e r, by simp⟩

theorem State.examine_serves (s : State) (x : Slot) (e : EpochNo) (n : Nat) : Serves s (s.examine x e n) := by
  unfold State.examine
  split
  · exact (s.decideTripped_serves x).trans (State.answerDecided_serves _ x _)
  · split
    · exact s.askForward_serves _
    · split
      · exact (s.markBroken_serves e _).trans (State.askForward_serves _ _)
      · split
        · exact s.setSlot_serves _ _
        · exact .of_requests rfl rfl rfl rfl rfl rfl rfl

theorem State.dealHead_serves (s : State) (x : Slot) (n : Nat) : Serves s (s.dealHead x n) := by
  unfold State.dealHead
  split
  · exact s.answerDecided_serves x _
  · split
    · exact .refl s
    · split
      · split
        · exact .refl s
        · exact s.examine_serves x _ n
      · exact s.askForward_serves _

theorem State.dealSlot_serves (s : State) (n : Nat) (q : SlotIx) : Serves s (s.dealSlot n q) := by
  unfold State.dealSlot
  split
  · exact .refl s
  · split
    · exact s.dealHead_serves _ n
    · exact .refl s

theorem State.serve_serves (s : State) : Serves s s.serve := by
  unfold State.serve
  generalize s.nextGroup = n
  generalize s.iq.slots.map (·.ix) = l
  induction l generalizing s with
  | nil => exact .refl s
  | cons q l ih => exact (s.dealSlot_serves n q).trans (ih _)

/-! ## From the SEALED mark to the end of the seal -/

/-- What the rest of a seal leaves as it was as long as no boundary is taken. -/
structure Tends (s t : State) : Prop where
  su     : t.su = s.su
  wu     : t.wu = s.wu
  re     : t.re = s.re
  ec     : t.ec = { s.ec with table := t.ec.table }
  slots  : t.da.slots = s.da.slots
  job    : t.jw.sealJob = s.jw.sealJob
  region : t.jw.region = s.jw.region

theorem Tends.trans {s t u : State} (h : Tends s t) (k : Tends t u) : Tends s u :=
  ⟨k.su.trans h.su, k.wu.trans h.wu, k.re.trans h.re, by rw [k.ec, h.ec], k.slots.trans h.slots, k.job.trans h.job,
    k.region.trans h.region⟩

theorem Calm.tends {s t : State} (h : Calm s t) : Tends s t :=
  ⟨h.su, h.wu, h.re, h.ec, by rw [h.da], by rw [h.jw], by rw [h.jw]⟩

theorem Serves.tends {s t : State} (h : Serves s t) : Tends s t :=
  ⟨h.su, h.wu, h.re, h.ec, by rw [h.da], by rw [h.jw], by rw [h.jw]⟩

theorem State.placeOpen_tends (s : State) (e : EpochNo) : Tends s (s.placeOpen e) := by
  have hslots : (s.opening e).da.slots = s.da.slots := by
    show (s.recordDa (.openRec s.jw.head e (s.openBackLink e))).slots = _
    rw [State.recordDa_frame]
  have hopening : Tends s (s.opening e) := ⟨rfl, rfl, rfl, rfl, hslots, rfl, rfl⟩
  rw [State.placeOpen_eq]
  exact hopening.trans (State.evaluate_calm (s.opening e)).tends

theorem State.reserveOpen_tends (s : State) (e : EpochNo) : Tends s (s.reserveOpen e) := by
  unfold State.reserveOpen
  split
  · exact s.placeOpen_tends e
  · exact (s.reservationFails_calm e).tends.trans (State.placeOpen_tends _ e)

theorem State.openNext_tends (s : State) : Tends s s.openNext := by
  unfold State.openNext
  split
  · exact ⟨rfl, rfl, rfl, rfl, rfl, rfl, rfl⟩
  · exact s.reserveOpen_tends _

/-- A seal up to its pending boundary. -/
def State.sealing (s : State) (e : EpochNo) : State := (((s.commitBroken e).openNext.serve).depthCommit).recover

theorem State.completeSeal_eq (s : State) (e : EpochNo) : s.completeSeal e = (s.sealing e).takePending := rfl

theorem State.sealing_tends (s : State) (e : EpochNo) : Tends s (s.sealing e) :=
  ((((s.commitBroken_calm e).tends.trans (State.openNext_tends _)).trans (State.serve_serves _).tends).trans
    (State.depthCommit_calm _).tends).trans (State.recover_calm _).tends

theorem State.takePending_none {s : State} (h : s.ec.pending = false) : s.takePending = s := if_neg (by simp [h])

theorem State.completeSeal_of_clear {s : State} (h : s.ec.pending = false) (e : EpochNo) : s.completeSeal e = s.sealing e := by
  rw [State.completeSeal_eq, State.takePending_none]
  rw [(s.sealing_tends e).ec]
  exact h

/-- What an acknowledgment of a SEAL write leaves as it was, with no boundary pending. -/
structure State.SealsQuietly (s u : State) (p : PortIx) : Prop where
  ec    : u.ec = { s.ec with table := u.ec.table }
  same  : s.SameAround u
  re    : u.re = s.re
  wu    : u.wu = s.wu
  su    : u.su = s.su
  ports : u.da.slots = s.da.slots.set p none

theorem State.ackSeal_seals {v : State} (hb : v.ec.bridge ≠ .closing) (e : EpochNo) :
    v.ackSeal e = (v.becomeSealed e).completeSeal e := if_neg hb

theorem State.ackSeal_clear {v : State} (hb : v.ec.bridge ≠ .closing) (hp : v.ec.pending = false) (e : EpochNo) :
    v.ackSeal e = (v.becomeSealed e).sealing e := by
  rw [State.ackSeal_seals hb, State.completeSeal_of_clear (s := v.becomeSealed e) hp]

/-- The acknowledgment, from the state the freed port and a fault leave. -/
theorem exec_sealWriteAck_clear {s v : State} {p : PortIx} {l : Nat} {e : EpochNo} {res : AckResult}
    (ho : s.Outstanding p (.sealWrite l e)) (hb : s.ec.bridge ≠ .closing) (hp : s.ec.pending = false)
    (hv : (s.begin.freePort p).faultOnError (l, e) .sealWrite res = v) :
    exec (.sealWriteAck p res) s = .next ((v.becomeSealed e).sealing e).settle ∧
      s.SealsQuietly ((v.becomeSealed e).sealing e) p := by
  have hc : Calm (s.begin.freePort p) v := hv ▸ State.faultOnError_calm _ _ _ _
  have hec : v.ec = { s.ec with table := v.ec.table } := hc.ec
  have hack : v.ackSeal e = (v.becomeSealed e).sealing e :=
    State.ackSeal_clear (by rw [hec]; exact hb) (by rw [hec]; exact hp) e
  have ht := (v.becomeSealed e).sealing_tends e
  have hwithin : Within v ((v.becomeSealed e).sealing e) := hack ▸ v.ackSeal_within e
  refine ⟨by rw [exec_sealWriteAck ho, hv, hack], ?_, hwithin.sameAround (hc.sameAround (s.freePort_sameAround p)),
    ht.re.trans hc.re, ht.wu.trans hc.wu, ht.su.trans hc.su, ht.slots.trans (congrArg Arbiter.slots hc.da)⟩
  have hsealed : (v.becomeSealed e).ec = { v.ec with table := (v.becomeSealed e).ec.table } := rfl
  rw [ht.ec, hsealed, hec]

end Sys2Proof.Machine

/-! The steps of the completion of a seal, one by one (R98, R99, R101, R133). -/
namespace Sys2Proof.Machine

/-! ## The table with its numbers distinct -/

theorem State.entry?_of_mem {s : State} (h : s.NumbersOk) {y : Entry} (hy : y ∈ s.ec.table) : s.entry? y.number = some y := by
  cases hf : s.entry? y.number with
  | none => exact absurd (beq_self_eq_true y.number) (List.find?_eq_none.1 hf y hy)
  | some z => rw [eq_of_nodup_map h (State.entry?_mem hf) hy (State.entry?_number hf)]

theorem State.openEntry?_mem {s : State} {o : Entry} (h : s.openEntry? = some o) : o ∈ s.ec.table :=
  List.mem_of_find?_eq_some h

theorem State.openEntry?_state {s : State} {o : Entry} (h : s.openEntry? = some o) : o.state = .opened := by
  have ho : s.ec.table.find? (fun x => x.state == .opened) = some o := h
  simpa using List.find?_some ho

/-! ## The entry that becomes SEALED (R98) -/

/-- The entry `x` once its epoch `e` is SEALED. -/
def State.sealedEntry (s : State) (e : EpochNo) (x : Entry) : Entry :=
  { x with
    state := .sealed
    endLine := some ((s.jw.sealJob.map (·.after)).getD s.jw.head)
    sigs := some ((s.jw.sealJob.map (·.sigs)).getD [])
    written := ((s.bank? e).map Bank.writtenSet).getD x.written }

theorem State.becomeSealed_table (s : State) (e : EpochNo) : (s.becomeSealed e).ec.table =
    s.ec.table.map (fun x => if x.number == e then s.sealedEntry e x else x) := rfl

theorem State.becomeSealed_entry? {s : State} {e : EpochNo} {x : Entry} (h : s.entry? e = some x) :
    (s.becomeSealed e).entry? e = some (s.sealedEntry e x) :=
  State.entry?_setEntry_same (f := s.sealedEntry e) (fun _ => rfl) h

theorem State.becomeSealed_entry?_other (s : State) {e e' : EpochNo} (h : e' ≠ e) :
    (s.becomeSealed e).entry? e' = s.entry? e' :=
  State.entry?_setEntry_other (f := s.sealedEntry e) h (fun _ => rfl)

/-- With distinct numbers one entry alone changes. -/
theorem State.becomeSealed_split {s : State} {e : EpochNo} {x : Entry} {a r : List Entry} (hn : s.NumbersOk)
    (ht : s.ec.table = a ++ x :: r) (hx : x.number = e) :
    (s.becomeSealed e).ec.table = a ++ s.sealedEntry e x :: r := by
  rw [State.NumbersOk, ht, List.map_append, List.map_cons, List.nodup_append, List.nodup_cons] at hn
  obtain ⟨-, ⟨hr, -⟩, ha⟩ := hn
  have hself {l : List Entry} (hl : ∀ y ∈ l, y.number ≠ e) :
      l.map (fun x => if x.number == e then s.sealedEntry e x else x) = l := by
    refine (List.map_congr_left (fun y hy => ?_)).trans (List.map_id l)
    rw [if_neg (by simpa using hl y hy)]
    rfl
  rw [State.becomeSealed_table, ht, List.map_append, List.map_cons, if_pos (by simpa using hx), hself, hself]
  · exact fun y hy h => hr (hx ▸ h ▸ List.mem_map_of_mem hy)
  · exact fun y hy h => ha _ (List.mem_map_of_mem hy) _ List.mem_cons_self (h.trans hx.symm)

theorem State.becomeSealed_openEntry? {s : State} {e : EpochNo} {x : Entry} (hn : s.NumbersOk) (hx : s.entry? e = some x)
    (hs : x.state = .sealing) : (s.becomeSealed e).openEntry? = s.openEntry? := by
  obtain ⟨a, r, ht⟩ := List.append_of_mem (State.entry?_mem hx)
  rw [State.openEntry?, State.openEntry?, State.becomeSealed_split hn ht (State.entry?_number hx), ht, List.find?_append,
    List.find?_append, List.find?_cons_of_neg (by
      show ¬ (EpochState.sealed == EpochState.opened) = true
      decide), List.find?_cons_of_neg (by rw [hs]; decide)]

theorem State.becomeSealed_sealedCount {s : State} {e : EpochNo} {x : Entry} (hn : s.NumbersOk) (hx : s.entry? e = some x)
    (hs : x.state = .sealing) : (s.becomeSealed e).sealedCount = s.sealedCount + 1 := by
  obtain ⟨a, r, ht⟩ := List.append_of_mem (State.entry?_mem hx)
  rw [State.sealedCount, State.sealedCount, State.becomeSealed_split hn ht (State.entry?_number hx), ht, List.countP_append,
    List.countP_append, List.countP_cons_of_pos rfl, List.countP_cons_of_neg (by rw [hs]; decide)]
  rfl

/-! ## A broken epoch is committed at once (R98) -/

theorem State.commitBroken_self {s : State} {e : EpochNo} {y : Entry} (hy : s.entry? e = some y) (hb : y.broken = none) :
    s.commitBroken e = s :=
  if_neg (by rw [State.isBroken_iff hy, hb]; decide)

theorem findIdx_append_self {a r : List Entry} {y : Entry} (ha : ∀ z ∈ a, z.number ≠ y.number) :
    (a ++ y :: r).findIdx (fun z => z.number == y.number) = a.length := by
  rw [List.findIdx_append, if_neg, List.findIdx_cons, beq_self_eq_true, cond_true, Nat.zero_add]
  rw [List.findIdx_lt_length]
  rintro ⟨z, hz, h⟩
  exact ha z hz (beq_iff_eq.1 h)

theorem State.commitBroken_commits {s : State} {y : Entry} {a r : List Entry} (ht : s.ec.table = a ++ y :: r)
    (hn : s.NumbersOk) (ha : ∀ z ∈ a, z.state = .sealed) (hy : y.state = .sealed) (hb : y.broken.isSome) :
    s.Commits (s.commitBroken y.number) .broken (a ++ [y]) r := by
  have hmem : y ∈ s.ec.table := by rw [ht]; exact List.mem_append_right _ List.mem_cons_self
  have hne : ∀ z ∈ a, z.number ≠ y.number := by
    rw [State.NumbersOk, ht, List.map_append, List.map_cons, List.nodup_append] at hn
    exact fun z hz => hn.2.2 _ (List.mem_map_of_mem hz) _ List.mem_cons_self
  have hcommit : s.commitBroken y.number = s.commitN (a ++ [y]).length .broken := by
    unfold State.commitBroken State.position
    rw [if_pos (by rw [State.isBroken_iff (State.entry?_of_mem hn hmem)]; exact hb), ht, findIdx_append_self hne,
      List.length_append]
    rfl
  rw [hcommit]
  refine State.commitN_commits (fun z hz => ?_) (by rw [ht, List.append_assoc]; rfl) .broken
  obtain hz | hz := List.mem_append.1 hz
  · exact ha z hz
  · rw [List.mem_singleton.1 hz]
    exact hy

/-! ## The OPEN record of the next epoch (R99) -/

theorem State.openNext_of {s : State} {e : EpochNo} (h : s.openEpoch? = some e) : s.openNext = s.reserveOpen e := by
  unfold State.openNext
  rw [h]

theorem State.placeOpen_table (s : State) (e : EpochNo) : (s.placeOpen e).ec.table =
    s.ec.table.map (fun x => if x.number == e then { x with openLine := some s.jw.head } else x) := by
  rw [State.placeOpen_ec]

theorem State.placeOpen_entry? {s : State} {e : EpochNo} {y : Entry} (h : s.entry? e = some y) :
    (s.placeOpen e).entry? e = some { y with openLine := some s.jw.head } :=
  (State.entry?_of_table (s := s.setEntry e (fun x => { x with openLine := some s.jw.head })) (s.placeOpen_table e) e).trans
    (State.entry?_setEntry_same (fun _ => rfl) h)

theorem State.placeOpen_entry?_other (s : State) {e e' : EpochNo} (h : e' ≠ e) :
    (s.placeOpen e).entry? e' = s.entry? e' :=
  (State.entry?_of_table (s := s.setEntry e (fun x => { x with openLine := some s.jw.head })) (s.placeOpen_table e) e').trans
    (State.entry?_setEntry_other h (fun _ => rfl))

theorem State.placeOpen_numbers (s : State) (e : EpochNo) :
    (s.placeOpen e).ec.table.map (·.number) = s.ec.table.map (·.number) := by
  rw [s.placeOpen_table e, List.map_map]
  refine List.map_congr_left (fun y _ => ?_)
  dsimp only [Function.comp]
  split <;> rfl

theorem State.placeOpen_states (s : State) (e : EpochNo) :
    (s.placeOpen e).ec.table.map (·.state) = s.ec.table.map (·.state) := by
  rw [s.placeOpen_table e, List.map_map]
  refine List.map_congr_left (fun y _ => ?_)
  dsimp only [Function.comp]
  split <;> rfl

theorem State.sealedCount_of_states {s t : State} (h : t.ec.table.map (·.state) = s.ec.table.map (·.state)) :
    t.sealedCount = s.sealedCount := by
  have hcount (l : List Entry) : l.countP (fun x => x.state == .sealed) = (l.map (·.state)).countP (fun x => x == .sealed) := by
    rw [List.countP_map]
    rfl
  rw [State.sealedCount, State.sealedCount, hcount, hcount, h]

theorem State.sealedCount_none {s : State} (h : ∀ y ∈ s.ec.table, y.state ≠ .sealed) : s.sealedCount = 0 :=
  List.countP_eq_zero.2 (by simpa using h)

/-! ## Recovery from SUSPENDED (R133) -/

theorem State.recover_ec (s : State) : s.recover.ec = s.ec := by
  unfold State.recover
  split
  · exact s.setPressure_ec .normal none
  · rfl

theorem State.recover_tail (s : State) : s.recover.jw.tail = s.jw.tail := by
  unfold State.recover
  split
  · show (s.setPressure .normal none).jw.tail = _
    rw [State.setPressure_jw]
  · rfl

theorem State.recover_jw (s : State) :
    s.recover.jw = { s.jw with pressure := s.recover.jw.pressure, reason := s.recover.jw.reason } := by
  have h := s.recover_calm.jw
  rwa [s.recover_tail] at h

theorem State.recover_events (s : State) : ∃ evs, s.recover.eq = s.eq.raiseAll evs ∧ ∀ ev ∈ evs, ev.code = .suspendedLeft := by
  unfold State.recover
  split
  · refine ⟨[_], congrArg (fun q : EventQueue => q.raise _) (s.setPressure_eq .normal none), by simp⟩
  · exact ⟨[], rfl, by simp⟩

theorem State.depthCommit_self {s : State} (h : s.ec.bridge = .rolling ∨ s.sealedCount ≤ s.ec.retention) :
    s.depthCommit = s :=
  if_neg (fun ⟨hb, hr⟩ => h.elim hb (fun hle => absurd hr (Nat.not_lt.2 hle)))

/-! ## From the OPEN record to the end with no commit -/

/-- The rest of the seal once the OPEN record is placed, up to a pending boundary, when no epoch is committed for depth. -/
structure Finishes (s t : State) : Prop where
  numbers : t.ec.table.map (·.number) = s.ec.table.map (·.number)
  head    : t.jw.head = s.jw.head
  tail    : t.jw.tail = s.jw.tail
  marks   : s.SameButMarks t
  kept    : ∀ e y, s.entry? e = some y → y.broken.isSome → t.entry? e = some y
  events  : ∃ evs, t.eq = s.eq.raiseAll evs ∧ ∀ ev ∈ evs, ev.code = .trippedWrite ∨ ev.code = .suspendedLeft

theorem State.finishes {s : State} (h : s.ec.bridge = .rolling ∨ s.sealedCount ≤ s.ec.retention) :
    Finishes s ((s.serve).depthCommit).recover := by
  have hs := s.serve_serves
  have hself : s.serve.depthCommit = s.serve := by
    refine State.depthCommit_self ?_
    rw [hs.ec, State.sealedCount_of_states hs.marks.states]
    exact h
  have hmarks : s.SameButMarks s.serve.recover := hs.marks.trans (.of_ec (State.recover_ec _))
  rw [hself]
  refine ⟨hmarks.numbers, ?_, ?_, hmarks, fun e y hy hb => ?_, ?_⟩
  · rw [State.recover_jw, hs.jw]
  · rw [State.recover_jw, hs.jw]
  · exact (State.entry?_of_table (by rw [State.recover_ec]) e).trans (hs.kept e y hy hb)
  · obtain ⟨a, ha, hal⟩ := hs.events
    obtain ⟨b, hb, hbl⟩ := s.serve.recover_events
    refine ⟨a ++ b, by rw [hb, ha, EventQueue.raiseAll_append], fun ev hev => ?_⟩
    exact (List.mem_append.1 hev).imp (hal ev) (hbl ev)

end Sys2Proof.Machine

/-! The completion of a seal with no boundary pending, case by case (R49, R98, R99, R101, R130, R133). -/
namespace Sys2Proof.Machine

theorem filter_uncommitted {l : List Event} (h : ∀ ev ∈ l, ev.code ≠ .epochCommitted) :
    l.filter (fun ev => ev.code = .epochCommitted) = [] :=
  List.filter_eq_nil_iff.2 (fun ev hev => by simpa using h ev hev)

theorem State.sealing_eq (s : State) (e : EpochNo) :
    s.sealing e = ((((s.commitBroken e).openNext).serve).depthCommit).recover := rfl

/-- What is left of the seal where its OPEN record is placed in `t`. -/
theorem State.sealing_of {s c t : State} {e n : EpochNo} (hc : s.commitBroken e = c) (ho : c.openEpoch? = some n)
    (ht : c.reserveOpen n = t) : s.sealing e = ((t.serve).depthCommit).recover := by
  rw [State.sealing_eq, hc, State.openNext_of ho, ht]

/-! ## The depth commit (R101) -/

theorem State.sealing_depth {w : State} {e n : EpochNo} {x y : Entry} {rest : List Entry} {line : Nat}
    (hx : w.entry? e = some x) (hb : x.broken = none) (ho : w.openEpoch? = some n) (hf : 1 ≤ w.free)
    (hr : w.ec.bridge ≠ .rolling) (hd : w.ec.retention < w.sealedCount) (ht : w.ec.table = y :: rest)
    (hy : y.state = .sealed) (hyn : y.number ≠ n) (hl : y.endLine = some line) :
    (w.sealing e).ec.table.map (·.number) = rest.map (·.number) ∧ (w.sealing e).jw.tail = line ∧
    ∃ evs, (w.sealing e).eq = w.eq.raiseAll evs ∧
      evs.filter (fun ev => ev.code = .epochCommitted) = [y.committed .depth] := by
  have hs := (w.placeOpen n).serve_serves
  have hstates : (w.placeOpen n).serve.sealedCount = w.sealedCount :=
    State.sealedCount_of_states (hs.marks.states.trans (w.placeOpen_states n))
  have hplaced : (w.placeOpen n).ec.table =
      [y] ++ rest.map (fun z => if z.number == n then { z with openLine := some w.jw.head } else z) := by
    rw [w.placeOpen_table n, ht, List.map_cons, if_neg (by simpa using hyn)]
    rfl
  obtain ⟨old, rest', htab, ho', hr'⟩ := hs.marks.split hplaced
  have ho'' : old.map Entry.unmarked = [y.unmarked] := ho'
  obtain ⟨y', rfl, hy'⟩ : ∃ y', old = [y'] ∧ y'.unmarked = y.unmarked := by
    obtain ⟨y', l, rfl, hy', hl⟩ := List.map_eq_cons_iff.1 ho''
    rw [List.map_eq_nil_iff.1 hl]
    exact ⟨y', rfl, hy'⟩
  have hcom := State.Commits.one (s := (w.placeOpen n).serve) htab ((Entry.unmarked_state hy').trans hy) .depth
  have hdepth : (w.placeOpen n).serve.depthCommit = (w.placeOpen n).serve.commitOldest .depth := by
    refine if_pos ⟨?_, ?_⟩
    · rw [hs.ec, w.placeOpen_ec n]
      exact hr
    · rw [hstates, hs.ec, w.placeOpen_ec n]
      exact hd
  have hseal := State.sealing_of (s := w) (State.commitBroken_self hx hb) ho (State.reserveOpen_room hf n)
  rw [hseal, hdepth, State.recover_ec, State.recover_tail, hcom.ec, hcom.tail]
  have hend : y'.endLine = some line := (show y'.unmarked.endLine = y.unmarked.endLine by rw [hy']) ▸ hl
  refine ⟨?_, by rw [List.foldl_cons, hend]; rfl, ?_⟩
  · have hr'' : rest'.map Entry.unmarked = _ := hr'
    have hnum := congrArg (List.map (fun z : Entry => z.number)) hr''
    rw [List.map_map, List.map_map, List.map_map] at hnum
    refine (show rest'.map (·.number) = _ from hnum).trans (List.map_congr_left (fun z _ => ?_))
    dsimp only [Function.comp]
    split <;> rfl
  · obtain ⟨a, ha, hal⟩ := w.placeOpen_levels n
    obtain ⟨b, hb, hbl⟩ := hs.events
    obtain ⟨c, hc, hcf, -⟩ := hcom.eq
    obtain ⟨d, hd, hdl⟩ := State.recover_events ((w.placeOpen n).serve.commitOldest .depth)
    refine ⟨a ++ b ++ c ++ d, by rw [hd, hc, hb, ha, EventQueue.raiseAll_append, EventQueue.raiseAll_append,
      EventQueue.raiseAll_append], ?_⟩
    rw [List.filter_append, List.filter_append, List.filter_append, filter_levels hal, hcf,
      filter_uncommitted (fun ev hev => by rw [hbl ev hev]; decide),
      filter_uncommitted (fun ev hev => by rw [hdl ev hev]; decide)]
    show [y'.committed .depth] = _
    rw [Entry.committed, Entry.unmarked_number hy']
    rfl

/-! ## A broken epoch is SEALED (R98) -/

theorem State.free_of_empty {s : State} (h : s.jw.tail = s.jw.head) : s.free = s.ringLines - 1 := by
  rw [State.free, State.used_empty h, Nat.sub_zero]

theorem State.Commits.ringLines {s t : State} {c : Cause} {old rest : List Entry} (h : s.Commits t c old rest) :
    t.ringLines = s.ringLines := by
  unfold State.ringLines
  rw [h.calm.jw]

theorem State.sealing_broken {w : State} {n : EpochNo} {x o : Entry} {old rest : List Entry} {line : Nat}
    (ht : w.ec.table = old ++ x :: rest) (hn : w.NumbersOk) (hold : ∀ y ∈ old, y.state = .sealed) (hx : x.state = .sealed)
    (hb : x.broken.isSome) (hl : x.endLine = some line) (hline : line = w.jw.head) (hrest : ∀ y ∈ rest, y.state ≠ .sealed)
    (hring : 2 ≤ w.ringLines) (ho : w.openEpoch? = some n) (hoe : w.entry? n = some o) (hos : o.state = .opened) :
    (w.sealing x.number).ec.table.map (·.number) = rest.map (·.number) ∧ (w.sealing x.number).jw.tail = w.jw.head ∧
    (w.sealing x.number).jw.head = (w.jw.head + 1) % w.ringLines ∧
    (∃ z, (w.sealing x.number).entry? n = some z ∧ z.openLine = some w.jw.head) ∧
    ∃ evs, (w.sealing x.number).eq = w.eq.raiseAll evs ∧
      evs.filter (fun ev => ev.code = .epochCommitted) = (old ++ [x]).map (Entry.committed · .broken) := by
  have hcom := State.commitBroken_commits ht hn hold hx hb
  have ht' : w.ec.table = (old ++ [x]) ++ rest := by rw [ht, List.append_assoc]; rfl
  have hall : ∀ y ∈ old ++ [x], y.state = .sealed := fun y hy =>
    (List.mem_append.1 hy).elim (hold y) (fun h => List.mem_singleton.1 h ▸ hx)
  generalize hc : w.commitBroken x.number = c at hcom
  have htail : c.jw.tail = w.jw.head := by
    rw [hcom.tail, foldl_endLine List.getLast?_concat hl, hline]
  have hfree : 1 ≤ c.free := by
    rw [State.free_of_empty (htail.trans hcom.head.symm), hcom.ringLines]
    omega
  have hopen : c.openEpoch? = some n := (hcom.openEpoch? ht' hall).trans ho
  rw [State.sealing_of hc hopen (State.reserveOpen_room hfree n)]
  have hnone : (c.placeOpen n).sealedCount = 0 := by
    rw [State.sealedCount_of_states (c.placeOpen_states n), State.sealedCount, hcom.ec]
    exact List.countP_eq_zero.2 (by simpa using hrest)
  have hfin := State.finishes (s := c.placeOpen n) (.inr (by rw [hnone]; exact Nat.zero_le _))
  have hentry : (c.placeOpen n).entry? n = some { o with openLine := some c.jw.head } :=
    State.placeOpen_entry? (hcom.entry? ht' hall hoe (by rw [hos]; decide))
  refine ⟨?_, ?_, ?_, ?_, ?_⟩
  · rw [hfin.numbers, c.placeOpen_numbers n, hcom.ec]
  · rw [hfin.tail, c.placeOpen_tail n, htail]
  · rw [hfin.head, c.placeOpen_head n, hcom.head, hcom.ringLines]
  · obtain ⟨z, hz, hzo⟩ := hfin.marks.entry? hentry
    refine ⟨z, hz, ?_⟩
    have hline' : z.openLine = some c.jw.head := by
      show z.unmarked.openLine = _
      rw [hzo]
      rfl
    rw [hline', hcom.head]
  · obtain ⟨a, ha, haf, -⟩ := hcom.eq
    obtain ⟨b, hb, hbl⟩ := c.placeOpen_levels n
    obtain ⟨d, hd, hdl⟩ := hfin.events
    refine ⟨a ++ b ++ d, by rw [hd, hb, ha, EventQueue.raiseAll_append, EventQueue.raiseAll_append], ?_⟩
    rw [List.filter_append, List.filter_append, haf, filter_levels hbl, filter_uncommitted, List.append_nil, List.append_nil]
    intro ev hev
    obtain h | h := hdl ev hev <;> rw [h] <;> decide

end Sys2Proof.Machine

/-! The OPEN record that finds no room at the end of a seal; SUSPENDED through a seal (R49, R130, R133). -/
namespace Sys2Proof.Machine

/-! ## An OPEN record that finds no room (R49, R130) -/

/-- The OPEN reservation fails with `old` the SEALED epochs, which are committed; pressure is SUSPENDED then. -/
structure State.FailsOpen (w t : State) (n : EpochNo) (o : Entry) (old rest : List Entry) : Prop where
  numbers : t.ec.table.map (·.number) = rest.map (·.number)
  states  : ∀ y ∈ t.ec.table, y.state ≠ .sealed
  entry   : t.entry? n = some (o.mark .pressure)
  head    : t.jw.head = w.jw.head
  tail    : t.jw.tail = old.foldl (fun a y => y.endLine.getD a) w.jw.tail
  region  : t.jw.region = w.jw.region
  press   : t.jw.pressure = .suspended
  fresh   : w.jw.pressure ≠ .suspended → t.eq = (w.eq.raiseAll (old.map (Entry.committed · .suspend))).raise
              { code := .suspendedEntered, epoch := w.openEpoch?,
                arg := t.suspendedArg .pressure old.length w.jw.pressure }
  again   : w.jw.pressure = .suspended → t.eq = w.eq.raiseAll (old.map (Entry.committed · .suspend))

theorem numbers_unmarked {a b : List Entry} (h : a.map Entry.unmarked = b.map Entry.unmarked) :
    a.map (·.number) = b.map (·.number) := by
  have hn := congrArg (List.map (fun y : Entry => y.number)) h
  rw [List.map_map, List.map_map] at hn
  exact hn

theorem State.reservationFails_spec {w : State} {n : EpochNo} {o : Entry} {old rest : List Entry}
    (ht : w.ec.table = old ++ rest) (hold : ∀ y ∈ old, y.state = .sealed) (hrest : ∀ y ∈ rest, y.state ≠ .sealed)
    (hoe : w.entry? n = some o) (hos : o.state ≠ .sealed) : w.FailsOpen (w.reservationFails n) n o old rest := by
  have hfails : w.reservationFails n = if w.jw.pressure = .suspended then (w.markBroken n .pressure).commitSealed .suspend
      else (w.markBroken n .pressure).enterSuspended .pressure := rfl
  have hmarks := w.markBroken_marks n .pressure
  obtain ⟨old', rest', ht', ho', hr'⟩ := hmarks.split ht
  have ho'' : old'.map Entry.unmarked = old.map Entry.unmarked := ho'
  have hr'' : rest'.map Entry.unmarked = rest.map Entry.unmarked := hr'
  have hold' : ∀ y ∈ old', y.state = .sealed := forall_state_unmarked (P := (· = .sealed)) ho'' hold
  have hrest' : ∀ y ∈ rest', y.state ≠ .sealed := forall_state_unmarked (P := (· ≠ .sealed)) hr'' hrest
  have hmo : (w.markBroken n .pressure).entry? n = some (o.mark .pressure) := State.markBroken_entry? hoe .pressure
  have hjw := w.markBroken_jw n .pressure
  have heq := w.markBroken_eq n .pressure
  have hopen := hmarks.openEpoch?
  have hlen : old'.length = old.length := by simpa using congrArg List.length ho''
  generalize w.markBroken n .pressure = m at *
  by_cases hp : w.jw.pressure = .suspended
  · rw [hfails, if_pos hp]
    have hc := State.commitSealed_commits ht' hold' hrest' .suspend
    obtain ⟨hps, -, -, hev⟩ := hc.still (by rw [hjw]; exact hp)
    constructor
    case numbers => rw [hc.ec]; exact numbers_unmarked hr''
    case states => rw [hc.ec]; exact hrest'
    case entry => exact hc.entry? ht' hold' hmo hos
    case head => rw [hc.head, hjw]
    case tail => rw [hc.tail, hjw, foldl_endLine_unmarked ho'']
    case region => rw [hc.calm.jw, hjw]
    case press => exact hps
    case fresh => exact fun h => absurd hp h
    case again => exact fun _ => by rw [hev, heq, map_committed_unmarked ho'']
  · rw [hfails, if_neg hp]
    have hm : m.jw.pressure ≠ .suspended := by rw [hjw]; exact hp
    have hu := State.enterSuspended_enters hm .pressure ht' hold' hrest'
    constructor
    case numbers => exact (numbers_unmarked hu.table).trans (numbers_unmarked hr'')
    case states => exact forall_state_unmarked (P := (· ≠ .sealed)) hu.table hrest'
    case entry =>
      refine (State.enterSuspended_entry? hmo hos .pressure).trans ?_
      split
      · exact congrArg some ((o.mark .pressure).mark_broken .pressure rfl)
      · rfl
    case head => rw [hu.jw, hjw]
    case tail => rw [hu.jw, hjw, foldl_endLine_unmarked ho'']
    case region => rw [hu.jw, hjw]
    case press => rw [hu.jw]
    case fresh =>
      intro _
      rw [hu.events, heq, map_committed_unmarked ho'', hopen, hlen, hjw]
    case again => exact fun h => absurd h hp

theorem State.FailsOpen.ringLines {w t : State} {n : EpochNo} {o : Entry} {old rest : List Entry}
    (h : w.FailsOpen t n o old rest) : t.ringLines = w.ringLines := by
  unfold State.ringLines
  rw [h.region]

theorem State.reserveOpen_refused {s : State} (h : s.free = 0) (e : EpochNo) :
    s.reserveOpen e = (s.reservationFails e).placeOpen e :=
  if_neg (fun hr => by
    have := (s.recordRoom_one).1 hr
    omega)

theorem State.sealing_refused {w : State} {e n : EpochNo} {x o : Entry} {old rest : List Entry}
    (hx : w.entry? e = some x) (hb : x.broken = none) (ht : w.ec.table = (old ++ [x]) ++ rest)
    (hold : ∀ y ∈ old ++ [x], y.state = .sealed) (hl : x.endLine = some w.jw.head) (hrest : ∀ y ∈ rest, y.state ≠ .sealed)
    (hf : w.free = 0) (ho : w.openEpoch? = some n) (hoe : w.entry? n = some o) (hos : o.state ≠ .sealed) :
    (w.sealing e).ec.table.map (·.number) = rest.map (·.number) ∧ (w.sealing e).jw.tail = w.jw.head ∧
    (w.sealing e).jw.head = (w.jw.head + 1) % w.ringLines ∧
    (w.sealing e).entry? n = some { o.mark .pressure with openLine := some w.jw.head } ∧
    (w.jw.pressure ≠ .suspended → ∃ evs, (w.sealing e).eq = ((w.eq.raiseAll ((old ++ [x]).map (Entry.committed · .suspend))).raise
      { code := .suspendedEntered, epoch := some n,
        arg := packBytes Reason.pressure.code (old.length + 1) 0 w.jw.pressure.code }).raiseAll evs) ∧
    (w.jw.pressure = .suspended → ∃ evs, (w.sealing e).eq =
      (w.eq.raiseAll ((old ++ [x]).map (Entry.committed · .suspend))).raiseAll evs ∧
      ∀ ev ∈ evs, ev.code ≠ .suspendedEntered) := by
  have hfail := State.reservationFails_spec ht hold hrest hoe hos
  rw [State.sealing_of (s := w) (State.commitBroken_self hx hb) ho (State.reserveOpen_refused hf n)]
  generalize w.reservationFails n = t at hfail
  have htail : t.jw.tail = w.jw.head := by rw [hfail.tail, foldl_endLine List.getLast?_concat hl]
  have hfill : t.fill = 0 := by
    rw [State.fill, State.used_empty (htail.trans hfail.head.symm), Nat.mul_zero, Nat.zero_div]
  have hnone : (t.placeOpen n).sealedCount = 0 := by
    rw [State.sealedCount_of_states (t.placeOpen_states n)]
    exact State.sealedCount_none hfail.states
  have hfin := State.finishes (s := t.placeOpen n) (.inr (by rw [hnone]; exact Nat.zero_le _))
  obtain ⟨a, ha, hal⟩ := t.placeOpen_levels n
  obtain ⟨b, hb, hbl⟩ := hfin.events
  have hev : (((t.placeOpen n).serve).depthCommit).recover.eq = t.eq.raiseAll (a ++ b) := by
    rw [hb, ha, EventQueue.raiseAll_append]
  refine ⟨?_, ?_, ?_, ?_, fun hp => ⟨a ++ b, ?_⟩, fun hp => ⟨a ++ b, ?_, fun ev hev => ?_⟩⟩
  · rw [hfin.numbers, t.placeOpen_numbers n, hfail.numbers]
  · rw [hfin.tail, t.placeOpen_tail n, htail]
  · rw [hfin.head, t.placeOpen_head n, hfail.head, hfail.ringLines]
  · rw [← hfail.head]
    exact hfin.kept n _ (State.placeOpen_entry? hfail.entry) rfl
  · rw [hev, hfail.fresh hp, ho, State.suspendedArg, hfill, List.length_append]
    rfl
  · rw [hev, hfail.again hp]
  · obtain hev | hev := List.mem_append.1 hev
    · exact (hal ev hev).2.1
    · obtain h | h := hbl ev hev <;> rw [h] <;> decide

/-! ## SUSPENDED through a seal (R130, R133) -/

/-- Where pressure is SUSPENDED it stays so, with its reason, and no event tells of leaving it. -/
def StaysSuspended (s t : State) : Prop :=
  s.jw.pressure = .suspended → t.jw.pressure = .suspended ∧ t.jw.reason = s.jw.reason ∧
    ∃ evs, t.eq = s.eq.raiseAll evs ∧ ∀ ev ∈ evs, ev.code ≠ .suspendedLeft

theorem StaysSuspended.trans {s t u : State} (h : StaysSuspended s t) (k : StaysSuspended t u) : StaysSuspended s u := by
  intro hp
  obtain ⟨h1, h2, a, ha, hal⟩ := h hp
  obtain ⟨k1, k2, b, hb, hbl⟩ := k h1
  refine ⟨k1, k2.trans h2, a ++ b, by rw [hb, ha, EventQueue.raiseAll_append], fun ev hev => ?_⟩
  exact (List.mem_append.1 hev).elim (hal ev) (hbl ev)

theorem StaysSuspended.of_same {s t : State} (hjw : t.jw = s.jw) (heq : t.eq = s.eq) : StaysSuspended s t := fun hp =>
  ⟨by rw [hjw, hp], by rw [hjw], [], heq, by simp⟩

theorem State.commitN_stays (n : Nat) (s : State) (c : Cause) : StaysSuspended s (s.commitN n c) := by
  intro hp
  obtain ⟨old, rest, -, -, h⟩ := State.commitN_some n s c
  obtain ⟨h1, h2, -, h4⟩ := h.still hp
  refine ⟨h1, h2, _, h4, fun ev hev => ?_⟩
  obtain ⟨y, -, rfl⟩ := List.mem_map.1 hev
  show EventCode.epochCommitted ≠ .suspendedLeft
  decide

theorem State.commitOldest_stays (s : State) (c : Cause) : StaysSuspended s (s.commitOldest c) := s.commitN_stays 1 c

theorem State.commitBroken_stays (s : State) (e : EpochNo) : StaysSuspended s (s.commitBroken e) := by
  unfold State.commitBroken
  split
  · exact s.commitN_stays _ _
  · exact .of_same rfl rfl

theorem State.depthCommit_stays (s : State) : StaysSuspended s s.depthCommit := by
  unfold State.depthCommit
  split
  · exact s.commitOldest_stays _
  · exact .of_same rfl rfl

theorem State.placeOpen_stays (s : State) (e : EpochNo) : StaysSuspended s (s.placeOpen e) := by
  intro hp
  rw [State.placeOpen_eq, State.evaluate_suspended (s := s.opening e) hp]
  exact ⟨hp, rfl, [], rfl, by simp⟩

theorem State.reservationFails_stays (s : State) (e : EpochNo) : StaysSuspended s (s.reservationFails e) := by
  intro hp
  have hf : s.reservationFails e = (s.markBroken e .pressure).commitSealed .suspend := if_pos hp
  rw [hf]
  exact (StaysSuspended.of_same (s.markBroken_jw e .pressure) (s.markBroken_eq e .pressure)).trans
    (State.commitN_stays _ _ .suspend) hp

theorem State.openNext_stays (s : State) : StaysSuspended s s.openNext := by
  unfold State.openNext
  split
  · exact .of_same rfl rfl
  · unfold State.reserveOpen
    split
    · exact s.placeOpen_stays _
    · exact (s.reservationFails_stays _).trans (State.placeOpen_stays _ _)

theorem Serves.stays {s t : State} (h : Serves s t) : StaysSuspended s t := by
  intro hp
  obtain ⟨evs, he, hl⟩ := h.events
  exact ⟨by rw [h.jw, hp], by rw [h.jw], evs, he, fun ev hev => by rw [hl ev hev]; decide⟩

/-- The completion of a seal up to its test for recovery. -/
def State.beforeRecovery (s : State) (e : EpochNo) : State := (((s.commitBroken e).openNext).serve).depthCommit

theorem State.beforeRecovery_stays (s : State) (e : EpochNo) : StaysSuspended s (s.beforeRecovery e) :=
  (((s.commitBroken_stays e).trans (State.openNext_stays _)).trans (State.serve_serves _).stays).trans
    (State.depthCommit_stays _)

theorem State.used_congr {s t : State} (hr : t.jw.region = s.jw.region) (hh : t.jw.head = s.jw.head)
    (ht : t.jw.tail = s.jw.tail) : t.used = s.used ∧ t.ringLines = s.ringLines := by
  have hl : t.ringLines = s.ringLines := by
    unfold State.ringLines
    rw [hr]
  refine ⟨?_, hl⟩
  unfold State.used State.lineDist
  rw [hl, hh, ht]

/-- SUSPENDED is left exactly under half of the ring. -/
theorem State.recover_spec {s : State} (hp : s.jw.pressure = .suspended) :
    (s.recover.used < s.recover.percent 50 → s.recover.jw.pressure = .normal ∧ s.recover.jw.reason = none ∧
      s.recover.eq = s.eq.raise
        { code := .suspendedLeft, epoch := s.recover.openEpoch?, arg := BitVec.ofNat 32 s.recover.used }) ∧
    (s.recover.percent 50 ≤ s.recover.used → s.recover = s) := by
  have hjw := s.recover_jw
  obtain ⟨hu, hr⟩ := State.used_congr (s := s) (t := s.recover) (by rw [hjw]) (by rw [hjw]) (by rw [hjw])
  have hpc : s.recover.percent 50 = s.percent 50 := by rw [State.percent, State.percent, hr]
  have hopen : s.recover.openEpoch? = s.openEpoch? := State.openEpoch?_of_table (by rw [State.recover_ec])
  rw [hu, hpc, hopen]
  refine ⟨fun hlt => ?_, fun hle => if_neg (fun h => absurd h.2 (Nat.not_lt.2 hle))⟩
  have hrec : s.recover = (s.setPressure .normal none).raise
      { code := .suspendedLeft, epoch := s.openEpoch?, arg := BitVec.ofNat 32 s.used } := if_pos ⟨hp, hlt⟩
  rw [hrec]
  refine ⟨?_, ?_, ?_⟩
  · show (s.setPressure .normal none).jw.pressure = _
    rw [State.setPressure_jw]
  · show (s.setPressure .normal none).jw.reason = _
    rw [State.setPressure_jw]
  · show (s.setPressure .normal none).eq.raise _ = _
    rw [State.setPressure_eq]

end Sys2Proof.Machine

/-! A head at its capture point that is examined once more. The statement about the acknowledgment of a SEAL write says of every
record of the next epoch that it carries no mark, in states too whose slots are not distinct, where the examination of a head
marks each record under its index. There the mark is made in what follows the action instead: dealing with the heads makes it
again. -/
namespace Sys2Proof.Machine

/-- The records of slot `q` without their marks. -/
def State.unmark (s : State) (q : SlotIx) : State := s.setSlot q Slot.reexamined

/-- Slot `q` holds the head `x`, which waits at its capture point for the OPEN record of its epoch `e`; each record under the
index carries the mark. -/
structure State.StuckAt (s : State) (q : SlotIx) (x : Slot) (e : EpochNo) : Prop where
  slot    : s.slot? q = some x
  waiting : x.state = .waiting
  head    : s.isHead x = true
  outcome : x.outcome = none
  forward : q ∉ s.da.forward
  needs   : x.needsCapture = true
  epoch   : x.epoch = some e
  trip    : s.tripped x.win = false
  sound   : s.isBroken e = false
  press   : s.jw.pressure ≠ .suspended
  line    : s.openLineOf e = none
  marked  : ∀ y ∈ s.iq.slots, y.ix = q → y.atPoint = true

def State.Stuck (s : State) (q : SlotIx) : Prop := ∃ x e, s.StuckAt q x e

/-! ## Heads among changed records -/

theorem State.isHead_congr {s t : State} (hs : t.iq.slots.map Slot.key = s.iq.slots.map Slot.key) {x y : Slot}
    (hk : y.key = x.key) : t.isHead y = s.isHead x :=
  Bool.eq_iff_iff.2 ⟨State.isHead_of_keys hs.symm hk.symm, State.isHead_of_keys hs hk⟩

theorem State.setSlot_keys (s : State) (q : SlotIx) {f : Slot → Slot} (hf : Keyed f) :
    (s.setSlot q f).iq.slots.map Slot.key = s.iq.slots.map Slot.key := (hf.ite q).map_key _

theorem Slot.reexamined_keyed : Keyed Slot.reexamined := fun _ => rfl

theorem State.unmark_isHead (s : State) (q : SlotIx) (x : Slot) : (s.unmark q).isHead x = s.isHead x :=
  State.isHead_congr (s.setSlot_keys q Slot.reexamined_keyed) rfl

theorem State.dropSlot_isHead {s : State} {r : SlotIx} {x : Slot} (hr : x.ix ≠ r) (h : s.isHead x = true) :
    (s.dropSlot r).isHead x = true := by
  have h' : (s.iq.slots.filter (fun y => y.granule == x.granule)).head?.map (·.ix) = some x.ix := by
    simpa [State.isHead, State.order] using h
  show ((s.iq.slots.filter (fun y => y.ix != r)).filter (fun y => y.granule == x.granule)).head?.map (·.ix) == some x.ix
  have hcomm : (s.iq.slots.filter (fun y => y.ix != r)).filter (fun y => y.granule == x.granule) =
      (s.iq.slots.filter (fun y => y.granule == x.granule)).filter (fun y => y.ix != r) := by
    rw [List.filter_filter, List.filter_filter]
    exact List.filter_congr (fun y _ => Bool.and_comm _ _)
  rw [hcomm]
  cases hl : s.iq.slots.filter (fun y => y.granule == x.granule) with
  | nil => rw [hl] at h'; exact absurd h' (by simp)
  | cons a l =>
    rw [hl] at h'
    have ha : a.ix = x.ix := by simpa using h'
    rw [List.filter_cons_of_pos (by rw [ha]; simpa using hr)]
    simpa using ha

theorem State.dropSlot_slot? {s : State} {q r : SlotIx} (h : q ≠ r) : (s.dropSlot r).slot? q = s.slot? q := by
  show (s.iq.slots.filter (fun y => y.ix != r)).find? (fun y => y.ix == q) = s.iq.slots.find? _
  rw [List.find?_filter]
  congr 1
  funext y
  by_cases hy : y.ix = q
  · simp [hy, h]
  · simp [hy]

/-! ## What keeps a slot stuck -/

theorem State.StuckAt.of_map {s t : State} {q : SlotIx} {x : Slot} {e : EpochNo} (h : s.StuckAt q x e) {f : Slot → Slot}
    (hk : Keyed f) (hs : t.iq.slots = s.iq.slots.map f) (hw : t.wu = s.wu) (hj : t.jw = s.jw) (he : t.ec = s.ec)
    (hd : q ∉ t.da.forward) (hf : ∀ y, y.ix = q → (f y).state = y.state ∧ (f y).outcome = y.outcome ∧
      (f y).epoch = y.epoch ∧ (f y).atPoint = y.atPoint ∧ (y.needsCapture = true → (f y).needsCapture = true)) :
    t.StuckAt q (f x) e := by
  have hq := (State.mem_of_slot? h.slot).2
  obtain ⟨h1, h2, h3, -, h5⟩ := hf x hq
  have hentry (e : EpochNo) : t.entry? e = s.entry? e := State.entry?_of_table (by rw [he]) e
  constructor
  case slot =>
    show t.iq.slots.find? _ = _
    rw [hs, find?_map_ix (fun y => Slot.ix_of_key (hk y))]
    exact congrArg (Option.map f) h.slot
  case waiting => rw [h1, h.waiting]
  case head => exact (State.isHead_congr (by rw [hs, hk.map_key]) (hk x)).trans h.head
  case outcome => rw [h2, h.outcome]
  case forward => exact hd
  case needs => exact h5 h.needs
  case epoch => rw [h3, h.epoch]
  case trip =>
    have hwin : (f x).win = x.win := congrArg (fun k => k.2.2.2.1) (hk x)
    rw [hwin]
    unfold State.tripped
    rw [hw]
    exact h.trip
  case sound => rw [State.isBroken, hentry]; exact h.sound
  case press => rw [hj]; exact h.press
  case line => rw [State.openLineOf, hentry]; exact h.line
  case marked =>
    intro y hy hyq
    rw [hs] at hy
    obtain ⟨z, hz, rfl⟩ := List.mem_map.1 hy
    have hzq : z.ix = q := (Slot.ix_of_key (hk z)).symm.trans hyq
    rw [(hf z hzq).2.2.2.1]
    exact h.marked z hz hzq

/-- The same records, in a state that trips no more, with the same pressure, and whose table tells the same of epochs with
no OPEN record. -/
theorem State.StuckAt.of_same {s t : State} {q : SlotIx} {x : Slot} {e : EpochNo} (h : s.StuckAt q x e)
    (hs : t.iq = s.iq) (hw : t.wu.trip = s.wu.trip) (hj : t.jw.pressure = s.jw.pressure)
    (he : t.openLineOf e = none ∧ t.isBroken e = false) (hd : q ∉ t.da.forward) : t.StuckAt q x e where
  slot := by rw [State.slot?, hs]; exact h.slot
  waiting := h.waiting
  head := (State.isHead_congr (by rw [hs]) rfl).trans h.head
  outcome := h.outcome
  forward := hd
  needs := h.needs
  epoch := h.epoch
  trip := by
    unfold State.tripped
    rw [hw]
    exact h.trip
  sound := he.2
  press := by rw [hj]; exact h.press
  line := he.1
  marked := by rw [hs]; exact h.marked

theorem State.StuckAt.dropSlot {s : State} {q r : SlotIx} {x : Slot} {e : EpochNo} (h : s.StuckAt q x e) (hr : q ≠ r) :
    (s.dropSlot r).StuckAt q x e where
  slot := (State.dropSlot_slot? hr).trans h.slot
  waiting := h.waiting
  head := State.dropSlot_isHead ((State.mem_of_slot? h.slot).2 ▸ hr) h.head
  outcome := h.outcome
  forward := h.forward
  needs := h.needs
  epoch := h.epoch
  trip := h.trip
  sound := h.sound
  press := h.press
  line := h.line
  marked := fun y hy => h.marked y (List.mem_filter.1 hy).1

theorem State.StuckAt.setSlot_other {s : State} {q r : SlotIx} {x : Slot} {e : EpochNo} (h : s.StuckAt q x e) (hr : q ≠ r)
    {f : Slot → Slot} (hf : Keyed f) : (s.setSlot r f).StuckAt q x e := by
  have hm := h.of_map (t := s.setSlot r f) (hf.ite r) rfl rfl rfl rfl h.forward (fun y hy => by
    rw [if_neg (by simpa [hy] using hr)]
    exact ⟨rfl, rfl, rfl, rfl, id⟩)
  rwa [if_neg (by simpa [(State.mem_of_slot? h.slot).2] using hr)] at hm

/-! ## The same dealing with and without the marks of a stuck slot -/

/-- `t` is `s` without the marks of its stuck slot `q`. -/
structure Resumes (q : SlotIx) (s t : State) : Prop where
  stuck : s.Stuck q
  same  : t = s.unmark q

theorem State.unmark_setSlot (s : State) {q r : SlotIx} {f : Slot → Slot} (hf : Keyed f)
    (h : q ≠ r ∨ ∀ x, f x.reexamined = (f x).reexamined) :
    (s.unmark q).setSlot r f = (s.setSlot r f).unmark q := by
  have hcomm (x : Slot) : (fun y : Slot => if y.ix == r then f y else y) (if x.ix == q then x.reexamined else x) =
      (fun y : Slot => if y.ix == q then y.reexamined else y) (if x.ix == r then f x else x) := by
    have hq : (if x.ix == q then x.reexamined else x).ix = x.ix := by split <;> rfl
    have hr : (if x.ix == r then f x else x).ix = x.ix := Slot.ix_of_key (hf.ite r x)
    dsimp only
    rw [hq, hr]
    cases hxq : x.ix == q with
    | false => rfl
    | true =>
      cases hxr : x.ix == r with
      | false => rfl
      | true => exact h.resolve_left (fun hne => hne ((beq_iff_eq.1 hxq).symm.trans (beq_iff_eq.1 hxr))) x
  have hlist : (s.iq.slots.map (fun y => if y.ix == q then y.reexamined else y)).map (fun y => if y.ix == r then f y else y) =
      (s.iq.slots.map (fun y => if y.ix == r then f y else y)).map (fun y => if y.ix == q then y.reexamined else y) := by
    rw [List.map_map, List.map_map]
    exact List.map_congr_left (fun x _ => hcomm x)
  show ({ s with iq := { s.iq with slots := (s.iq.slots.map _).map _ } } : State) = _
  rw [hlist]
  rfl

theorem Resumes.setSlot {q r : SlotIx} {s t : State} (h : Resumes q s t) (hr : q ≠ r) {f : Slot → Slot} (hf : Keyed f) :
    Resumes q (s.setSlot r f) (t.setSlot r f) := by
  obtain ⟨⟨x, e, hs⟩, rfl⟩ := h
  exact ⟨⟨x, e, hs.setSlot_other hr hf⟩, s.unmark_setSlot hf (.inl hr)⟩

/-- The duty passes on, to a stuck slot among others. -/
theorem Resumes.inherit {q : SlotIx} {s t : State} (h : Resumes q s t) (r : SlotIx) :
    Resumes q (s.setSlot r (fun z => { z with marking := some .capture, duty := true }))
      (t.setSlot r (fun z => { z with marking := some .capture, duty := true })) := by
  obtain ⟨⟨x, e, hs⟩, rfl⟩ := h
  have hkey : Keyed (fun z : Slot => { z with marking := some .capture, duty := true }) := fun _ => rfl
  refine ⟨⟨_, e, hs.of_map (hkey.ite r) rfl rfl rfl rfl hs.forward (fun y _ => ?_)⟩, s.unmark_setSlot hkey (.inr fun _ => rfl)⟩
  split
  · refine ⟨rfl, rfl, rfl, rfl, fun hn => ?_⟩
    simp only [Slot.needsCapture, Bool.and_eq_true] at hn ⊢
    exact ⟨rfl, hn.2⟩
  · exact ⟨rfl, rfl, rfl, rfl, id⟩

theorem Resumes.dropSlot {q r : SlotIx} {s t : State} (h : Resumes q s t) (hr : q ≠ r) :
    Resumes q (s.dropSlot r) (t.dropSlot r) := by
  obtain ⟨⟨x, e, hs⟩, rfl⟩ := h
  refine ⟨⟨x, e, hs.dropSlot hr⟩, ?_⟩
  have hpred : (fun y : Slot => y.ix != r) ∘ (fun y : Slot => if y.ix == q then y.reexamined else y) =
      fun y => y.ix != r := by
    funext y
    dsimp only [Function.comp]
    split <;> rfl
  have hlist : (s.iq.slots.map (fun y => if y.ix == q then y.reexamined else y)).filter (fun y => y.ix != r) =
      (s.iq.slots.filter (fun y => y.ix != r)).map (fun y => if y.ix == q then y.reexamined else y) := by
    rw [List.filter_map, hpred]
  show ({ s with iq := { s.iq with slots := (s.iq.slots.map _).filter _ } } : State) = _
  rw [hlist]
  rfl

/-- The same records, window flags, table and pressure, and no new request for `q`. -/
theorem Resumes.of_same {q : SlotIx} {s t s' t' : State} (h : Resumes q s t) (hs : s'.iq = s.iq) (hw : s'.wu = s.wu)
    (hj : s'.jw = s.jw) (he : s'.ec = s.ec) (hd : q ∉ s.da.forward → q ∉ s'.da.forward) (ht : t' = s'.unmark q) :
    Resumes q s' t' := by
  obtain ⟨⟨x, e, hx⟩, -⟩ := h
  have hentry (e : EpochNo) : s'.entry? e = s.entry? e := State.entry?_of_table (by rw [he]) e
  refine ⟨⟨x, e, hx.of_same hs (by rw [hw]) (by rw [hj]) ⟨?_, ?_⟩ (hd hx.forward)⟩, ht⟩
  · rw [State.openLineOf, hentry]
    exact hx.line
  · rw [State.isBroken, hentry]
    exact hx.sound

theorem Resumes.raise {q : SlotIx} {s t : State} (h : Resumes q s t) (ev : Event) : Resumes q (s.raise ev) (t.raise ev) :=
  h.of_same rfl rfl rfl rfl id (by rw [h.same]; rfl)

theorem Resumes.respond {q : SlotIx} {s t : State} (h : Resumes q s t) (a : Response) :
    Resumes q (s.respond a) (t.respond a) :=
  h.of_same rfl rfl rfl rfl id (by rw [h.same]; rfl)

theorem Resumes.untouch {q : SlotIx} {s t : State} (h : Resumes q s t) (g : Granule) :
    Resumes q (s.untouch g) (t.untouch g) :=
  h.of_same rfl rfl rfl rfl id (by rw [h.same]; rfl)

theorem Resumes.withdraw {q : SlotIx} {s t : State} (h : Resumes q s t) (r : SlotIx) :
    Resumes q (s.withdraw r) (t.withdraw r) :=
  h.of_same rfl rfl rfl rfl (fun hq hm => hq (List.mem_filter.1 hm).1) (by rw [h.same]; rfl)

theorem Resumes.askForward {q r : SlotIx} {s t : State} (h : Resumes q s t) (hr : q ≠ r) :
    Resumes q (s.askForward r) (t.askForward r) := by
  have ht := h.same
  by_cases hm : r ∈ s.da.forward
  · rw [show s.askForward r = s from if_pos hm, show t.askForward r = t from if_pos (by rw [ht]; exact hm)]
    exact h
  · rw [State.askForward_new hm, State.askForward_new (s := t) (by rw [ht]; exact hm)]
    refine h.of_same rfl rfl rfl rfl (fun hq hmem => ?_) (by rw [ht]; rfl)
    obtain hmem | hmem := List.mem_append.1 hmem
    · exact hq hmem
    · exact hr (List.mem_singleton.1 hmem)

theorem Resumes.decideTripped {q : SlotIx} {s t : State} (h : Resumes q s t) {x : Slot} (hx : q ≠ x.ix) :
    Resumes q (s.decideTripped x) (t.decideTripped x) :=
  (h.setSlot (f := fun y => { y with outcome := some .tripped, atPoint := false }) hx (fun _ => rfl)).raise _

theorem Resumes.passDuty {q : SlotIx} {s t : State} (h : Resumes q s t) (x : Slot) :
    Resumes q (s.passDuty x) (t.passDuty x) := by
  have ht := h.same
  have hheir : t.heir? x = (s.heir? x).map (fun y => if y.ix == q then y.reexamined else y) := by
    rw [ht, State.heir?_eq, State.heir?_eq]
    show (s.iq.slots.map _).find? _ = _
    rw [List.find?_map]
    congr 2
    funext y
    dsimp only [Function.comp]
    split <;> rfl
  cases hd : x.duty with
  | false =>
    rw [State.passDuty_none hd, State.passDuty_none hd]
    exact h
  | true =>
    cases hy : s.heir? x with
    | none =>
      rw [hy, Option.map_none] at hheir
      have hopen : t.openEpoch? = s.openEpoch? := by rw [ht]; rfl
      rw [State.passDuty_untouch hd hy, State.passDuty_untouch hd hheir, hopen]
      split
      · exact h.untouch _
      · exact h
    | some y =>
      rw [hy, Option.map_some] at hheir
      have hix : (if y.ix == q then y.reexamined else y).ix = y.ix := by split <;> rfl
      rw [State.passDuty_heir hd hy, State.passDuty_heir hd hheir, hix]
      exact h.inherit y.ix

theorem Resumes.answerDecided {q : SlotIx} {s t : State} (h : Resumes q s t) {x : Slot} (hx : q ≠ x.ix) (o : Decided) :
    Resumes q (s.answerDecided x o) (t.answerDecided x o) :=
  (((h.withdraw x.ix).dropSlot hx).respond _).passDuty x

theorem Resumes.addCapture {q : SlotIx} {s t : State} (h : Resumes q s t) (c : Capture) :
    Resumes q { s with cu := { s.cu with captures := s.cu.captures ++ [c] } }
      { t with cu := { t.cu with captures := t.cu.captures ++ [c] } } :=
  h.of_same rfl rfl rfl rfl id (by rw [h.same]; rfl)

theorem Resumes.beginCapture {q : SlotIx} {s t : State} (h : Resumes q s t) {x : Slot} (hx : q ≠ x.ix) (e : EpochNo) (n : Nat) :
    Resumes q (s.beginCapture x e n) (t.beginCapture x e n) :=
  (h.addCapture _).setSlot (f := fun z => { z with state := .capturing, atPoint := false }) hx (fun _ => rfl)

theorem Resumes.examine {q : SlotIx} {s t : State} (h : Resumes q s t) {x : Slot} (hx : q ≠ x.ix) (e : EpochNo) (n : Nat) :
    Resumes q (s.examine x e n) (t.examine x e n) := by
  obtain ⟨_, _, hstuck⟩ := h.stuck
  have ht := h.same
  have htrip : t.tripped x.win = s.tripped x.win := by rw [ht]; rfl
  have hbroken : t.isBroken e = s.isBroken e := by rw [ht]; rfl
  have hpress : t.jw.pressure = s.jw.pressure := by rw [ht]; rfl
  have hline : t.openLineOf e = s.openLineOf e := by rw [ht]; rfl
  unfold State.examine
  rw [htrip, hbroken, hpress, hline, if_neg hstuck.press, if_neg hstuck.press]
  split
  · exact (h.decideTripped hx).answerDecided hx _
  · split
    · exact h.askForward hx
    · split
      · exact h.setSlot (f := fun z => { z with atPoint := true }) hx (fun _ => rfl)
      · exact h.beginCapture hx e n

theorem Resumes.dealHead {q : SlotIx} {s t : State} (h : Resumes q s t) {x : Slot} (hx : q ≠ x.ix) (n : Nat) :
    Resumes q (s.dealHead x n) (t.dealHead x n) := by
  have hforward : t.da.forward = s.da.forward := by rw [h.same]; rfl
  unfold State.dealHead
  rw [hforward]
  split
  · exact h.answerDecided hx _
  · split
    · exact h
    · split
      · split
        · exact h
        · exact h.examine hx _ n
      · exact h.askForward hx

theorem Resumes.dealSlot_other {q r : SlotIx} {s t : State} (h : Resumes q s t) (hr : q ≠ r) (n : Nat) :
    Resumes q (s.dealSlot n r) (t.dealSlot n r) := by
  have ht := h.same
  have hslot : t.slot? r = s.slot? r := by
    rw [ht]
    exact State.slot?_setSlot_other (Ne.symm hr) (fun _ => rfl)
  unfold State.dealSlot
  rw [hslot]
  cases hx : s.slot? r with
  | none => exact h
  | some x =>
    have hhead : t.isHead x = s.isHead x := by rw [ht]; exact s.unmark_isHead q x
    dsimp only
    rw [hhead]
    split
    · exact h.dealHead ((State.mem_of_slot? hx).2 ▸ hr) n
    · exact h

theorem State.StuckAt.dealSlot_self {s : State} {q : SlotIx} {x : Slot} {e : EpochNo} (h : s.StuckAt q x e) (n : Nat) :
    s.dealSlot n q = s := by
  refine State.dealSlot_self (fun y hy _ _ => ?_) n
  obtain rfl := Option.some.inj (h.slot.symm.trans hy)
  obtain ⟨hm, hq⟩ := State.mem_of_slot? h.slot
  exact ⟨h.outcome, .inr ⟨h.needs, by rw [h.epoch]; rfl, h.marked x hm hq⟩⟩

/-- A mark taken away and made again. -/
theorem Slot.marked_again {q : SlotIx} {y : Slot} (h : y.ix = q → y.atPoint = true) :
    (fun z : Slot => if z.ix == q then { z with atPoint := true } else z) (if y.ix == q then y.reexamined else y) = y := by
  have hix : (if y.ix == q then y.reexamined else y).ix = y.ix := by split <;> rfl
  dsimp only
  rw [hix]
  cases hyq : y.ix == q with
  | false => rfl
  | true =>
    show ({ y with atPoint := true } : Slot) = y
    rw [← h (beq_iff_eq.1 hyq)]

/-- The slot's own turn makes its marks again. -/
theorem Resumes.dealSlot_own {q : SlotIx} {s t : State} (h : Resumes q s t) (n : Nat) : t.dealSlot n q = s.dealSlot n q := by
  obtain ⟨⟨x, e, hx⟩, rfl⟩ := h
  obtain ⟨hm, hq⟩ := State.mem_of_slot? hx.slot
  have hslot : (s.unmark q).slot? q = some x.reexamined := State.slot?_setSlot_same (fun _ => rfl) hx.slot
  have hhead : (s.unmark q).isHead x.reexamined = true := (s.unmark_isHead q x).trans hx.head
  have hline : ((s.unmark q).openLineOf e).isNone := by
    rw [show (s.unmark q).openLineOf e = none from hx.line]
    rfl
  have hexamine : (s.unmark q).examine x.reexamined e n = s := by
    unfold State.examine
    rw [if_neg (by rw [show (s.unmark q).tripped x.reexamined.win = false from hx.trip]; decide),
      if_neg (by rw [show (s.unmark q).isBroken e = false from hx.sound]; decide),
      if_neg (show (s.unmark q).jw.pressure ≠ .suspended from hx.press), if_pos hline]
    have hlist : (s.iq.slots.map (fun y => if y.ix == q then y.reexamined else y)).map
        (fun y => if y.ix == q then { y with atPoint := true } else y) = s.iq.slots := by
      rw [List.map_map]
      refine (List.map_congr_left (fun y hy => ?_)).trans (List.map_id _)
      exact Slot.marked_again (hx.marked y hy)
    show ({ s with iq := { s.iq with slots := (s.iq.slots.map _).map (fun y : Slot =>
      if y.ix == x.ix then { y with atPoint := true } else y) } } : State) = s
    rw [hq, hlist]
  rw [hx.dealSlot_self n]
  unfold State.dealSlot
  rw [hslot]
  refine (if_pos ⟨hx.waiting, hhead⟩).trans ?_
  rw [State.dealHead_examines (x := x.reexamined) hx.outcome (by rw [show x.reexamined.ix = q from hq]; exact hx.forward) hx.needs
    hx.epoch rfl n, hexamine]

theorem Resumes.foldl {q : SlotIx} {l : List SlotIx} {s t : State} (h : Resumes q s t) (hq : q ∈ l) (n : Nat) :
    l.foldl (fun u r => u.dealSlot n r) t = l.foldl (fun u r => u.dealSlot n r) s := by
  induction l generalizing s t with
  | nil => exact absurd hq (by simp)
  | cons r l ih =>
    by_cases hr : q = r
    · rw [List.foldl_cons, List.foldl_cons, ← hr, h.dealSlot_own n]
    · exact ih (h.dealSlot_other hr n) ((List.mem_cons.1 hq).resolve_left hr)

/-- Without the marks of a stuck slot the dealing with heads comes to the same. -/
theorem State.Stuck.serve_unmark {s : State} {q : SlotIx} (h : s.Stuck q) : (s.unmark q).serve = s.serve := by
  obtain ⟨x, e, hx⟩ := id h
  obtain ⟨hm, hq⟩ := State.mem_of_slot? hx.slot
  unfold State.serve
  rw [show (s.unmark q).iq.slots.map (·.ix) = s.iq.slots.map (·.ix) from (Slot.reexamined_keyed.ite q).map_ix _]
  exact Resumes.foldl ⟨h, rfl⟩ (hq ▸ List.mem_map_of_mem hm) s.nextGroup

end Sys2Proof.Machine

/-! Which records carry a mark once the heads are dealt with (R66). -/
namespace Sys2Proof.Machine

/-- Each marked record of `t` was one in `s`. -/
def State.FewerMarks (s t : State) : Prop :=
  ∀ y ∈ t.iq.slots, y.atPoint = true → ∃ z ∈ s.iq.slots, z.ix = y.ix ∧ z.epoch = y.epoch ∧ z.atPoint = true

theorem State.FewerMarks.of_same {s t : State} (h : t.iq = s.iq) : s.FewerMarks t :=
  fun y hy ha => ⟨y, h ▸ hy, rfl, rfl, ha⟩

theorem State.FewerMarks.trans {s t u : State} (h : s.FewerMarks t) (k : t.FewerMarks u) : s.FewerMarks u := by
  intro y hy ha
  obtain ⟨z, hz, hzi, hze, hza⟩ := k y hy ha
  obtain ⟨w, hw, hwi, hwe, hwa⟩ := h z hz hza
  exact ⟨w, hw, hwi.trans hzi, hwe.trans hze, hwa⟩

theorem State.FewerMarks.of_map {s t : State} {f : Slot → Slot} (hs : t.iq.slots = s.iq.slots.map f)
    (hf : ∀ x, (f x).ix = x.ix ∧ (f x).epoch = x.epoch ∧ ((f x).atPoint = true → x.atPoint = true)) : s.FewerMarks t := by
  intro y hy ha
  rw [hs] at hy
  obtain ⟨z, hz, rfl⟩ := List.mem_map.1 hy
  obtain ⟨h1, h2, h3⟩ := hf z
  exact ⟨z, hz, h1.symm, h2.symm, h3 ha⟩

theorem State.FewerMarks.setSlot (s : State) (q : SlotIx) {f : Slot → Slot}
    (hf : ∀ x, (f x).ix = x.ix ∧ (f x).epoch = x.epoch ∧ ((f x).atPoint = true → x.atPoint = true)) :
    s.FewerMarks (s.setSlot q f) :=
  .of_map (f := fun x => if x.ix == q then f x else x) rfl (fun x => by
    split
    · exact hf x
    · exact ⟨rfl, rfl, id⟩)

theorem State.FewerMarks.askForward (s : State) (q : SlotIx) : s.FewerMarks (s.askForward q) := by
  unfold State.askForward
  split <;> exact .of_same rfl

theorem State.FewerMarks.markBroken (s : State) (e : EpochNo) (r : Reason) : s.FewerMarks (s.markBroken e r) := by
  unfold State.markBroken
  split
  · exact .of_same rfl
  · refine .of_map (f := fun x => if x.epoch == some e then x.reexamined else x) rfl (fun x => ?_)
    split
    · exact ⟨rfl, rfl, fun h => absurd h Bool.false_ne_true⟩
    · exact ⟨rfl, rfl, id⟩

theorem State.FewerMarks.dropSlot (s : State) (q : SlotIx) : s.FewerMarks (s.dropSlot q) :=
  fun y hy ha => ⟨y, (List.mem_filter.1 hy).1, rfl, rfl, ha⟩

theorem State.FewerMarks.passDuty (s : State) (x : Slot) : s.FewerMarks (s.passDuty x) := by
  unfold State.passDuty
  split
  · split
    · exact .setSlot s _ (fun _ => ⟨rfl, rfl, id⟩)
    · split <;> exact .of_same rfl
  · exact .of_same rfl

theorem State.FewerMarks.answerDecided (s : State) (x : Slot) (o : Decided) : s.FewerMarks (s.answerDecided x o) := by
  unfold State.answerDecided
  refine State.FewerMarks.trans (t := (s.withdraw x.ix).answer x o.status []) ?_ (.passDuty _ x)
  exact State.FewerMarks.trans (t := s.withdraw x.ix) (.of_same rfl) (.trans (.dropSlot _ x.ix) (.of_same rfl))

theorem State.FewerMarks.decideTripped (s : State) (x : Slot) : s.FewerMarks (s.decideTripped x) :=
  State.FewerMarks.trans
    (.setSlot s x.ix (f := fun y => { y with outcome := some .tripped, atPoint := false })
      (fun _ => ⟨rfl, rfl, fun h => absurd h Bool.false_ne_true⟩))
    (.of_same rfl)

theorem State.FewerMarks.beginCapture (s : State) (x : Slot) (e : EpochNo) (n : Nat) : s.FewerMarks (s.beginCapture x e n) :=
  .setSlot { s with cu := _ } x.ix (f := fun z => { z with state := .capturing, atPoint := false })
    (fun _ => ⟨rfl, rfl, fun h => absurd h Bool.false_ne_true⟩)

theorem State.FewerMarks.setPressure (s : State) (p : Pressure) (r : Option Reason) :
    s.FewerMarks (s.setPressure p r) := by
  unfold State.setPressure
  split
  · exact .of_same rfl
  · exact .of_map (f := Slot.reexamined) rfl (fun _ => ⟨rfl, rfl, fun h => absurd h Bool.false_ne_true⟩)

theorem State.FewerMarks.evaluate (s : State) : s.FewerMarks s.evaluate := by
  unfold State.evaluate
  split
  · exact .of_same rfl
  · refine State.FewerMarks.trans (.of_same ?_) (.setPressure _ _ _)
    rw [State.raiseCodes_eq]

theorem State.FewerMarks.recover (s : State) : s.FewerMarks s.recover := by
  unfold State.recover
  split
  · exact State.FewerMarks.trans (t := s.setPressure .normal none) (.setPressure s _ _) (.of_same rfl)
  · exact .of_same rfl

/-- A mark that is made tells of a head that is stuck. -/
theorem State.mark_stuck {s : State} {x : Slot} {e : EpochNo} (hx : s.slot? x.ix = some x) (hw : x.state = .waiting)
    (hh : s.isHead x = true) (ho : x.outcome = none) (hf : x.ix ∉ s.da.forward) (hn : x.needsCapture = true)
    (he : x.epoch = some e) (ht : s.tripped x.win = false) (hb : s.isBroken e = false) (hp : s.jw.pressure ≠ .suspended)
    (hl : s.openLineOf e = none) : (s.setSlot x.ix (fun z => { z with atPoint := true })).Stuck x.ix := by
  have hkey : Keyed (fun z : Slot => { z with atPoint := true }) := fun _ => rfl
  refine ⟨{ x with atPoint := true }, e, ?_⟩
  constructor
  case slot => exact State.slot?_setSlot_same (fun _ => rfl) hx
  case waiting => exact hw
  case head => exact (State.isHead_congr (s.setSlot_keys x.ix hkey) rfl).trans hh
  case outcome => exact ho
  case forward => exact hf
  case needs => exact hn
  case epoch => exact he
  case trip => exact ht
  case sound => exact hb
  case press => exact hp
  case line => exact hl
  case marked =>
    intro y hy hyx
    obtain ⟨z, hz, rfl⟩ := List.mem_map.1 (show y ∈ s.iq.slots.map _ from hy)
    have hzx : z.ix = x.ix := (Slot.ix_of_key (hkey.ite x.ix z)).symm.trans hyx
    rw [if_pos (by simpa using hzx)]

/-- What dealing with slot `r` makes of the marks. -/
theorem State.dealSlot_marks (s : State) (n : Nat) (r : SlotIx) :
    s.FewerMarks (s.dealSlot n r) ∨ ((s.dealSlot n r).Stuck r ∧
      s.dealSlot n r = s.setSlot r (fun z => { z with atPoint := true })) := by
  cases hx : s.slot? r with
  | none =>
    refine .inl (.of_same ?_)
    rw [State.dealSlot, hx]
  | some x =>
    obtain ⟨hm, rfl⟩ := State.mem_of_slot? hx
    unfold State.dealSlot
    rw [hx]
    dsimp only
    split
    · rename_i hw
      unfold State.dealHead
      split
      · exact .inl (.answerDecided s x _)
      · rename_i ho
        split
        · exact .inl (.of_same rfl)
        · rename_i hf
          split
          · rename_i e hn he
            split
            · exact .inl (.of_same rfl)
            · unfold State.examine
              split
              · exact .inl (.trans (.decideTripped s x) (.answerDecided _ x _))
              · rename_i ht
                split
                · exact .inl (.askForward s _)
                · rename_i hb
                  split
                  · exact .inl (.trans (.markBroken s e _) (.askForward _ _))
                  · rename_i hp
                    split
                    · rename_i hl
                      exact .inr ⟨State.mark_stuck hx hw.1 hw.2 ho hf hn he (by simpa using ht) (by simpa using hb) hp
                        (by simpa using hl), rfl⟩
                    · exact .inl (.beginCapture s x e n)
          · exact .inl (.askForward s _)
    · exact .inl (.of_same rfl)

/-- The marked records of epoch `n` are those of stuck slots. -/
def State.MarksStuck (s : State) (n : EpochNo) : Prop :=
  ∀ y ∈ s.iq.slots, y.epoch = some n → y.atPoint = true → s.Stuck y.ix

theorem State.MarksStuck.dealSlot {s : State} {n : EpochNo} (h : s.MarksStuck n) (k : Nat) (r : SlotIx) :
    (s.dealSlot k r).MarksStuck n := by
  by_cases hr : s.Stuck r
  · obtain ⟨x, e, hx⟩ := hr
    rw [hx.dealSlot_self k]
    exact h
  · have hkeep {y z : Slot} (hz : z ∈ s.iq.slots) (hix : z.ix = y.ix) (he : z.epoch = some n) (ha : z.atPoint = true) :
        (s.dealSlot k r).Stuck y.ix := by
      have hs := h z hz he ha
      rw [hix] at hs
      exact (Resumes.dealSlot_other (t := s.unmark y.ix) ⟨hs, rfl⟩ (fun hyr : y.ix = r => hr (hyr ▸ hs)) k).stuck
    intro y hy hye hya
    obtain hf | ⟨hstuck, heq⟩ := s.dealSlot_marks k r
    · obtain ⟨z, hz, hix, he, ha⟩ := hf y hy hya
      exact hkeep hz hix (he.trans hye) ha
    · by_cases hyr : y.ix = r
      · rw [hyr]
        exact hstuck
      · rw [heq] at hy
        obtain ⟨z, hz, rfl⟩ := List.mem_map.1 (show y ∈ s.iq.slots.map _ from hy)
        have hzr : (if z.ix == r then { z with atPoint := true } else z).ix = z.ix := by split <;> rfl
        rw [hzr] at hyr
        have hself : (if z.ix == r then { z with atPoint := true } else z) = z := if_neg (by simpa using hyr)
        rw [hself] at hye hya ⊢
        exact hkeep hz rfl hye hya

theorem State.MarksStuck.serve {s : State} {n : EpochNo} (h : s.MarksStuck n) : s.serve.MarksStuck n := by
  unfold State.serve
  generalize s.nextGroup = k
  generalize s.iq.slots.map (·.ix) = l
  induction l generalizing s with
  | nil => exact h
  | cons r l ih => exact ih (h.dealSlot k r)

/-! ## Without the marks of an epoch -/

/-- But for the requests' records `t` is `s`, and dealing with the heads of either comes to the same. -/
structure State.SameServed (s t : State) : Prop where
  same  : t = { s with iq := { s.iq with slots := t.iq.slots } }
  serve : t.serve = s.serve

theorem State.MarksStuck.cleared {s : State} {n : EpochNo} (h : s.MarksStuck n) (l : List SlotIx) :
    ∃ t, s.SameServed t ∧ ∀ y ∈ t.iq.slots, y.epoch = some n → y.atPoint = true → y.ix ∉ l ∧ t.Stuck y.ix := by
  induction l with
  | nil => exact ⟨s, ⟨rfl, rfl⟩, fun y hy he ha => ⟨by simp, h y hy he ha⟩⟩
  | cons q l ih =>
    obtain ⟨t, ⟨hsame, hserve⟩, ht⟩ := ih
    by_cases hq : t.Stuck q
    · refine ⟨t.unmark q, ⟨?_, hq.serve_unmark.trans hserve⟩, fun y hy he ha => ?_⟩
      · rw [hsame]
        rfl
      · obtain ⟨z, hz, rfl⟩ := List.mem_map.1 (show y ∈ t.iq.slots.map _ from hy)
        by_cases hzq : z.ix = q
        · rw [if_pos (by simpa using hzq)] at ha
          exact absurd ha Bool.false_ne_true
        · rw [if_neg (by simpa using hzq)] at he ha ⊢
          obtain ⟨hl, x, e, hx⟩ := ht z hz he ha
          refine ⟨fun hm => (List.mem_cons.1 hm).elim hzq hl, x, e, hx.setSlot_other hzq Slot.reexamined_keyed⟩
    · refine ⟨t, ⟨hsame, hserve⟩, fun y hy he ha => ?_⟩
      obtain ⟨hl, hs⟩ := ht y hy he ha
      exact ⟨fun hm => (List.mem_cons.1 hm).elim (fun hyq => hq (hyq ▸ hs)) hl, hs⟩

/-- A state in which no record of epoch `n` carries a mark and that is settled to the same. -/
theorem State.MarksStuck.unmarked {s : State} {n : EpochNo} (h : s.MarksStuck n) :
    ∃ t, s.SameServed t ∧ ∀ y ∈ t.iq.slots, y.epoch = some n → y.atPoint = false := by
  obtain ⟨t, hs, ht⟩ := h.cleared (List.finRange 16)
  refine ⟨t, hs, fun y hy he => Bool.eq_false_iff.2 (fun ha => ?_)⟩
  exact (ht y hy he ha).1 (List.mem_finRange _)

/-- From `s` to `t` the records stay, and what keeps a slot stuck. -/
theorem State.MarksStuck.of_same {s t : State} {n : EpochNo} (h : s.MarksStuck n) (hs : t.iq = s.iq)
    (hw : t.wu.trip = s.wu.trip) (hj : t.jw.pressure = s.jw.pressure) (hd : t.da = s.da)
    (he : ∀ e, s.openLineOf e = none → s.isBroken e = false → t.openLineOf e = none ∧ t.isBroken e = false) :
    t.MarksStuck n := by
  intro y hy hye hya
  obtain ⟨x, e, hx⟩ := h y (hs ▸ hy) hye hya
  exact ⟨x, e, hx.of_same hs hw hj (he e hx.line hx.sound) (by rw [hd]; exact hx.forward)⟩

theorem State.MarksStuck.recover {s : State} {n : EpochNo} (h : s.MarksStuck n) : s.recover.MarksStuck n := by
  by_cases hp : s.jw.pressure = .suspended
  · have hnone : ∀ y ∈ s.iq.slots, y.epoch = some n → y.atPoint = false := fun y hy he =>
      Bool.eq_false_iff.2 (fun ha => by
        obtain ⟨_, _, hx⟩ := h y hy he ha
        exact hx.press hp)
    intro y hy he ha
    obtain ⟨z, hz, -, hze, hza⟩ := State.FewerMarks.recover s y hy ha
    exact absurd ((hnone z hz (hze.trans he)).symm.trans hza) Bool.false_ne_true
  · rw [show s.recover = s from if_neg (fun hr => hp hr.1)]
    exact h

end Sys2Proof.Machine

/-! The pending boundary at the end of a seal (R99). -/
namespace Sys2Proof.Machine

/-- The state without its pending boundary. -/
def State.unpended (s : State) : State := { s with ec := { s.ec with pending := false, closing := false } }

/-- The pending boundary is taken from `s` to `u`: the OPEN epoch closes, and `added` opens behind it. -/
structure State.TakesPending (s u : State) (added : List Entry) : Prop where
  table   : u.ec.table = s.ec.table.map Entry.closed ++ added
  pending : u.ec.pending = false
  closing : u.ec.closing = false
  cu      : u.cu = { s.cu with touched := [] }
  trip    : u.wu.trip = s.wu.trip
  iq      : u.iq = s.iq
  jw      : u.jw = s.jw
  re      : u.re = s.re
  da      : u.da = s.da

theorem State.applyFill_frame (s : State) (e : Option EpochNo) : (s.applyFill e).ec = s.ec ∧ (s.applyFill e).cu = s.cu ∧
    (s.applyFill e).iq = s.iq ∧ (s.applyFill e).jw = s.jw ∧ (s.applyFill e).re = s.re ∧ (s.applyFill e).da = s.da ∧
    (s.applyFill e).wu.trip = s.wu.trip := by
  have h := s.applyFill_eq e
  exact ⟨by rw [h], by rw [h], by rw [h], by rw [h], by rw [h], by rw [h], by rw [s.applyFill_wu e]⟩

theorem State.takePending_boundary {s : State} {n : EpochNo} (hp : s.ec.pending = true) (hc : s.ec.closing = false)
    (ho : s.openEpoch? = some n) (hl : s.ec.table.length < 64) :
    s.TakesPending s.takePending [Entry.fresh (n + 1#32)] ∧ s.takePending.ec.bridge = s.ec.bridge := by
  obtain ⟨o, hoe, rfl⟩ : ∃ o, s.openEntry? = some o ∧ o.number = n := Option.map_eq_some_iff.1 ho
  have hopen : s.unpended.openEntry? = some o := hoe
  have htake : s.takePending = s.unpended.boundary := by
    unfold State.takePending
    rw [if_pos hp]
    exact if_neg (by rw [hc]; decide)
  have hroom : s.unpended.makeRoom = s.unpended := State.makeRoom_self hl
  generalize ht : s.unpended.opened (o.number + 1#32) = t
  have hto : t = ((s.unpended.closeOpen.addEpoch (o.number + 1#32)).clearTouched).exchangeBanks := by
    rw [← ht, State.opened, hroom]
  obtain ⟨hec, hcu, hiq, hjw, hre, hda, htrip⟩ := t.applyFill_frame (some (o.number + 1#32))
  rw [hto] at hec hcu hiq hjw hre hda htrip
  rw [htake, State.boundary_eq hopen, ht, hto]
  generalize State.applyFill _ (some (o.number + 1#32)) = w at *
  have hfields : w.startTimer.ec = w.ec.startTimer := rfl
  refine ⟨⟨?_, ?_, ?_, hcu, htrip, hiq, hjw, hre, hda⟩, ?_⟩ <;> rw [hfields, hec] <;> rfl

theorem State.takePending_closing {s : State} (hp : s.ec.pending = true) (hc : s.ec.closing = true) :
    s.TakesPending s.takePending [] ∧ s.takePending.ec.bridge = .closing ∧ s.takePending.ec.timer = none := by
  have htake : s.takePending = s.unpended.closingBoundary := by
    unfold State.takePending
    rw [if_pos hp]
    exact if_pos hc
  obtain ⟨hec, hcu, hiq, hjw, hre, hda, htrip⟩ := s.unpended.closed.applyFill_frame none
  rw [htake, State.closingBoundary_eq]
  generalize s.unpended.closed.applyFill none = w at *
  have hfields : w.stopTimer.ec = { w.ec with timer := none } := rfl
  refine ⟨⟨?_, ?_, ?_, hcu, htrip, hiq, hjw, hre, hda⟩, ?_, ?_⟩ <;> rw [hfields, hec]
  · rw [List.append_nil]
    rfl
  all_goals rfl

/-! ## What the boundary leaves of the entries -/

theorem Entry.closed_of {y : Entry} (h : y.state ≠ .opened) : y.closed = y := if_neg h

theorem Entry.closed_number (y : Entry) : y.closed.number = y.number := by
  unfold Entry.closed
  split <;> rfl

theorem Entry.closed_openLine (y : Entry) : y.closed.openLine = y.openLine := by
  unfold Entry.closed
  split <;> rfl

theorem Entry.closed_broken (y : Entry) : y.closed.broken = y.broken := by
  unfold Entry.closed
  split <;> rfl

theorem Entry.closed_opened {y : Entry} (h : y.state = .opened) : y.closed.state = .sealing := by
  unfold Entry.closed
  rw [if_pos h]

theorem State.TakesPending.entry? {s u : State} {added : List Entry} (h : s.TakesPending u added) (e : EpochNo) :
    u.entry? e = ((s.entry? e).map Entry.closed).or (added.find? (fun x => x.number == e)) := by
  rw [State.entry?, h.table, List.find?_append, find?_map_number Entry.closed_number]
  rfl

theorem State.TakesPending.marksStuck {s u : State} {added : List Entry} {n : EpochNo} (h : s.TakesPending u added)
    (ha : ∀ y ∈ added, y.openLine = none ∧ y.broken = none) (hm : s.MarksStuck n) : u.MarksStuck n := by
  refine hm.of_same h.iq h.trip (by rw [h.jw]) h.da (fun e hl hb => ?_)
  rw [State.openLineOf, State.isBroken, h.entry? e]
  cases hf : s.entry? e with
  | none =>
    cases hg : added.find? (fun x => x.number == e) with
    | none => exact ⟨rfl, rfl⟩
    | some y =>
      obtain ⟨hy1, hy2⟩ := ha y (List.mem_of_find?_eq_some hg)
      exact ⟨hy1, congrArg Option.isSome hy2⟩
  | some y =>
    rw [State.openLineOf, hf] at hl
    rw [State.isBroken, hf] at hb
    exact ⟨y.closed_openLine.trans hl, (congrArg Option.isSome y.closed_broken).trans hb⟩

end Sys2Proof.Machine

/-! The acknowledgment of a SEAL write (R98, R99). -/
namespace Sys2Proof.Machine

/-! ## The acknowledgment with the epoch's entry at hand -/

theorem State.sealedEvent_of {s : State} {e : EpochNo} {x : Entry} (h : s.entry? e = some x) :
    s.sealedEvent e = { code := .epochSealed, epoch := some e, arg := BitVec.ofNat 32 x.undos } := by
  rw [State.sealedEvent, h]
  rfl

theorem State.sealedEntry_endLine {s : State} {job : SealJob} (h : s.jw.sealJob = some job) (e : EpochNo) (x : Entry) :
    (s.sealedEntry e x).endLine = some job.after := by
  rw [State.sealedEntry, h]
  rfl

theorem State.becomeSealed_free (s : State) (e : EpochNo) : (s.becomeSealed e).free = s.free := by
  obtain ⟨hu, hr⟩ := State.used_congr (s := s) (t := s.becomeSealed e) rfl rfl rfl
  rw [State.free, State.free, hu, hr]

theorem exec_sealWriteAck_ok {s : State} {p : PortIx} {l : Nat} {e : EpochNo}
    (ho : s.Outstanding p (.sealWrite l e)) (hb : s.ec.bridge ≠ .closing) (hp : s.ec.pending = false) (data : List Byte) :
    exec (.sealWriteAck p (.ok data)) s = .next (((s.begin.freePort p).becomeSealed e).sealing e).settle ∧
      s.SealsQuietly (((s.begin.freePort p).becomeSealed e).sealing e) p :=
  exec_sealWriteAck_clear ho hb hp rfl

theorem numbers_distinct {s : State} {e : EpochNo} {x o : Entry} (hn : s.NumbersOk) (hx : s.entry? e = some x)
    (hs : x.state = .sealing) (ho : s.openEntry? = some o) : o.number ≠ e := by
  intro h
  have hoe := State.entry?_of_mem hn (State.openEntry?_mem ho)
  rw [h, hx] at hoe
  obtain rfl := Option.some.inj hoe
  rw [State.openEntry?_state ho] at hs
  exact absurd hs (by decide)

/-! ## A fault of the SEAL write (R98, R170) -/

theorem State.recordFault_split {s : State} {x : Entry} {old rest : List Entry} (ht : s.ec.table = old ++ x :: rest)
    (hold : ∀ y ∈ old, y.state = .sealed) (hx : x.state ≠ .sealed) (hrest : ∀ y ∈ rest, y.state ≠ .sealed) (line : Nat)
    (e : EpochNo) (kind : FaultKind) : ∃ a y r, (s.recordFault line e kind).ec.table = a ++ y :: r ∧
      (∀ z ∈ a, z.state = .sealed) ∧ y.unmarked = x.unmarked ∧ r.map Entry.unmarked = rest.map Entry.unmarked ∧
      ((s.recordFault line e kind).ec.table.map (·.number)).Sublist (s.ec.table.map (·.number)) := by
  let m : State := (s.markBroken e .media).raise { code := .mediaFault, epoch := some e, arg := packLine line kind.code }
  have hmarks : s.SameButMarks m := s.markBroken_marks e .media
  obtain ⟨old', rest', ht', ho, hr⟩ := hmarks.split ht
  have hold' : ∀ y ∈ old', y.state = .sealed := forall_state_unmarked (P := (· = .sealed)) (show old'.map Entry.unmarked = _ from ho) hold
  have hunsealed : ∀ y ∈ x :: rest, y.state ≠ .sealed := fun y hy => (List.mem_cons.1 hy).elim (fun h => h ▸ hx) (hrest y)
  have hrest' : ∀ y ∈ rest', y.state ≠ .sealed :=
    forall_state_unmarked (P := (· ≠ .sealed)) (show rest'.map Entry.unmarked = _ from hr) hunsealed
  have hcut {l : List Entry} (h : l.map Entry.unmarked = (x :: rest).map Entry.unmarked) :
      ∃ y r, l = y :: r ∧ y.unmarked = x.unmarked ∧ r.map Entry.unmarked = rest.map Entry.unmarked :=
    List.map_eq_cons_iff.1 h
  by_cases hp : m.jw.pressure = .suspended
  · have hself : s.recordFault line e kind = m := State.enterSuspended_self hp .media
    obtain ⟨y, r, rfl, hy, hr'⟩ := hcut hr
    have hnumbers : (s.recordFault line e kind).ec.table.map (·.number) = s.ec.table.map (·.number) := by
      rw [hself, hmarks.numbers]
    exact ⟨old', y, r, by rw [hself]; exact ht', hold', hy, hr', hnumbers ▸ List.Sublist.refl _⟩
  · have hu : m.EntersSuspended (s.recordFault line e kind) .media old' rest' :=
      State.enterSuspended_enters hp .media ht' hold' hrest'
    obtain ⟨y, r, hyr, hy, hr'⟩ := hcut (hu.table.trans hr)
    refine ⟨[], y, r, hyr, by simp, hy, hr', ?_⟩
    rw [numbers_unmarked (hu.table.trans hr), ht, List.map_append]
    exact List.sublist_append_right _ _

/-- With no epoch SEALED a failed reservation leaves the table as it was but for marks. -/
theorem State.reservationFails_marks {s : State} (h : ∀ y ∈ s.ec.table, y.state ≠ .sealed) (e : EpochNo) :
    s.SameButMarks (s.reservationFails e) := by
  have hmarks := s.markBroken_marks e .pressure
  have hm : ∀ y ∈ (s.markBroken e .pressure).ec.table, y.state ≠ .sealed :=
    forall_state_unmarked (P := (· ≠ .sealed)) hmarks h
  refine hmarks.trans ?_
  unfold State.reservationFails
  split
  · rw [State.commitSealed, State.sealedCount_none hm]
    exact .refl _
  · rename_i hp
    have hp' : (s.markBroken e .pressure).jw.pressure ≠ .suspended := by rw [s.markBroken_jw]; exact hp
    exact (State.enterSuspended_enters hp' .pressure (old := []) rfl (by simp) hm).table

theorem State.openNext_unsealed {s : State} (h : ∀ y ∈ s.ec.table, y.state ≠ .sealed) :
    s.openNext.ec.table.map (·.number) = s.ec.table.map (·.number) ∧ s.openNext.sealedCount = 0 := by
  unfold State.openNext
  split
  · exact ⟨rfl, State.sealedCount_none h⟩
  · rename_i n _
    unfold State.reserveOpen
    split
    · refine ⟨s.placeOpen_numbers n, ?_⟩
      rw [State.sealedCount_of_states (s.placeOpen_states n), State.sealedCount_none h]
    · have hf := State.reservationFails_marks h n
      refine ⟨(State.placeOpen_numbers _ n).trans hf.numbers, ?_⟩
      rw [State.sealedCount_of_states (State.placeOpen_states _ n), State.sealedCount_of_states hf.states,
        State.sealedCount_none h]

/-- A broken epoch that becomes SEALED with unsealed ones behind it: these are what the table holds then. -/
theorem State.sealing_leaves {w : State} {x : Entry} {old rest : List Entry} (ht : w.ec.table = old ++ x :: rest)
    (hn : w.NumbersOk) (hold : ∀ y ∈ old, y.state = .sealed) (hx : x.state = .sealed) (hb : x.broken.isSome)
    (hrest : ∀ y ∈ rest, y.state ≠ .sealed) :
    (w.sealing x.number).ec.table.map (·.number) = rest.map (·.number) := by
  have hcom := State.commitBroken_commits ht hn hold hx hb
  have htab : (w.commitBroken x.number).ec.table = rest := by rw [hcom.ec]
  obtain ⟨hnum, hcount⟩ := State.openNext_unsealed (s := w.commitBroken x.number) (by rw [htab]; exact hrest)
  have hfin := State.finishes (s := (w.commitBroken x.number).openNext) (.inr (by rw [hcount]; exact Nat.zero_le _))
  rw [State.sealing_eq, hfin.numbers, hnum, htab]

/-! ## The pending boundary -/

theorem State.SameServed.around {s t u : State} (h : u.SameServed t) (hs : s.SameAround u) : s.SameAround t := by
  obtain ⟨hport, hreset, hframe, hpending, hstaged, hlimit, hmask, htime, hdport⟩ := hs
  rw [h.same]
  exact ⟨hport, hreset, hframe, hpending, hstaged, hlimit, hmask, htime, hdport⟩

/-- The state of a seal that commits nothing, up to its pending boundary. -/
structure State.SealsInRoom (w b : State) (n : EpochNo) : Prop where
  finishes : Finishes (w.placeOpen n) b
  tends    : Tends w b
  da       : b.da = { w.recordDa (.openRec w.jw.head n (w.openBackLink n)) with forward := b.da.forward }
  marks    : b.MarksStuck n

theorem State.placeOpen_marksStuck (s : State) (e : EpochNo) : (s.placeOpen e).MarksStuck e := by
  intro y hy hye hya
  rw [State.placeOpen_eq] at hy
  obtain ⟨z, hz, -, hze, hza⟩ := State.FewerMarks.evaluate (s.opening e) y hy hya
  obtain ⟨x, -, rfl⟩ := List.mem_map.1 (show z ∈ s.iq.slots.map _ from hz)
  by_cases hx : x.epoch = some e
  · rw [if_pos (by simpa using hx)] at hza
    exact absurd hza Bool.false_ne_true
  · rw [if_neg (by simpa using hx)] at hze
    exact absurd (hze.trans hye) hx

theorem State.placeOpen_openEpoch? (s : State) (e : EpochNo) : (s.placeOpen e).openEpoch? = s.openEpoch? := by
  unfold State.openEpoch? State.openEntry?
  have hpred : (fun x : Entry => x.state == .opened) ∘
      (fun x : Entry => if x.number == e then { x with openLine := some s.jw.head } else x) = fun x => x.state == .opened := by
    funext x
    dsimp only [Function.comp]
    split <;> rfl
  rw [s.placeOpen_table e, List.find?_map, hpred, Option.map_map]
  congr 1
  funext x
  dsimp only [Function.comp]
  split <;> rfl

theorem State.sealing_inRoom {w : State} {e n : EpochNo} {x : Entry} (hx : w.entry? e = some x) (hb : x.broken = none)
    (ho : w.openEpoch? = some n) (hf : 1 ≤ w.free) (hd : w.ec.bridge = .rolling ∨ w.sealedCount ≤ w.ec.retention) :
    w.SealsInRoom (w.sealing e) n := by
  have hseal := State.sealing_of (s := w) (State.commitBroken_self hx hb) ho (State.reserveOpen_room hf n)
  have hdepth : (w.placeOpen n).ec.bridge = .rolling ∨ (w.placeOpen n).sealedCount ≤ (w.placeOpen n).ec.retention := by
    rw [State.sealedCount_of_states (w.placeOpen_states n), w.placeOpen_ec n]
    exact hd
  have hserve := (w.placeOpen n).serve_serves
  have hself : (w.placeOpen n).serve.depthCommit = (w.placeOpen n).serve := by
    refine State.depthCommit_self ?_
    rw [hserve.ec, State.sealedCount_of_states hserve.marks.states]
    exact hdepth
  constructor
  case finishes =>
    rw [hseal]
    exact State.finishes hdepth
  case tends => exact w.sealing_tends e
  case da =>
    rw [hseal, hself, (State.recover_calm _).da, hserve.da, w.placeOpen_da n]
  case marks =>
    rw [hseal, hself]
    exact (w.placeOpen_marksStuck n).serve.recover

/-- What the end of a seal has in common with a boundary pending and without one. -/
structure State.EndsSeal (b u : State) (n : EpochNo) : Prop where
  jw      : u.jw = b.jw
  da      : u.da = b.da
  re      : u.re = b.re
  pending : u.ec.pending = false
  entry   : ∀ k z, b.entry? k = some z → u.entry? k = some (if b.ec.pending then z.closed else z)
  marks   : u.MarksStuck n

theorem State.TakesPending.endsSeal {b u : State} {added : List Entry} {n : EpochNo} (h : b.TakesPending u added)
    (ha : ∀ y ∈ added, y.openLine = none ∧ y.broken = none) (hp : b.ec.pending = true) (hm : b.MarksStuck n) :
    b.EndsSeal u n where
  jw := h.jw
  da := h.da
  re := h.re
  pending := h.pending
  entry := fun k z hz => by rw [h.entry? k, hz, if_pos hp]; rfl
  marks := h.marksStuck ha hm

theorem State.takePending_ends {b : State} {n : EpochNo} (ho : b.openEpoch? = some n) (hl : b.ec.table.length < 64)
    (hm : b.MarksStuck n) : b.EndsSeal b.takePending n := by
  cases hp : b.ec.pending with
  | false =>
    rw [State.takePending_none hp]
    exact ⟨rfl, rfl, rfl, hp, fun k z hz => by rw [hz, if_neg (by rw [hp]; decide)], hm⟩
  | true =>
    cases hc : b.ec.closing with
    | false => exact (State.takePending_boundary hp hc ho hl).1.endsSeal (by simp [Entry.fresh]) hp hm
    | true => exact (State.takePending_closing hp hc).1.endsSeal (by simp) hp hm

/-- No entry is OPEN once the OPEN epoch is closed. -/
theorem find?_opened_closed (l : List Entry) : (l.map Entry.closed).find? (fun x => x.state == .opened) = none := by
  refine List.find?_eq_none.2 (fun y hy => ?_)
  obtain ⟨z, -, rfl⟩ := List.mem_map.1 hy
  unfold Entry.closed
  split
  · show ¬ (EpochState.sealing == EpochState.opened) = true
    decide
  · rename_i h
    rwa [beq_iff_eq]

theorem State.becomeSealed_openBackLink (s : State) (e n : EpochNo) :
    (s.becomeSealed e).openBackLink n = s.openBackLink n := by
  have hfilter : (s.becomeSealed e).ec.table.filter (fun x => x.number != n) =
      (s.ec.table.filter (fun x => x.number != n)).map (fun x => if x.number == e then s.sealedEntry e x else x) := by
    rw [State.becomeSealed_table, List.filter_map]
    congr 2
    funext y
    dsimp only [Function.comp]
    split <;> rfl
  unfold State.openBackLink
  rw [hfilter, List.getLast?_map]
  cases (s.ec.table.filter (fun x => x.number != n)).getLast? with
  | none => rfl
  | some y =>
    show (if y.number == e then s.sealedEntry e y else y).openLine = y.openLine
    split <;> rfl

/-! ## The acknowledgment, case by case -/

/-- SEAL_WRITE_ACK for the SEALING epoch `e` of entry `x`, with `o` OPEN, outside of CLOSING. -/
structure State.AcksSeal (s : State) (p : PortIx) (l : Nat) (e : EpochNo) (x o : Entry) : Prop where
  out     : s.Outstanding p (.sealWrite l e)
  bridge  : s.ec.bridge ≠ .closing
  numbers : s.NumbersOk
  entry   : s.entry? e = some x
  state   : x.state = .sealing
  opened  : s.openEntry? = some o

/-- The event of the epoch that becomes SEALED. -/
def Entry.sealedEvent (x : Entry) (e : EpochNo) : Event :=
  { code := .epochSealed, epoch := some e, arg := BitVec.ofNat 32 x.undos }

/-- What the SEALED mark finds and leaves of the table. -/
theorem State.AcksSeal.facts {s : State} {p : PortIx} {l : Nat} {e : EpochNo} {x o : Entry} (h : s.AcksSeal p l e x o) :
    ((s.begin.freePort p).becomeSealed e).eq = s.eq.raise (x.sealedEvent e) ∧
    ((s.begin.freePort p).becomeSealed e).entry? e = some ((s.begin.freePort p).sealedEntry e x) ∧
    ((s.begin.freePort p).becomeSealed e).openEpoch? = some o.number ∧
    ((s.begin.freePort p).becomeSealed e).entry? o.number = some o ∧ ((s.begin.freePort p).becomeSealed e).NumbersOk := by
  obtain ⟨-, -, hn, hx, hs, ho⟩ := h
  let v : State := s.begin.freePort p
  have hxv : v.entry? e = some x := hx
  have hwo : (v.becomeSealed e).openEntry? = some o := (State.becomeSealed_openEntry? (s := v) hn hxv hs).trans ho
  refine ⟨congrArg (fun ev => s.eq.raise ev) (State.sealedEvent_of hxv), State.becomeSealed_entry? hxv, ?_,
    (v.becomeSealed_entry?_other (numbers_distinct hn hx hs ho)).trans (State.entry?_of_mem hn (State.openEntry?_mem ho)), ?_⟩
  · rw [State.openEpoch?, hwo]
    rfl
  · have hnum : (v.becomeSealed e).ec.table.map (·.number) = s.ec.table.map (·.number) :=
      State.setEntry_numbers v e (f := v.sealedEntry e) (fun _ => rfl)
    rw [State.NumbersOk, hnum]
    exact hn

/-- With room for the OPEN record, and without a commit (R98, R99). -/
theorem State.AcksSeal.taken {s : State} {p : PortIx} {l : Nat} {e : EpochNo} {x o : Entry} (h : s.AcksSeal p l e x o)
    (data : List Byte) (job : SealJob) (hbr : x.broken = none) (hj : s.jw.sealJob = some job) (hf : 1 ≤ s.free)
    (hd : s.sealedCount < s.ec.retention ∨ s.ec.bridge = .rolling) (hlen : s.ec.table.length < 64) :
    ∃ (u : State) (evs : List Event), exec (.sealWriteAck p (.ok data)) s = .next u.settle ∧
      u.eq = (s.eq.raise (x.sealedEvent e)).raiseAll evs ∧
      (∃ y, u.entry? e = some y ∧ y.state = .sealed ∧ y.endLine = some job.after ∧ y.sigs = some job.sigs ∧
        y.undos = x.undos ∧ y.written = ((s.bank? e).map Bank.writtenSet).getD x.written) ∧
      (∃ z, u.entry? o.number = some z ∧ z.openLine = some s.jw.head ∧
        z.state = if s.ec.pending then .sealing else .opened) ∧
      u.jw.head = (s.jw.head + 1) % s.ringLines ∧ u.jw.tail = s.jw.tail ∧ u.jw.sealJob = none ∧ u.ec.pending = false ∧
      u.re = s.re ∧ s.SameAround u ∧ u.da.slots = s.da.slots.set p none ∧
      ((s.holdsBack = false → u.da.sealWriter = s.da.sealWriter ++ [.openRec s.jw.head o.number (s.openBackLink o.number)] ∧
          u.da.heldSealWriter = s.da.heldSealWriter) ∧
        (s.holdsBack = true → u.da.sealWriter = s.da.sealWriter ∧
          u.da.heldSealWriter = s.da.heldSealWriter ++ [.openRec s.jw.head o.number (s.openBackLink o.number)])) ∧
      (∀ y ∈ u.iq.slots, y.epoch = some o.number → y.atPoint = false) ∧
      (s.ec.pending = false → u.ec = { s.ec with table := u.ec.table } ∧ u.wu = s.wu ∧ u.su = s.su ∧
        u.ec.table.map (·.number) = s.ec.table.map (·.number)) ∧
      (s.ec.pending = true → u.ec.closing = false) ∧
      (s.ec.pending = true → s.ec.closing = false → u.ec.bridge = s.ec.bridge ∧
        u.openEpoch? = some (o.number + 1#32) ∧ u.cu.touched = []) ∧
      (s.ec.pending = true → s.ec.closing = true → u.ec.bridge = .closing ∧ u.openEntry? = none ∧
        u.cu.touched = [] ∧ u.ec.timer = none) := by
  obtain ⟨hout, hb, hn, hx, hs, ho⟩ := id h
  let v : State := s.begin.freePort p
  obtain ⟨hev, hwx, hwn, hwoe, hnumbers⟩ := h.facts
  have hxv : v.entry? e = some x := hx
  have hnx := State.entry?_number hx
  have hos := State.openEntry?_state ho
  have hne : o.number ≠ e := numbers_distinct hn hx hs ho
  have hw1 : 1 ≤ (v.becomeSealed e).free := by rw [State.becomeSealed_free]; exact hf
  have hroom := State.sealing_inRoom hwx hbr hwn hw1 (by
    rw [State.becomeSealed_sealedCount (s := v) hn hxv hs]
    exact hd.elim .inr .inl)
  have hwithin := (v.becomeSealed e).completeSeal_within e
  have hsame : s.SameAround ((v.becomeSealed e).completeSeal e) :=
    ((v.becomeSealed_within e).trans hwithin).sameAround (s.freePort_sameAround p)
  have hrow : exec (.sealWriteAck p (.ok data)) s = .next ((v.becomeSealed e).completeSeal e).settle := by
    rw [exec_sealWriteAck hout, State.faultOnError_ok]
    exact congrArg (fun t : State => Host.Outcome.next t.settle) (State.ackSeal_seals (v := v) hb e)
  obtain ⟨evs, hevs⟩ := hwithin.events
  rw [hev] at hevs
  rw [State.completeSeal_eq] at hevs hrow hsame
  have hback : (v.becomeSealed e).openBackLink o.number = s.openBackLink o.number := v.becomeSealed_openBackLink e o.number
  have hholds : (v.becomeSealed e).holdsBack = s.holdsBack := State.holdsBack_freePort_of (s := s.begin) hout rfl
  have hsec : (v.becomeSealed e).ec = { s.ec with table := (v.becomeSealed e).ec.table } := rfl
  generalize hw : v.becomeSealed e = w at *
  generalize w.sealing e = b at *
  obtain ⟨hfin, htends, hda, hmarks⟩ := hroom
  have hbec : b.ec = { s.ec with table := b.ec.table } := by rw [htends.ec, hsec]
  have hnum : b.ec.table.map (·.number) = s.ec.table.map (·.number) := by
    rw [hfin.numbers, w.placeOpen_numbers o.number, ← hw]
    exact State.setEntry_numbers v e (f := v.sealedEntry e) (fun _ => rfl)
  have hblen : b.ec.table.length < 64 := by
    have := congrArg List.length hnum
    rw [List.length_map, List.length_map] at this
    rw [this]
    exact hlen
  have hbopen : b.openEpoch? = some o.number := by
    rw [hfin.marks.openEpoch?, w.placeOpen_openEpoch?, hwn]
  have hends := State.takePending_ends hbopen hblen hmarks
  have hpend : b.ec.pending = s.ec.pending := by rw [hbec]
  have hclose : b.ec.closing = s.ec.closing := by rw [hbec]
  obtain ⟨u, hserved, hunmarked⟩ := hends.marks.unmarked
  have hsettle : u.settle = b.takePending.settle := State.settle_of_serve hserved.serve
  have hue : u.ec = b.takePending.ec := by rw [hserved.same]
  have hucu : u.cu = b.takePending.cu := by rw [hserved.same]
  have huj : u.jw = b.jw := by rw [hserved.same]; exact hends.jw
  have hud : u.da = b.da := by rw [hserved.same]; exact hends.da
  have huentry (k : EpochNo) : u.entry? k = b.takePending.entry? k := State.entry?_of_table (by rw [hue]) k
  have hwhead : w.jw.head = s.jw.head := by rw [← hw]; rfl
  have hwda : w.da = { s.da with slots := w.da.slots } := by rw [← hw]; rfl
  have hrecord : RecordReq.openRec w.jw.head o.number (w.openBackLink o.number) =
      .openRec s.jw.head o.number (s.openBackLink o.number) := by rw [hwhead, hback]
  obtain ⟨y, hy, hyx⟩ := hfin.marks.entry? ((w.placeOpen_entry?_other (Ne.symm hne)).trans hwx)
  obtain ⟨z, hz, hzo⟩ := hfin.marks.entry? (State.placeOpen_entry? hwoe)
  have hys : y.state = .sealed := (Entry.unmarked_state hyx).trans rfl
  have hfield {α : Type} (f : Entry → α) (hf : ∀ a, f a.unmarked = f a) {a c : Entry} (h : a.unmarked = c.unmarked) :
      f a = f c := by rw [← hf a, h, hf c]
  refine ⟨u, evs, by rw [hrow, hsettle], ?_, ⟨y, ?_, hys, ?_, ?_, ?_, ?_⟩, ⟨if b.ec.pending then z.closed else z, ?_, ?_, ?_⟩,
    ?_, ?_, ?_, ?_, ?_, hserved.around hsame, ?_, ⟨?_, ?_⟩, hunmarked, ?_, ?_, ?_, ?_⟩
  · rw [hserved.same]
    exact hevs
  · rw [huentry, hends.entry e y hy, Entry.closed_of (by rw [hys]; decide), ite_self]
  · exact (hfield (·.endLine) (fun _ => rfl) hyx).trans (State.sealedEntry_endLine (s := v) hj e x)
  · refine (hfield (·.sigs) (fun _ => rfl) hyx).trans ?_
    show some ((s.jw.sealJob.map (·.sigs)).getD []) = _
    rw [hj]
    rfl
  · exact (hfield (·.undos) (fun _ => rfl) hyx).trans rfl
  · exact (hfield (·.written) (fun _ => rfl) hyx).trans rfl
  · rw [huentry, hends.entry o.number z hz]
  · have hline : z.openLine = some s.jw.head := by
      rw [← hwhead]
      exact (hfield (·.openLine) (fun _ => rfl) hzo).trans rfl
    split
    · exact z.closed_openLine.trans hline
    · exact hline
  · have hopened : z.state = .opened := (Entry.unmarked_state hzo).trans hos
    rw [hpend]
    split
    · exact Entry.closed_opened hopened
    · exact hopened
  · rw [huj, hfin.head, w.placeOpen_head o.number, ← hw]
    rfl
  · rw [huj, hfin.tail, w.placeOpen_tail o.number, ← hw]
    rfl
  · rw [huj, htends.job, ← hw]
    rfl
  · rw [hue, hends.pending]
  · rw [hserved.same]
    exact hends.re.trans (htends.re.trans (by rw [← hw]; rfl))
  · rw [hud, htends.slots, ← hw]
    rfl
  · intro hheld
    rw [hud, hda, State.recordDa_ready (hholds.trans hheld)]
    exact ⟨by rw [hrecord, hwda], by rw [hwda]⟩
  · intro hheld
    rw [hud, hda, State.recordDa_held (hholds.trans hheld)]
    exact ⟨by rw [hwda], by rw [hrecord, hwda]⟩
  · intro hp
    have hself : b.takePending = b := State.takePending_none (hpend.trans hp)
    rw [hself] at hue hserved
    refine ⟨by rw [hue]; exact hbec, ?_, ?_, by rw [hue]; exact hnum⟩
    · rw [hserved.same]
      exact htends.wu.trans (by rw [← hw]; rfl)
    · rw [hserved.same]
      exact htends.su.trans (by rw [← hw]; rfl)
  · intro hp
    rw [hue]
    cases hc : b.ec.closing with
    | false => exact (State.takePending_boundary (hpend.trans hp) hc hbopen hblen).1.closing
    | true => exact (State.takePending_closing (hpend.trans hp) hc).1.closing
  · intro hp hc
    obtain ⟨ht, hbridge⟩ := State.takePending_boundary (hpend.trans hp) (hclose.trans hc) hbopen hblen
    refine ⟨by rw [hue, hbridge, hbec], ?_, by rw [hucu, ht.cu]⟩
    rw [State.openEpoch?, State.openEntry?, hue, ht.table, List.find?_append, find?_opened_closed]
    rfl
  · intro hp hc
    obtain ⟨ht, hbridge, htimer⟩ := State.takePending_closing (hpend.trans hp) (hclose.trans hc)
    refine ⟨by rw [hue, hbridge], ?_, by rw [hucu, ht.cu], by rw [hue, htimer]⟩
    rw [State.openEntry?, hue, ht.table, List.append_nil, find?_opened_closed]

/-- The commit for depth (R101). -/
theorem State.AcksSeal.depth {s : State} {p : PortIx} {l : Nat} {e : EpochNo} {x o : Entry} (h : s.AcksSeal p l e x o)
    (data : List Byte) {y : Entry} {rest : List Entry} {line : Nat} (hbr : x.broken = none) (hf : 1 ≤ s.free)
    (hr : s.ec.bridge ≠ .rolling) (hp : s.ec.pending = false) (hd : s.ec.retention ≤ s.sealedCount)
    (ht : s.ec.table = y :: rest) (hy : y.state = .sealed) (hl : y.endLine = some line) :
    ∃ (u : State) (evs : List Event), exec (.sealWriteAck p (.ok data)) s = .next u.settle ∧
      u.eq = (s.eq.raise (x.sealedEvent e)).raiseAll evs ∧
      evs.filter (fun ev => ev.code = .epochCommitted) = [y.committed .depth] ∧
      u.ec.table.map (·.number) = rest.map (·.number) ∧ u.jw.tail = line ∧
      u.ec = { s.ec with table := u.ec.table } ∧ s.SameAround u ∧ u.re = s.re ∧ u.wu = s.wu ∧ u.su = s.su := by
  obtain ⟨hout, hb, hn, hx, hs, ho⟩ := id h
  let v : State := s.begin.freePort p
  obtain ⟨hev, hwx, hwn, hwoe, hnumbers⟩ := h.facts
  have hxv : v.entry? e = some x := hx
  have hnx := State.entry?_number hx
  have hos := State.openEntry?_state ho
  obtain ⟨hrow, hq⟩ := exec_sealWriteAck_ok hout hb hp data
  have hye : s.entry? y.number = some y := State.entry?_of_mem hn (by rw [ht]; exact List.mem_cons_self)
  have hyn : y.number ≠ e := fun h => by
    rw [h, hx] at hye
    obtain rfl := Option.some.inj hye
    exact absurd (hs.symm.trans hy) (by decide)
  have hyo : y.number ≠ o.number := fun h => by
    rw [h, State.entry?_of_mem hn (State.openEntry?_mem ho)] at hye
    obtain rfl := Option.some.inj hye
    exact absurd (hos.symm.trans hy) (by decide)
  have htab : (v.becomeSealed e).ec.table = y :: rest.map (fun z => if z.number == e then v.sealedEntry e z else z) := by
    rw [State.becomeSealed_table]
    show s.ec.table.map _ = _
    rw [ht, List.map_cons, if_neg (by simpa using hyn)]
  obtain ⟨hnum, htail, evs, heq, hfilter⟩ := State.sealing_depth hwx hbr hwn (by rw [State.becomeSealed_free]; exact hf) hr
    (by rw [State.becomeSealed_sealedCount (s := v) hn hxv hs]; exact Nat.lt_succ_of_le hd) htab hy hyo hl
  refine ⟨_, evs, hrow, by rw [heq, hev], hfilter, hnum.trans ?_, htail, hq.ec, hq.same, hq.re, hq.wu, hq.su⟩
  rw [List.map_map]
  refine List.map_congr_left (fun z _ => ?_)
  dsimp only [Function.comp]
  split <;> rfl

/-- A broken epoch (R98). -/
theorem State.AcksSeal.broken {s : State} {p : PortIx} {l : Nat} {e : EpochNo} {x o : Entry} (h : s.AcksSeal p l e x o)
    (data : List Byte) {job : SealJob} {old rest : List Entry} (hbr : x.broken.isSome)
    (hj : s.jw.sealJob = some job) (ha : job.after = s.jw.head) (hring : 2 ≤ s.ringLines) (hp : s.ec.pending = false)
    (ht : s.ec.table = old ++ x :: rest) (hold : ∀ y ∈ old, y.state = .sealed) (hrest : ∀ y ∈ rest, y.state ≠ .sealed) :
    ∃ (u : State) (evs : List Event), exec (.sealWriteAck p (.ok data)) s = .next u.settle ∧
      u.eq = (s.eq.raise (x.sealedEvent e)).raiseAll evs ∧
      evs.filter (fun ev => ev.code = .epochCommitted) = (old ++ [x]).map (Entry.committed · .broken) ∧
      u.ec.table.map (·.number) = rest.map (·.number) ∧ u.jw.tail = s.jw.head ∧
      u.jw.head = (s.jw.head + 1) % s.ringLines ∧ (∃ z, u.entry? o.number = some z ∧ z.openLine = some s.jw.head) ∧
      u.ec = { s.ec with table := u.ec.table } ∧ s.SameAround u ∧ u.re = s.re ∧ u.wu = s.wu ∧ u.su = s.su := by
  obtain ⟨hout, hb, hn, hx, hs, ho⟩ := id h
  let v : State := s.begin.freePort p
  obtain ⟨hev, hwx, hwn, hwoe, hnumbers⟩ := h.facts
  have hxv : v.entry? e = some x := hx
  have hnx := State.entry?_number hx
  have hos := State.openEntry?_state ho
  obtain ⟨hrow, hq⟩ := exec_sealWriteAck_ok hout hb hp data
  have htab := State.becomeSealed_split (s := v) hn ht hnx
  have hspec := State.sealing_broken htab hnumbers hold rfl hbr (State.sealedEntry_endLine (s := v) hj e x) ha hrest
    hring hwn hwoe hos
  rw [show (v.sealedEntry e x).number = e from hnx] at hspec
  obtain ⟨hnum, htail, hhead, hopen, evs, heq, hfilter⟩ := hspec
  refine ⟨_, evs, hrow, by rw [heq, hev], hfilter.trans ?_, hnum, htail, hhead, hopen, hq.ec, hq.same, hq.re, hq.wu, hq.su⟩
  rw [List.map_append, List.map_append]
  rfl

/-- An OPEN record that finds no room (R49, R130). -/
theorem State.AcksSeal.refused {s : State} {p : PortIx} {l : Nat} {e : EpochNo} {x o : Entry} (h : s.AcksSeal p l e x o)
    (data : List Byte) {job : SealJob} {old rest : List Entry} (hbr : x.broken = none)
    (hj : s.jw.sealJob = some job) (ha : job.after = s.jw.head) (hf : s.free = 0) (hp : s.ec.pending = false)
    (ht : s.ec.table = old ++ x :: rest) (hold : ∀ y ∈ old, y.state = .sealed) (hrest : ∀ y ∈ rest, y.state ≠ .sealed) :
    ∃ (u : State) (evs : List Event), exec (.sealWriteAck p (.ok data)) s = .next u.settle ∧
      evs.filter (fun ev => ev.code = .epochCommitted) = (old ++ [x]).map (Entry.committed · .suspend) ∧
      (s.jw.pressure ≠ .suspended → ∃ evs', u.eq = (((s.eq.raise (x.sealedEvent e)).raiseAll evs).raise
        { code := .suspendedEntered, epoch := some o.number,
          arg := packBytes Reason.pressure.code (old.length + 1) 0 s.jw.pressure.code }).raiseAll evs') ∧
      (s.jw.pressure = .suspended → ∃ evs', u.eq = ((s.eq.raise (x.sealedEvent e)).raiseAll evs).raiseAll evs' ∧
        ∀ ev ∈ evs', ev.code ≠ .suspendedEntered) ∧
      (∃ z, u.entry? o.number = some z ∧ z.broken = some (o.broken.getD .pressure) ∧ z.openLine = some s.jw.head) ∧
      u.ec.table.map (·.number) = rest.map (·.number) ∧ u.jw.tail = s.jw.head ∧
      u.jw.head = (s.jw.head + 1) % s.ringLines ∧ u.ec = { s.ec with table := u.ec.table } ∧ s.SameAround u ∧ u.re = s.re ∧ u.wu = s.wu ∧ u.su = s.su := by
  obtain ⟨hout, hb, hn, hx, hs, ho⟩ := id h
  let v : State := s.begin.freePort p
  obtain ⟨hev, hwx, hwn, hwoe, hnumbers⟩ := h.facts
  have hxv : v.entry? e = some x := hx
  have hnx := State.entry?_number hx
  have hos := State.openEntry?_state ho
  obtain ⟨hrow, hq⟩ := exec_sealWriteAck_ok hout hb hp data
  have htab := State.becomeSealed_split (s := v) hn ht hnx
  obtain ⟨hnum, htail, hhead, hopen, hfresh, hagain⟩ := State.sealing_refused (w := v.becomeSealed e) hwx hbr
    (by rw [htab, List.append_assoc]; rfl)
    (fun y hy => (List.mem_append.1 hy).elim (hold y) (fun hxy => List.mem_singleton.1 hxy ▸ rfl))
    ((State.sealedEntry_endLine (s := v) hj e x).trans (congrArg some ha)) hrest
    (by rw [State.becomeSealed_free]; exact hf) hwn hwoe (by rw [hos]; decide)
  have hevents : (old ++ [v.sealedEntry e x]).map (Entry.committed · .suspend) = (old ++ [x]).map (Entry.committed · .suspend) := by
    rw [List.map_append, List.map_append]
    rfl
  rw [hev, hevents] at hfresh hagain
  refine ⟨_, (old ++ [x]).map (Entry.committed · .suspend), hrow, ?_, fun hp' => ?_, fun hp' => hagain hp',
    ⟨_, hopen, rfl, rfl⟩, hnum, htail, hhead, hq.ec, hq.same, hq.re, hq.wu, hq.su⟩
  · refine List.filter_eq_self.2 (fun ev hev => ?_)
    obtain ⟨y, -, rfl⟩ := List.mem_map.1 hev
    rfl
  · exact hfresh hp'

/-- SUSPENDED, with recovery or without (R133). -/
theorem State.AcksSeal.suspended {s : State} {p : PortIx} {l : Nat} {e : EpochNo} {x o : Entry} (h : s.AcksSeal p l e x o)
    (data : List Byte) (hps : s.jw.pressure = .suspended) (hp : s.ec.pending = false) :
    ∃ (u : State) (evs : List Event), exec (.sealWriteAck p (.ok data)) s = .next u.settle ∧
      (u.used < u.percent 50 → u.jw.pressure = .normal ∧ u.jw.reason = none ∧
        u.eq = ((s.eq.raise (x.sealedEvent e)).raiseAll evs).raise
          { code := .suspendedLeft, epoch := u.openEpoch?, arg := BitVec.ofNat 32 u.used }) ∧
      (u.percent 50 ≤ u.used → u.jw.pressure = .suspended ∧ u.jw.reason = s.jw.reason ∧
        u.eq = (s.eq.raise (x.sealedEvent e)).raiseAll evs) ∧
      (∀ ev ∈ evs, ev.code ≠ .suspendedLeft) ∧ s.SameAround u ∧ u.re = s.re ∧ u.wu = s.wu ∧ u.su = s.su := by
  obtain ⟨hev, -⟩ := h.facts
  let v : State := s.begin.freePort p
  obtain ⟨hrow, hq⟩ := exec_sealWriteAck_ok h.out h.bridge hp data
  obtain ⟨h1, h2, evs, heq, hl⟩ := (v.becomeSealed e).beforeRecovery_stays e hps
  have hseal : (v.becomeSealed e).sealing e = ((v.becomeSealed e).beforeRecovery e).recover := rfl
  rw [hseal] at hrow hq
  obtain ⟨hleave, hstay⟩ := State.recover_spec h1
  rw [heq, hev] at hleave
  refine ⟨_, evs, hrow, hleave, fun hle => ?_, hl, hq.same, hq.re, hq.wu, hq.su⟩
  rw [hstay hle]
  exact ⟨h1, h2, heq.trans (by rw [hev])⟩

/-- A media fault of the SEAL write (R98, R170). -/
theorem State.AcksSeal.error {s : State} {p : PortIx} {l : Nat} {e : EpochNo} {x o : Entry} (h : s.AcksSeal p l e x o)
    {old rest : List Entry} (ht : s.ec.table = old ++ x :: rest) (hold : ∀ y ∈ old, y.state = .sealed)
    (hrest : ∀ y ∈ rest, y.state ≠ .sealed) (hp : s.ec.pending = false) :
    ∃ (u : State) (evs : List Event), exec (.sealWriteAck p .error) s = .next u.settle ∧
      u.eq = (s.eq.raise { code := .mediaFault, epoch := some e,
                           arg := (4#4 ++ BitVec.ofNat 28 l : BitVec 32) }).raiseAll evs ∧
      u.ec = { s.ec with table := u.ec.table } ∧ u.ec.table.map (·.number) = rest.map (·.number) ∧ s.SameAround u ∧
      u.re = s.re ∧ u.wu = s.wu ∧ u.su = s.su ∧ u.da.slots = s.da.slots.set p none := by
  obtain ⟨hout, hb, hn, hx, hs, ho⟩ := h
  have hnx := State.entry?_number hx
  let f : State := s.begin.freePort p
  obtain ⟨hrow, hq⟩ := exec_sealWriteAck_clear (res := .error) hout hb hp rfl
  rw [State.faultOnError_error] at hrow hq
  obtain ⟨hbreaks, -, evs, heq⟩ := State.recordFault_spec (s := f) rfl l e .sealWrite
  obtain ⟨a, y, r, htab, ha, hy, hr, hsub⟩ := State.recordFault_split (s := f) ht hold (by rw [hs]; decide) hrest l e
    .sealWrite
  have hfault := f.recordFault_calm l e .sealWrite
  generalize f.recordFault l e .sealWrite = u at *
  have hun : u.NumbersOk := List.Nodup.sublist hsub hn
  have hye : y.number = e := (Entry.unmarked_number hy).trans hnx
  have hyu : y ∈ u.ec.table := by rw [htab]; exact List.mem_append_right _ List.mem_cons_self
  have hyb : y.broken.isSome := by
    have hfound := State.entry?_of_mem hun hyu
    rw [hye, hbreaks x hx (by rw [hs]; decide)] at hfound
    rw [← Option.some.inj hfound]
    rfl
  have hwn' : (u.becomeSealed e).NumbersOk := by
    have h : (u.becomeSealed e).ec.table.map (·.number) = u.ec.table.map (·.number) :=
      State.setEntry_numbers u e (f := u.sealedEntry e) (fun _ => rfl)
    rw [State.NumbersOk, h]
    exact hun
  have hleaves := State.sealing_leaves (State.becomeSealed_split hun htab hye) hwn' ha rfl hyb
    (forall_state_unmarked (P := (· ≠ .sealed)) hr hrest)
  rw [show (u.sealedEntry e y).number = e from hye] at hleaves
  have hwithin := u.ackSeal_within e
  rw [State.ackSeal_clear (by rw [hfault.ec]; exact hb) (by rw [hfault.ec]; exact hp)] at hwithin
  obtain ⟨evs', heq'⟩ := hwithin.events
  refine ⟨_, evs ++ evs', hrow, ?_, hq.ec, hleaves.trans (numbers_unmarked hr), hq.same, hq.re, hq.wu, hq.su, hq.ports⟩
  rw [heq', heq, EventQueue.raiseAll_append]
  rfl

/-- Settles O34: the epoch is SEALED, commits follow, the next OPEN record is placed, a pending boundary is taken. -/
theorem sealWriteAck : Obligations.SealWriteAck := by
  unfold Obligations.SealWriteAck
  intro s p l e x o hout hb hn hx hs ho sealed committed
  have h : s.AcksSeal p l e x o := ⟨hout, hb, hn, hx, hs, ho⟩
  exact ⟨fun data job hbr hj _ hf hd hlen => h.taken data job hbr hj hf hd hlen,
    fun data _ _ _ _ hbr _ hf hr hp hd ht hy hl => h.depth data hbr hf hr hp hd ht hy hl,
    fun data _ _ _ hbr hj ha hring hp ht hold hrest => h.broken data hbr hj ha hring hp ht hold hrest,
    fun data _ _ _ hbr hj ha _ hf hp ht hold hrest => h.refused data hbr hj ha hf hp ht hold hrest,
    fun data hps _ hp => h.suspended data hps hp,
    fun _ _ ht hold hrest hp => h.error ht hold hrest hp⟩

end Sys2Proof.Machine

/-! The release into JOURNALING (R14, R63): what the assignment of the released writes leaves. -/
namespace Sys2Proof.Machine

/-! ## The frame -/

/-- An entry but for its mark and its overflow count. -/
def Entry.uncounted (y : Entry) : Entry := { y with broken := none, overflow := 0 }

/-- What assignments to the OPEN epoch change: of the records the assignment and the marking, the touched set, marks and overflow
counts, accepted flags and the quiet windows, which wake. -/
structure Assigns (s t : State) : Prop where
  frame  : t = { s with
    iq := { s.iq with slots := t.iq.slots }
    cu := { s.cu with touched := t.cu.touched }
    ec := { s.ec with table := t.ec.table }
    su := t.su
    eq := t.eq }
  slots  : t.iq.slots.map Slot.unassigned = s.iq.slots.map Slot.unassigned
  table  : t.ec.table.map Entry.uncounted = s.ec.table.map Entry.uncounted
  banks  : t.su.openBank.epoch = s.su.openBank.epoch
  awake  : ∀ i : WinIx, (s.su.quiet[i]).dormant = false → (t.su.quiet[i]).dormant = false
  events : ∃ evs, t.eq = s.eq.raiseAll evs

theorem Assigns.refl (s : State) : Assigns s s := ⟨rfl, rfl, rfl, rfl, fun _ h => h, [], rfl⟩

theorem Assigns.trans {s t u : State} (h : Assigns s t) (k : Assigns t u) : Assigns s u where
  frame := by
    refine k.frame.trans ?_
    rw [h.frame]
  slots := k.slots.trans h.slots
  table := k.table.trans h.table
  banks := k.banks.trans h.banks
  awake := fun i hi => k.awake i (h.awake i hi)
  events := by
    obtain ⟨a, ha⟩ := h.events
    obtain ⟨b, hb⟩ := k.events
    exact ⟨a ++ b, by rw [hb, ha, EventQueue.raiseAll_append]⟩

theorem Assigns.mapSlots (s : State) {f : Slot → Slot} (hf : ∀ x, (f x).unassigned = x.unassigned) :
    Assigns s (s.mapSlots f) where
  frame := rfl
  slots := by
    rw [State.mapSlots_iq, List.map_map]
    exact List.map_congr_left (fun x _ => hf x)
  table := rfl
  banks := rfl
  awake := fun _ h => h
  events := ⟨[], rfl⟩

theorem Assigns.setSlot (s : State) (q : SlotIx) {f : Slot → Slot} (hf : ∀ x, (f x).unassigned = x.unassigned) :
    Assigns s (s.setSlot q f) :=
  .mapSlots s (f := fun x => if x.ix == q then f x else x) (fun x => by
    split
    · exact hf x
    · rfl)

theorem Assigns.setEntry (s : State) (e : EpochNo) {f : Entry → Entry} (hf : ∀ y, (f y).uncounted = y.uncounted) :
    Assigns s (s.setEntry e f) where
  frame := rfl
  slots := rfl
  table := by
    rw [State.setEntry_ec, List.map_map]
    refine List.map_congr_left (fun y _ => ?_)
    dsimp only [Function.comp]
    split
    · exact hf y
    · rfl
  banks := rfl
  awake := fun _ h => h
  events := ⟨[], rfl⟩

theorem State.markBroken_assigns (s : State) (e : EpochNo) (r : Reason) : Assigns s (s.markBroken e r) := by
  unfold State.markBroken
  split
  · exact .refl s
  · refine (Assigns.setEntry s e (f := Entry.mark r) (fun _ => rfl)).trans (.mapSlots _ (fun x => ?_))
    split <;> rfl

theorem State.raise_assigns (s : State) (ev : Event) : Assigns s (s.raise ev) := ⟨rfl, rfl, rfl, rfl, fun _ h => h, [ev], rfl⟩

theorem State.takeDuty_assigns (s : State) (x : Slot) (e : EpochNo) : Assigns s (s.takeDuty x e) := by
  unfold State.takeDuty
  split
  · exact .setSlot s _ (fun _ => rfl)
  · exact (Assigns.setSlot s _ (f := fun z => { z with marking := some .noCapture, duty := false }) (fun _ => rfl)).trans
      (.setSlot _ _ (fun _ => rfl))

theorem State.touch_assigns (s : State) (g : Granule) :
    Assigns s { s with cu := { s.cu with touched := g :: s.cu.touched } } :=
  ⟨rfl, rfl, rfl, rfl, fun _ h => h, [], rfl⟩

theorem State.overflowLookup_assigns (s : State) (x : Slot) (e : Entry) : Assigns s (s.overflowLookup x e) := by
  have hmark : Assigns s ((s.setEntry e.number (fun y => { y with overflow := satInc Config.overflowMax y.overflow })).setSlot x.ix
      (fun z => { z with marking := some .captureDup })) :=
    (Assigns.setEntry s e.number (f := fun y => { y with overflow := satInc Config.overflowMax y.overflow })
      (fun _ => rfl)).trans (.setSlot _ _ (fun _ => rfl))
  unfold State.overflowLookup
  dsimp only
  split
  · exact hmark.trans (State.raise_assigns _ _)
  · exact hmark

theorem State.lookup_assigns (s : State) (x : Slot) (e : Entry) : Assigns s (s.lookup x e) := by
  unfold State.lookup
  split
  · exact s.takeDuty_assigns x _
  · split
    · exact (s.touch_assigns x.granule).trans (.setSlot _ _ (fun _ => rfl))
    · exact s.overflowLookup_assigns x e

theorem State.markWrite_assigns (s : State) (x : Slot) (e : Entry) : Assigns s (s.markWrite x e) := by
  unfold State.markWrite
  dsimp only
  split
  · exact (s.markBroken_assigns _ _).trans (.setSlot _ _ (fun _ => rfl))
  · split
    · exact .setSlot s _ (fun _ => rfl)
    · exact s.lookup_assigns x e

theorem State.setBank_epoch (s : State) (e : EpochNo) (i : WinIx) (f : BankEntry → BankEntry) :
    (s.setBank e (fun b => b.update i f)).su.openBank.epoch = s.su.openBank.epoch := by
  unfold State.setBank
  split
  · rfl
  · split <;> rfl

theorem State.takeWrite_epoch (s : State) (x : Slot) (e : EpochNo) :
    (s.takeWrite x e).su.openBank.epoch = s.su.openBank.epoch := by
  unfold State.takeWrite
  cases x.win with
  | none => rfl
  | some i =>
    dsimp only
    split <;> exact s.setBank_epoch e i _

theorem State.takeWrite_assigns (s : State) (x : Slot) (e : EpochNo) : Assigns s (s.takeWrite x e) := by
  have h := s.takeWrite_takes x e
  have hf := h.frame
  refine ⟨?_, by rw [hf], by rw [hf], s.takeWrite_epoch x e, fun i hi => ?_, _, h.events⟩
  · rw [hf]
  · by_cases hw : x.win = some i
    · rw [h.quiet i hw]
      split
      · rfl
      · exact hi
    · rw [(h.others i hw).1]
      exact hi

/-- The write in slot `q` with its epoch, taken for its window, before its marking. -/
def State.taken (s : State) (q : SlotIx) (x : Slot) (e : EpochNo) : State :=
  if x.outcome.isNone then (s.setSlot q (fun z => { z with epoch := some e })).takeWrite x e
  else s.setSlot q (fun z => { z with epoch := some e })

theorem State.taken_assigns (s : State) (q : SlotIx) (x : Slot) (e : EpochNo) : Assigns s (s.taken q x e) := by
  have hset : Assigns s (s.setSlot q (fun z => { z with epoch := some e })) := .setSlot s q (fun _ => rfl)
  unfold State.taken
  split
  · exact hset.trans (State.takeWrite_assigns _ x e)
  · exact hset

theorem State.assignWrite_of {s : State} {q : SlotIx} {x : Slot} {e : Entry} (hx : s.slot? q = some x)
    (he : s.openEntry? = some e) : s.assignWrite q = (s.taken q x e.number).markWrite x e := by
  unfold State.assignWrite
  rw [hx, he]
  rfl

theorem State.assignWrite_assigns (s : State) (q : SlotIx) : Assigns s (s.assignWrite q) := by
  cases hx : s.slot? q with
  | none =>
    unfold State.assignWrite
    rw [hx]
    exact .refl s
  | some x =>
    cases he : s.openEntry? with
    | none =>
      unfold State.assignWrite
      rw [hx, he]
      exact .refl s
    | some e =>
      rw [State.assignWrite_of hx he]
      exact (s.taken_assigns q x e.number).trans (State.markWrite_assigns _ x e)

theorem State.assignReleased_of {s : State} {q : SlotIx} {x : Slot} (hx : s.slot? q = some x) :
    s.assignReleased q = if x.isWrite = true ∧ x.epoch.isNone = true then s.assignWrite q else s := by
  unfold State.assignReleased
  rw [hx]

theorem State.assignReleased_assigns (s : State) (q : SlotIx) : Assigns s (s.assignReleased q) := by
  cases hx : s.slot? q with
  | none =>
    unfold State.assignReleased
    rw [hx]
    exact .refl s
  | some x =>
    rw [State.assignReleased_of hx]
    split
    · exact s.assignWrite_assigns q
    · exact .refl s

theorem State.assignAll_assigns (l : List SlotIx) (s : State) : Assigns s (l.foldl (fun t q => t.assignReleased q) s) := by
  induction l generalizing s with
  | nil => exact .refl s
  | cons q l ih => exact (s.assignReleased_assigns q).trans (ih _)

/-! ## The records released -/

/-- The record of a request released into JOURNALING, before its assignment. -/
def Slot.released (f : Slot → Slot) (x : Slot) : Slot := if x.state = .held then (f x).unheld else x

theorem State.releaseJournaling_eq (s : State) (f : Slot → Slot) : s.releaseJournaling f =
    s.heldSlots.foldl (fun t q => t.assignReleased q) (s.mapSlots (Slot.released f)) := rfl

theorem Assigns.state_of_mem {s t : State} (h : Assigns s t) {y : Slot} (hy : y ∈ t.iq.slots) :
    ∃ x ∈ s.iq.slots, y.unassigned = x.unassigned := by
  have hm : y.unassigned ∈ s.iq.slots.map Slot.unassigned := h.slots ▸ List.mem_map_of_mem hy
  obtain ⟨x, hx, hxy⟩ := List.mem_map.1 hm
  exact ⟨x, hx, hxy.symm⟩

theorem Slot.released_state {f : Slot → Slot} (hf : ∀ x, (f x).state = x.state) (x : Slot) :
    (x.released f).state ≠ .held := by
  unfold Slot.released
  split
  · rename_i h
    have hu : (f x).unheld = { f x with state := .waiting, holdEntry := none } := if_pos ((hf x).trans h)
    rw [hu]
    exact fun hh => SlotState.noConfusion hh
  · assumption

theorem State.releaseJournaling_notHeld (s : State) {f : Slot → Slot} (hf : ∀ x, (f x).state = x.state) :
    ∀ y ∈ (s.releaseJournaling f).iq.slots, y.state ≠ .held := by
  intro y hy
  rw [State.releaseJournaling_eq] at hy
  obtain ⟨x, hx, hxy⟩ := (State.assignAll_assigns _ _).state_of_mem hy
  obtain ⟨z, -, rfl⟩ := List.mem_map.1 (show x ∈ s.iq.slots.map _ from hx)
  have hstate : y.state = (z.released f).state := by
    show y.unassigned.state = _
    rw [hxy]
    rfl
  rw [hstate]
  exact z.released_state hf

end Sys2Proof.Machine

/-! The cut of a rollback: FINISH up to its releases (R145, R154). -/
namespace Sys2Proof.Machine

theorem State.evaluate_calmed {s : State} (h : s.jw.pressure ≠ .suspended) : s.evaluate.jw.pressure ≠ .suspended := by
  by_cases he : s.Evaluates
  · rw [(State.evaluate_pressure he).1]
    exact mt (State.evaluated_eq_suspended _).1 h
  · rw [State.evaluate_not he]
    exact h

/-- The entry of the epoch that a rollback opens, its OPEN record placed at line `o`. -/
def Entry.openedAt (n : EpochNo) (o : Nat) : Entry := { Entry.fresh n with openLine := some o }

/-- FINISH before its OPEN record is placed. -/
def State.cutTo (s : State) (t n : EpochNo) : State := (((s.cutHead t).cutTable t).clearTouched).addEpoch n

/-- FINISH before its releases. -/
def State.cut (s : State) (t n : EpochNo) : State :=
  ((((((s.cutTo t n).reserveOpen n).resetBanks).applyArmed (some n)).fillOpenBank (some n)).startTimer).commitExcess .rollback

/-- FINISH with its releases made and its event raised. -/
def State.finished (s : State) (t n : EpochNo) : State :=
  ((s.cut t n).releaseJournaling Slot.unassigned).raise
    { code := .rollbackDone, epoch := some t, arg := packCount s.re.applied s.re.discarded }

theorem State.finish_eq (s : State) (t : EpochNo) : s.finish t =
    { (s.finished t s.nextNumber).setBridge .journaling with re := (s.finished t s.nextNumber).re.ended } := by
  unfold State.finish State.finished State.cut State.cutTo
  rfl

/-- From `s` to `b` the ring and the table are cut back, and epoch `n` opens at line `o` behind `kept`. -/
structure State.Cuts (s b : State) (n : EpochNo) (o : Nat) (kept : List Entry) : Prop where
  ec      : b.ec = { s.ec with table := b.ec.table, timer := s.fullTimer }
  commits : ∃ old rest, kept ++ [Entry.openedAt n o] = old ++ rest ∧ (∀ y ∈ old, y.state = .sealed) ∧ b.ec.table = rest
  table   : kept.countP (fun y => y.state == .sealed) ≤ s.ec.retention →
              b.jw.tail = s.jw.tail ∧ b.ec.table = kept ++ [Entry.openedAt n o]
  head    : b.jw.head = (o + 1) % s.ringLines
  press   : s.jw.pressure ≠ .suspended → b.jw.pressure ≠ .suspended
  wu      : b.wu.active = s.activeNext ∧ b.wu.armed = false
  su      : b.su.openBank.epoch = some n ∧ ∀ i : WinIx, (b.su.openBank.entries[i]).accepted = false
  cu      : b.cu = { s.cu with touched := [] }
  re      : b.re = s.re
  da      : b.da = s.recordDa (.openRec o n ((kept.getLast?).bind (·.openLine)))
  slots   : b.iq.slots.map Slot.reexamined = s.iq.slots.map Slot.reexamined
  events  : ∃ evs, b.eq = s.eq.raiseAll evs

theorem State.recordDa_of_da {s t : State} (h : t.da = s.da) (w : RecordReq) : t.recordDa w = s.recordDa w := by
  unfold State.recordDa State.holdsBack State.anyPort
  rw [h]

theorem takeWhile_number_ne {l : List Entry} {t : EpochNo} : ∀ y ∈ l.takeWhile (fun y => y.number != t), y.number ≠ t :=
  fun y hy => by simpa using List.all_eq_true.1 List.all_takeWhile _ hy

theorem State.finish_cuts {s : State} {t n : EpochNo} {x : Entry} {o : Nat} {kept : List Entry}
    (hk : kept = s.ec.table.takeWhile (fun y => y.number != t)) (hx : s.entry? t = some x) (ho : x.openLine = some o)
    (hn : ∀ y ∈ kept, y.number ≠ n) (hr : o < s.ringLines)
    (hroom : (o + s.ringLines - s.jw.tail) % s.ringLines + 2 ≤ s.ringLines) : s.Cuts (s.cut t n) n o kept := by
  let h : State := { s with jw := { s.jw with head := o } }
  have hcut : s.cutHead t = h.evaluate := by
    unfold State.cutHead State.openLineOf
    rw [hx, Option.bind_some, ho]
    rfl
  have hcalm := h.evaluate_calm
  have hhead := h.evaluate_head
  have htail := h.evaluate_tail
  have hec := h.evaluate_ec
  have hpress : s.jw.pressure ≠ .suspended → h.evaluate.jw.pressure ≠ .suspended := State.evaluate_calmed (s := h)
  generalize hg : h.evaluate = g at hcut hcalm hhead htail hec hpress
  -- the table and the touched set are cut, and the new epoch stands behind what is kept
  let a : State := s.cutTo t n
  have ha : a = ((g.cutTable t).clearTouched).addEpoch n := congrArg (fun u : State => ((u.cutTable t).clearTouched).addEpoch n) hcut
  have hatable : a.ec.table = kept ++ [Entry.fresh n] := by
    rw [ha, hk]
    show g.ec.table.takeWhile _ ++ _ = _
    rw [hec]
  have hajw : a.jw = g.jw := by rw [ha]; rfl
  have haec : a.ec = { s.ec with table := a.ec.table } := by
    have hag : a.ec = { g.ec with table := a.ec.table } := by rw [ha]; rfl
    rw [hag, hec]
  have haring : a.ringLines = s.ringLines := by
    unfold State.ringLines
    rw [hajw, hcalm.jw]
  have hafree : 1 ≤ a.free := by
    have hused : a.used = (o + s.ringLines - s.jw.tail) % s.ringLines := by
      unfold State.used State.lineDist
      rw [haring, if_neg (by omega), hajw, hhead, htail]
    rw [State.free, haring, hused]
    omega
  have hopen : a.reserveOpen n = a.placeOpen n := State.reserveOpen_room hafree n
  have hahead : a.jw.head = o := by rw [hajw, hhead]
  -- the OPEN record is placed, and the banks and the timer start anew
  have hptable : (a.placeOpen n).ec.table = kept ++ [Entry.openedAt n o] := by
    have hself : kept.map (fun x => if x.number == n then { x with openLine := some a.jw.head } else x) = kept := by
      refine (List.map_congr_left (fun y hy => ?_)).trans (List.map_id kept)
      rw [if_neg (by simpa using hn y hy)]
      rfl
    rw [a.placeOpen_table n, hatable, List.map_append, hself, List.map_singleton,
      if_pos (show ((Entry.fresh n).number == n) = true from beq_self_eq_true n), hahead]
    rfl
  have hback : a.openBackLink n = (kept.getLast?).bind (·.openLine) := by
    have hfilter : (kept ++ [Entry.fresh n]).filter (fun x => x.number != n) = kept := by
      rw [List.filter_append, List.filter_cons_of_neg (by simp [Entry.fresh]), List.filter_nil, List.append_nil]
      exact List.filter_eq_self.2 (fun y hy => by simpa using hn y hy)
    rw [State.openBackLink, hatable, hfilter]
  obtain ⟨hpwu, hpcu, hpsu, hpre, -, -⟩ := a.placeOpen_frame n
  have hpec := a.placeOpen_ec n
  have hpda := a.placeOpen_da n
  have hphead := a.placeOpen_head n
  have hptail := a.placeOpen_tail n
  have hpslots : (a.placeOpen n).iq.slots.map Slot.reexamined = a.iq.slots.map Slot.reexamined := (a.placeOpen_sameMarks n).1
  have hppress : a.jw.pressure ≠ .suspended → (a.placeOpen n).jw.pressure ≠ .suspended := by
    rw [State.placeOpen_eq]
    exact State.evaluate_calmed (s := a.opening n)
  obtain ⟨pevs, hpev, -⟩ := a.placeOpen_levels n
  have hb : s.cut t n = (((((a.placeOpen n).resetBanks).applyFill (some n)).startTimer).commitExcess .rollback) := by
    rw [← hopen]
    rfl
  generalize a.placeOpen n = p at *
  obtain ⟨hfec, hfcu, hfiq, hfjw, hfre, hfda, -⟩ := p.resetBanks.applyFill_frame (some n)
  have hfwu := p.resetBanks.applyFill_wu (some n)
  have hfbank := p.resetBanks.applyFill_openBank (some n)
  obtain ⟨fevs, hfev, -⟩ := p.resetBanks.applyFill_events (some n)
  generalize p.resetBanks.applyFill (some n) = f at *
  obtain ⟨old, rest, htab, hold, hcom⟩ := State.commitN_some
    (f.startTimer.sealedCount - f.startTimer.ec.retention) f.startTimer .rollback
  rw [hb]
  have hcommit : f.startTimer.commitExcess .rollback =
    f.startTimer.commitN (f.startTimer.sealedCount - f.startTimer.ec.retention) .rollback := rfl
  have hftable : f.startTimer.ec.table = kept ++ [Entry.openedAt n o] := by
    show f.ec.table = _
    rw [hfec]
    exact hptable
  have hadd : a.wu = s.wu ∧ a.su = s.su ∧ a.cu = { s.cu with touched := [] } ∧ a.re = s.re ∧ a.da = s.da ∧ a.iq = g.iq ∧
      a.eq = g.eq := by
    rw [ha]
    refine ⟨hcalm.wu, hcalm.su, ?_, hcalm.re, hcalm.da, rfl, rfl⟩
    show { g.cu with touched := [] } = _
    rw [hcalm.cu]
  obtain ⟨hawu, hasu, hacu, hare, hada, haiq, haeq⟩ := hadd
  rw [hcommit]
  constructor
  case ec =>
    rw [hcom.ec]
    show { f.ec.startTimer with table := rest } = _
    rw [hfec]
    show { p.ec.startTimer with table := rest } = _
    rw [hpec, haec]
    rfl
  case commits => exact ⟨old, rest, hftable.symm.trans htab, hold, by rw [hcom.ec]⟩
  case table =>
    intro hle
    have hcount : f.startTimer.sealedCount = kept.countP (fun y => y.state == .sealed) := by
      rw [State.sealedCount, hftable, List.countP_append]
      rfl
    have hret : f.startTimer.ec.retention = s.ec.retention := by
      show f.ec.retention = _
      rw [hfec]
      show p.ec.retention = _
      rw [hpec, haec]
    rw [hcount, hret, Nat.sub_eq_zero_of_le hle]
    refine ⟨?_, hftable⟩
    show f.jw.tail = _
    rw [hfjw]
    exact hptail.trans (by rw [hajw]; exact htail)
  case head =>
    rw [hcom.head]
    show f.jw.head = _
    rw [hfjw]
    exact hphead.trans (by rw [hahead, haring])
  case press =>
    intro hs
    refine hcom.calmed ?_
    show f.jw.pressure ≠ _
    rw [hfjw]
    exact hppress (by rw [hajw]; exact hpress hs)
  case wu =>
    rw [hcom.calm.wu]
    show f.wu.active = _ ∧ f.wu.armed = _
    rw [hfwu]
    refine ⟨?_, rfl⟩
    show (if p.wu.armed then p.wu.staged else p.wu.active) = _
    rw [hpwu, hawu]
    rfl
  case su =>
    rw [hcom.calm.su]
    show f.su.openBank.epoch = _ ∧ ∀ i : WinIx, (f.su.openBank.entries[i]).accepted = _
    rw [hfbank]
    refine ⟨rfl, fun i => ?_⟩
    show ((Bank.reset.fill p.resetBanks.activeNext).entries[i]).accepted = _
    rw [Bank.fill_reset]
    rfl
  case cu =>
    rw [hcom.calm.cu]
    exact hfcu.trans (hpcu.trans hacu)
  case re =>
    rw [hcom.calm.re]
    exact hfre.trans (hpre.trans hare)
  case da =>
    rw [hcom.calm.da]
    show f.da = _
    rw [hfda]
    exact hpda.trans (by rw [hahead, hback, State.recordDa_of_da hada])
  case slots =>
    refine hcom.calm.slots.trans ?_
    show f.iq.slots.map _ = _
    rw [hfiq]
    exact hpslots.trans (by rw [haiq]; exact hcalm.slots)
  case events =>
    obtain ⟨cevs, hcev, -⟩ := hcom.eq
    obtain ⟨gevs, hgev⟩ := hcalm.events
    refine ⟨gevs ++ pevs ++ fevs ++ cevs, ?_⟩
    rw [hcev, EventQueue.raiseAll_append, EventQueue.raiseAll_append, EventQueue.raiseAll_append]
    refine congrArg (EventQueue.raiseAll · cevs) (hfev.trans (congrArg (EventQueue.raiseAll · fevs) ?_))
    exact hpev.trans (by rw [haeq, hgev])

end Sys2Proof.Machine

/-! The writes released at FINISH, one after the other (R14, R63, R154). -/
namespace Sys2Proof.Machine

/-- The OPEN epoch is `n`, unbroken, its bank the OPEN bank, and pressure is not SUSPENDED. -/
structure State.OpensAt (s : State) (n : EpochNo) : Prop where
  entry : ∃ y, s.openEntry? = some y ∧ y.number = n ∧ y.broken = none
  press : s.jw.pressure ≠ .suspended
  bank  : s.su.openBank.epoch = some n

/-- The record of a write assigned to epoch `n`, whose granule the touched set holds or not. -/
def Slot.intoEpoch (x : Slot) (n : EpochNo) (dup : Bool) : Slot :=
  { x with
    epoch := some n
    marking := some (if dup then .noCapture else .capture)
    duty := if dup then x.duty else true }

/-- From `s` to `t` the released write `x` is assigned to epoch `n` and looked up, and the set has room. -/
structure State.TakesInto (s t : State) (x : Slot) (n : EpochNo) : Prop where
  slot     : t.slot? x.ix = some (x.intoEpoch n (decide (x.granule ∈ s.cu.touched)))
  others   : ∀ r, r ≠ x.ix → t.slot? r = s.slot? r
  touched  : t.cu.touched = if x.granule ∈ s.cu.touched then s.cu.touched else x.granule :: s.cu.touched
  opens    : t.OpensAt n
  accepted : ∀ i : WinIx, (t.su.openBank.entries[i]).accepted = true ↔
               x.win = some i ∨ (s.su.openBank.entries[i]).accepted = true
  members  : ∀ y ∈ t.iq.slots, y.ix = x.ix ∨ y ∈ s.iq.slots

theorem State.markWrite_looks {s : State} {x : Slot} {e : Entry} (hp : s.jw.pressure ≠ .suspended) (hb : e.broken = none)
    (ho : x.outcome = none) : s.markWrite x e = s.lookup x e := by
  unfold State.markWrite
  dsimp only
  rw [if_neg hp, hb, ho]
  rfl

theorem State.takeDuty_none {s : State} {x : Slot} {n : EpochNo} (h : ∀ y ∈ s.iq.slots, y.epoch = some n → ¬ x.pos < y.pos) :
    s.takeDuty x n = s.setSlot x.ix (fun z => { z with marking := some .noCapture }) := by
  have hnone : s.iq.slots.find? (fun y => y.granule == x.granule && y.duty && y.epoch == some n && decide (x.pos < y.pos)) =
      none := by
    refine List.find?_eq_none.2 (fun y hy hp => ?_)
    simp only [Bool.and_eq_true, beq_iff_eq, decide_eq_true_eq] at hp
    exact h y hy hp.1.2 hp.2
  unfold State.takeDuty
  rw [hnone]

theorem State.mem_setSlot {s : State} {q : SlotIx} {f : Slot → Slot} (hf : ∀ z, (f z).ix = z.ix) {y : Slot}
    (hy : y ∈ (s.setSlot q f).iq.slots) : y.ix = q ∨ y ∈ s.iq.slots := by
  obtain ⟨z, hz, rfl⟩ := List.mem_map.1 (show y ∈ s.iq.slots.map _ from hy)
  by_cases hq : z.ix = q
  · rw [if_pos (by simpa using hq)]
    exact .inl ((hf z).trans hq)
  · rw [if_neg (by simpa using hq)]
    exact .inr hz

/-- The assignment of a write that no later one of its epoch precedes. -/
theorem State.assignReleased_takes {s : State} {x : Slot} {n : EpochNo} (hO : s.OpensAt n) (hx : s.slot? x.ix = some x)
    (hd : (s.iq.slots.map (·.ix)).Nodup) (hw : x.isWrite = true) (he : x.epoch = none) (ho : x.outcome = none)
    (hpos : ∀ y ∈ s.iq.slots, y.epoch = some n → y.pos < x.pos) (hlen : s.cu.touched.length < 1024) :
    s.TakesInto (s.assignReleased x.ix) x n := by
  obtain ⟨⟨e, hopen, rfl, hb⟩, hp, hbank⟩ := hO
  have hmem := (State.mem_of_slot? hx).1
  let u : State := s.setSlot x.ix (fun z => { z with epoch := some e.number })
  have hstep : s.assignReleased x.ix = (u.takeWrite x e.number).markWrite x e := by
    rw [State.assignReleased_of hx, if_pos ⟨hw, by rw [he]; rfl⟩, State.assignWrite_of hx hopen, State.taken,
      if_pos (by rw [ho]; rfl)]
  have htakes := u.takeWrite_takes x e.number
  have hvbank := u.takeWrite_epoch x e.number
  rw [hstep]
  generalize u.takeWrite x e.number = v at htakes hvbank
  have hviq : v.iq = u.iq := by rw [htakes.frame]
  have hvcu : v.cu = s.cu := by rw [htakes.frame]; rfl
  have hvec : v.ec = s.ec := by rw [htakes.frame]; rfl
  have hvjw : v.jw = s.jw := by rw [htakes.frame]; rfl
  have haccepted (i : WinIx) : (v.su.openBank.entries[i]).accepted = true ↔
      x.win = some i ∨ (s.su.openBank.entries[i]).accepted = true := by
    by_cases hi : x.win = some i
    · rw [(htakes.bank i hi hbank).1]
      exact ⟨fun _ => .inl hi, fun _ => rfl⟩
    · rw [(htakes.others i hi).2.1]
      exact ⟨.inr, fun h => h.resolve_left hi⟩
  have hvslot : v.slot? x.ix = some { x with epoch := some e.number } := by
    rw [State.slot?, hviq]
    exact State.slot?_setSlot_same (s := s) (f := fun z => { z with epoch := some e.number }) (fun _ => rfl) hx
  have hvother (r : SlotIx) (hr : r ≠ x.ix) : v.slot? r = s.slot? r := by
    rw [State.slot?, hviq]
    exact State.slot?_setSlot_other (s := s) (f := fun z => { z with epoch := some e.number }) hr (fun _ => rfl)
  have hvmem {y : Slot} (hy : y ∈ v.iq.slots) : y.ix = x.ix ∨ y ∈ s.iq.slots := by
    rw [hviq] at hy
    exact State.mem_setSlot (f := fun z => { z with epoch := some e.number }) (fun _ => rfl) hy
  have hnone : ∀ y ∈ v.iq.slots, y.epoch = some e.number → ¬ x.pos < y.pos := by
    intro y hy hye
    obtain ⟨z, hz, rfl⟩ := List.mem_map.1 (show y ∈ s.iq.slots.map _ from hviq ▸ hy)
    by_cases hq : z.ix = x.ix
    · obtain rfl := eq_of_nodup_map hd hz hmem hq
      rw [if_pos (beq_self_eq_true z.ix)]
      exact Nat.lt_irrefl _
    · rw [if_neg (by simpa using hq)] at hye ⊢
      exact Nat.lt_asymm (hpos z hz hye)
  have hopens {w : State} (hwec : w.ec = v.ec) (hwjw : w.jw = v.jw) (hwsu : w.su = v.su) : w.OpensAt e.number := by
    refine ⟨⟨e, ?_, rfl, hb⟩, ?_, ?_⟩
    · rw [State.openEntry?, hwec, hvec]
      exact hopen
    · rw [hwjw, hvjw]
      exact hp
    · rw [hwsu, hvbank]
      exact hbank
  rw [State.markWrite_looks (by rw [hvjw]; exact hp) hb ho]
  unfold State.lookup
  rw [hvcu]
  by_cases hg : x.granule ∈ s.cu.touched
  · rw [if_pos hg, State.takeDuty_none hnone]
    constructor
    case slot =>
      rw [State.slot?_setSlot_same (f := fun z => { z with marking := some .noCapture }) (fun _ => rfl) hvslot,
        decide_eq_true hg]
      rfl
    case others =>
      intro r hr
      rw [State.slot?_setSlot_other (f := fun z => { z with marking := some .noCapture }) hr (fun _ => rfl), hvother r hr]
    case touched =>
      rw [if_pos hg]
      exact congrArg CaptureUnit.touched hvcu
    case opens => exact hopens rfl rfl rfl
    case accepted => exact haccepted
    case members =>
      intro y hy
      exact (State.mem_setSlot (f := fun z => { z with marking := some .noCapture }) (fun _ => rfl) hy).elim .inl hvmem
  · rw [if_neg hg, if_pos hlen]
    let v' : State := { v with cu := { s.cu with touched := x.granule :: s.cu.touched } }
    constructor
    case slot =>
      rw [State.slot?_setSlot_same (s := v') (f := fun z => { z with marking := some .capture, duty := true }) (fun _ => rfl)
        hvslot, decide_eq_false hg]
      rfl
    case others =>
      intro r hr
      rw [State.slot?_setSlot_other (s := v') (f := fun z => { z with marking := some .capture, duty := true }) hr
        (fun _ => rfl)]
      exact hvother r hr
    case touched => rw [if_neg hg]; rfl
    case opens => exact hopens rfl rfl rfl
    case accepted => exact haccepted
    case members =>
      intro y hy
      exact (State.mem_setSlot (s := v') (f := fun z => { z with marking := some .capture, duty := true }) (fun _ => rfl)
        hy).elim .inl hvmem

/-- From `s` to `t` the released requests `l` are gone through in their order: the writes assigned to epoch `n` and looked up. -/
structure State.TakesAll (s t : State) (l : List Slot) (n : EpochNo) : Prop where
  writes   : ∀ x ∈ l, x.isWrite = true → ∀ dup : Bool,
               (dup = true ↔ x.granule ∈ s.cu.touched ∨ ∃ y ∈ l, y.isWrite = true ∧ y.granule = x.granule ∧ y.pos < x.pos) →
               t.slot? x.ix = some (x.intoEpoch n dup)
  reads    : ∀ x ∈ l, x.isWrite = false → t.slot? x.ix = some x
  others   : ∀ r, (∀ x ∈ l, x.ix ≠ r) → t.slot? r = s.slot? r
  touched  : ∀ g, g ∈ t.cu.touched ↔ g ∈ s.cu.touched ∨ ∃ x ∈ l, x.isWrite = true ∧ x.granule = g
  accepted : ∀ i : WinIx, (t.su.openBank.entries[i]).accepted = true ↔
               (s.su.openBank.entries[i]).accepted = true ∨ ∃ x ∈ l, x.isWrite = true ∧ x.win = some i

/-- The requests `l` stand released in `s`, in acceptance order, behind every request of epoch `n`. -/
structure State.ReadyFor (s : State) (l : List Slot) (n : EpochNo) : Prop where
  opens    : s.OpensAt n
  distinct : (s.iq.slots.map (·.ix)).Nodup
  found    : ∀ x ∈ l, s.slot? x.ix = some x ∧ x.epoch = none ∧ x.outcome = none
  order    : l.Pairwise (fun x y => x.pos < y.pos)
  behind   : ∀ y ∈ s.iq.slots, y.epoch = some n → ∀ x ∈ l, y.pos < x.pos
  room     : s.cu.touched.length + l.length ≤ 1024

theorem State.ReadyFor.differ {s : State} {x : Slot} {l : List Slot} {n : EpochNo} (h : s.ReadyFor (x :: l) n) :
    ∀ y ∈ l, y.ix ≠ x.ix ∧ x.pos < y.pos := by
  intro y hy
  have hpos := (List.pairwise_cons.1 h.order).1 y hy
  refine ⟨fun hix => ?_, hpos⟩
  have hxs := (h.found x List.mem_cons_self).1
  have hys := (h.found y (List.mem_cons_of_mem x hy)).1
  rw [hix, hxs] at hys
  rw [Option.some.inj hys] at hpos
  exact Nat.lt_irrefl _ hpos

theorem Assigns.ixs {s t : State} (h : Assigns s t) : t.iq.slots.map (·.ix) = s.iq.slots.map (·.ix) := by
  have hix := congrArg (List.map (fun x : Slot => x.ix)) h.slots
  rw [List.map_map, List.map_map] at hix
  exact hix

theorem State.ReadyFor.skip {s : State} {x : Slot} {l : List Slot} {n : EpochNo} (h : s.ReadyFor (x :: l) n) :
    s.ReadyFor l n where
  opens := h.opens
  distinct := h.distinct
  found := fun y hy => h.found y (List.mem_cons_of_mem x hy)
  order := (List.pairwise_cons.1 h.order).2
  behind := fun y hy he z hz => h.behind y hy he z (List.mem_cons_of_mem x hz)
  room := by
    have := h.room
    rw [List.length_cons] at this
    omega

theorem State.ReadyFor.takes {s : State} {x : Slot} {l : List Slot} {n : EpochNo} (h : s.ReadyFor (x :: l) n)
    (hw : x.isWrite = true) : s.TakesInto (s.assignReleased x.ix) x n := by
  obtain ⟨hx, he, ho⟩ := h.found x List.mem_cons_self
  refine State.assignReleased_takes h.opens hx h.distinct hw he ho
    (fun y hy hye => h.behind y hy hye x List.mem_cons_self) ?_
  have := h.room
  rw [List.length_cons] at this
  omega

theorem State.ReadyFor.next {s : State} {x : Slot} {l : List Slot} {n : EpochNo} (h : s.ReadyFor (x :: l) n)
    (hw : x.isWrite = true) : (s.assignReleased x.ix).ReadyFor l n := by
  have ht := h.takes hw
  have hd : ((s.assignReleased x.ix).iq.slots.map (·.ix)).Nodup := by
    rw [(s.assignReleased_assigns x.ix).ixs]
    exact h.distinct
  constructor
  case opens => exact ht.opens
  case distinct => exact hd
  case found =>
    intro y hy
    obtain ⟨hys, hye, hyo⟩ := h.found y (List.mem_cons_of_mem x hy)
    exact ⟨(ht.others y.ix (h.differ y hy).1).trans hys, hye, hyo⟩
  case order => exact (List.pairwise_cons.1 h.order).2
  case behind =>
    intro y hy hye z hz
    obtain hyx | hys := ht.members y hy
    · obtain ⟨hm, hix⟩ := State.mem_of_slot? ht.slot
      obtain rfl := eq_of_nodup_map hd hy hm (hyx.trans hix.symm)
      exact (h.differ z hz).2
    · exact h.behind y hys hye z (List.mem_cons_of_mem x hz)
  case room =>
    have hroom := h.room
    rw [List.length_cons] at hroom
    rw [ht.touched]
    split
    · omega
    · rw [List.length_cons]
      omega

theorem State.assignReleased_read {s : State} {x : Slot} (hx : s.slot? x.ix = some x) (hw : x.isWrite = false) :
    s.assignReleased x.ix = s := by
  rw [State.assignReleased_of hx, if_neg (by rw [hw]; exact fun h => absurd h.1 (by decide))]

theorem State.assignAll_takes {n : EpochNo} {l : List Slot} {s : State} (h : s.ReadyFor l n) :
    s.TakesAll ((l.map (·.ix)).foldl (fun t q => t.assignReleased q) s) l n := by
  induction l generalizing s with
  | nil =>
    exact ⟨fun _ hx => absurd hx (by simp), fun _ hx => absurd hx (by simp), fun _ _ => rfl, fun g => by simp, fun i => by simp⟩
  | cons x l ih =>
    rw [List.map_cons, List.foldl_cons]
    have hdiffer := h.differ
    cases hw : x.isWrite with
    | false =>
      rw [State.assignReleased_read (h.found x List.mem_cons_self).1 hw]
      have k := ih h.skip
      have hex {P : Slot → Prop} : (∃ y ∈ x :: l, y.isWrite = true ∧ P y) ↔ ∃ y ∈ l, y.isWrite = true ∧ P y := by
        simp [hw]
      constructor
      case writes =>
        intro y hy hyw dup hdup
        obtain rfl | hy := List.mem_cons.1 hy
        · exact absurd (hw.symm.trans hyw) (by decide)
        · exact k.writes y hy hyw dup (hdup.trans (or_congr_right hex))
      case reads =>
        intro y hy hyw
        obtain rfl | hy := List.mem_cons.1 hy
        · rw [k.others y.ix (fun z hz => (hdiffer z hz).1)]
          exact (h.found y List.mem_cons_self).1
        · exact k.reads y hy hyw
      case others => exact fun r hr => k.others r (fun z hz => hr z (List.mem_cons_of_mem x hz))
      case touched => exact fun g => (k.touched g).trans (or_congr_right hex.symm)
      case accepted => exact fun i => (k.accepted i).trans (or_congr_right hex.symm)
    | true =>
      have ht := h.takes hw
      have k := ih (h.next hw)
      have hmem (g : Granule) : g ∈ (s.assignReleased x.ix).cu.touched ↔ g ∈ s.cu.touched ∨ x.granule = g := by
        rw [ht.touched]
        split
        · rename_i hg
          exact ⟨.inl, fun hh => hh.elim id (fun e => e ▸ hg)⟩
        · rw [List.mem_cons]
          exact ⟨fun hh => hh.elim (fun e => .inr e.symm) .inl, fun hh => hh.elim .inr (fun e => .inl e.symm)⟩
      have hex {P : Slot → Prop} : (∃ y ∈ x :: l, y.isWrite = true ∧ P y) ↔ P x ∨ ∃ y ∈ l, y.isWrite = true ∧ P y := by
        simp [hw]
      constructor
      case writes =>
        intro y hy hyw dup hdup
        obtain rfl | hyl := List.mem_cons.1 hy
        · have hfirst : ¬ ∃ z ∈ y :: l, z.isWrite = true ∧ z.granule = y.granule ∧ z.pos < y.pos := by
            rintro ⟨z, hz, -, -, hlt⟩
            obtain rfl | hz := List.mem_cons.1 hz
            · exact Nat.lt_irrefl _ hlt
            · exact Nat.lt_asymm hlt (hdiffer z hz).2
          have hdup' : decide (y.granule ∈ s.cu.touched) = dup := by
            rw [Bool.eq_iff_iff, decide_eq_true_iff, hdup, or_iff_left hfirst]
          rw [k.others y.ix (fun z hz => (hdiffer z hz).1), ht.slot, hdup']
        · refine k.writes y hyl hyw dup (hdup.trans ?_)
          rw [hmem, hex, and_iff_left (hdiffer y hyl).2, or_assoc]
      case reads =>
        intro y hy hyw
        obtain rfl | hy := List.mem_cons.1 hy
        · exact absurd (hyw.symm.trans hw) (by decide)
        · exact k.reads y hy hyw
      case others =>
        intro r hr
        rw [k.others r (fun z hz => hr z (List.mem_cons_of_mem x hz))]
        exact ht.others r (Ne.symm (hr x List.mem_cons_self))
      case touched =>
        intro g
        rw [k.touched g, hmem, hex, or_assoc]
      case accepted =>
        intro i
        rw [k.accepted i, ht.accepted i, hex, or_comm (a := x.win = some i), or_assoc]

end Sys2Proof.Machine

/-! What the assignment of the released writes leaves of the other requests, and the windows it wakes (R63, R119). -/
namespace Sys2Proof.Machine

/-! ## A request without an assignment stays as it is -/

/-- Slot `q` holds `z`, which has no assignment and no mark; no two records stand in one slot. -/
structure State.Idles (s : State) (q : SlotIx) (z : Slot) : Prop where
  slot     : s.slot? q = some z
  epoch    : z.epoch = none
  unmarked : z.atPoint = false
  distinct : (s.iq.slots.map (·.ix)).Nodup

theorem State.Idles.of_slots {s t : State} {q : SlotIx} {z : Slot} (h : s.Idles q z) (hs : t.iq.slots = s.iq.slots) :
    t.Idles q z := ⟨by rw [State.slot?, hs]; exact h.slot, h.epoch, h.unmarked, by rw [hs]; exact h.distinct⟩

theorem State.Idles.setSlot {s : State} {q r : SlotIx} {z : Slot} (h : s.Idles q z) (hr : q ≠ r) {f : Slot → Slot}
    (hf : Keyed f) : (s.setSlot r f).Idles q z :=
  ⟨(State.slot?_setSlot_other hr (fun y => Slot.ix_of_key (hf y))).trans h.slot, h.epoch, h.unmarked,
    by rw [State.setSlot_iq, (hf.ite r).map_ix]; exact h.distinct⟩

theorem State.Idles.markBroken {s : State} {q : SlotIx} {z : Slot} (h : s.Idles q z) (e : EpochNo) (r : Reason) :
    (s.markBroken e r).Idles q z := by
  unfold State.markBroken
  split
  · exact h
  · have hkey : Keyed (fun x : Slot => if x.epoch == some e then x.reexamined else x) := fun x => by
      dsimp only
      split <;> rfl
    refine ⟨?_, h.epoch, h.unmarked, ?_⟩
    · show (s.iq.slots.map _).find? _ = _
      rw [find?_map_ix (fun x => Slot.ix_of_key (hkey x)), show s.iq.slots.find? (fun x => x.ix == q) = some z from h.slot,
        Option.map_some, if_neg (by simp [h.epoch])]
    · rw [State.mapSlots_iq, hkey.map_ix]
      exact h.distinct

theorem State.Idles.takeDuty {s : State} {q : SlotIx} {z : Slot} (h : s.Idles q z) {x : Slot} (hx : q ≠ x.ix) (e : EpochNo) :
    (s.takeDuty x e).Idles q z := by
  unfold State.takeDuty
  split
  · exact h.setSlot hx (f := fun z => { z with marking := some .noCapture }) (fun _ => rfl)
  · rename_i y hy
    have hm := List.mem_of_find?_eq_some hy
    have hp := List.find?_some hy
    simp only [Bool.and_eq_true, beq_iff_eq, decide_eq_true_eq] at hp
    have hyq : q ≠ y.ix := by
      intro hq
      obtain ⟨hz, hzq⟩ := State.mem_of_slot? h.slot
      obtain rfl := eq_of_nodup_map h.distinct hm hz (hq.symm.trans hzq.symm)
      rw [h.epoch] at hp
      exact absurd hp.1.2 (by simp)
    exact (h.setSlot hyq (f := fun z => { z with marking := some .noCapture, duty := false }) (fun _ => rfl)).setSlot hx
      (f := fun z => { z with marking := some .capture, duty := true }) (fun _ => rfl)

theorem State.Idles.lookup {s : State} {q : SlotIx} {z : Slot} (h : s.Idles q z) {x : Slot} (hx : q ≠ x.ix) (e : Entry) :
    (s.lookup x e).Idles q z := by
  unfold State.lookup
  split
  · exact h.takeDuty hx _
  · split
    · exact State.Idles.setSlot (s := { s with cu := { s.cu with touched := x.granule :: s.cu.touched } })
        (h.of_slots rfl) hx (f := fun z => { z with marking := some .capture, duty := true }) (fun _ => rfl)
    · have hmark : ((s.setEntry e.number (fun y => { y with overflow := satInc Config.overflowMax y.overflow })).setSlot x.ix
          (fun z => { z with marking := some .captureDup })).Idles q z :=
        State.Idles.setSlot (s := s.setEntry e.number (fun y => { y with overflow := satInc Config.overflowMax y.overflow }))
          (h.of_slots rfl) hx (f := fun z => { z with marking := some .captureDup }) (fun _ => rfl)
      unfold State.overflowLookup
      dsimp only
      split
      · exact hmark.of_slots rfl
      · exact hmark

theorem State.Idles.markWrite {s : State} {q : SlotIx} {z : Slot} (h : s.Idles q z) {x : Slot} (hx : q ≠ x.ix) (e : Entry) :
    (s.markWrite x e).Idles q z := by
  unfold State.markWrite
  dsimp only
  split
  · exact (h.markBroken _ _).setSlot hx (f := fun z => { z with marking := some .noCapture }) (fun _ => rfl)
  · split
    · exact h.setSlot hx (f := fun z => { z with marking := some .noCapture }) (fun _ => rfl)
    · exact h.lookup hx e

theorem State.takeWrite_iq (s : State) (x : Slot) (e : EpochNo) : (s.takeWrite x e).iq = s.iq := by
  rw [(s.takeWrite_takes x e).frame]

theorem State.Idles.taken {s : State} {q r : SlotIx} {z : Slot} (h : s.Idles q z) (hr : q ≠ r) (x : Slot) (e : EpochNo) :
    (s.taken r x e).Idles q z := by
  have hset : (s.setSlot r (fun z => { z with epoch := some e })).Idles q z :=
    h.setSlot hr (f := fun z => { z with epoch := some e }) (fun _ => rfl)
  unfold State.taken
  split
  · exact hset.of_slots (by rw [State.takeWrite_iq])
  · exact hset

theorem State.Idles.assignWrite {s : State} {q r : SlotIx} {z : Slot} (h : s.Idles q z) (hr : q ≠ r) :
    (s.assignWrite r).Idles q z := by
  cases hx : s.slot? r with
  | none =>
    unfold State.assignWrite
    rw [hx]
    exact h
  | some x =>
    cases he : s.openEntry? with
    | none =>
      unfold State.assignWrite
      rw [hx, he]
      exact h
    | some e =>
      rw [State.assignWrite_of hx he]
      exact (h.taken hr x e.number).markWrite ((State.mem_of_slot? hx).2 ▸ hr) e

theorem State.Idles.assignReleased {s : State} {q r : SlotIx} {z : Slot} (h : s.Idles q z) (hr : q ≠ r) :
    (s.assignReleased r).Idles q z := by
  cases hx : s.slot? r with
  | none =>
    unfold State.assignReleased
    rw [hx]
    exact h
  | some x =>
    rw [State.assignReleased_of hx]
    split
    · exact h.assignWrite hr
    · exact h

/-- A request that is not a write is gone past. -/
theorem State.Idles.read {s : State} {q : SlotIx} {z : Slot} (h : s.Idles q z) (hw : z.isWrite = false) (l : List SlotIx) :
    (l.foldl (fun t r => t.assignReleased r) s).Idles q z := by
  induction l generalizing s with
  | nil => exact h
  | cons r l ih =>
    refine ih ?_
    by_cases hr : q = r
    · show (s.assignReleased r).Idles q z
      rw [← hr, State.assignReleased_of h.slot, if_neg (by rw [hw]; exact fun hh => absurd hh.1 (by decide))]
      exact h
    · exact h.assignReleased hr

/-! ## The windows wake (R119) -/

theorem Assigns.openEntry? {s t : State} (h : Assigns s t) {y : Entry} (hy : s.openEntry? = some y) :
    ∃ z, t.openEntry? = some z ∧ z.uncounted = y.uncounted := by
  have hfind (l : List Entry) : (l.map Entry.uncounted).find? (fun x => x.state == .opened) =
      (l.find? (fun x => x.state == .opened)).map Entry.uncounted := List.find?_map ..
  have hf : (t.openEntry?).map Entry.uncounted = (s.openEntry?).map Entry.uncounted := by
    unfold State.openEntry?
    rw [← hfind, ← hfind, h.table]
  rw [hy, Option.map_some] at hf
  exact Option.map_eq_some_iff.1 hf

theorem State.assignReleased_wakes {s : State} {q : SlotIx} {x : Slot} {e : Entry} {i : WinIx} (hx : s.slot? q = some x)
    (he : s.openEntry? = some e) (hw : x.isWrite = true) (hn : x.epoch = none) (ho : x.outcome = none) (hi : x.win = some i) :
    ((s.assignReleased q).su.quiet[i]).dormant = false := by
  rw [State.assignReleased_of hx, if_pos ⟨hw, by rw [hn]; rfl⟩, State.assignWrite_of hx he]
  refine (State.markWrite_assigns _ x e).awake i ?_
  rw [State.taken, if_pos (by rw [ho]; rfl)]
  have htakes := (s.setSlot q (fun z => { z with epoch := some e.number })).takeWrite_takes x e.number
  rw [htakes.quiet i hi]
  split
  · rfl
  · rename_i hno
    simp only [State.wakes, hi] at hno
    exact Bool.eq_false_iff.2 hno

theorem State.Idles.wakes {s : State} {q : SlotIx} {z : Slot} {e : Entry} {i : WinIx} (h : s.Idles q z)
    (he : s.openEntry? = some e) (hw : z.isWrite = true) (ho : z.outcome = none) (hi : z.win = some i) {l : List SlotIx}
    (hq : q ∈ l) : ((l.foldl (fun t r => t.assignReleased r) s).su.quiet[i]).dormant = false := by
  induction l generalizing s e with
  | nil => exact absurd hq (by simp)
  | cons r l ih =>
    rw [List.foldl_cons]
    by_cases hr : q = r
    · rw [← hr]
      exact (State.assignAll_assigns l _).awake i (State.assignReleased_wakes h.slot he hw h.epoch ho hi)
    · obtain ⟨e', he', -⟩ := (s.assignReleased_assigns r).openEntry? he
      exact ih (h.assignReleased hr) he' ((List.mem_cons.1 hq).resolve_left hr)

end Sys2Proof.Machine

/-! FINISH (R154, R155). -/
namespace Sys2Proof.Machine

/-! ## The requests FINISH releases -/

/-- The HELD requests of `s` as FINISH releases them, oldest first. -/
def State.freed (s : State) : List Slot := (s.iq.slots.filter (fun x => x.state == .held)).map Slot.passed

theorem State.finish_release (s : State) : s.releaseJournaling Slot.unassigned =
    (s.freed.map (·.ix)).foldl (fun t q => t.assignReleased q) (s.mapSlots Slot.passed) := by
  have hix : s.freed.map (·.ix) = s.heldSlots := by
    rw [State.freed, State.heldSlots, List.map_map]
    exact List.map_congr_left (fun x _ => x.passed_ix)
  rw [hix]
  rfl

theorem Slot.passed_held {x : Slot} (h : x.state = .held) : x.passed =
    { x with state := .waiting, holdEntry := none, epoch := none, marking := none, duty := false, atPoint := false } :=
  Slot.passed_of_held rfl h

theorem Slot.passed_of_reexamined {x y : Slot} (h : y.reexamined = x.reexamined) (hx : x.state = .held) :
    y.passed = x.passed := (Slot.passed_of_held h hx).trans (Slot.passed_held hx).symm

theorem Slot.reexamined_state' {x y : Slot} (h : y.reexamined = x.reexamined) : y.state = x.state := by
  show y.reexamined.state = x.reexamined.state
  rw [h]

theorem mem_of_reexamined {l m : List Slot} (h : l.map Slot.reexamined = m.map Slot.reexamined) {x : Slot} (hx : x ∈ m) :
    ∃ y ∈ l, y.reexamined = x.reexamined := by
  have hm : x.reexamined ∈ l.map Slot.reexamined := h ▸ List.mem_map_of_mem hx
  exact List.mem_map.1 hm

/-- What is freed is known from the requests as they were before marks. -/
theorem State.mem_freed {s b : State} (h : b.iq.slots.map Slot.reexamined = s.iq.slots.map Slot.reexamined) {y : Slot} :
    y ∈ b.freed ↔ ∃ x ∈ s.iq.slots, x.state = .held ∧ y = x.passed := by
  constructor
  · intro hy
    obtain ⟨z, hz, rfl⟩ := List.mem_map.1 hy
    obtain ⟨hz, hzh⟩ := List.mem_filter.1 hz
    obtain ⟨x, hx, hxz⟩ := mem_of_reexamined h.symm hz
    have hzh' : z.state = .held := by simpa using hzh
    have hxh : x.state = .held := (Slot.reexamined_state' hxz).trans hzh'
    exact ⟨x, hx, hxh, Slot.passed_of_reexamined hxz.symm hxh⟩
  · rintro ⟨x, hx, hxh, rfl⟩
    obtain ⟨z, hz, hzx⟩ := mem_of_reexamined h hx
    have hzh : z.state = .held := (Slot.reexamined_state' hzx).trans hxh
    rw [← Slot.passed_of_reexamined hzx hxh]
    exact List.mem_map_of_mem (List.mem_filter.2 ⟨hz, by simpa using hzh⟩)

theorem map_ix_reexamined {l m : List Slot} (h : l.map Slot.reexamined = m.map Slot.reexamined) :
    l.map (·.ix) = m.map (·.ix) := by
  have hix := congrArg (List.map (fun x : Slot => x.ix)) h
  rw [List.map_map, List.map_map] at hix
  exact hix

theorem map_pos_reexamined {l m : List Slot} (h : l.map Slot.reexamined = m.map Slot.reexamined) :
    l.map (·.pos) = m.map (·.pos) := by
  have hpos := congrArg (List.map (fun x : Slot => x.pos)) h
  rw [List.map_map, List.map_map] at hpos
  exact hpos

theorem Slot.passed_keyed : Keyed Slot.passed := by
  intro x
  by_cases h : x.state = .held
  · rw [Slot.passed_held h]
    rfl
  · rw [Slot.passed_of_unheld h]

/-- The freed requests in the state that has released them and assigned none yet. -/
theorem State.freed_slot? {s b : State} (hd : (s.iq.slots.map (·.ix)).Nodup)
    (h : b.iq.slots.map Slot.reexamined = s.iq.slots.map Slot.reexamined) {x : Slot} (hx : x ∈ s.iq.slots)
    (hh : x.state = .held) : (b.mapSlots Slot.passed).slot? x.ix = some x.passed := by
  obtain ⟨z, hz, hzx⟩ := mem_of_reexamined h hx
  have hdb : ((b.mapSlots Slot.passed).iq.slots.map (·.ix)).Nodup := by
    rw [State.mapSlots_iq, Slot.passed_keyed.map_ix, map_ix_reexamined h]
    exact hd
  have hm : x.passed ∈ (b.mapSlots Slot.passed).iq.slots := by
    rw [← Slot.passed_of_reexamined hzx hh]
    exact List.mem_map_of_mem hz
  have hs := State.slot?_of_mem hdb hm
  rwa [x.passed_ix] at hs

/-- A freed request idles until its turn. -/
theorem State.freed_idles {s b : State} (hd : (s.iq.slots.map (·.ix)).Nodup)
    (h : b.iq.slots.map Slot.reexamined = s.iq.slots.map Slot.reexamined) {x : Slot} (hx : x ∈ s.iq.slots)
    (hh : x.state = .held) : (b.mapSlots Slot.passed).Idles x.ix x.passed := by
  refine ⟨State.freed_slot? hd h hx hh, ?_, ?_, ?_⟩
  · rw [Slot.passed_held hh]
  · rw [Slot.passed_held hh]
  · rw [State.mapSlots_iq, Slot.passed_keyed.map_ix, map_ix_reexamined h]
    exact hd

/-! ## The OPEN epoch FINISH leaves -/

theorem State.Cuts.entry {s b : State} {n : EpochNo} {o : Nat} {kept : List Entry} (h : s.Cuts b n o kept)
    (hn : ∀ y ∈ kept, y.number ≠ n) : b.entry? n = some (Entry.openedAt n o) := by
  obtain ⟨old, rest, htab, hold, hb⟩ := h.commits
  have hfind : (kept ++ [Entry.openedAt n o]).find? (fun x => x.number == n) = some (Entry.openedAt n o) := by
    rw [List.find?_append, List.find?_eq_none.2 (fun y hy => by simpa using hn y hy), Option.none_or]
    exact List.find?_cons_of_pos (beq_self_eq_true n)
  have hnone : old.find? (fun x => x.number == n) = none := by
    cases ho : old.find? (fun x => x.number == n) with
    | none => rfl
    | some y =>
      rw [htab, List.find?_append, ho] at hfind
      have hy := hold y (List.mem_of_find?_eq_some ho)
      rw [Option.some.inj hfind] at hy
      exact absurd (show EpochState.opened = .sealed from hy) (by decide)
  rw [State.entry?, hb]
  rwa [htab, List.find?_append, hnone, Option.none_or] at hfind

theorem State.Cuts.open_some {s b : State} {n : EpochNo} {o : Nat} {kept : List Entry} (h : s.Cuts b n o kept)
    : ∃ y, b.openEntry? = some y := by
  obtain ⟨old, rest, htab, hold, hb⟩ := h.commits
  have hmem : Entry.openedAt n o ∈ old ++ rest := htab ▸ List.mem_append_right _ (List.mem_singleton.2 rfl)
  have hrest : Entry.openedAt n o ∈ rest := by
    obtain ho | hr := List.mem_append.1 hmem
    · exact absurd (show EpochState.opened = .sealed from hold _ ho) (by decide)
    · exact hr
  cases hf : b.openEntry? with
  | some y => exact ⟨y, rfl⟩
  | none =>
    have hnone : rest.find? (fun x => x.state == .opened) = none := hb ▸ hf
    exact absurd (rfl : (EpochState.opened == EpochState.opened) = true) (List.find?_eq_none.1 hnone _ hrest)

theorem State.Cuts.openEntry? {s b : State} {n : EpochNo} {o : Nat} {kept : List Entry} (h : s.Cuts b n o kept)
    (hk : ∀ y ∈ kept, y.state = .sealed) : b.openEntry? = some (Entry.openedAt n o) := by
  obtain ⟨y, hy⟩ := h.open_some
  obtain ⟨old, rest, htab, -, hb⟩ := h.commits
  have hmem : y ∈ old ++ rest := List.mem_append_right _ (hb ▸ State.openEntry?_mem hy)
  rw [← htab] at hmem
  obtain hm | hm := List.mem_append.1 hmem
  · exact absurd ((hk y hm).symm.trans (State.openEntry?_state hy)) (by decide)
  · rw [hy, List.mem_singleton.1 hm]

/-! ## FINISH as a whole -/

theorem Slot.passed_isWrite (x : Slot) : x.passed.isWrite = x.isWrite := by
  by_cases h : x.state = .held
  · rw [Slot.passed_held h]
    rfl
  · rw [Slot.passed_of_unheld h]

theorem Slot.isWrite_iff (x : Slot) : x.isWrite = true ↔ x.req.dir = .write := by
  rw [Slot.isWrite, beq_iff_eq]

theorem Slot.not_write {x : Slot} (h : x.req.dir = .read) : x.isWrite = false := by
  rw [Slot.isWrite, h]
  rfl

/-- Distinct numbers below `n` are `n` at most. -/
theorem distinct_below_length_le (n : Nat) (l : List Nat) (hd : l.Nodup) (hl : ∀ i ∈ l, i < n) : l.length ≤ n := by
  induction n generalizing l with
  | zero =>
    cases l with
    | nil => exact Nat.le_refl 0
    | cons i l => exact absurd (hl i List.mem_cons_self) (Nat.not_lt_zero i)
  | succ n ih =>
    have hrest : (l.erase n).length ≤ n := by
      refine ih (l.erase n) (hd.erase n) (fun i hi => ?_)
      obtain ⟨hne, him⟩ := hd.mem_erase_iff.1 hi
      exact Nat.lt_of_le_of_ne (Nat.le_of_lt_succ (hl i him)) hne
    have hlen := List.le_length_erase (a := n) (l := l)
    omega

theorem slots_length_le {l : List Slot} (h : (l.map (·.ix)).Nodup) : l.length ≤ 16 := by
  have hd : ((l.map (·.ix)).map Fin.val).Nodup :=
    List.pairwise_map.2 (List.Pairwise.imp (fun hne hval => hne (Fin.ext hval)) h)
  have hlen := distinct_below_length_le 16 _ hd (fun i hi => by
    obtain ⟨q, -, rfl⟩ := List.mem_map.1 hi
    exact q.isLt)
  rwa [List.length_map, List.length_map] at hlen

/-- FINISH is ready to assign the freed requests. -/
theorem State.Cuts.ready {s b : State} {n : EpochNo} {o : Nat} {kept : List Entry} (h : s.Cuts b n o kept)
    (hs : s.OpensAlone n kept) : (b.mapSlots Slot.passed).ReadyFor b.freed n := by
  obtain ⟨k, hp, hnone, hk⟩ := hs
  have hd : (b.iq.slots.map (·.ix)).Nodup := by rw [map_ix_reexamined h.slots]; exact k.distinct
  constructor
  case opens => exact ⟨⟨_, h.openEntry? hk, rfl, rfl⟩, h.press hp, h.su.1⟩
  case distinct =>
    rw [State.mapSlots_iq, Slot.passed_keyed.map_ix]
    exact hd
  case found =>
    intro y hy
    obtain ⟨x, hx, hh, rfl⟩ := (State.mem_freed h.slots).1 hy
    have hout : x.outcome = none := by
      refine Classical.byContradiction (fun hne => ?_)
      obtain hw | hc := k.decided x hx (Option.isSome_iff_ne_none.2 hne)
      · exact absurd (hh.symm.trans hw) (by decide)
      · exact absurd (hh.symm.trans hc) (by decide)
    refine ⟨?_, ?_, ?_⟩
    · rw [x.passed_ix]
      exact State.freed_slot? k.distinct h.slots hx hh
    · rw [Slot.passed_held hh]
    · rw [Slot.passed_held hh]
      exact hout
  case order =>
    have hpos : b.iq.slots.Pairwise (fun x y => x.pos < y.pos) := by
      rw [← List.pairwise_map (f := fun x : Slot => x.pos) (R := (· < ·)), map_pos_reexamined h.slots, List.pairwise_map]
      exact k.order
    have hpk (x : Slot) : x.passed.pos = x.pos := congrArg (fun z => z.2.2.1) (Slot.passed_keyed x)
    refine List.pairwise_map.2 ((hpos.sublist List.filter_sublist).imp (fun {x y} hxy => ?_))
    rw [hpk x, hpk y]
    exact hxy
  case behind =>
    intro y hy hye
    obtain ⟨z, hz, rfl⟩ := List.mem_map.1 (show y ∈ b.iq.slots.map Slot.passed from hy)
    obtain ⟨x, hx, hxz⟩ := mem_of_reexamined h.slots.symm hz
    have hze : z.epoch ≠ some n := by
      have hxe : z.epoch = x.epoch := (Slot.reexamined_epoch hxz).symm
      rw [hxe]
      exact hnone x hx
    by_cases hzh : z.state = .held
    · rw [Slot.passed_held hzh] at hye
      exact absurd (show (none : Option EpochNo) = some n from hye) (by simp)
    · rw [Slot.passed_of_unheld hzh] at hye
      exact absurd hye hze
  case room =>
    have hlen : b.freed.length ≤ b.iq.slots.length := by
      rw [State.freed, List.length_map]
      exact List.length_filter_le ..
    have hcu : (b.mapSlots Slot.passed).cu.touched = [] := by
      show b.cu.touched = []
      rw [h.cu]
    have := slots_length_le hd
    rw [hcu]
    show 0 + b.freed.length ≤ 1024
    omega

end Sys2Proof.Machine

/-! FINISH meets its statement (R154, R155). -/
namespace Sys2Proof.Machine

theorem Entry.uncounted_number {y z : Entry} (h : z.uncounted = y.uncounted) : z.number = y.number := by
  show z.uncounted.number = y.uncounted.number
  rw [h]

theorem Assigns.entry? {s t : State} (h : Assigns s t) {e : EpochNo} {y : Entry} (hy : s.entry? e = some y) :
    ∃ z, t.entry? e = some z ∧ z.uncounted = y.uncounted := by
  have hfind (l : List Entry) : (l.map Entry.uncounted).find? (fun x => x.number == e) =
      (l.find? (fun x => x.number == e)).map Entry.uncounted := List.find?_map ..
  have hf : (t.entry? e).map Entry.uncounted = (s.entry? e).map Entry.uncounted := by
    unfold State.entry?
    rw [← hfind, ← hfind, h.table]
  rw [hy, Option.map_some] at hf
  exact Option.map_eq_some_iff.1 hf

theorem Assigns.numbers {s t : State} (h : Assigns s t) : t.ec.table.map (·.number) = s.ec.table.map (·.number) := by
  have hn := congrArg (List.map (fun y : Entry => y.number)) h.table
  rw [List.map_map, List.map_map] at hn
  exact hn

theorem State.IntakeOk.held_undecided {s : State} (k : s.IntakeOk) {x : Slot} (hx : x ∈ s.iq.slots) (hh : x.state = .held) :
    x.outcome = none := by
  refine Classical.byContradiction (fun hne => ?_)
  obtain hw | hc := k.decided x hx (Option.isSome_iff_ne_none.2 hne)
  · exact absurd (hh.symm.trans hw) (by decide)
  · exact absurd (hh.symm.trans hc) (by decide)

/-- The state FINISH leaves, from its releases. -/
def State.closedOff (w : State) (ev : Event) : State :=
  { (w.raise ev).setBridge .journaling with re := (w.raise ev).re.ended }

theorem State.finish_closedOff (s : State) (t : EpochNo) : s.finish t =
    ((s.cut t s.nextNumber).releaseJournaling Slot.unassigned).closedOff
      { code := .rollbackDone, epoch := some t, arg := packCount s.re.applied s.re.discarded } := s.finish_eq t

theorem State.finishesTo {s : State} {t : EpochNo} {x w : Entry} {o : Nat} {kept : List Entry}
    (hk : kept = s.ec.table.takeWhile (fun y => y.number != t)) (hx : s.entry? t = some x) (ho : x.openLine = some o)
    (hw : s.ec.table.getLast? = some w) (hn : ∀ y ∈ kept, y.number ≠ w.number + 1#32) (hr : o < s.ringLines)
    (hroom : (o + s.ringLines - s.jw.tail) % s.ringLines + 2 ≤ s.ringLines) :
    s.FinishesTo (s.finish t) t (w.number + 1#32) o s.re.applied kept := by
  have hnext : s.nextNumber = w.number + 1#32 := by
    rw [State.nextNumber, hw]
    rfl
  rw [State.finish_closedOff, hnext]
  generalize w.number + 1#32 = n at hn
  have hcuts := State.finish_cuts (n := n) hk hx ho hn hr hroom
  generalize s.cut t n = b at hcuts
  rw [State.finish_release]
  have hA := State.assignAll_assigns (b.freed.map (·.ix)) (b.mapSlots Slot.passed)
  have hready : s.OpensAlone n kept → (b.mapSlots Slot.passed).ReadyFor b.freed n := hcuts.ready
  have hall : s.OpensAlone n kept → (b.mapSlots Slot.passed).TakesAll _ b.freed n := fun h => State.assignAll_takes (hready h)
  have hread {y : Slot} (k : s.IntakeOk) (hy : y ∈ s.iq.slots) (hh : y.state = .held) (hd : y.req.dir = .read) :=
    (State.freed_idles k.distinct hcuts.slots hy hh).read
      (by rw [y.passed_isWrite]; exact Slot.not_write hd) (b.freed.map (·.ix))
  have hmem {y : Slot} (hy : y ∈ s.iq.slots) (hh : y.state = .held) : y.passed ∈ b.freed :=
    (State.mem_freed hcuts.slots).2 ⟨y, hy, hh, rfl⟩
  obtain ⟨y0, hopen⟩ := hcuts.open_some
  have hwake {y : Slot} {i : WinIx} (k : s.IntakeOk) (hy : s.HeldWrite y) (hi : y.win = some i) :
      ((((b.freed.map (·.ix)).foldl (fun t q => t.assignReleased q) (b.mapSlots Slot.passed))).su.quiet[i]).dormant = false := by
    obtain ⟨hys, hh, hd⟩ := hy
    refine (State.freed_idles k.distinct hcuts.slots hys hh).wakes (e := y0) hopen
      (by rw [y.passed_isWrite]; exact y.isWrite_iff.2 hd) ?_ ?_ (y.passed_ix ▸ List.mem_map_of_mem (hmem hys hh))
    · rw [Slot.passed_held hh]
      exact (k.held_undecided hys hh : y.outcome = none)
    · rw [Slot.passed_held hh]
      exact hi
  generalize (b.freed.map (·.ix)).foldl (fun t q => t.assignReleased q) (b.mapSlots Slot.passed) = w at *
  have hframe := hA.frame
  have hwec : w.ec = { b.ec with table := w.ec.table } := by rw [hframe]; rfl
  have hwre : w.re = s.re := by rw [hframe]; exact hcuts.re
  have hwjw : w.jw = b.jw := by rw [hframe]; rfl
  have hwda : w.da = b.da := by rw [hframe]; rfl
  have hwwu : w.wu = b.wu := by rw [hframe]; rfl
  have hempty : (b.mapSlots Slot.passed).cu.touched = [] := by
    show b.cu.touched = []
    rw [hcuts.cu]
  have hexists {P : Slot → Prop} (hP : ∀ y : Slot, y.state = .held → (P y.passed ↔ P y)) :
      (∃ y ∈ b.freed, y.isWrite = true ∧ P y) ↔ ∃ y, s.HeldWrite y ∧ P y := by
    constructor
    · rintro ⟨y, hy, hyw, hyP⟩
      obtain ⟨z, hz, hzh, rfl⟩ := (State.mem_freed hcuts.slots).1 hy
      rw [z.passed_isWrite, z.isWrite_iff] at hyw
      exact ⟨z, ⟨hz, hzh, hyw⟩, (hP z hzh).1 hyP⟩
    · rintro ⟨y, ⟨hy, hyh, hyw⟩, hyP⟩
      exact ⟨y.passed, hmem hy hyh, by rw [y.passed_isWrite]; exact y.isWrite_iff.2 hyw, (hP y hyh).2 hyP⟩
  constructor
  case ec =>
    show { w.ec with bridge := .journaling } = _
    rw [hwec, hcuts.ec]
    rfl
  case re =>
    show w.re.ended = _
    rw [hwre]
    rfl
  case head =>
    show w.jw.head = _
    rw [hwjw, hcuts.head]
  case opened =>
    obtain ⟨z, hz, hzo⟩ := hA.entry? (show (b.mapSlots Slot.passed).entry? n = some (Entry.openedAt n o) from hcuts.entry hn)
    refine ⟨z, hz, ?_, ?_, ?_, ?_⟩
    · exact congrArg Entry.state hzo
    · exact congrArg Entry.openLine hzo
    · exact congrArg Entry.undos hzo
    · exact congrArg Entry.lastUndo hzo
  case table =>
    intro hle
    obtain ⟨htail, htable⟩ := hcuts.table hle
    refine ⟨?_, ?_⟩
    · show w.jw.tail = _
      rw [hwjw, htail]
    · show w.ec.table.map _ = _
      rw [hA.numbers]
      show b.ec.table.map _ = _
      rw [htable, List.map_append]
      rfl
  case windows =>
    refine ⟨?_, ?_, hA.banks.trans hcuts.su.1⟩
    · show w.wu.active = _
      rw [hwwu]
      exact hcuts.wu.1
    · show w.wu.armed = _
      rw [hwwu]
      exact hcuts.wu.2
  case ports =>
    have hframe := s.recordDa_frame (.openRec o n ((kept.getLast?).bind (·.openLine)))
    show w.da.forward = _ ∧ w.da.capture = _ ∧ w.da.rollback = _
    rw [hwda, hcuts.da, hframe]
    exact ⟨rfl, rfl, rfl⟩
  case record =>
    intro hh
    show w.da.sealWriter = _
    rw [hwda, hcuts.da, State.recordDa_ready hh]
  case released =>
    intro y hy
    obtain ⟨z, hz, hyz⟩ := hA.state_of_mem (show y ∈ w.iq.slots from hy)
    obtain ⟨z', -, rfl⟩ := List.mem_map.1 (show z ∈ b.iq.slots.map Slot.passed from hz)
    rw [show y.state = z'.passed.state from (congrArg Slot.state hyz : y.unassigned.state = z'.passed.unassigned.state)]
    exact z'.passed_state
  case reads =>
    intro k y hy hh hd
    exact (hread k hy hh hd).slot.trans (congrArg some (Slot.passed_held hh))
  case writes =>
    rintro hs y ⟨hy, hh, hd⟩
    have hyw : y.passed.isWrite = true := by rw [y.passed_isWrite]; exact y.isWrite_iff.2 hd
    have hslot (dup : Bool) (hdup : dup = true ↔ ∃ z, s.HeldWrite z ∧ z.granule = y.granule ∧ z.pos < y.pos) :
        w.slot? y.ix = some (y.passed.intoEpoch n dup) := by
      rw [← y.passed_ix]
      refine (hall hs).writes y.passed (hmem hy hh) hyw dup (hdup.trans ?_)
      rw [hempty, hexists (P := fun z => z.granule = y.passed.granule ∧ z.pos < y.passed.pos), Slot.passed_held hh]
      · simp only [List.not_mem_nil, false_or]
        rfl
      · intro z hz
        rw [Slot.passed_held hz]
        rfl
    refine ⟨fun hfirst => ?_, fun hlater => ?_⟩
    · refine (hslot false ⟨fun h => absurd h (by decide), ?_⟩).trans ?_
      · rintro ⟨z, hz, hzg, hzp⟩
        exact absurd hzp (Nat.not_lt.2 (hfirst z hz hzg))
      · rw [Slot.passed_held hh]
        rfl
    · refine (hslot true ⟨fun _ => hlater, fun _ => rfl⟩).trans ?_
      rw [Slot.passed_held hh]
      rfl
  case others =>
    intro hs y hy hh
    have k := hs.1
    have hnone : ∀ z ∈ b.freed, z.ix ≠ y.ix := by
      intro z hz hzy
      obtain ⟨z', hz', hzh, rfl⟩ := (State.mem_freed hcuts.slots).1 hz
      rw [z'.passed_ix] at hzy
      rw [k.unique hz' hy hzy] at hzh
      exact hh hzh
    have hsame : s.SameSlots b := fun q => slot?_reexamined hcuts.slots q
    obtain ⟨z, hz, hzy⟩ := hsame.find (State.slot?_of_mem k.distinct hy)
    have hzh : z.state ≠ .held := (Slot.reexamined_state' hzy) ▸ hh
    have hv : (b.mapSlots Slot.passed).slot? y.ix = some z := by
      show (b.iq.slots.map _).find? _ = _
      rw [find?_map_ix Slot.passed_ix, show b.iq.slots.find? (fun x => x.ix == y.ix) = some z from hz, Option.map_some,
        Slot.passed_of_unheld hzh]
    show (w.slot? y.ix).map Slot.reexamined = _
    rw [(hall hs).others y.ix hnone, hv, Option.map_some, hzy]
  case touched =>
    intro hs g
    show g ∈ w.cu.touched ↔ _
    rw [(hall hs).touched g, hempty, hexists (P := fun z => z.granule = g)]
    · simp only [List.not_mem_nil, false_or]
    · intro z hz
      rw [Slot.passed_held hz]
      rfl
  case accepted =>
    intro hs i
    show (w.su.openBank.entries[i]).accepted = true ↔ _
    rw [(hall hs).accepted i, hexists (P := fun z => z.win = some i)]
    · refine or_iff_right (fun hacc => ?_)
      exact absurd ((hcuts.su.2 i).symm.trans hacc) Bool.false_ne_true
    · intro z hz
      rw [Slot.passed_held hz]
  case awake => exact fun k i y hy hi => hwake k hy hi
  case events =>
    obtain ⟨evs, he⟩ := hcuts.events
    obtain ⟨evs', he'⟩ := hA.events
    refine ⟨evs ++ evs', ?_⟩
    show w.eq.raise _ = _
    rw [he', EventQueue.raiseAll_append, ← he]
    rfl

end Sys2Proof.Machine

/-! RESTORE_WRITE_ACK (R148, R149, R152, R154). -/
namespace Sys2Proof.Machine

/-! ## The next chain (R148) -/

theorem nextChain_skip {l m : List Entry} (h : ∀ z ∈ l, z.lastUndo = none) : nextChain (l ++ m) = nextChain m := by
  induction l with
  | nil => rfl
  | cons z l ih =>
    have hz := h z List.mem_cons_self
    rw [List.cons_append, nextChain, hz]
    exact ih (fun y hy => h y (List.mem_cons_of_mem z hy))

theorem nextChain_newest {older newer : List Entry} {y : Entry} {l : Nat} (hn : ∀ z ∈ newer, z.lastUndo = none)
    (hy : y.lastUndo = some l) : nextChain (older ++ y :: newer).reverse = some (y.number, l) := by
  rw [List.reverse_append, List.reverse_cons, List.append_assoc,
    nextChain_skip (fun z hz => hn z (List.mem_reverse.1 hz))]
  show nextChain (y :: older.reverse) = _
  rw [nextChain, hy]

theorem nextChain_none {l : List Entry} (h : ∀ z ∈ l, z.lastUndo = none) : nextChain l.reverse = none := by
  have hs := nextChain_skip (l := l.reverse) (m := []) (fun z hz => h z (List.mem_reverse.1 hz))
  rwa [List.append_nil] at hs

theorem State.walkOn_chain {s : State} {t e : EpochNo} {es : List Entry} {l : Nat} (h : nextChain es = some (e, l)) :
    s.walkOn t es = s.readRecord e l := by
  unfold State.walkOn
  rw [h]

theorem State.walkOn_finish {s : State} {t : EpochNo} {es : List Entry} (h : nextChain es = none) :
    s.walkOn t es = s.finish t := by
  unfold State.walkOn
  rw [h]

/-! ## The state that goes on (R149) -/

/-- The port freed and the restore counted. -/
def State.restored (s : State) (p : PortIx) : State :=
  { s.begin.freePort p with re := { s.re with applied := satInc Config.count24Max s.re.applied } }

/-- The record in hand is done with. -/
def State.emptyHanded (s : State) : State := { s with re := { s.re with inHand := none } }

theorem State.followLink_link {s : State} {t e : EpochNo} {r : Record} {b : Nat} (ht : s.re.target = some t)
    (he : s.re.walkEpoch = some e) (hr : s.re.inHand = some r) (hb : r.backLink = some b) :
    s.followLink = s.readRecord e b := by
  unfold State.followLink
  rw [ht, he, hr]
  dsimp only [Option.bind_some]
  rw [hb]

theorem State.followLink_end {s : State} {t e : EpochNo} {r : Record} (ht : s.re.target = some t)
    (he : s.re.walkEpoch = some e) (hr : s.re.inHand = some r) (hb : r.backLink = none) :
    s.followLink = s.emptyHanded.walkOn t (s.olderInSpan t e) := by
  unfold State.followLink
  rw [ht, he, hr]
  dsimp only [Option.bind_some]
  rw [hb]
  rfl

theorem exec_restored {s : State} {p : PortIx} (h : s.Outstanding p .restoreWrite) (data : List Byte) :
    exec (.restoreWriteAck p (.ok data)) s = .next (s.restored p).followLink.settle :=
  exec_restoreWriteAck h (.ok data)

theorem State.restored_intake {s : State} {p : PortIx} (h : s.Outstanding p .restoreWrite) (k : s.IntakeOk) :
    (s.restored p).emptyHanded.IntakeOk :=
  k.setPort (State.noForward_of_kind h rfl) (v := none) (by simp) rfl rfl rfl rfl rfl rfl

/-- FINISH from the state that goes on is FINISH from the state before the acknowledgment. -/
theorem State.FinishesTo.of_restored {s u : State} {p : PortIx} {t n : EpochNo} {o applied : Nat} {kept : List Entry}
    (h : (s.restored p).emptyHanded.FinishesTo u t n o applied kept) (hp : s.Outstanding p .restoreWrite) :
    s.FinishesTo u t n o applied kept := by
  have hk : s.IntakeOk → (s.restored p).emptyHanded.IntakeOk := State.restored_intake hp
  have ho : s.OpensAlone n kept → (s.restored p).emptyHanded.OpensAlone n kept :=
    fun ⟨k, h1, h2, h3⟩ => ⟨hk k, h1, h2, h3⟩
  have hholds : (s.restored p).emptyHanded.holdsBack = s.holdsBack := State.holdsBack_freePort_of (s := s.begin) hp rfl
  exact {
    ec := h.ec
    re := h.re
    head := h.head
    opened := h.opened
    table := h.table
    windows := h.windows
    ports := h.ports
    record := fun hh => h.record (hholds.trans hh)
    released := h.released
    reads := fun k => h.reads (hk k)
    writes := fun hs => h.writes (ho hs)
    others := fun hs => h.others (ho hs)
    touched := fun hs => h.touched (ho hs)
    accepted := fun hs => h.accepted (ho hs)
    awake := fun k => h.awake (hk k)
    events := h.events }

/-- Settles O47: the walk follows the back-link, goes on to the next chain, or finishes. -/
theorem restoreWriteAck : Obligations.RestoreWriteAck := by
  unfold Obligations.RestoreWriteAck
  intro s p t e data hp ht he applied span reads
  have happlied : (s.restored p).re.applied = applied := rfl
  have hspan : (s.restored p).olderInSpan t e = span.reverse := rfl
  refine ⟨fun r b hr hb => ?link, fun r older y newer l hr hb hsp hn hy => ?chain,
    fun r x w o kept hr hb hn hk hx ho hw hne hlt hroom => ?finish⟩
  case link =>
    rw [exec_restored hp, State.followLink_link (s := s.restored p) ht he hr hb]
    exact congrArg (fun u => Host.Outcome.next (State.settle u)) rfl
  case chain =>
    rw [exec_restored hp, State.followLink_end (s := s.restored p) ht he hr hb, hspan, hsp,
      State.walkOn_chain (nextChain_newest hn hy)]
    exact congrArg (fun u => Host.Outcome.next (State.settle u)) rfl
  case finish =>
    have hfin : (s.restored p).emptyHanded.FinishesTo _ t (w.number + 1#32) o applied kept :=
      State.finishesTo hk hx ho hw hne hlt hroom
    have hwithin := (s.restored p).emptyHanded.finish_within t
    refine ⟨(s.restored p).emptyHanded.finish t, ?_, hfin.of_restored hp, hwithin.sameAround (s.freePort_sameAround p),
      hwithin.keeps.ports⟩
    rw [exec_restored hp, State.followLink_end (s := s.restored p) ht he hr hb, hspan, State.walkOn_finish (nextChain_none hn)]

end Sys2Proof.Machine

/-! DRAIN waits, and ends (R144, R146, R148). -/
namespace Sys2Proof.Machine

/-! ## DRAIN waits (R144) -/

theorem State.testDrain_waits {s : State} (h : s.drainDone = false) : s.testDrain = s := by
  unfold State.testDrain
  split
  · rw [h]
    exact if_neg Bool.false_ne_true
  · rfl

theorem State.testDrain_ends {s : State} {t : EpochNo} (hp : s.re.phase = .drain) (ht : s.re.target = some t)
    (h : s.drainDone = true) : s.testDrain = s.judge t := by
  unfold State.testDrain
  rw [hp, ht]
  exact if_pos h

theorem State.drainDone_false {s : State}
    (h : (∃ x ∈ s.iq.slots, (x.epoch.isSome ∨ x.captureEnded = true) ∧ x.state ≠ .held) ∨ s.sealingEntry?.isSome ∨
      s.recordWriteLeft = true ∨ ∃ x ∈ s.iq.slots, x.outcome = some .halted) : s.drainDone = false := by
  refine Bool.eq_false_iff.2 (fun hd => ?_)
  obtain ⟨hdrains, hseal, hleft, hhalt⟩ := s.drainDone_iff.1 hd
  obtain ⟨x, hx, hxd⟩ | hs | hl | ⟨x, hx, hxo⟩ := h
  · obtain ⟨he, hc⟩ := (hdrains x hx).resolve_right hxd.2
    rw [he, hc] at hxd
    exact hxd.1.elim Bool.false_ne_true Bool.false_ne_true
  · rw [hseal] at hs
    exact Bool.false_ne_true hs
  · exact Bool.false_ne_true (hleft.symm.trans hl)
  · exact hhalt x hx hxo

theorem State.settle_drain {s : State} (k : s.IntakeOk) (hs : s.HeadsSettled) (hn : s.NoSealDue) (hd : s.drainDone = false) :
    s.settle = s := by
  have hw := State.serve_of_headsSettled k hs
  rw [State.settle, hw, State.startSeal_self hn, hw, State.testDrain_waits hd, hw]

/-! ## DRAIN ends (R144, R146) -/

/-- A drained queue: no request is WAITING, and each that DRAIN waits for has been answered or is HELD. -/
def State.Drained (s : State) : Prop :=
  ∀ x ∈ s.iq.slots, x.state ≠ .waiting ∧ (x.epoch = none ∧ x.captureEnded = false ∨ x.state = .held) ∧
    x.outcome ≠ some .halted

theorem State.Drained.drainDone {s : State} (h : s.Drained) (hs : s.sealingEntry? = none)
    (hl : s.recordWriteLeft = false) : s.drainDone = true :=
  s.drainDone_iff.2 ⟨fun x hx => (h x hx).2.1, hs, hl, fun x hx => (h x hx).2.2⟩

theorem State.Drained.settle {s : State} {t : EpochNo} (h : s.Drained) (hp : s.re.phase = .drain)
    (ht : s.re.target = some t) (hs : s.sealingEntry? = none) (hl : s.recordWriteLeft = false) :
    s.settle = (s.judge t).serve := by
  have hw : s.serve = s := State.serve_of_none_waiting (fun x hx => (h x hx).1)
  have hseal : s.startSeal = s := State.startSeal_self (fun e he => by simp [hs] at he)
  rw [State.settle, hw, hseal, hw, State.testDrain_ends hp ht (h.drainDone hs hl)]

theorem State.judge_walks {s : State} {t : EpochNo} (he : (s.entry? t).isSome) (hb : ∀ z ∈ s.span t, z.broken = none) :
    s.judge t = s.walkOn t (s.span t).reverse := by
  refine if_pos ⟨he, fun h => ?_⟩
  obtain ⟨z, hz, hzb⟩ := List.any_eq_true.1 h
  rw [hb z hz] at hzb
  exact Bool.false_ne_true hzb

theorem dropWhile_nil_of_forall {α : Type} {p : α → Bool} {l : List α} (h : ∀ z ∈ l, p z = true) :
    l.dropWhile p = [] := by
  induction l with
  | nil => rfl
  | cons x l ih =>
    rw [List.dropWhile_cons_of_pos (h x List.mem_cons_self)]
    exact ih (fun z hz => h z (List.mem_cons_of_mem x hz))

theorem State.span_entry? {s : State} {t : EpochNo} (h : s.span t ≠ []) : (s.entry? t).isSome := by
  refine List.find?_isSome.2 ?_
  refine Classical.byContradiction (fun hno => ?_)
  refine h (dropWhile_nil_of_forall (fun z hz => ?_))
  exact bne_iff_ne.2 (fun he => hno ⟨z, hz, beq_iff_eq.2 he⟩)

theorem State.judge_refuses {s : State} {t : EpochNo}
    (h : (∀ y ∈ s.ec.table, y.number ≠ t) ∨ ∃ y ∈ s.span t, y.broken.isSome) : s.judge t = s.refuse t := by
  refine if_neg (fun hc => ?_)
  obtain ⟨he, hb⟩ := hc
  obtain hno | hbroken := h
  · obtain ⟨z, hz, hzt⟩ := List.find?_isSome.1 he
    exact hno z hz (beq_iff_eq.1 hzt)
  · exact hb (List.any_eq_true.2 hbroken)

/-! ## FINISH answers no request -/

theorem State.reserveOpen_uport (s : State) (e : EpochNo) : (s.reserveOpen e).uport = s.uport := by
  unfold State.reserveOpen
  split
  · exact (s.placeOpen_frame e).2.2.2.2.1
  · exact ((s.reservationFails e).placeOpen_frame e).2.2.2.2.1.trans (s.reservationFails_calm e).uport

theorem State.cutTo_uport (s : State) (t n : EpochNo) : (s.cutTo t n).uport = s.uport := by
  have h := (State.evaluate_calm { s with jw := { s.jw with head := (s.openLineOf t).getD s.jw.head } }).uport
  exact h

theorem State.cut_uport (s : State) (t n : EpochNo) : (s.cut t n).uport = s.uport := by
  have hcut := ((s.cutTo t n).reserveOpen_uport n).trans (s.cutTo_uport t n)
  unfold State.cut
  generalize (s.cutTo t n).reserveOpen n = a at hcut
  refine ((State.commitExcess_calm _ .rollback).uport).trans ?_
  have hfill : (a.resetBanks.applyFill (some n)).uport = a.uport := by rw [State.applyFill_eq]; rfl
  exact hfill.trans hcut

theorem State.releaseJournaling_uport (s : State) (f : Slot → Slot) : (s.releaseJournaling f).uport = s.uport := by
  rw [State.releaseJournaling_eq, (State.assignAll_assigns s.heldSlots (s.mapSlots (Slot.released f))).frame]
  rfl

theorem State.closedOff_uport (s : State) (ev : Event) : (s.closedOff ev).uport = s.uport := rfl

theorem State.finish_uport (s : State) (t : EpochNo) : (s.finish t).uport = s.uport := by
  rw [State.finish_closedOff, State.closedOff_uport, State.releaseJournaling_uport, State.cut_uport]

end Sys2Proof.Machine

/-! ROLLBACK-REFUSED up to its releases (R145, R147). -/
namespace Sys2Proof.Machine

/-- The rollback is over and the bridge takes writes again. -/
def State.resumed (s : State) : State := { s.setBridge .journaling with re := s.re.ended }

/-- The state ROLLBACK-REFUSED releases from. -/
def State.unrolled (s : State) : State := s.resumed.commitExcess .rollback

theorem State.refuse_eq (s : State) (t : EpochNo) : s.refuse t = (s.unrolled.releaseJournaling id).raise
    { code := .rollbackRefused, epoch := some t,
      arg := packBytes (if (s.entry? t).isSome then 1 else 2) s.re.discarded 0 0 } := rfl

/-- From `s` to `b` the rollback is over with nothing restored, and the SEALED epochs above the retention depth are committed. -/
structure State.Unrolls (s b : State) : Prop where
  ec     : b.ec = { s.ec with bridge := .journaling, table := b.ec.table }
  re     : b.re = s.re.ended
  table  : ∃ old, s.ec.table = old ++ b.ec.table ∧ ∀ y ∈ old, y.state = .sealed
  few    : s.sealedCount ≤ s.ec.retention → b.jw.tail = s.jw.tail ∧ b.ec.table = s.ec.table
  head   : b.jw.head = s.jw.head
  press  : b.jw.pressure = .suspended ↔ s.jw.pressure = .suspended
  blocks : b.wu = s.wu ∧ b.cu = s.cu ∧ b.da = s.da
  port   : b.port = s.port
  slots  : b.iq.slots.map Slot.reexamined = s.iq.slots.map Slot.reexamined
  events : ∃ evs, b.eq = s.eq.raiseAll evs

theorem State.unrolled_unrolls (s : State) : s.Unrolls s.unrolled := by
  have hle : s.sealedCount ≤ s.ec.retention → s.unrolled = s.resumed := by
    intro h
    have hz : s.resumed.sealedCount - s.resumed.ec.retention = 0 := Nat.sub_eq_zero_of_le h
    unfold State.unrolled State.commitExcess
    rw [hz]
    rfl
  obtain ⟨old, rest, htable, hold, hcom⟩ := State.commitN_some (s.resumed.sealedCount - s.resumed.ec.retention) s.resumed .rollback
  have hb : s.unrolled = s.resumed.commitN (s.resumed.sealedCount - s.resumed.ec.retention) .rollback := rfl
  rw [← hb] at hcom
  generalize s.unrolled = b at hle hcom
  obtain ⟨evs, hev, -⟩ := hcom.eq
  have hec : b.ec = { s.ec with bridge := .journaling, table := rest } := hcom.ec
  constructor
  case ec => rw [hec]
  case re => exact hcom.calm.re
  case table => exact ⟨old, by rw [hec]; exact htable, hold⟩
  case few =>
    intro h
    rw [hle h]
    exact ⟨rfl, rfl⟩
  case head => exact hcom.head
  case press => exact ⟨fun h => Classical.not_not.1 (fun hn => hcom.calmed hn h), fun h => (hcom.still h).1⟩
  case blocks => exact ⟨hcom.calm.wu, hcom.calm.cu, hcom.calm.da⟩
  case port => exact hcom.calm.port
  case slots => exact hcom.calm.slots
  case events => exact ⟨evs, hev⟩

theorem State.Unrolls.openEntry? {s b : State} (h : s.Unrolls b) {y : Entry} (hy : s.openEntry? = some y) :
    b.openEntry? = some y := by
  obtain ⟨old, htable, hold⟩ := h.table
  have hnone : old.find? (fun x => x.state == .opened) = none :=
    List.find?_eq_none.2 (fun z hz => by rw [hold z hz]; decide)
  rw [State.openEntry?, htable, List.find?_append, hnone, Option.none_or] at hy
  exact hy

/-- The cause byte of ROLLBACK-REFUSED. -/
theorem State.refusedArg (s : State) (t : EpochNo) : packBytes (if (s.entry? t).isSome then 1 else 2) s.re.discarded 0 0 =
    word32 (if s.ec.table.any (fun y => y.number == t) then 1#8 else 2#8) (BitVec.ofNat 8 s.re.discarded) 0#8 0#8 := by
  rw [packBytes_two, State.entry?, List.isSome_find?]
  split <;> rfl

/-- What ROLLBACK-REFUSED leaves, whatever the OPEN epoch. -/
structure State.Refuses (s u : State) (t : EpochNo) : Prop where
  ec       : u.ec = { s.ec with bridge := .journaling, table := u.ec.table }
  da       : u.da = s.da
  port     : u.port = s.port
  re       : u.re = s.re.ended
  events   : ∃ evs, u.eq = (s.eq.raiseAll evs).raise
               { code := .rollbackRefused, epoch := some t,
                 arg := word32 (if s.ec.table.any (fun y => y.number == t) then 1#8 else 2#8)
                          (BitVec.ofNat 8 s.re.discarded) 0#8 0#8 }
  released : ∀ x ∈ u.iq.slots, x.state ≠ .held
  head     : u.jw.head = s.jw.head
  wu       : u.wu = s.wu
  few      : s.sealedCount ≤ s.ec.retention →
               u.jw.tail = s.jw.tail ∧ u.ec.table.map (·.number) = s.ec.table.map (·.number)

theorem State.refuse_refuses (s : State) (t : EpochNo) : s.Refuses (s.refuse t) t := by
  rw [State.refuse_eq, State.refusedArg]
  have h := s.unrolled_unrolls
  generalize s.unrolled = b at h
  have hheld : ∀ x ∈ (b.releaseJournaling id).iq.slots, x.state ≠ .held := b.releaseJournaling_notHeld (f := id) (fun _ => rfl)
  have hA := State.assignAll_assigns b.heldSlots (b.mapSlots (Slot.released id))
  rw [State.releaseJournaling_eq] at hheld ⊢
  generalize b.heldSlots.foldl (fun t q => t.assignReleased q) (b.mapSlots (Slot.released id)) = w at hA hheld
  have hframe := hA.frame
  have hwec : w.ec = { b.ec with table := w.ec.table } := by rw [hframe]; rfl
  have hwjw : w.jw = b.jw := by rw [hframe]; rfl
  constructor
  case ec =>
    show w.ec = _
    rw [hwec, h.ec]
    rfl
  case da =>
    refine Eq.trans ?_ h.blocks.2.2
    show w.da = _
    rw [hframe]
    rfl
  case port =>
    refine Eq.trans ?_ h.port
    show w.port = _
    rw [hframe]
    rfl
  case re =>
    refine Eq.trans ?_ h.re
    show w.re = _
    rw [hframe]
    rfl
  case events =>
    obtain ⟨evs, he⟩ := h.events
    obtain ⟨evs', he'⟩ := hA.events
    refine ⟨evs ++ evs', ?_⟩
    show w.eq.raise _ = _
    rw [he', EventQueue.raiseAll_append, ← he]
    rfl
  case released => exact hheld
  case head => exact (congrArg JournalWriter.head hwjw).trans h.head
  case wu =>
    refine Eq.trans ?_ h.blocks.1
    show w.wu = _
    rw [hframe]
    rfl
  case few =>
    intro hle
    obtain ⟨htail, htable⟩ := h.few hle
    refine ⟨(congrArg JournalWriter.tail hwjw).trans htail, ?_⟩
    show w.ec.table.map _ = _
    rw [hA.numbers]
    show b.ec.table.map _ = _
    rw [htable]

end Sys2Proof.Machine

/-! Released writes that are not looked up: the OPEN epoch is broken, or pressure SUSPENDED (R60, R61, R63). -/
namespace Sys2Proof.Machine

/-- A write with no assignment as it enters epoch `n` without a lookup; any other request stays. -/
def Slot.enrolled (n : EpochNo) (x : Slot) : Slot :=
  if x.isWrite = true ∧ x.epoch = none then { x with epoch := some n, marking := some .noCapture } else x

theorem Slot.enrolled_write {n : EpochNo} {x : Slot} (hw : x.isWrite = true) (he : x.epoch = none) :
    x.enrolled n = { x with epoch := some n, marking := some .noCapture } := if_pos ⟨hw, he⟩

theorem Slot.enrolled_other {n : EpochNo} {x : Slot} (h : x.isWrite = false ∨ x.epoch.isSome) : x.enrolled n = x :=
  if_neg (fun hx => by
    obtain hw | he := h
    · exact Bool.false_ne_true (hw.symm.trans hx.1)
    · rw [hx.2] at he
      exact Bool.false_ne_true he)

theorem Slot.enrolled_twice (n : EpochNo) (x : Slot) : (x.enrolled n).enrolled n = x.enrolled n := by
  by_cases h : x.isWrite = true ∧ x.epoch = none
  · rw [Slot.enrolled_write h.1 h.2]
    exact Slot.enrolled_other (.inr rfl)
  · have hx : x.enrolled n = x := if_neg h
    rw [hx, hx]

theorem Slot.enrolled_reexamined (n : EpochNo) (x : Slot) : (x.enrolled n).reexamined = x.reexamined.enrolled n := by
  by_cases h : x.isWrite = true ∧ x.epoch = none
  · rw [Slot.enrolled_write h.1 h.2]
    exact (Slot.enrolled_write (x := x.reexamined) h.1 h.2).symm
  · have hx : x.enrolled n = x := if_neg h
    have hr : x.reexamined.enrolled n = x.reexamined := if_neg h
    rw [hx, hr]

/-- The OPEN epoch is `n`, and a write assigned to it is not looked up. -/
def State.Unlooked (s : State) (n : EpochNo) : Prop :=
  ∃ y, s.openEntry? = some y ∧ y.number = n ∧ (s.jw.pressure = .suspended ∨ y.broken.isSome = true)

/-- What slot `r` holds, but for the mark. -/
def State.look (s : State) (r : SlotIx) : Option Slot := (s.slot? r).map Slot.reexamined

/-- From `s` to `t` slot `q` enters epoch `n` if it holds an unassigned write; nothing is looked up. -/
structure State.Enrolls (s t : State) (q : SlotIx) (n : EpochNo) : Prop where
  unlooked : t.Unlooked n
  cu       : t.cu = s.cu
  same     : t.look q = (s.look q).map (Slot.enrolled n)
  others   : ∀ r, r ≠ q → t.look r = s.look r

theorem State.taken_frame (s : State) (q : SlotIx) (x : Slot) (e : EpochNo) : (s.taken q x e).ec = s.ec ∧
    (s.taken q x e).jw = s.jw ∧ (s.taken q x e).cu = s.cu ∧
    (s.taken q x e).iq = (s.setSlot q (fun z => { z with epoch := some e })).iq := by
  unfold State.taken
  split
  · rw [((s.setSlot q (fun z => { z with epoch := some e })).takeWrite_takes x e).frame]
    exact ⟨rfl, rfl, rfl, rfl⟩
  · exact ⟨rfl, rfl, rfl, rfl⟩

theorem State.assignWrite_enrolls {s : State} {q : SlotIx} {x : Slot} {n : EpochNo} (h : s.Unlooked n)
    (hx : s.slot? q = some x) (hw : x.isWrite = true) (he : x.epoch = none) : s.Enrolls (s.assignWrite q) q n := by
  obtain ⟨y, hy, rfl, hwhy⟩ := h
  have hq := (State.mem_of_slot? hx).2
  obtain ⟨htec, htjw, htcu, htiq⟩ := s.taken_frame q x y.number
  have hassigns := s.assignWrite_assigns q
  rw [State.assignWrite_of hx hy] at hassigns ⊢
  generalize s.taken q x y.number = t at *
  have htslot : t.slot? q = some { x with epoch := some y.number } := by
    rw [State.slot?, htiq]
    exact State.slot?_setSlot_same (f := fun z => { z with epoch := some y.number }) (fun _ => rfl) hx
  have htother (r : SlotIx) (hr : r ≠ q) : t.slot? r = s.slot? r := by
    rw [State.slot?, htiq]
    exact State.slot?_setSlot_other (f := fun z => { z with epoch := some y.number }) hr (fun _ => rfl)
  have hmark : t.markWrite x y = (t.unlookedMark y.number).setSlot x.ix (fun z => { z with marking := some .noCapture }) :=
    State.markWrite_unlooked (by rw [htjw]; exact hwhy.imp_right .inl)
  have hcalm := t.unlookedMark_calm y.number
  have hbroken : s.jw.pressure ≠ .suspended → (t.unlookedMark y.number).ec = s.ec := by
    intro hp
    rw [State.unlookedMark, if_neg (by rw [htjw]; exact hp), htec]
  rw [hmark, hq] at hassigns ⊢
  generalize t.unlookedMark y.number = v at *
  constructor
  case unlooked =>
    have hjw := congrArg State.jw hassigns.frame
    by_cases hp : s.jw.pressure = .suspended
    · obtain ⟨z, hz, hzy⟩ := hassigns.openEntry? hy
      exact ⟨z, hz, Entry.uncounted_number hzy, .inl ((congrArg JournalWriter.pressure hjw).trans hp)⟩
    · refine ⟨y, ?_, rfl, .inr (hwhy.resolve_left hp)⟩
      show v.openEntry? = _
      rw [State.openEntry?, hbroken hp]
      exact hy
  case cu => exact hcalm.cu.trans htcu
  case same =>
    obtain ⟨z, hz, hzx⟩ := hcalm.sameSlots.find htslot
    rw [State.look, State.look, hx, State.slot?_setSlot_same (f := fun z => { z with marking := some .noCapture })
      (fun _ => rfl) hz]
    show some { z.reexamined with marking := some Marking.noCapture } = some (x.reexamined.enrolled y.number)
    rw [hzx, Slot.enrolled_write (x := x.reexamined) hw he]
    rfl
  case others =>
    intro r hr
    rw [State.look, State.look, State.slot?_setSlot_other (f := fun z => { z with marking := some .noCapture }) hr
      (fun _ => rfl), ← htother r hr]
    exact hcalm.sameSlots r

theorem State.assignReleased_enrolls {s : State} {n : EpochNo} (h : s.Unlooked n) (q : SlotIx) :
    s.Enrolls (s.assignReleased q) q n := by
  cases hx : s.slot? q with
  | none =>
    have hself : s.assignReleased q = s := by
      unfold State.assignReleased
      rw [hx]
    rw [hself]
    exact ⟨h, rfl, by rw [State.look, hx]; rfl, fun _ _ => rfl⟩
  | some x =>
    rw [State.assignReleased_of hx]
    split
    · rename_i hw
      exact State.assignWrite_enrolls h hx hw.1 (Option.isNone_iff_eq_none.1 hw.2)
    · rename_i hw
      refine ⟨h, rfl, ?_, fun _ _ => rfl⟩
      have hself : x.reexamined.enrolled n = x.reexamined :=
        if_neg (fun hc => hw ⟨hc.1, Option.isNone_iff_eq_none.2 hc.2⟩)
      rw [State.look, hx]
      exact congrArg some hself.symm

/-- All the released writes enter the epoch, none is looked up. -/
theorem State.assignAll_enrolls {n : EpochNo} {l : List SlotIx} {s : State} (h : s.Unlooked n) :
    (l.foldl (fun t q => t.assignReleased q) s).cu = s.cu ∧
      ∀ r, (l.foldl (fun t q => t.assignReleased q) s).look r =
        (s.look r).map (fun x => if r ∈ l then x.enrolled n else x) := by
  induction l generalizing s with
  | nil => exact ⟨rfl, fun r => by simp⟩
  | cons q l ih =>
    have hstep := State.assignReleased_enrolls h q
    obtain ⟨hcu, hlook⟩ := ih hstep.unlooked
    refine ⟨hcu.trans hstep.cu, fun r => ?_⟩
    rw [List.foldl_cons, hlook r]
    by_cases hr : r = q
    · subst hr
      rw [hstep.same, Option.map_map]
      refine congrFun (congrArg Option.map (funext fun x => ?_)) _
      by_cases hl : r ∈ l
      · simp [hl, Slot.enrolled_twice]
      · simp [hl]
    · rw [hstep.others r hr]
      simp [hr]

/-! ## The release into JOURNALING (R14) -/

/-- The record of a HELD request released into JOURNALING with what it has. -/
def Slot.letGo (x : Slot) : Slot := { x with state := .waiting, holdEntry := none, atPoint := false }

theorem Slot.released_held {x : Slot} (h : x.state = .held) :
    x.released id = { x with state := .waiting, holdEntry := none } := by
  unfold Slot.released
  rw [if_pos h]
  exact if_pos h

theorem Slot.released_unheld {x : Slot} (h : x.state ≠ .held) : x.released id = x := if_neg h

theorem Slot.released_ix (x : Slot) : (x.released id).ix = x.ix := by
  by_cases h : x.state = .held
  · rw [Slot.released_held h]
  · rw [Slot.released_unheld h]

theorem State.mem_heldSlots {s : State} {x : Slot} (hx : x ∈ s.iq.slots) (h : x.state = .held) : x.ix ∈ s.heldSlots :=
  List.mem_map_of_mem (List.mem_filter.2 ⟨hx, by simpa using h⟩)

/-- A HELD request of `s` in the state that has released it. -/
theorem State.letGo_slot? {s b : State} (hd : (s.iq.slots.map (·.ix)).Nodup)
    (hb : b.iq.slots.map Slot.reexamined = s.iq.slots.map Slot.reexamined) {x : Slot} (hx : x ∈ s.iq.slots)
    (h : x.state = .held) : x.ix ∈ b.heldSlots ∧ ∃ z : Slot, z.reexamined = x.reexamined ∧
      (b.mapSlots (Slot.released id)).slot? x.ix = some { z with state := .waiting, holdEntry := none } := by
  have hsame : s.SameSlots b := fun q => slot?_reexamined hb q
  obtain ⟨z, hz, hzx⟩ := hsame.find (State.slot?_of_mem hd hx)
  obtain ⟨hzm, hzix⟩ := State.mem_of_slot? hz
  have hzh : z.state = .held := (Slot.reexamined_state' hzx).trans h
  refine ⟨hzix ▸ State.mem_heldSlots hzm hzh, z, hzx, ?_⟩
  show (b.iq.slots.map (Slot.released id)).find? _ = _
  rw [find?_map_ix Slot.released_ix, show b.iq.slots.find? (fun y => y.ix == x.ix) = some z from hz, Option.map_some,
    Slot.released_held hzh]

/-- The release of the HELD requests when writes of the OPEN epoch `n` are not looked up. -/
theorem State.releaseJournaling_unlooked {s b : State} {n : EpochNo} (hd : (s.iq.slots.map (·.ix)).Nodup)
    (hb : b.iq.slots.map Slot.reexamined = s.iq.slots.map Slot.reexamined) (hu : b.Unlooked n) :
    (b.releaseJournaling id).cu = b.cu ∧ ∀ x ∈ s.iq.slots, x.state = .held →
      (b.releaseJournaling id).look x.ix = some (x.letGo.enrolled n) := by
  rw [State.releaseJournaling_eq]
  obtain ⟨hcu, hlook⟩ := State.assignAll_enrolls (l := b.heldSlots) (s := b.mapSlots (Slot.released id)) (n := n) hu
  refine ⟨hcu, fun x hx hh => ?_⟩
  obtain ⟨hmem, z, hzx, hz⟩ := State.letGo_slot? hd hb hx hh
  rw [hlook, State.look, hz, Option.map_some, Option.map_some, if_pos hmem]
  show some (Slot.enrolled n { z.reexamined with state := .waiting, holdEntry := none }) = _
  rw [hzx]
  rfl

end Sys2Proof.Machine

/-! One released write that is looked up (R60, R62, R63). -/
namespace Sys2Proof.Machine

/-- What of a record a lookup of another write leaves: its key and its assignment. -/
def Slot.place (x : Slot) : (SlotIx × Request × Nat × Option WinIx × WinKind) × Option EpochNo := (x.key, x.epoch)

theorem State.setSlot_place (s : State) (q : SlotIx) {f : Slot → Slot} (hf : ∀ z, (f z).place = z.place) :
    (s.setSlot q f).iq.slots.map Slot.place = s.iq.slots.map Slot.place := by
  rw [State.setSlot_iq, List.map_map]
  refine List.map_congr_left (fun z _ => ?_)
  dsimp only [Function.comp]
  split
  · exact hf z
  · rfl

theorem State.lookup_place (s : State) (x : Slot) (e : Entry) :
    (s.lookup x e).iq.slots.map Slot.place = s.iq.slots.map Slot.place := by
  unfold State.lookup
  split
  · unfold State.takeDuty
    split
    · exact s.setSlot_place _ (f := fun z => { z with marking := some .noCapture }) (fun _ => rfl)
    · exact (State.setSlot_place _ _ (f := fun z => { z with marking := some .capture, duty := true }) (fun _ => rfl)).trans
        (s.setSlot_place _ (f := fun z => { z with marking := some .noCapture, duty := false }) (fun _ => rfl))
  · split
    · exact State.setSlot_place _ _ (f := fun z => { z with marking := some .capture, duty := true }) (fun _ => rfl)
    · unfold State.overflowLookup
      dsimp only
      split <;>
        exact State.setSlot_place (s.setEntry e.number (fun y => { y with overflow := satInc Config.overflowMax y.overflow }))
          x.ix (f := fun z => { z with marking := some .captureDup }) (fun _ => rfl)

/-- Records alike in what `g` tells stand in the same slots. -/
theorem find?_of_map {β : Type} {g : Slot → β} {k : β → SlotIx} (hk : ∀ z, k (g z) = z.ix) {l m : List Slot}
    (h : l.map g = m.map g) (q : SlotIx) :
    (l.find? (fun x => x.ix == q)).map g = (m.find? (fun x => x.ix == q)).map g := by
  have hfind (l : List Slot) : (l.map g).find? (fun y => k y == q) = (l.find? (fun x => x.ix == q)).map g := by
    rw [List.find?_map]
    congr 2
    funext z
    exact congrArg (· == q) (hk z)
  rw [← hfind, ← hfind, h]

/-- Slot `r` holds a write without an assignment. -/
def State.Unassigned (s : State) (r : SlotIx) : Prop :=
  ∃ x, s.slot? r = some x ∧ x.isWrite = true ∧ x.epoch = none

theorem State.Unassigned.of_place {s t : State} {r : SlotIx} (h : t.Unassigned r)
    (hp : t.iq.slots.map Slot.place = s.iq.slots.map Slot.place) : s.Unassigned r := by
  obtain ⟨x, hx, hw, he⟩ := h
  have hfind := find?_of_map (g := Slot.place) (k := fun y => y.1.1) (fun _ => rfl) hp r
  have hx' : t.iq.slots.find? (fun x => x.ix == r) = some x := hx
  rw [hx', Option.map_some] at hfind
  obtain ⟨z, hz, hzx⟩ := Option.map_eq_some_iff.1 hfind.symm
  have hreq : z.req = x.req := congrArg (fun p => p.1.2.1) hzx
  refine ⟨z, hz, ?_, (congrArg (fun p => p.2) hzx).trans he⟩
  rw [Slot.isWrite, hreq]
  exact hw

theorem State.assignReleased_skips {s : State} {r : SlotIx} (h : ¬ s.Unassigned r) : s.assignReleased r = s := by
  cases hx : s.slot? r with
  | none =>
    unfold State.assignReleased
    rw [hx]
  | some x =>
    rw [State.assignReleased_of hx]
    exact if_neg (fun hc => h ⟨x, hx, hc.1, Option.isNone_iff_eq_none.1 hc.2⟩)

/-- When `q` alone holds an unassigned write, and its assignment unassigns none, the release is its assignment. -/
theorem State.assignAll_one {s : State} {q : SlotIx} {l : List SlotIx} (hq : q ∈ l) (hd : l.Nodup)
    (hbefore : ∀ r ∈ l, r ≠ q → ¬ s.Unassigned r) (hafter : ∀ r ∈ l, r ≠ q → ¬ (s.assignReleased q).Unassigned r) :
    l.foldl (fun t r => t.assignReleased r) s = s.assignReleased q := by
  obtain ⟨l₁, l₂, rfl⟩ := List.append_of_mem hq
  have hne₁ : ∀ r ∈ l₁, r ≠ q := fun r hr => (List.nodup_append.1 hd).2.2 r hr q List.mem_cons_self
  have hne₂ : ∀ r ∈ l₂, r ≠ q := by
    rintro r hr rfl
    exact (List.nodup_cons.1 (List.nodup_append.1 hd).2.1).1 hr
  rw [List.foldl_append, foldl_self (fun r hr => State.assignReleased_skips
    (hbefore r (List.mem_append_left _ hr) (hne₁ r hr))), List.foldl_cons]
  exact foldl_self (fun r hr => State.assignReleased_skips
    (hafter r (List.mem_append_right _ (List.mem_cons_of_mem q hr)) (hne₂ r hr)))

/-- The state in which the released write `x` is looked up. -/
theorem State.assignReleased_looks {s : State} {q : SlotIx} {x : Slot} {y : Entry} (hx : s.slot? q = some x)
    (hw : x.isWrite = true) (he : x.epoch = none) (ho : x.outcome = none) (hy : s.openEntry? = some y)
    (hp : s.jw.pressure ≠ .suspended) (hb : y.broken = none) :
    ∃ t : State, s.assignReleased q = t.lookup x y ∧ t.cu = s.cu ∧
      t.iq.slots = s.iq.slots.map (fun z => if z.ix == q then { z with epoch := some y.number } else z) := by
  obtain ⟨-, htjw, htcu, htiq⟩ := s.taken_frame q x y.number
  refine ⟨s.taken q x y.number, ?_, htcu, congrArg (fun i => i.slots) htiq⟩
  rw [State.assignReleased_of hx, if_pos ⟨hw, by rw [he]; rfl⟩, State.assignWrite_of hx hy]
  exact State.markWrite_looks (by rw [htjw]; exact hp) hb ho

/-! ## The one write looked up -/

/-- What of a record a release and marks leave, when it is not assigned. -/
def Slot.stake (x : Slot) : (SlotIx × Request × Nat × Option WinIx × WinKind) × Bool × Option EpochNo :=
  (x.key, x.duty, x.epoch)

theorem Slot.released_stake (x : Slot) : (x.released id).stake = x.stake := by
  by_cases h : x.state = .held
  · rw [Slot.released_held h]
    rfl
  · rw [Slot.released_unheld h]

theorem map_of_reexamined {β : Type} {g : Slot → β} (hg : ∀ z : Slot, g z.reexamined = g z) {l m : List Slot}
    (h : l.map Slot.reexamined = m.map Slot.reexamined) : l.map g = m.map g := by
  have hmap (l : List Slot) : l.map g = (l.map Slot.reexamined).map g := by
    rw [List.map_map]
    exact List.map_congr_left (fun z _ => (hg z).symm)
  rw [hmap l, h, ← hmap m]

/-- `z` carries the capture duty of the granule of `x` in epoch `n`, behind `x` (R63). -/
def State.Carries (s : State) (x : Slot) (n : EpochNo) (z : Slot) : Prop :=
  z ∈ s.iq.slots ∧ z.granule = x.granule ∧ z.duty = true ∧ z.epoch = some n ∧ x.pos < z.pos

theorem State.Carries.of_stake {s t : State} {x z z' : Slot} {n : EpochNo} (h : s.Carries x n z) (hz : z' ∈ t.iq.slots)
    (hs : z'.stake = z.stake) : t.Carries x n z' := by
  obtain ⟨-, hg, hd, he, hp⟩ := h
  have hreq : z'.req = z.req := congrArg (fun p => p.1.2.1) hs
  have hpos : z'.pos = z.pos := congrArg (fun p => p.1.2.2.1) hs
  refine ⟨hz, ?_, (congrArg (fun p => p.2.1) hs).trans hd, (congrArg (fun p => p.2.2) hs).trans he, hpos ▸ hp⟩
  rw [Slot.granule, hreq]
  exact hg

/-- The two states hold the same duties behind `x`. -/
def State.SameCarriers (s t : State) (x : Slot) (n : EpochNo) : Prop :=
  (∀ z, s.Carries x n z → ∃ z', t.Carries x n z' ∧ z'.stake = z.stake) ∧
    ∀ z', t.Carries x n z' → ∃ z, s.Carries x n z ∧ z'.stake = z.stake

theorem State.sameCarriers_assigned {s m t : State} {x : Slot} {n : EpochNo} (k : s.IntakeOk) (hx : x ∈ s.iq.slots)
    (hm : m.iq.slots.map Slot.stake = s.iq.slots.map Slot.stake)
    (ht : t.iq.slots = m.iq.slots.map (fun z => if z.ix == x.ix then { z with epoch := some n } else z)) :
    s.SameCarriers t x n := by
  constructor
  · intro z hz
    have hzm : z.stake ∈ m.iq.slots.map Slot.stake := hm ▸ List.mem_map_of_mem hz.1
    obtain ⟨z', hz', hzz⟩ := List.mem_map.1 hzm
    have hne : z'.ix ≠ x.ix := by
      intro hix
      have hzx : z = x := k.unique hz.1 hx ((congrArg (fun p => p.1.1) hzz).symm.trans hix)
      obtain ⟨-, -, -, -, hpos⟩ := hz
      rw [hzx] at hpos
      exact Nat.lt_irrefl _ hpos
    refine ⟨z', hz.of_stake ?_ hzz, hzz⟩
    rw [ht]
    have hmem := List.mem_map_of_mem (f := fun z : Slot => if z.ix == x.ix then { z with epoch := some n } else z) hz'
    rwa [if_neg (by simpa using hne)] at hmem
  · intro z' hz'
    obtain ⟨w, hw, rfl⟩ := List.mem_map.1 (ht ▸ hz'.1)
    have hws : w.stake ∈ s.iq.slots.map Slot.stake := hm ▸ List.mem_map_of_mem hw
    obtain ⟨z, hz, hzw⟩ := List.mem_map.1 hws
    by_cases hix : w.ix = x.ix
    · have hzx : z = x := k.unique hz hx ((congrArg (fun p => p.1.1) hzw).trans hix)
      obtain ⟨-, -, -, -, hpos⟩ := hz'
      rw [if_pos (by simpa using hix)] at hpos
      have hwpos : x.pos = w.pos := hzx ▸ congrArg (fun p => p.1.2.2.1) hzw
      exact absurd (hwpos ▸ hpos : x.pos < x.pos) (Nat.lt_irrefl _)
    · rw [if_neg (by simpa using hix)] at hz' ⊢
      exact ⟨z, hz'.of_stake hz hzw, hzw.symm⟩

end Sys2Proof.Machine

/-! The release of one unassigned write that is looked up (R62, R63). -/
namespace Sys2Proof.Machine

/-- From `s` to `u` the released write `x` enters epoch `n` with a lookup. -/
structure State.LooksUp (s u : State) (x : Slot) (n : EpochNo) : Prop where
  fresh : x.granule ∉ s.cu.touched → s.cu.touched.length < 1024 → u.cu.touched = x.granule :: s.cu.touched ∧
            u.look x.ix = some { x.letGo with epoch := some n, marking := some .capture, duty := true }
  full  : x.granule ∉ s.cu.touched → 1024 ≤ s.cu.touched.length → u.cu.touched = s.cu.touched ∧
            u.look x.ix = some { x.letGo with epoch := some n, marking := some .captureDup }
  known : x.granule ∈ s.cu.touched → (∀ z, ¬ s.Carries x n z) → u.cu.touched = s.cu.touched ∧
            u.look x.ix = some { x.letGo with epoch := some n, marking := some .noCapture }
  taken : ∀ z, x.granule ∈ s.cu.touched → s.Carries x n z → (∀ z', s.Carries x n z' → z' = z) →
            u.cu.touched = s.cu.touched ∧
            u.look x.ix = some { x.letGo with epoch := some n, marking := some .capture, duty := true } ∧
            ∃ z', u.slot? z.ix = some z' ∧ z'.key = z.key ∧ z'.marking = some .noCapture ∧ z'.duty = false

theorem State.carriers_find (s : State) (x : Slot) (n : EpochNo) :
    (s.iq.slots.find? (fun y => y.granule == x.granule && y.duty && y.epoch == some n && decide (x.pos < y.pos)) = none ↔
      ∀ z, ¬ s.Carries x n z) ∧
    ∀ z, s.iq.slots.find? (fun y => y.granule == x.granule && y.duty && y.epoch == some n && decide (x.pos < y.pos)) = some z →
      s.Carries x n z := by
  have hiff (z : Slot) (hz : z ∈ s.iq.slots) :
      (z.granule == x.granule && z.duty && z.epoch == some n && decide (x.pos < z.pos)) = true ↔ s.Carries x n z := by
    simp only [Bool.and_eq_true, beq_iff_eq, decide_eq_true_eq, State.Carries, hz, true_and, and_assoc]
  refine ⟨List.find?_eq_none.trans ⟨fun h z hz => h z hz.1 ((hiff z hz.1).2 hz), fun h z hz hp => h z ((hiff z hz).1 hp)⟩,
    fun z hz => ?_⟩
  have hp := List.find?_some hz
  exact (hiff z (List.mem_of_find?_eq_some hz)).1 hp

theorem State.lookup_looksUp {s t : State} {x x₁ : Slot} {y : Entry} (hc : t.cu = s.cu)
    (hd : (t.iq.slots.map (·.ix)).Nodup) (hsame : s.SameCarriers t x y.number)
    (hx₁ : x₁.reexamined = x.letGo) (hx : t.slot? x.ix = some { x₁ with epoch := some y.number }) :
    s.LooksUp (t.lookup x₁ y) x y.number := by
  have hix : x₁.ix = x.ix := by
    show x₁.reexamined.ix = _
    rw [hx₁]
    rfl
  have hg : x₁.granule = x.granule := by
    show x₁.reexamined.granule = _
    rw [hx₁]
    rfl
  have hpos : x₁.pos = x.pos := by
    show x₁.reexamined.pos = _
    rw [hx₁]
    rfl
  have hfind := t.carriers_find x₁ y.number
  have hcarries (z : Slot) : t.Carries x₁ y.number z ↔ t.Carries x y.number z := by
    rw [State.Carries, State.Carries, hg, hpos]
  constructor
  case fresh =>
    intro hno hlen
    rw [State.lookup, hg, hix, hc, if_neg hno, if_pos hlen]
    let t' : State := { t with cu := { s.cu with touched := x.granule :: s.cu.touched } }
    refine ⟨rfl, ?_⟩
    rw [State.look, State.slot?_setSlot_same (s := t') (f := fun z => { z with marking := some .capture, duty := true })
      (fun _ => rfl) hx, ← hx₁]
    rfl
  case full =>
    intro hno hlen
    rw [State.lookup, hg, hc, if_neg hno, if_neg (Nat.not_lt.2 hlen)]
    let t' : State := t.setEntry y.number (fun z => { z with overflow := satInc Config.overflowMax z.overflow })
    have hslot : (t'.setSlot x.ix (fun z => { z with marking := some .captureDup })).slot? x.ix =
        some { x₁ with epoch := some y.number, marking := some .captureDup } :=
      State.slot?_setSlot_same (s := t') (f := fun z => { z with marking := some .captureDup }) (fun _ => rfl) hx
    have hlook : (t.overflowLookup x₁ y).slot? x.ix =
        (t'.setSlot x.ix (fun z => { z with marking := some .captureDup })).slot? x.ix ∧
        (t.overflowLookup x₁ y).cu = t.cu := by
      rw [← hix]
      unfold State.overflowLookup
      dsimp only
      split <;> exact ⟨rfl, rfl⟩
    refine ⟨congrArg CaptureUnit.touched (hlook.2.trans hc), ?_⟩
    rw [State.look, hlook.1, hslot, ← hx₁]
    rfl
  case known =>
    intro hin hno
    have hnone : ∀ z, ¬ t.Carries x₁ y.number z := by
      intro z hz
      obtain ⟨z', hz', -⟩ := hsame.2 z ((hcarries z).1 hz)
      exact hno z' hz'
    rw [State.lookup, hg, hc, if_pos hin, State.takeDuty, hfind.1.2 hnone, hix]
    refine ⟨congrArg CaptureUnit.touched hc, ?_⟩
    rw [State.look, State.slot?_setSlot_same (f := fun z => { z with marking := some .noCapture }) (fun _ => rfl) hx, ← hx₁]
    rfl
  case taken =>
    intro z hin hz honly
    obtain ⟨z', hz', -⟩ := hsame.1 z hz
    cases hf : t.iq.slots.find? (fun w => w.granule == x₁.granule && w.duty && w.epoch == some y.number &&
        decide (x₁.pos < w.pos)) with
    | none => exact absurd ((hcarries z').2 hz') (hfind.1.1 hf z')
    | some w =>
      have hw := (hcarries w).1 (hfind.2 w hf)
      obtain ⟨z₀, hz₀, hwz⟩ := hsame.2 w hw
      rw [honly z₀ hz₀] at hwz
      have hwix : w.ix = z.ix := congrArg (fun p => p.1.1) hwz
      have hwslot : t.slot? w.ix = some w := State.slot?_of_mem hd hw.1
      have hne : w.ix ≠ x.ix := by
        intro hwx
        rw [hwx, hx] at hwslot
        have hwpos : ({ x₁ with epoch := some y.number } : Slot).pos = w.pos := congrArg Slot.pos (Option.some.inj hwslot)
        have hwpos : x₁.pos = w.pos := hwpos
        have hlt := hw.2.2.2.2
        omega
      rw [State.lookup, hg, hc, if_pos hin, State.takeDuty, hf, hix]
      refine ⟨congrArg CaptureUnit.touched hc, ?_, ?_⟩
      · have hmid : (t.setSlot w.ix (fun z => { z with marking := some .noCapture, duty := false })).slot? x.ix =
            some { x₁ with epoch := some y.number } :=
          (State.slot?_setSlot_other (f := fun z => { z with marking := some .noCapture, duty := false }) (Ne.symm hne)
            (fun _ => rfl)).trans hx
        dsimp only
        rw [State.look, State.slot?_setSlot_same (f := fun z => { z with marking := some .capture, duty := true })
          (fun _ => rfl) hmid, ← hx₁]
        rfl
      · have hmid : (t.setSlot w.ix (fun z => { z with marking := some .noCapture, duty := false })).slot? w.ix =
            some { w with marking := some .noCapture, duty := false } :=
          State.slot?_setSlot_same (f := fun z => { z with marking := some .noCapture, duty := false }) (fun _ => rfl) hwslot
        refine ⟨{ w with marking := some .noCapture, duty := false }, ?_, congrArg (fun p => p.1) hwz, rfl, rfl⟩
        rw [← hwix]
        exact (State.slot?_setSlot_other (f := fun z => { z with marking := some .capture, duty := true }) hne
          (fun _ => rfl)).trans hmid

theorem State.heldSlots_nodup {s : State} (hd : (s.iq.slots.map (·.ix)).Nodup) : s.heldSlots.Nodup :=
  (List.filter_sublist.map (fun x : Slot => x.ix)).nodup hd

theorem State.mem_of_heldSlots {s : State} {r : SlotIx} (h : r ∈ s.heldSlots) : ∃ x ∈ s.iq.slots, x.state = .held ∧ x.ix = r := by
  obtain ⟨x, hx, rfl⟩ := List.mem_map.1 h
  obtain ⟨hx, hh⟩ := List.mem_filter.1 hx
  exact ⟨x, hx, by simpa using hh, rfl⟩

/-- The release of the HELD requests when one write of them has no assignment and the OPEN epoch takes lookups. -/
theorem State.releaseJournaling_looksUp {s b : State} {x : Slot} {y : Entry} (k : s.IntakeOk)
    (hb : b.iq.slots.map Slot.reexamined = s.iq.slots.map Slot.reexamined) (hcu : b.cu = s.cu)
    (hy : b.openEntry? = some y) (hbroken : y.broken = none) (hp : b.jw.pressure ≠ .suspended) (hx : s.HeldWrite x)
    (he : x.epoch = none) (honly : ∀ x', s.HeldWrite x' → x'.epoch = none → x' = x) :
    s.LooksUp (b.releaseJournaling id) x y.number := by
  obtain ⟨hxs, hxh, hxw⟩ := hx
  obtain ⟨hmem, z, hzx, hz⟩ := State.letGo_slot? k.distinct hb hxs hxh
  rw [State.releaseJournaling_eq]
  have hbd : (b.iq.slots.map (·.ix)).Nodup := by
    rw [map_ix_reexamined hb]
    exact k.distinct
  have hm : (b.mapSlots (Slot.released id)).iq.slots.map Slot.stake = s.iq.slots.map Slot.stake := by
    rw [State.mapSlots_iq, List.map_map]
    exact (List.map_congr_left (fun w _ => w.released_stake)).trans (map_of_reexamined (g := Slot.stake) (fun _ => rfl) hb)
  have hplace : (b.mapSlots (Slot.released id)).iq.slots.map Slot.place = s.iq.slots.map Slot.place := by
    have h := congrArg (List.map (fun p => (p.1, p.2.2))) hm
    rw [List.map_map, List.map_map] at h
    exact h
  have hbefore : ∀ r ∈ b.heldSlots, r ≠ x.ix → ¬ (b.mapSlots (Slot.released id)).Unassigned r := by
    intro r hr hne hun
    obtain ⟨w, hw, hww, hwe⟩ := hun.of_place hplace
    obtain ⟨v, hv, hvh, hvr⟩ := State.mem_of_heldSlots hr
    obtain ⟨v', hv', hvv⟩ := mem_of_reexamined hb.symm hv
    obtain ⟨hws, hwr⟩ := State.mem_of_slot? hw
    have hvix : v'.ix = v.ix := by
      show v'.reexamined.ix = _
      rw [hvv]
      rfl
    have hvw : v' = w := k.unique hv' hws (hvix.trans (hvr.trans hwr.symm))
    have hwh : w.state = .held := hvw ▸ (Slot.reexamined_state' hvv).trans hvh
    exact hne (hwr.symm.trans (congrArg (fun u : Slot => u.ix) (honly w ⟨hws, hwh, w.isWrite_iff.1 hww⟩ hwe)))
  have hzw : z.isWrite = true := by
    show z.reexamined.isWrite = true
    rw [hzx]
    exact x.isWrite_iff.2 hxw
  have hze : z.epoch = none := (Slot.reexamined_epoch hzx).trans he
  have hzo : z.outcome = none := by
    show z.reexamined.outcome = none
    rw [hzx]
    exact (k.held_undecided hxs hxh : x.outcome = none)
  obtain ⟨t, ht, htcu, htslots⟩ := State.assignReleased_looks (s := b.mapSlots (Slot.released id)) (q := x.ix) hz hzw hze hzo
    hy hp hbroken
  have hother (r : SlotIx) (hr : r ≠ x.ix) : t.slot? r = (b.mapSlots (Slot.released id)).slot? r := by
    rw [State.slot?, htslots]
    exact State.slot?_setSlot_other (s := b.mapSlots (Slot.released id)) (f := fun z => { z with epoch := some y.number }) hr
      (fun _ => rfl)
  have hafter : ∀ r ∈ b.heldSlots, r ≠ x.ix → ¬ ((b.mapSlots (Slot.released id)).assignReleased x.ix).Unassigned r := by
    intro r hr hne hun
    rw [ht] at hun
    obtain ⟨w, hw, hww⟩ := hun.of_place (t.lookup_place _ y)
    exact hbefore r hr hne ⟨w, (hother r hne).symm.trans hw, hww⟩
  rw [State.assignAll_one hmem (State.heldSlots_nodup hbd) hbefore hafter, ht]
  have htd : (t.iq.slots.map (·.ix)).Nodup := by
    have hkeyed : Keyed (fun z : Slot => if z.ix == x.ix then { z with epoch := some y.number } else z) := fun z => by
      dsimp only
      split <;> rfl
    have hmd : ((b.mapSlots (Slot.released id)).iq.slots.map (·.ix)).Nodup := by
      rw [State.mapSlots_iq, List.map_map, show (fun z : Slot => z.ix) ∘ Slot.released id = fun z : Slot => z.ix from
        funext Slot.released_ix]
      exact hbd
    rw [htslots, hkeyed.map_ix]
    exact hmd
  refine State.lookup_looksUp (htcu.trans hcu) htd (State.sameCarriers_assigned k hxs hm htslots) ?_ ?_
  · show ({ z.reexamined with state := .waiting, holdEntry := none } : Slot) = _
    rw [hzx]
    rfl
  · rw [State.slot?, htslots]
    exact State.slot?_setSlot_same (s := b.mapSlots (Slot.released id)) (f := fun z => { z with epoch := some y.number })
      (fun _ => rfl) hz

end Sys2Proof.Machine

/-! The end of DRAIN in FINISH, in the walk and in ROLLBACK-REFUSED (R146, R147). -/
namespace Sys2Proof.Machine

theorem State.refuse_look (s : State) (t : EpochNo) (r : SlotIx) :
    (s.refuse t).look r = (s.unrolled.releaseJournaling id).look r := by
  rw [State.refuse_eq]
  rfl

theorem State.refuse_cu (s : State) (t : EpochNo) : (s.refuse t).cu = (s.unrolled.releaseJournaling id).cu := by
  rw [State.refuse_eq]
  rfl

/-- ROLLBACK-REFUSED where the OPEN epoch is broken or pressure SUSPENDED: no write is looked up. -/
theorem State.refuse_unlooked {s : State} {y : Entry} (k : s.IntakeOk) (hy : s.openEntry? = some y)
    (hwhy : y.broken.isSome ∨ s.jw.pressure = .suspended) (t : EpochNo) :
    (s.refuse t).cu = s.cu ∧ ∀ x ∈ s.iq.slots, x.state = .held →
      (s.refuse t).look x.ix = some (x.letGo.enrolled y.number) := by
  have h := s.unrolled_unrolls
  rw [State.refuse_cu]
  have hlook := s.refuse_look t
  generalize s.unrolled = b at h hlook
  have hu : b.Unlooked y.number := ⟨y, h.openEntry? hy, rfl, hwhy.symm.imp_left h.press.2⟩
  obtain ⟨hcu, hall⟩ := State.releaseJournaling_unlooked k.distinct h.slots hu
  exact ⟨hcu.trans h.blocks.2.1, fun x hx hh => (hlook x.ix).trans (hall x hx hh)⟩

/-- ROLLBACK-REFUSED where one HELD write has no assignment and the OPEN epoch takes lookups. -/
theorem State.refuse_looksUp {s : State} {x : Slot} {y : Entry} (k : s.IntakeOk) (hy : s.openEntry? = some y)
    (hbroken : y.broken = none) (hp : s.jw.pressure ≠ .suspended) (hx : s.HeldWrite x) (he : x.epoch = none)
    (honly : ∀ x', s.HeldWrite x' → x'.epoch = none → x' = x) (t : EpochNo) : s.LooksUp (s.refuse t) x y.number := by
  have h := s.unrolled_unrolls
  have hcu := s.refuse_cu t
  have hlook := s.refuse_look t
  have hslot (r : SlotIx) : (s.refuse t).slot? r = (s.unrolled.releaseJournaling id).slot? r := by
    rw [State.refuse_eq]
    rfl
  generalize s.refuse t = u at hcu hlook hslot ⊢
  generalize s.unrolled = b at h hcu hlook hslot
  have hl : s.LooksUp (b.releaseJournaling id) x y.number :=
    State.releaseJournaling_looksUp k h.slots h.blocks.2.1 (h.openEntry? hy) hbroken (mt h.press.1 hp) hx he honly
  have htouched := congrArg CaptureUnit.touched hcu
  constructor
  case fresh => rw [htouched, hlook]; exact hl.fresh
  case full => rw [htouched, hlook]; exact hl.full
  case known => rw [htouched, hlook]; exact hl.known
  case taken =>
    intro z
    rw [htouched, hlook, hslot]
    exact hl.taken z

theorem State.readRecord_none_waiting {s : State} (h : ∀ x ∈ s.iq.slots, x.state ≠ .waiting) (e : EpochNo) (l : Nat) :
    (s.readRecord e l).serve = s.readRecord e l := State.serve_of_none_waiting h

/-- Settles O45: DRAIN waits while one of its conditions fails, and ends in FINISH, in the walk or in ROLLBACK-REFUSED. -/
theorem drainEnds : Obligations.DrainEnds := by
  unfold Obligations.DrainEnds
  refine ⟨fun s _ k hs hn hleft => State.settle_drain k hs hn (State.drainDone_false hleft), ?_⟩
  intro s t hp ht hdrained hseal hleft
  have hsettle : s.settle = (s.judge t).serve := State.Drained.settle hdrained hp ht hseal hleft
  refine ⟨?finish, ?walk, ?refuse⟩
  case finish =>
    intro x w o kept hspan hk hx ho hw hn hr hroom
    have hspan : ∀ z ∈ s.span t, z.broken = none ∧ z.lastUndo = none := hspan
    have hjudge : s.judge t = s.finish t := by
      rw [State.judge_walks (by rw [hx]; rfl) (fun z hz => (hspan z hz).1),
        State.walkOn_finish (nextChain_none (fun z hz => (hspan z hz).2))]
    have hports := (s.finish_within t).keeps
    exact ⟨s.finish t, by rw [hsettle, hjudge], State.finishesTo hk hx ho hw hn hr hroom, hports.ports, hports.port,
      s.finish_uport t⟩
  case walk =>
    intro older newer y l hspan hb hn hl
    have hspan : s.span t = older ++ y :: newer := hspan
    have hjudge : s.judge t = s.readRecord y.number l := by
      rw [State.judge_walks (State.span_entry? (by rw [hspan]; simp)) (by rw [hspan]; exact hb), hspan,
        State.walkOn_chain (nextChain_newest hn hl)]
    rw [hsettle, hjudge, State.readRecord_none_waiting (fun x hx => (hdrained x hx).1)]
    rfl
  case refuse =>
    intro hwhy
    have hR := s.refuse_refuses t
    obtain ⟨evs, hev⟩ := hR.events
    refine ⟨s.refuse t, evs, by rw [hsettle, State.judge_refuses hwhy], hR.ec, hR.da, hR.port, hR.re, hev, hR.released, hR.head,
      hR.wu, hR.few, ?_⟩
    intro y k hy after
    refine ⟨fun hb => ?broken, fun hb hpress x hx he honly => ?lookup⟩
    case broken =>
      obtain ⟨hcu, hall⟩ := State.refuse_unlooked k hy hb t
      refine ⟨hcu, fun x hx => ⟨fun hh hkind => ?_, fun hh hw he => ?_⟩⟩
      · have hkind' : x.letGo.isWrite = false ∨ x.letGo.epoch.isSome := hkind.imp_left (Slot.not_write (x := x.letGo))
        exact (hall x hx hh).trans (congrArg some (Slot.enrolled_other hkind'))
      · exact (hall x hx hh).trans (congrArg some (Slot.enrolled_write (x := x.letGo) (x.letGo.isWrite_iff.2 hw) he))
    case lookup =>
      have h := State.refuse_looksUp k hy hb hpress hx he honly t
      exact ⟨h.fresh, h.full, h.known, h.taken⟩

end Sys2Proof.Machine

/-! The requests that wait at the U-port play no part in what an action does: the operations leave them, and do the same whatever
they are (R4, log 3). -/
namespace Sys2Proof.Machine

/-- The state with `p` waiting at the U-port. -/
def State.withPort (s : State) (p : List Request) : State := { s with port := p }

section
variable {a b : State} {p : List Request}

theorem ite_withPort {c d : Prop} [Decidable c] [Decidable d] (h : c ↔ d) {a b a' b' : State}
    (ha : a = a'.withPort p) (hb : b = b'.withPort p) :
    (if c then a else b) = (if d then a' else b').withPort p := by
  by_cases hd : d
  · rw [if_pos (h.2 hd), if_pos hd, ha]
  · rw [if_neg (mt h.1 hd), if_neg hd, hb]

theorem foldl_withPort {α : Type} {f g : State → α → State}
    (h : ∀ (a b : State) (x : α), a = b.withPort p → f a x = (g b x).withPort p) (l : List α) (hab : a = b.withPort p) :
    l.foldl f a = (l.foldl g b).withPort p := by
  induction l generalizing a b with
  | nil => exact hab
  | cons x l ih => exact ih (h a b x hab)

/-! ## The shared operations -/

theorem State.raise_withPort (h : a = b.withPort p) (ev : Event) : a.raise ev = (b.raise ev).withPort p := by subst h; rfl

theorem State.setSlot_withPort (h : a = b.withPort p) (q : SlotIx) (f : Slot → Slot) :
    a.setSlot q f = (b.setSlot q f).withPort p := by subst h; rfl

theorem State.mapSlots_withPort (h : a = b.withPort p) (f : Slot → Slot) : a.mapSlots f = (b.mapSlots f).withPort p := by
  subst h; rfl

theorem State.askForward_withPort (h : a = b.withPort p) (q : SlotIx) : a.askForward q = (b.askForward q).withPort p := by
  subst h
  exact ite_withPort Iff.rfl rfl rfl

theorem State.markBroken_withPort (h : a = b.withPort p) (e : EpochNo) (r : Reason) :
    a.markBroken e r = (b.markBroken e r).withPort p := by
  subst h
  exact ite_withPort Iff.rfl rfl rfl

theorem State.setPressure_withPort (h : a = b.withPort p) (x : Pressure) (r : Option Reason) :
    a.setPressure x r = (b.setPressure x r).withPort p := by
  subst h
  exact ite_withPort Iff.rfl rfl rfl

theorem State.raiseCodes_withPort (h : a = b.withPort p) (arg : Word32) (codes : List EventCode) :
    a.raiseCodes arg codes = (b.raiseCodes arg codes).withPort p := by
  subst h
  exact foldl_withPort (f := fun t c => t.raise { code := c, epoch := b.openEpoch?, arg := arg })
    (g := fun t c => t.raise { code := c, epoch := b.openEpoch?, arg := arg }) (fun _ _ _ h => State.raise_withPort h _) codes rfl

theorem State.evaluate_withPort (h : a = b.withPort p) : a.evaluate = b.evaluate.withPort p := by
  subst h
  exact ite_withPort Iff.rfl rfl (State.setPressure_withPort (State.raiseCodes_withPort rfl _ _) _ _)

theorem State.commitOldest_withPort (h : a = b.withPort p) (c : Cause) : a.commitOldest c = (b.commitOldest c).withPort p := by
  subst h
  have htable : (b.withPort p).ec.table = b.ec.table := rfl
  unfold State.commitOldest
  rw [htable]
  cases b.ec.table with
  | nil => rfl
  | cons e rest => exact ite_withPort Iff.rfl (State.evaluate_withPort rfl) rfl

theorem State.commitN_withPort (h : a = b.withPort p) (n : Nat) (c : Cause) :
    a.commitN n c = (b.commitN n c).withPort p := by
  induction n generalizing a b with
  | zero => exact h
  | succ n ih => exact ih (State.commitOldest_withPort h c)

theorem State.commitSealed_withPort (h : a = b.withPort p) (c : Cause) : a.commitSealed c = (b.commitSealed c).withPort p := by
  subst h
  exact State.commitN_withPort rfl b.sealedCount c

theorem State.commitExcess_withPort (h : a = b.withPort p) (c : Cause) : a.commitExcess c = (b.commitExcess c).withPort p := by
  subst h
  exact State.commitN_withPort rfl (b.sealedCount - b.ec.retention) c

theorem State.markOpen_withPort (h : a = b.withPort p) (r : Reason) : a.markOpen r = (b.markOpen r).withPort p := by
  subst h
  have hopen : (b.withPort p).openEpoch? = b.openEpoch? := rfl
  unfold State.markOpen
  rw [hopen]
  cases b.openEpoch? with
  | none => rfl
  | some e => exact State.markBroken_withPort rfl e r

/-- The event of the entry to SUSPENDED tells what was committed from `s` to `t`. -/
theorem State.raiseSuspended_withPort (h : a = b.withPort p) {s t : State} (hs : s = t.withPort p) (r : Reason) :
    a.raise { code := .suspendedEntered, epoch := a.openEpoch?,
              arg := a.suspendedArg r (s.ec.table.length - a.ec.table.length) s.jw.pressure } =
    (b.raise { code := .suspendedEntered, epoch := b.openEpoch?,
               arg := b.suspendedArg r (t.ec.table.length - b.ec.table.length) t.jw.pressure }).withPort p := by
  subst h hs
  rfl

theorem State.enterSuspended_withPort (h : a = b.withPort p) (r : Reason) :
    a.enterSuspended r = (b.enterSuspended r).withPort p := by
  refine ite_withPort (by rw [h]; exact Iff.rfl) h ?_
  exact State.raiseSuspended_withPort
    (State.commitSealed_withPort (State.markOpen_withPort (State.setPressure_withPort h _ _) r) _) h r

theorem State.reservationFails_withPort (h : a = b.withPort p) (e : EpochNo) :
    a.reservationFails e = (b.reservationFails e).withPort p :=
  ite_withPort (by rw [h]; exact Iff.rfl) (State.commitSealed_withPort (State.markBroken_withPort h e _) _)
    (State.enterSuspended_withPort (State.markBroken_withPort h e _) _)

/-! ## Records of the seal writer -/

theorem State.makeRecord_withPort (h : a = b.withPort p) (w : RecordReq) : a.makeRecord w = (b.makeRecord w).withPort p := by
  subst h
  exact ite_withPort Iff.rfl rfl rfl

theorem State.makePad_withPort (h : a = b.withPort p) (e : EpochNo) (len : Nat) :
    a.makePad e len = (b.makePad e len).withPort p := by
  subst h
  exact ite_withPort Iff.rfl rfl (State.makeRecord_withPort rfl _)

theorem State.placeOpen_withPort (h : a = b.withPort p) (e : EpochNo) : a.placeOpen e = (b.placeOpen e).withPort p := by
  subst h
  refine State.evaluate_withPort (State.mapSlots_withPort ?_ _)
  exact State.makeRecord_withPort
    (b := (b.advanceHead 1).setEntry e (fun x => { x with openLine := some b.jw.head })) rfl _

theorem State.reserveOpen_withPort (h : a = b.withPort p) (e : EpochNo) : a.reserveOpen e = (b.reserveOpen e).withPort p :=
  ite_withPort (by rw [h]; exact Iff.rfl) (State.placeOpen_withPort h e)
    (State.placeOpen_withPort (State.reservationFails_withPort h e) e)

theorem State.sealPlaced_withPort (h : a = b.withPort p) (e : EpochNo) (line len : Nat) (w : RecordReq) :
    ((a.advanceHead len).setEntry e (fun x => { x with sealLine := some line })).makeRecord w =
      (((b.advanceHead len).setEntry e (fun x => { x with sealLine := some line })).makeRecord w).withPort p := by
  subst h
  exact State.makeRecord_withPort (b := (b.advanceHead len).setEntry e (fun x => { x with sealLine := some line })) rfl w

theorem State.withJob_withPort (h : a = b.withPort p) (job : SealJob) :
    ({ a with jw := { a.jw with sealJob := some job } } : State) =
      State.withPort { b with jw := { b.jw with sealJob := some job } } p := by
  subst h
  rfl

theorem State.placeSeal_withPort (h : a = b.withPort p) (e : EpochNo) (sigs : List SigEntry) :
    a.placeSeal e sigs = (b.placeSeal e sigs).withPort p := by
  subst h
  exact State.evaluate_withPort (State.withJob_withPort (State.sealPlaced_withPort (State.makePad_withPort rfl e _) e _ _ _) _)

theorem State.reserveSeal_withPort (h : a = b.withPort p) (e : EpochNo) (sigs : List SigEntry) :
    a.reserveSeal e sigs = (b.reserveSeal e sigs).withPort p :=
  ite_withPort (by rw [h]; exact Iff.rfl) (State.placeSeal_withPort h e sigs)
    (State.placeSeal_withPort (State.reservationFails_withPort h e) e sigs)

/-! ## Signatures -/

theorem State.setBank_withPort (h : a = b.withPort p) (e : EpochNo) (f : Bank → Bank) :
    a.setBank e f = (b.setBank e f).withPort p := by
  subst h
  exact ite_withPort Iff.rfl rfl (ite_withPort Iff.rfl rfl rfl)

theorem State.wake_withPort (h : a = b.withPort p) (i : WinIx) (x : Slot) (e : EpochNo) :
    (if (a.su.quiet[i]).dormant = true then
      (a.setQuiet i { counter := 0, dormant := false }).raise
        { code := .windowWake, win := some i, master := some x.req.master, epoch := some e, arg := x.granule }
    else a) =
    (if (b.su.quiet[i]).dormant = true then
      (b.setQuiet i { counter := 0, dormant := false }).raise
        { code := .windowWake, win := some i, master := some x.req.master, epoch := some e, arg := x.granule }
    else b).withPort p := by
  subst h
  exact ite_withPort Iff.rfl rfl rfl

theorem State.takeWrite_withPort (h : a = b.withPort p) (x : Slot) (e : EpochNo) :
    a.takeWrite x e = (b.takeWrite x e).withPort p := by
  unfold State.takeWrite
  cases x.win with
  | none => exact h
  | some i => exact State.wake_withPort (State.setBank_withPort h e _) i x e

theorem State.compareWindow_withPort (h : a = b.withPort p) (e : EpochNo) (i : WinIx) :
    a.compareWindow e i = (b.compareWindow e i).withPort p := by
  subst h
  have hsu : (b.withPort p).su = b.su := rfl
  unfold State.compareWindow
  rw [hsu]
  dsimp only
  cases (b.su.sealingBank.entries[i]).expected with
  | none => rfl
  | some v =>
    refine ite_withPort Iff.rfl rfl ?_
    cases (b.su.sealingBank.entries[i]).action with
    | report => rfl
    | trip => rfl

theorem State.countQuiet_withPort (h : a = b.withPort p) (e : EpochNo) (i : WinIx) :
    a.countQuiet e i = (b.countQuiet e i).withPort p := by
  subst h
  exact ite_withPort Iff.rfl (ite_withPort Iff.rfl rfl (ite_withPort Iff.rfl rfl rfl)) rfl

theorem State.sealWork_withPort (h : a = b.withPort p) (e : EpochNo) : a.sealWork e = (b.sealWork e).withPort p :=
  foldl_withPort (fun _ _ i h => State.countQuiet_withPort h e i) _
    (foldl_withPort (fun _ _ i h => State.compareWindow_withPort h e i) _ h)

theorem State.applyArmed_withPort (h : a = b.withPort p) (e : Option EpochNo) :
    a.applyArmed e = (b.applyArmed e).withPort p := by
  subst h
  exact ite_withPort Iff.rfl rfl rfl

end

end Sys2Proof.Machine

/-! The step on an empty queue (R4, R175, log 1, log 3). -/
namespace Sys2Proof.Machine

section
variable {a b : State} {p : List Request}

/-! ## The Intake Queue, whatever waits at the U-port -/

theorem State.takeDuty_withPort (h : a = b.withPort p) (x : Slot) (e : EpochNo) :
    a.takeDuty x e = (b.takeDuty x e).withPort p := by
  subst h
  have hiq : (b.withPort p).iq = b.iq := rfl
  unfold State.takeDuty
  rw [hiq]
  cases b.iq.slots.find? (fun y => y.granule == x.granule && y.duty && y.epoch == some e && decide (x.pos < y.pos)) with
  | none => rfl
  | some y => rfl

theorem State.lookup_withPort (h : a = b.withPort p) (x : Slot) (e : Entry) : a.lookup x e = (b.lookup x e).withPort p := by
  subst h
  exact ite_withPort Iff.rfl (State.takeDuty_withPort rfl x _)
    (ite_withPort Iff.rfl rfl (ite_withPort Iff.rfl rfl rfl))

theorem State.markWrite_withPort (h : a = b.withPort p) (x : Slot) (e : Entry) :
    a.markWrite x e = (b.markWrite x e).withPort p := by
  subst h
  exact ite_withPort Iff.rfl (State.setSlot_withPort (State.markBroken_withPort rfl _ _) _ _)
    (ite_withPort Iff.rfl rfl (State.lookup_withPort rfl x e))

theorem State.taken_withPort (h : a = b.withPort p) (q : SlotIx) (x : Slot) (e : EpochNo) :
    a.taken q x e = (b.taken q x e).withPort p :=
  ite_withPort Iff.rfl (State.takeWrite_withPort (State.setSlot_withPort h _ _) x e) (State.setSlot_withPort h _ _)

theorem State.assignWrite_withPort (h : a = b.withPort p) (q : SlotIx) :
    a.assignWrite q = (b.assignWrite q).withPort p := by
  subst h
  have hslot : (b.withPort p).slot? q = b.slot? q := rfl
  have hopen : (b.withPort p).openEntry? = b.openEntry? := rfl
  unfold State.assignWrite
  rw [hslot, hopen]
  cases b.slot? q with
  | none => rfl
  | some x =>
    cases b.openEntry? with
    | none => rfl
    | some e => exact State.markWrite_withPort (State.taken_withPort rfl q x e.number) x e

theorem State.enter_withPort (h : a = b.withPort p) (x : Slot) : a.enter x = (b.enter x).withPort p := by
  refine ite_withPort Iff.rfl ?_ h
  cases x.outcome with
  | some o => exact ite_withPort (by rw [h]; exact Iff.rfl) (State.assignWrite_withPort h x.ix) h
  | none =>
    have hbridge : a.ec.bridge = b.ec.bridge := by rw [h]; rfl
    dsimp only
    rw [hbridge]
    cases entrance b.ec.bridge x.req.dir with
    | serve => exact h
    | assign => exact State.assignWrite_withPort h x.ix
    | hold => subst h; rfl
    | halt => exact State.setSlot_withPort h _ _

theorem State.accept_withPort (h : a = b.withPort p) (q : SlotIx) (r : Request) :
    a.accept q r = (b.accept q r).withPort p := by
  subst h
  have hevent : (b.withPort p).classifyEvent r = b.classifyEvent r := rfl
  have hslot : (b.withPort p).newSlot q r = b.newSlot q r := rfl
  unfold State.accept
  rw [hevent, hslot]
  refine State.enter_withPort ?_ _
  cases b.classifyEvent r with
  | none => rfl
  | some ev => rfl

theorem State.take_withPort (h : a = b.withPort p) (q : SlotIx) (r : Request) : a.take q r = (b.take q r).withPort p :=
  ite_withPort Iff.rfl (State.accept_withPort h q r) (by subst h; rfl)

theorem State.passDuty_withPort (h : a = b.withPort p) (x : Slot) : a.passDuty x = (b.passDuty x).withPort p := by
  subst h
  have hheir : (b.withPort p).heir? x = b.heir? x := rfl
  refine ite_withPort Iff.rfl ?_ rfl
  rw [hheir]
  cases b.heir? x with
  | some y => rfl
  | none => exact ite_withPort Iff.rfl rfl rfl

theorem State.answerDecided_withPort (h : a = b.withPort p) (x : Slot) (o : Decided) :
    a.answerDecided x o = (b.answerDecided x o).withPort p := by
  subst h
  exact State.passDuty_withPort (b := (b.withdraw x.ix).answer x o.status []) rfl x

theorem State.examine_withPort (h : a = b.withPort p) (x : Slot) (e : EpochNo) (n : Nat) :
    a.examine x e n = (b.examine x e n).withPort p := by
  have htrip : (a.decideTripped x).answerDecided x .tripped = ((b.decideTripped x).answerDecided x .tripped).withPort p :=
    State.answerDecided_withPort (b := b.decideTripped x) (by subst h; rfl) x .tripped
  have hmark (r : Reason) : (a.markBroken e r).askForward x.ix = ((b.markBroken e r).askForward x.ix).withPort p :=
    State.askForward_withPort (State.markBroken_withPort h e r) x.ix
  have hask : a.askForward x.ix = (b.askForward x.ix).withPort p := State.askForward_withPort h x.ix
  unfold State.examine
  rw [htrip, hask]
  refine ite_withPort (by rw [h]; exact Iff.rfl) rfl (ite_withPort (by rw [h]; exact Iff.rfl) rfl
    (ite_withPort (by rw [h]; exact Iff.rfl) ?_ (ite_withPort (by rw [h]; exact Iff.rfl) ?_ ?_)))
  · rw [hmark, h]
    rfl
  · exact State.setSlot_withPort h _ _
  · rw [h]
    rfl

theorem State.dealHead_withPort (h : a = b.withPort p) (x : Slot) (n : Nat) :
    a.dealHead x n = (b.dealHead x n).withPort p := by
  unfold State.dealHead
  cases x.outcome with
  | some o => exact State.answerDecided_withPort h x o
  | none =>
    refine ite_withPort (by rw [h]; exact Iff.rfl) h ?_
    cases x.needsCapture with
    | false => exact State.askForward_withPort h x.ix
    | true =>
      cases x.epoch with
      | none => exact State.askForward_withPort h x.ix
      | some e => exact ite_withPort Iff.rfl h (State.examine_withPort h x e n)

theorem State.dealSlot_withPort (h : a = b.withPort p) (n : Nat) (q : SlotIx) :
    a.dealSlot n q = (b.dealSlot n q).withPort p := by
  subst h
  have hslot : (b.withPort p).slot? q = b.slot? q := rfl
  unfold State.dealSlot
  rw [hslot]
  cases b.slot? q with
  | none => rfl
  | some x => exact ite_withPort Iff.rfl (State.dealHead_withPort rfl x n) rfl

theorem State.serve_withPort (h : a = b.withPort p) : a.serve = b.serve.withPort p := by
  have hgroup : a.nextGroup = b.nextGroup := by rw [h]; rfl
  have hslots : a.iq.slots = b.iq.slots := by rw [h]; rfl
  unfold State.serve
  rw [hgroup, hslots]
  exact foldl_withPort (fun _ _ q h => State.dealSlot_withPort h b.nextGroup q) _ h

theorem State.assignReleased_withPort (h : a = b.withPort p) (q : SlotIx) :
    a.assignReleased q = (b.assignReleased q).withPort p := by
  subst h
  have hslot : (b.withPort p).slot? q = b.slot? q := rfl
  unfold State.assignReleased
  rw [hslot]
  cases b.slot? q with
  | none => rfl
  | some x => exact ite_withPort Iff.rfl (State.assignWrite_withPort rfl q) rfl

theorem State.releaseJournaling_withPort (h : a = b.withPort p) (f : Slot → Slot) :
    a.releaseJournaling f = (b.releaseJournaling f).withPort p := by
  have hheld : a.heldSlots = b.heldSlots := by rw [h]; rfl
  rw [State.releaseJournaling_eq, State.releaseJournaling_eq, hheld]
  exact foldl_withPort (fun _ _ q h => State.assignReleased_withPort h q) _ (State.mapSlots_withPort h _)

/-! ## What follows an action, whatever waits at the U-port -/

theorem State.startSeal_withPort (h : a = b.withPort p) : a.startSeal = b.startSeal.withPort p := by
  subst h
  have hsealing : (b.withPort p).sealingEntry? = b.sealingEntry? := rfl
  unfold State.startSeal
  rw [hsealing]
  cases b.sealingEntry? with
  | none => rfl
  | some e =>
    refine ite_withPort Iff.rfl ?_ rfl
    have hwork : ((b.withPort p).loseAssignments e.number).sealWork e.number =
        ((b.loseAssignments e.number).sealWork e.number).withPort p :=
      State.sealWork_withPort (b := b.loseAssignments e.number) rfl e.number
    dsimp only
    rw [hwork]
    generalize (b.loseAssignments e.number).sealWork e.number = t
    exact State.reserveSeal_withPort rfl e.number t.sigList

theorem State.cutTo_withPort (h : a = b.withPort p) (t n : EpochNo) : a.cutTo t n = (b.cutTo t n).withPort p := by
  subst h
  have hcut : (b.withPort p).cutHead t = (b.cutHead t).withPort p := State.evaluate_withPort rfl
  unfold State.cutTo
  rw [hcut]
  rfl

theorem State.cut_withPort (h : a = b.withPort p) (t n : EpochNo) : a.cut t n = (b.cut t n).withPort p := by
  have hopen : (a.cutTo t n).reserveOpen n = ((b.cutTo t n).reserveOpen n).withPort p :=
    State.reserveOpen_withPort (State.cutTo_withPort h t n) n
  unfold State.cut
  rw [hopen]
  generalize (b.cutTo t n).reserveOpen n = o
  have harmed : (o.withPort p).resetBanks.applyArmed (some n) = (o.resetBanks.applyArmed (some n)).withPort p :=
    State.applyArmed_withPort (b := o.resetBanks) rfl (some n)
  rw [harmed]
  generalize o.resetBanks.applyArmed (some n) = v
  exact State.commitExcess_withPort (b := (v.fillOpenBank (some n)).startTimer) rfl .rollback

theorem State.closedOff_withPort (h : a = b.withPort p) (ev : Event) : a.closedOff ev = (b.closedOff ev).withPort p := by
  subst h
  rfl

theorem State.finish_withPort (h : a = b.withPort p) (t : EpochNo) : a.finish t = (b.finish t).withPort p := by
  have hnumber : a.nextNumber = b.nextNumber := by rw [h]; rfl
  have hre : a.re = b.re := by rw [h]; rfl
  rw [State.finish_closedOff, State.finish_closedOff, hnumber, hre]
  exact State.closedOff_withPort (State.releaseJournaling_withPort (State.cut_withPort h t _) _) _

theorem State.unrolled_withPort (h : a = b.withPort p) : a.unrolled = b.unrolled.withPort p := by
  subst h
  exact State.commitExcess_withPort (b := b.resumed) rfl .rollback

theorem State.refuse_withPort (h : a = b.withPort p) (t : EpochNo) : a.refuse t = (b.refuse t).withPort p := by
  have hentry : a.entry? t = b.entry? t := by rw [h]; rfl
  have hre : a.re = b.re := by rw [h]; rfl
  rw [State.refuse_eq, State.refuse_eq, hentry, hre]
  exact State.raise_withPort (State.releaseJournaling_withPort (State.unrolled_withPort h) id) _

theorem State.walkOn_withPort (h : a = b.withPort p) (t : EpochNo) (es : List Entry) :
    a.walkOn t es = (b.walkOn t es).withPort p := by
  unfold State.walkOn
  cases nextChain es with
  | none => exact State.finish_withPort h t
  | some c => subst h; rfl

theorem State.judge_withPort (h : a = b.withPort p) (t : EpochNo) : a.judge t = (b.judge t).withPort p := by
  have hspan : a.span t = b.span t := by rw [h]; rfl
  unfold State.judge
  rw [hspan]
  exact ite_withPort (by rw [h]; exact Iff.rfl) (State.walkOn_withPort h t _) (State.refuse_withPort h t)

theorem State.testDrain_withPort (h : a = b.withPort p) : a.testDrain = b.testDrain.withPort p := by
  have hre : a.re = b.re := by rw [h]; rfl
  have hdone : a.drainDone = b.drainDone := by rw [h]; rfl
  unfold State.testDrain
  rw [hre, hdone]
  split
  · exact ite_withPort Iff.rfl (State.judge_withPort h _) h
  · exact h

theorem State.settle_withPort (h : a = b.withPort p) : a.settle = b.settle.withPort p :=
  State.serve_withPort (State.testDrain_withPort (State.serve_withPort (State.startSeal_withPort (State.serve_withPort h))))

end

end Sys2Proof.Machine

/-! A step on an empty queue is one microsecond, or takes a waiting request (R4, R175, log 1, log 3). -/
namespace Sys2Proof.Machine

theorem State.takePort_front {s : State} {r : Request} {rest : List Request} {q : SlotIx} (hp : s.port = r :: rest)
    (hr : s.inReset = false) (hq : s.freeSlot? = some q) : s.takePort = State.take (s.withPort rest) q r := by
  unfold State.takePort
  rw [hp, hq]
  dsimp only
  rw [if_neg (by rw [hr]; exact Bool.false_ne_true)]
  rfl

theorem step_idle {s : State} (h : s.pending = []) : step s = .next s.idle := by
  unfold step
  rw [h]

theorem State.idle_takes {s : State} {r : Request} {rest : List Request} (hp : s.port = r :: rest)
    (ht : s.takesRequests = true) : s.idle = s.begin.takePort.settle := by
  refine if_pos ?_
  show (!s.port.isEmpty && s.takesRequests) = true
  rw [hp, ht]
  rfl

theorem State.idle_ticks {s : State} (h : s.port = [] ∨ s.takesRequests = false) : s.idle = s.begin.tick := by
  refine if_neg ?_
  show ¬ (!s.port.isEmpty && s.takesRequests) = true
  obtain hp | ht := h
  · rw [hp]
    exact Bool.false_ne_true
  · rw [ht, Bool.and_false]
    exact Bool.false_ne_true

theorem State.takesRequests_iff {s : State} (hr : s.inReset = false) : s.takesRequests = (s.freeSlot?).isSome := by
  rw [State.takesRequests, hr]
  rfl

/-- The request taken from the port, with the others left waiting. -/
theorem step_takes {s : State} {r : Request} {rest : List Request} {q : SlotIx} (hq : s.pending = []) (hr : s.inReset = false)
    (hp : s.port = r :: rest) (hf : s.freeSlot? = some q) :
    exec (.uportRequest r) { s with port := [] } = .next (State.take (s.begin.withPort []) q r).settle ∧
      step s = .next ((State.take (s.begin.withPort []) q r).settle.withPort rest) := by
  constructor
  · have htake : (({ s with port := [] } : State).present r).takePort = State.take (s.begin.withPort []) q r :=
      State.takePort_front (rest := []) rfl hr hf
    rw [exec_uportRequest, htake]
  · have htake : s.begin.takePort = State.take (s.begin.withPort rest) q r := State.takePort_front (s := s.begin) hp hr hf
    have hsettle : (State.take (s.begin.withPort rest) q r).settle =
        (State.take (s.begin.withPort []) q r).settle.withPort rest :=
      State.settle_withPort (State.take_withPort (b := s.begin.withPort []) rfl q r)
    rw [step_idle hq, State.idle_takes hp (by rw [State.takesRequests_iff hr, hf]; rfl), htake, hsettle]

/-- A microsecond later. -/
def State.later (s : State) : State :=
  { s with
    eq := { s.eq with time := s.eq.time + 1#32 }
    ec := { s.ec with timer := s.ec.timer.map (fun n => n - 1) } }

theorem State.later_holdDue (s : State) (x : Slot) : s.later.holdDue x =
    decide (x.state = .held ∧ s.iq.holdLimit ≠ 0#16 ∧
      s.iq.holdLimit.toNat ≤ ((s.eq.time + 1#32) - x.holdEntry.getD (s.eq.time + 1#32)).toNat) := by
  rw [Bool.eq_iff_iff, decide_eq_true_iff]
  show (x.state == .held && s.iq.holdLimit != 0#16 && decide (s.iq.holdLimit.toNat ≤ _)) = true ↔ _
  rw [Bool.and_eq_true, Bool.and_eq_true, beq_iff_eq, bne_iff_ne, decide_eq_true_iff, and_assoc]
  exact Iff.rfl

theorem State.later_timerDue (s : State) : s.later.timerDue = true ↔ s.ec.timer = some 0 ∨ s.ec.timer = some 1 := by
  have hdue : s.later.timerDue = (s.ec.timer.map (fun n => n - 1) == some 0) := rfl
  rw [hdue, beq_iff_eq]
  cases s.ec.timer with
  | none => simp
  | some n =>
    simp only [Option.map_some, Option.some.injEq]
    omega

theorem State.later_due (s : State) : s.later.due =
    ((s.iq.slots.filter (fun x => decide (x.state = .held ∧ s.iq.holdLimit ≠ 0#16 ∧
        s.iq.holdLimit.toNat ≤ ((s.eq.time + 1#32) - x.holdEntry.getD (s.eq.time + 1#32)).toNat))).map
      (fun x => Instr.holdLimitReached x.ix))
    ++ (if s.ec.timer = some 0 ∨ s.ec.timer = some 1 then [Instr.epochTimerExpiry] else []) := by
  have hheld : s.later.holdDue = fun x => decide (x.state = .held ∧ s.iq.holdLimit ≠ 0#16 ∧
      s.iq.holdLimit.toNat ≤ ((s.eq.time + 1#32) - x.holdEntry.getD (s.eq.time + 1#32)).toNat) := funext s.later_holdDue
  rw [State.due, hheld]
  congr 1
  by_cases ht : s.ec.timer = some 0 ∨ s.ec.timer = some 1
  · rw [if_pos (s.later_timerDue.2 ht), if_pos ht]
  · rw [if_neg (mt s.later_timerDue.1 ht), if_neg ht]

theorem State.tick_later {s : State} (hr : s.inReset = false) :
    s.tick = { s.later with pending := s.pending ++ s.later.due } :=
  if_neg (by rw [hr]; exact Bool.false_ne_true)

/-- Settles O2: the front request at the U-port is taken, or a microsecond passes. -/
theorem idleStepIsAMicrosecond : Obligations.IdleStepIsAMicrosecond := by
  unfold Obligations.IdleStepIsAMicrosecond
  refine ⟨fun s r rest hq hr hp hf => ?_, fun s hq hr hp => ?_⟩
  · obtain ⟨q, hf⟩ := Option.isSome_iff_exists.1 hf
    exact ⟨_, step_takes hq hr hp hf⟩
  · have hidle : s.port = [] ∨ s.takesRequests = false := hp.imp_right (fun hf => by rw [State.takesRequests_iff hr, hf]; rfl)
    rw [step_idle hq, State.idle_ticks hidle, State.tick_later (s := s.begin) hr, State.later_due, State.begin_pending, hq,
      List.nil_append]
    rfl

end Sys2Proof.Machine

/-! The laws of the epochs are not kept from every state that meets them (R10, R65). `State.AheadOk` does not say that a write
whose capture has ended cannot stand behind another of its granule, marked "no capture". There a duty passes to it (R65), and it
asks for a forward-path slot at once, its capture having ended (R10), with the duty still on it. -/
namespace Sys2Proof.Machine

namespace LateHeir

/-- A WRITE of one byte to granule 5. -/
def request : Request :=
  { master := 1, tag := 2, dir := .write, addr := 5#32 ++ (0#6 : BitVec 6), length := 1, data := [0x5A#8], mask := [true] }

/-- The head of the granule's order, decided TRIPPED, with the capture duty in epoch 20. -/
def giver : Slot :=
  { ix := 0, req := request, state := .waiting, pos := 0, win := none, kind := .journal, epoch := some 20#32,
    marking := some .capture, holdEntry := none, outcome := some .tripped, duty := true, captureEnded := false, atPoint := false }

/-- The write behind it, marked "no capture", with its capture ended. -/
def heir : Slot :=
  { ix := 1, req := request, state := .waiting, pos := 1, win := none, kind := .journal, epoch := some 20#32,
    marking := some .noCapture, holdEntry := none, outcome := none, duty := false, captureEnded := true, atPoint := false }

/-- Epoch 20, OPEN at line 100. -/
def entry : Entry := { Entry.fresh 20#32 with openLine := some 100 }

/-- JOURNALING with the two writes, and a hold limit of a FREE slot next in the queue. -/
def start : State :=
  { State.reset with
    ec := { State.reset.ec with bridge := .journaling, table := [entry] }
    jw := { State.reset.jw with region := some { base := 262144, pages := 16 }, head := 101, tail := 100 }
    iq := { State.reset.iq with slots := [giver, heir], nextPos := 2 }
    pending := [.holdLimitReached 5] }

/-- The state the step leaves. -/
def outcome : State := State.settle (State.expireSlot (State.begin { start with pending := [] }) 5)

theorem step_start : step start = .next outcome := rfl

theorem start_waiting : ∀ x ∈ start.iq.slots, x.state = .waiting := by decide

theorem start_intakeOk : start.IntakeOk where
  distinct := by decide
  order := by decide
  before := by decide
  held := by decide
  decided := by decide
  heads := fun x hx h => by
    rw [start_waiting x hx] at h
    exact absurd h (by decide)
  asked := fun q h => absurd h List.not_mem_nil
  once := by decide
  records := fun c h => absurd h List.not_mem_nil
  capturing := by decide
  recorded := by decide
  sent := fun p k q h => by simp [start, State.reset] at h
  sentOnce := fun p p' k k' q h => by simp [start, State.reset] at h
  issued := fun x hx h => absurd ((start_waiting x hx).symm.trans h) (by decide)
  fenced := by decide +kernel

theorem start_ok : start.Ok where
  events := ⟨by decide, fun i r h => by simp [start, State.reset] at h, by decide, by decide, by decide⟩
  touched := ⟨by decide, by decide⟩
  pressure := by
    unfold JournalWriter.PressureOk
    decide
  ranges :=
    { entries := by
        unfold Entry.CountsOk
        decide
      merged := by decide
      retention := by decide
      applied := by decide
      discarded := by decide
      failures := by decide
      quiet := by decide +kernel }
  intake := start_intakeOk

theorem start_tableOk : start.TableOk where
  few := by decide
  shape := ⟨[], [], [entry], rfl, by decide, by decide, by decide, by decide, rfl⟩
  order := fun first rest h => by
    obtain ⟨rfl, rfl⟩ := List.cons.inj h
    decide +kernel
  depth := by decide +kernel
  pending := by decide
  closing := by decide
  phase := by decide
  target := by decide
  live := fun x hx _ => by
    have hepoch : ∀ x ∈ start.iq.slots, x.epoch = some 20#32 := by decide
    exact ⟨entry, List.mem_singleton.2 rfl, hepoch x hx, by decide, rfl⟩
  capture := fun c h => absurd h List.not_mem_nil
  sealOnce := by
    have hnone : start.sealWrites = [] := by decide +kernel
    rw [hnone]
    exact ⟨by decide, fun e h => absurd h List.not_mem_nil⟩
  sealJob := ⟨by decide +kernel, fun job h => nomatch (show none = some job from h)⟩
  walk := fun h => absurd h (by decide)
  walking := by decide +kernel
  walkPort := by decide +kernel
  quiet := by decide +kernel
  done := fun h => absurd h (by decide)

theorem start_ringOk : start.RingOk where
  region := ⟨fun g h => by cases h; decide, fun _ => rfl⟩
  inside := by decide +kernel
  lines := fun y hy => by
    obtain rfl := List.mem_singleton.1 hy
    exact ⟨fun l h => by cases h; decide +kernel, (fun l h => nomatch h), (fun l h => nomatch h),
      (fun l h => nomatch h)⟩
  present := fun y hy => by
    obtain rfl := List.mem_singleton.1 hy
    exact ⟨rfl, rfl, by decide +kernel, (fun h => nomatch h)⟩
  extents := ⟨rfl, rfl⟩
  used := by decide +kernel
  nonempty := by decide +kernel
  after := fun job h => nomatch (show none = some job from h)
  reserve := by decide +kernel
  short := by decide +kernel

theorem start_aheadOk : start.AheadOk where
  duty := by decide +kernel
  sent := by decide +kernel
  ended := by decide +kernel

theorem start_numberLeft : start.NumberLeft := by
  unfold State.NumberLeft
  decide +kernel

/-- The duty has passed to the write whose capture had ended, of an epoch that is not marked broken. -/
theorem outcome_carries : ∃ x ∈ outcome.iq.slots, x.captureEnded = true ∧ x.outcome = none ∧ x.duty = true ∧
    ∃ y ∈ outcome.ec.table, x.epoch = some y.number ∧ y.broken = none := by decide +kernel

end LateHeir

/-- Refutes O25: in `LateHeir.start`, which meets the laws, the step gives the capture duty to a write whose capture has ended. -/
theorem not_epochsAndRingKept : ¬ Obligations.EpochsAndRingKept := by
  unfold Obligations.EpochsAndRingKept
  intro h
  have hkept := h LateHeir.start LateHeir.outcome LateHeir.start_ok
    ⟨LateHeir.start_tableOk, LateHeir.start_ringOk, LateHeir.start_aheadOk⟩ LateHeir.start_numberLeft LateHeir.step_start
  obtain ⟨x, hx, hended, hout, hduty, y, hy, hxy, hbroken⟩ := LateHeir.outcome_carries
  have hno := hkept.ahead.ended x hx hended hout y hy hxy hbroken
  exact absurd (hduty.symm.trans hno) (by decide)

end Sys2Proof.Machine

/-! What keeps a write from being sent ahead of its UNDO record, from state to state (R64, R65). -/
namespace Sys2Proof.Machine

/-! ## The state of a duty -/

/-- Epoch `e` is marked broken wherever the table holds it. -/
def State.AllBroken (s : State) (e : EpochNo) : Prop := ∀ y ∈ s.ec.table, y.number = e → y.broken.isSome = true

/-- A write to granule `g` carries the capture duty in epoch `e`. -/
def State.Covered (s : State) (g : Granule) (e : EpochNo) : Prop :=
  ∃ z ∈ s.iq.slots, z.duty = true ∧ z.epoch = some e ∧ z.granule = g

/-- No write to granule `g` in epoch `e` is left that could be sent without a capture. -/
def State.Bare (s : State) (g : Granule) (e : EpochNo) : Prop :=
  ∀ z ∈ s.iq.slots, z.granule = g → z.epoch = some e → z.marking = some .noCapture → z.outcome.isSome = true

/-- The duty for granule `g` in epoch `e` is not lost: the epoch is broken, a write carries the duty, or none is left that relied
on it and none that comes will. -/
def State.Safe (s : State) (g : Granule) (e : EpochNo) : Prop :=
  s.AllBroken e ∨ s.Covered g e ∨ (s.Bare g e ∧ (s.openEpoch? = some e → g ∉ s.cu.touched))

/-! ## Tables that lose entries and gain marks -/

/-- What of an entry tells which epoch it is and how far it has come. -/
def Entry.face (y : Entry) : EpochNo × EpochState := (y.number, y.state)

/-- From `s` to `t` entries leave the table and marks are made; the OPEN epoch stays. -/
structure Ages (s t : State) : Prop where
  faces  : (t.ec.table.map Entry.face).Sublist (s.ec.table.map Entry.face)
  broken : ∀ e, s.AllBroken e → t.AllBroken e
  opens  : t.openEpoch? = s.openEpoch?

theorem sublist_of_eq {α : Type} {l m : List α} (h : l = m) : l.Sublist m := h ▸ List.Sublist.refl l

theorem Ages.of_table {s t : State} (h : t.ec.table = s.ec.table) : Ages s t where
  faces := sublist_of_eq (congrArg (List.map Entry.face) h)
  broken := fun e hb y hy => hb y (h ▸ hy)
  opens := by
    unfold State.openEpoch? State.openEntry?
    rw [h]

theorem Ages.refl (s : State) : Ages s s := .of_table rfl

theorem Ages.trans {s t u : State} (h : Ages s t) (k : Ages t u) : Ages s u :=
  ⟨k.faces.trans h.faces, fun e hb => k.broken e (h.broken e hb), k.opens.trans h.opens⟩

/-- Entries changed with their faces and marks kept. -/
theorem Ages.map {s t : State} {f : Entry → Entry} (h : t.ec.table = s.ec.table.map f) (hface : ∀ y, (f y).face = y.face)
    (hb : ∀ y, y.broken.isSome = true → (f y).broken.isSome = true) : Ages s t where
  faces := sublist_of_eq (by rw [h, List.map_map, show Entry.face ∘ f = Entry.face from funext hface])
  broken := fun e hbr y hy hn => by
    rw [h] at hy
    obtain ⟨x, hx, rfl⟩ := List.mem_map.1 hy
    exact hb x (hbr x hx ((congrArg Prod.fst (hface x)).symm.trans hn))
  opens := by
    have hopened (y : Entry) : ((f y).state == .opened) = (y.state == .opened) :=
      congrArg (· == EpochState.opened) (congrArg Prod.snd (hface y))
    unfold State.openEpoch? State.openEntry?
    rw [h, List.find?_map, show (fun y : Entry => y.state == .opened) ∘ f = fun y => y.state == .opened from funext hopened,
      Option.map_map]
    congr 1
    exact funext fun y => congrArg Prod.fst (hface y)

theorem Ages.setEntry (s : State) (e : EpochNo) {f : Entry → Entry} (hface : ∀ y, (f y).face = y.face)
    (hb : ∀ y, y.broken.isSome = true → (f y).broken.isSome = true) : Ages s (s.setEntry e f) :=
  .map (f := fun y => if y.number == e then f y else y) rfl (fun y => by split <;> simp [hface])
    (fun y h => by
      split
      · exact hb y h
      · exact h)

theorem State.markBroken_ages (s : State) (e : EpochNo) (r : Reason) : Ages s (s.markBroken e r) := by
  unfold State.markBroken
  split
  · exact .refl s
  · exact (Ages.setEntry s e (f := Entry.mark r) (fun _ => rfl) (fun y _ => rfl)).trans (.of_table rfl)

theorem State.commitN_ages (n : Nat) (s : State) (c : Cause) : Ages s (s.commitN n c) := by
  obtain ⟨old, rest, htable, hold, hcom⟩ := State.commitN_some n s c
  have hrest : (s.commitN n c).ec.table = rest := by rw [hcom.ec]
  constructor
  case faces =>
    rw [hrest, htable, List.map_append]
    exact List.sublist_append_right _ _
  case broken =>
    intro e hb y hy
    refine hb y ?_
    rw [htable]
    exact List.mem_append_right _ (hrest ▸ hy)
  case opens =>
    have hnone : old.find? (fun y => y.state == .opened) = none :=
      List.find?_eq_none.2 (fun z hz => by rw [hold z hz]; decide)
    unfold State.openEpoch? State.openEntry?
    rw [hrest, htable, List.find?_append, hnone, Option.none_or]

theorem State.evaluate_ages (s : State) : Ages s s.evaluate := .of_table (by rw [s.evaluate_ec])

theorem State.commitOldest_ages (s : State) (c : Cause) : Ages s (s.commitOldest c) := s.commitN_ages 1 c

theorem State.setPressure_ages (s : State) (p : Pressure) (r : Option Reason) : Ages s (s.setPressure p r) := by
  unfold State.setPressure
  dsimp only
  split <;> exact .of_table rfl

theorem State.markOpen_ages (s : State) (r : Reason) : Ages s (s.markOpen r) := by
  unfold State.markOpen
  split
  · exact .refl s
  · exact s.markBroken_ages _ r

theorem State.raise_ages (s : State) (ev : Event) : Ages s (s.raise ev) := .of_table rfl

theorem State.enterSuspended_ages (s : State) (r : Reason) : Ages s (s.enterSuspended r) := by
  unfold State.enterSuspended
  split
  · exact .refl s
  · exact (((s.setPressure_ages _ _).trans (State.markOpen_ages _ r)).trans (State.commitN_ages _ _ _)).trans
      (State.raise_ages _ _)

theorem State.reservationFails_ages (s : State) (e : EpochNo) : Ages s (s.reservationFails e) := by
  unfold State.reservationFails
  split
  · exact (s.markBroken_ages e _).trans (State.commitN_ages _ _ _)
  · exact (s.markBroken_ages e _).trans (State.enterSuspended_ages _ _)

theorem State.placeOpen_ages (s : State) (e : EpochNo) : Ages s (s.placeOpen e) :=
  .map (f := fun x => if x.number == e then { x with openLine := some s.jw.head } else x) (by rw [s.placeOpen_ec])
    (fun y => by split <;> rfl) (fun y h => by split <;> exact h)

theorem State.reserveOpen_ages (s : State) (e : EpochNo) : Ages s (s.reserveOpen e) := by
  unfold State.reserveOpen
  split
  · exact s.placeOpen_ages e
  · exact (s.reservationFails_ages e).trans (State.placeOpen_ages _ e)

theorem State.makeRecord_ages (s : State) (w : RecordReq) : Ages s (s.makeRecord w) := by
  unfold State.makeRecord
  split <;> exact .of_table rfl

theorem State.makePad_ages (s : State) (e : EpochNo) (len : Nat) : Ages s (s.makePad e len) := by
  unfold State.makePad
  split
  · exact .refl s
  · exact s.makeRecord_ages _

theorem State.placeSeal_ages (s : State) (e : EpochNo) (sigs : List SigEntry) : Ages s (s.placeSeal e sigs) := by
  unfold State.placeSeal
  extract_lets len t job
  have hhead : Ages (s.makePad e len) ((s.makePad e len).advanceHead len) := .of_table rfl
  have hmark : Ages s t :=
    (((s.makePad_ages e len).trans hhead).trans
      (Ages.setEntry _ e (f := fun x => { x with sealLine := some (s.placeLine len) }) (fun _ => rfl) (fun _ h => h))).trans
      (State.makeRecord_ages _ _)
  exact (hmark.trans (.of_table rfl : Ages t { t with jw := { t.jw with sealJob := some job } })).trans (State.evaluate_ages _)

theorem State.reserveSeal_ages (s : State) (e : EpochNo) (sigs : List SigEntry) : Ages s (s.reserveSeal e sigs) := by
  unfold State.reserveSeal
  split
  · exact s.placeSeal_ages e sigs
  · exact (s.reservationFails_ages e).trans (State.placeSeal_ages _ e sigs)

end Sys2Proof.Machine

/-! The relation that an operation keeps what the write-ahead law rests on (R64, R65). -/
namespace Sys2Proof.Machine

/-! ## Operations on the requests that touch neither assignment nor marking -/

/-- From `x` to `z` the record keeps its key, assignment, marking, duty and what is decided of it; it does not become HELD. -/
structure Slot.Kept (x z : Slot) : Prop where
  key     : z.key = x.key
  epoch   : z.epoch = x.epoch
  marking : z.marking = x.marking
  duty    : z.duty = x.duty
  ended   : z.captureEnded = x.captureEnded
  decided : x.outcome.isSome = true → z.outcome.isSome = true
  held    : z.state = .held → x.state = .held

theorem Slot.Kept.refl (x : Slot) : x.Kept x := ⟨rfl, rfl, rfl, rfl, rfl, id, id⟩

theorem Slot.Kept.trans {x y z : Slot} (h : x.Kept y) (k : y.Kept z) : x.Kept z :=
  ⟨k.key.trans h.key, k.epoch.trans h.epoch, k.marking.trans h.marking, k.duty.trans h.duty, k.ended.trans h.ended,
    fun hd => k.decided (h.decided hd), fun hh => h.held (k.held hh)⟩

theorem Slot.Kept.granule {x z : Slot} (h : x.Kept z) : z.granule = x.granule := Slot.granule_of_key h.key

/-- From `s` to `t` each record is kept, and the touched set with them. -/
structure Plain (s t : State) : Prop where
  into    : ∀ z ∈ t.iq.slots, ∃ x ∈ s.iq.slots, x.Kept z
  onto    : ∀ x ∈ s.iq.slots, ∃ z ∈ t.iq.slots, x.Kept z
  touched : t.cu.touched = s.cu.touched

theorem Plain.of_slots {s t : State} (h : t.iq.slots = s.iq.slots) (hc : t.cu.touched = s.cu.touched) : Plain s t :=
  ⟨fun z hz => ⟨z, h ▸ hz, .refl z⟩, fun x hx => ⟨x, h ▸ hx, .refl x⟩, hc⟩

theorem Plain.refl (s : State) : Plain s s := .of_slots rfl rfl

theorem Plain.trans {s t u : State} (h : Plain s t) (k : Plain t u) : Plain s u where
  into := fun z hz => by
    obtain ⟨y, hy, hyz⟩ := k.into z hz
    obtain ⟨x, hx, hxy⟩ := h.into y hy
    exact ⟨x, hx, hxy.trans hyz⟩
  onto := fun x hx => by
    obtain ⟨y, hy, hxy⟩ := h.onto x hx
    obtain ⟨z, hz, hyz⟩ := k.onto y hy
    exact ⟨z, hz, hxy.trans hyz⟩
  touched := k.touched.trans h.touched

theorem Plain.map {s t : State} {f : Slot → Slot} (h : t.iq.slots = s.iq.slots.map f) (hf : ∀ x ∈ s.iq.slots, x.Kept (f x))
    (hc : t.cu.touched = s.cu.touched) : Plain s t where
  into := fun z hz => by
    obtain ⟨x, hx, rfl⟩ := List.mem_map.1 (h ▸ hz)
    exact ⟨x, hx, hf x hx⟩
  onto := fun x hx => ⟨f x, h ▸ List.mem_map_of_mem hx, hf x hx⟩
  touched := hc

theorem Plain.setSlot (s : State) (q : SlotIx) {f : Slot → Slot} (hf : ∀ x ∈ s.iq.slots, x.ix = q → x.Kept (f x)) :
    Plain s (s.setSlot q f) :=
  .map (f := fun x => if x.ix == q then f x else x) rfl (fun x hx => by
    split
    · rename_i h
      exact hf x hx (by simpa using h)
    · exact .refl x) rfl

theorem Slot.Kept.of_reexamined {x z : Slot} (h : z.reexamined = x.reexamined) : x.Kept z := by
  have hx : x.Kept x.reexamined := ⟨rfl, rfl, rfl, rfl, rfl, id, id⟩
  have hz : z.reexamined.Kept z := ⟨rfl, rfl, rfl, rfl, rfl, id, id⟩
  exact hx.trans (h ▸ hz)

theorem Plain.of_marks {s t : State} (h : t.iq.slots.map Slot.reexamined = s.iq.slots.map Slot.reexamined)
    (hc : t.cu.touched = s.cu.touched) : Plain s t where
  into := fun z hz => by
    obtain ⟨x, hx, hxz⟩ := mem_of_reexamined h.symm hz
    exact ⟨x, hx, .of_reexamined hxz.symm⟩
  onto := fun x hx => by
    obtain ⟨z, hz, hzx⟩ := mem_of_reexamined h hx
    exact ⟨z, hz, .of_reexamined hzx⟩
  touched := hc

theorem Calm.plain {s t : State} (h : Calm s t) : Plain s t := .of_marks h.slots (congrArg CaptureUnit.touched h.cu)

/-! ## The relation -/

/-- From `s` to `t` no duty is lost, no capture ends, and no request becomes HELD in another epoch than the OPEN one; no epoch is
added. -/
structure Guards (s t : State) : Prop where
  ages  : Ages s t
  safe  : ∀ g e, s.Safe g e → t.Safe g e
  bare  : ∀ e, s.openEpoch? ≠ some e → (∀ g, s.Bare g e) → ∀ g, t.Bare g e
  held  : ∀ z ∈ t.iq.slots, z.state = .held → ∀ e, z.epoch = some e →
            (∃ x ∈ s.iq.slots, x.state = .held ∧ x.epoch = some e) ∨ s.openEpoch? = some e
  ended : ∀ z ∈ t.iq.slots, z.captureEnded = true → ∃ x ∈ s.iq.slots, x.key = z.key ∧ x.captureEnded = true

theorem Guards.refl (s : State) : Guards s s :=
  ⟨.refl s, fun _ _ h => h, fun _ _ h => h, fun z hz hh _ he => .inl ⟨z, hz, hh, he⟩, fun z hz h => ⟨z, hz, rfl, h⟩⟩

theorem Guards.trans {s t u : State} (h : Guards s t) (k : Guards t u) : Guards s u where
  ages := h.ages.trans k.ages
  safe := fun g e hs => k.safe g e (h.safe g e hs)
  bare := fun e ho hb => k.bare e (h.ages.opens ▸ ho) (h.bare e ho hb)
  held := fun z hz hh e he => by
    obtain ⟨y, hy, hyh, hye⟩ | ho := k.held z hz hh e he
    · exact h.held y hy hyh e hye
    · exact .inr (h.ages.opens.symm.trans ho)
  ended := fun z hz hc => by
    obtain ⟨y, hy, hyk, hyc⟩ := k.ended z hz hc
    obtain ⟨x, hx, hxk, hxc⟩ := h.ended y hy hyc
    exact ⟨x, hx, hxk.trans hyk, hxc⟩

theorem Plain.covered {s t : State} (h : Plain s t) {g : Granule} {e : EpochNo} (hc : s.Covered g e) : t.Covered g e := by
  obtain ⟨x, hx, hd, he, hg⟩ := hc
  obtain ⟨z, hz, k⟩ := h.onto x hx
  exact ⟨z, hz, k.duty.trans hd, k.epoch.trans he, k.granule.trans hg⟩

theorem Plain.bare {s t : State} (h : Plain s t) {g : Granule} {e : EpochNo} (hb : s.Bare g e) : t.Bare g e := by
  intro z hz hg he hm
  obtain ⟨x, hx, k⟩ := h.into z hz
  exact k.decided (hb x hx (k.granule.symm.trans hg) (k.epoch.symm.trans he) (k.marking.symm.trans hm))

theorem Guards.of_plain {s t : State} (h : Plain s t) (ha : Ages s t) : Guards s t where
  ages := ha
  safe := fun g e hs => by
    obtain hb | hc | ⟨hbare, huntouched⟩ := hs
    · exact .inl (ha.broken e hb)
    · exact .inr (.inl (h.covered hc))
    · refine .inr (.inr ⟨h.bare hbare, fun ho => ?_⟩)
      rw [h.touched]
      exact huntouched (ha.opens.symm.trans ho)
  bare := fun e _ hb g => h.bare (hb g)
  held := fun z hz hh e he => by
    obtain ⟨x, hx, k⟩ := h.into z hz
    exact .inl ⟨x, hx, k.held hh, k.epoch.symm.trans he⟩
  ended := fun z hz hc => by
    obtain ⟨x, hx, k⟩ := h.into z hz
    exact ⟨x, hx, k.key.symm, k.ended.symm.trans hc⟩

/-- From `s` to `t` the same holds wherever the Intake Queue agrees and no two entries share a number. -/
def Guarded (s t : State) : Prop := s.IntakeOk → s.NumbersOk → t.IntakeOk ∧ Guards s t

theorem Ages.numbersOk {s t : State} (h : Ages s t) (hn : s.NumbersOk) : t.NumbersOk := by
  have hs := h.faces.map Prod.fst
  rw [List.map_map, List.map_map] at hs
  exact hs.nodup hn

theorem Guarded.refl (s : State) : Guarded s s := fun k _ => ⟨k, .refl s⟩

theorem Guarded.trans {s t u : State} (h : Guarded s t) (k : Guarded t u) : Guarded s u := by
  intro hi hn
  obtain ⟨hti, hg⟩ := h hi hn
  obtain ⟨hui, hk⟩ := k hti (hg.ages.numbersOk hn)
  exact ⟨hui, hg.trans hk⟩

theorem Guarded.of_within {s t : State} (h : Within s t) (hg : s.IntakeOk → s.NumbersOk → Guards s t) : Guarded s t :=
  fun k hn => ⟨h.intake k, hg k hn⟩

theorem Guarded.of_sound {s t : State} (h : Sound s t) (hg : s.IntakeOk → s.NumbersOk → Guards s t) : Guarded s t :=
  fun k hn => ⟨h.intake k, hg k hn⟩

theorem Guarded.foldl {α : Type} {f : State → α → State} (h : ∀ s a, Guarded s (f s a)) (l : List α) (s : State) :
    Guarded s (l.foldl f s) := by
  induction l generalizing s with
  | nil => exact .refl s
  | cons a l ih => exact (h s a).trans (ih (f s a))

end Sys2Proof.Machine

/-! An answer from a decided outcome passes the duty on or leaves nothing that rests on it (R7, R65). -/
namespace Sys2Proof.Machine

/-! ## The duty of a request that leaves (R65) -/

/-- From `s` to `t` the request of `x` has left and its duty has passed on. -/
structure State.Parts (s t : State) (x : Slot) : Prop where
  table   : t.ec = s.ec
  into    : ∀ z ∈ t.iq.slots, ∃ y ∈ s.iq.slots, y.ix ≠ x.ix ∧ z.key = y.key ∧ z.epoch = y.epoch ∧ z.state = y.state ∧
              z.captureEnded = y.captureEnded ∧ z.outcome = y.outcome ∧ (z.marking = some .noCapture → y.marking = some .noCapture)
  onto    : ∀ y ∈ s.iq.slots, y.ix ≠ x.ix → ∃ z ∈ t.iq.slots, z.key = y.key ∧ z.epoch = y.epoch ∧
              (y.duty = true → z.duty = true)
  touched : ∀ g ∈ t.cu.touched, g ∈ s.cu.touched
  passed  : x.duty = true →
              (∃ z ∈ t.iq.slots, z.duty = true ∧ z.epoch = x.epoch ∧ z.granule = x.granule) ∨
              ((∀ y ∈ s.iq.slots, y.ix ≠ x.ix → y.granule = x.granule → x.pos < y.pos → y.epoch = x.epoch →
                  y.marking = some .noCapture → y.outcome.isSome = true) ∧
                (x.epoch.isSome = true → x.epoch = s.openEpoch? → x.granule ∉ t.cu.touched))

theorem State.answerDecided_parts (s : State) (x : Slot) (o : Decided) : s.Parts (s.answerDecided x o) x := by
  let u : State := (s.withdraw x.ix).answer x o.status []
  have hslots : u.iq.slots = s.iq.slots.filter (fun y => y.ix != x.ix) := rfl
  have hin {y : Slot} (hy : y ∈ u.iq.slots) : y ∈ s.iq.slots ∧ y.ix ≠ x.ix := by
    rw [hslots] at hy
    obtain ⟨hy, hne⟩ := List.mem_filter.1 hy
    exact ⟨hy, by simpa using hne⟩
  have hout {y : Slot} (hy : y ∈ s.iq.slots) (hne : y.ix ≠ x.ix) : y ∈ u.iq.slots := by
    rw [hslots]
    exact List.mem_filter.2 ⟨hy, by simpa using hne⟩
  have hself : ∀ z ∈ u.iq.slots, ∃ y ∈ s.iq.slots, y.ix ≠ x.ix ∧ z.key = y.key ∧ z.epoch = y.epoch ∧ z.state = y.state ∧
      z.captureEnded = y.captureEnded ∧ z.outcome = y.outcome ∧ (z.marking = some .noCapture → y.marking = some .noCapture) :=
    fun z hz => ⟨z, (hin hz).1, (hin hz).2, rfl, rfl, rfl, rfl, rfl, id⟩
  have hkept : ∀ y ∈ s.iq.slots, y.ix ≠ x.ix → ∃ z ∈ u.iq.slots, z.key = y.key ∧ z.epoch = y.epoch ∧
      (y.duty = true → z.duty = true) := fun y hy hne => ⟨y, hout hy hne, rfl, rfl, id⟩
  show s.Parts (u.passDuty x) x
  unfold State.passDuty
  split
  · cases hh : u.heir? x with
    | some y =>
      have hy := List.mem_of_find?_eq_some hh
      have hp := List.find?_some hh
      simp only [Bool.and_eq_true, beq_iff_eq, decide_eq_true_eq] at hp
      obtain ⟨⟨⟨⟨hg, -⟩, he⟩, -⟩, -⟩ := hp
      dsimp only
      have hmap (z : Slot) : (if z.ix == y.ix then { z with marking := some Marking.capture, duty := true } else z).key = z.key := by
        split <;> rfl
      constructor
      case table => rfl
      case into =>
        intro z hz
        obtain ⟨w, hw, rfl⟩ := List.mem_map.1 (show z ∈ u.iq.slots.map _ from hz)
        refine ⟨w, (hin hw).1, (hin hw).2, ?_⟩
        split
        · exact ⟨rfl, rfl, rfl, rfl, rfl, fun h => absurd (Option.some.inj (show some Marking.capture = some .noCapture from h))
            (by decide)⟩
        · exact ⟨rfl, rfl, rfl, rfl, rfl, id⟩
      case onto =>
        intro w hw hne
        refine ⟨_, List.mem_map_of_mem (hout hw hne), ?_⟩
        split
        · exact ⟨rfl, rfl, fun _ => rfl⟩
        · exact ⟨rfl, rfl, id⟩
      case touched => exact fun _ h => h
      case passed =>
        refine fun _ => .inl ⟨_, List.mem_map_of_mem hy, ?_⟩
        rw [if_pos (beq_self_eq_true y.ix)]
        exact ⟨rfl, he, hg⟩
    | none =>
      have hnone : ∀ y ∈ s.iq.slots, y.ix ≠ x.ix → y.granule = x.granule → x.pos < y.pos → y.epoch = x.epoch →
          y.marking = some .noCapture → y.outcome.isSome = true := by
        intro y hy hne hg hpos he hm
        refine Classical.byContradiction (fun ho => ?_)
        refine List.find?_eq_none.1 hh y (hout hy hne) ?_
        simp only [Bool.and_eq_true, beq_iff_eq, decide_eq_true_eq]
        exact ⟨⟨⟨⟨hg, hpos⟩, he⟩, hm⟩, by simpa using ho⟩
      dsimp only
      split
      · exact ⟨rfl, hself, hkept, fun g hg => (List.mem_filter.1 hg).1, fun _ => .inr ⟨hnone, fun _ _ hg => by
          simpa using (List.mem_filter.1 hg).2⟩⟩
      · rename_i hopen
        exact ⟨rfl, hself, hkept, fun _ hg => hg, fun _ => .inr ⟨hnone, fun he ho => absurd ⟨he, ho⟩ hopen⟩⟩
  · rename_i hduty
    exact ⟨rfl, hself, hkept, fun _ hg => hg, fun hd => absurd hd hduty⟩

theorem State.Parts.guards {s t : State} {x : Slot} (h : s.Parts t x)
    (hfront : ∀ y ∈ s.iq.slots, y.ix ≠ x.ix → y.granule = x.granule → x.pos < y.pos)
    (hself : ∀ y ∈ s.iq.slots, y.ix = x.ix → y.granule = x.granule ∧ y.duty = x.duty ∧ y.epoch = x.epoch) : Guards s t := by
  have ha : Ages s t := .of_table (congrArg EpochController.table h.table)
  have hbare {g : Granule} {e : EpochNo} (hb : s.Bare g e) : t.Bare g e := by
    intro z hz hg he hm
    obtain ⟨y, hy, -, hkey, hepoch, -, -, hout, hmark⟩ := h.into z hz
    rw [hout]
    exact hb y hy ((Slot.granule_of_key hkey).symm.trans hg) (hepoch.symm.trans he) (hmark hm)
  constructor
  case ages => exact ha
  case safe =>
    rintro g e (hb | ⟨z, hz, hd, he, hg⟩ | ⟨hb, hu⟩)
    · exact .inl (ha.broken e hb)
    · by_cases hzx : z.ix = x.ix
      · obtain ⟨hxg, hxd, hxe⟩ := hself z hz hzx
        have hxepoch : x.epoch = some e := hxe.symm.trans he
        obtain ⟨w, hw, hwd, hwe, hwg⟩ | ⟨hnone, huntouched⟩ := h.passed (hxd.symm.trans hd)
        · exact .inr (.inl ⟨w, hw, hwd, hwe.trans hxepoch, hwg.trans (hxg.symm.trans hg)⟩)
        · refine .inr (.inr ⟨?_, fun ho => ?_⟩)
          · intro w hw hwg hwe hwm
            obtain ⟨y, hy, hyne, hkey, hepoch, -, -, hout, hmark⟩ := h.into w hw
            have hyg : y.granule = x.granule := (Slot.granule_of_key hkey).symm.trans (hwg.trans (hg.symm.trans hxg))
            rw [hout]
            exact hnone y hy hyne hyg (hfront y hy hyne hyg) (hepoch.symm.trans (hwe.trans hxepoch.symm)) (hmark hwm)
          · rw [← hg, hxg]
            exact huntouched (by rw [hxepoch]; rfl) (hxepoch.trans (ha.opens.symm.trans ho).symm)
      · obtain ⟨w, hw, hkey, hepoch, hduty⟩ := h.onto z hz hzx
        exact .inr (.inl ⟨w, hw, hduty hd, hepoch.trans he, (Slot.granule_of_key hkey).trans hg⟩)
    · exact .inr (.inr ⟨hbare hb, fun ho hg => hu (ha.opens.symm.trans ho) (h.touched g hg)⟩)
  case bare => exact fun e _ hb g => hbare (hb g)
  case held =>
    intro z hz hh e he
    obtain ⟨y, hy, -, -, hepoch, hstate, -⟩ := h.into z hz
    exact .inl ⟨y, hy, hstate.symm.trans hh, hepoch.symm.trans he⟩
  case ended =>
    intro z hz hc
    obtain ⟨y, hy, -, hkey, -, -, hended, -⟩ := h.into z hz
    exact ⟨y, hy, hkey.symm, hended.symm.trans hc⟩

end Sys2Proof.Machine

/-! The dealing with heads loses no duty (R7, R65, R66). -/
namespace Sys2Proof.Machine

theorem Guards.same {s t : State} (hs : t.iq.slots = s.iq.slots) (hc : t.cu.touched = s.cu.touched)
    (ht : t.ec.table = s.ec.table) : Guards s t := .of_plain (.of_slots hs hc) (.of_table ht)

theorem Calm.guards {s t : State} (h : Calm s t) (ha : Ages s t) : Guards s t := .of_plain h.plain ha

theorem State.askForward_guards (s : State) (q : SlotIx) : Guards s (s.askForward q) := by
  unfold State.askForward
  split
  · exact .refl s
  · exact .same rfl rfl rfl

theorem State.IntakeOk.pos_unique {s : State} (k : s.IntakeOk) {x y : Slot} (hx : x ∈ s.iq.slots) (hy : y ∈ s.iq.slots)
    (h : x.pos = y.pos) : x = y := by
  have hd : (s.iq.slots.map (·.pos)).Nodup := (List.pairwise_map.2 k.order).imp (fun h => Nat.ne_of_lt h)
  exact eq_of_nodup_map hd hx hy h

/-- A head stands before every other request of its granule. -/
theorem State.IntakeOk.front {s : State} (k : s.IntakeOk) {x : Slot} (hx : x ∈ s.iq.slots) (ho : s.Oldest x) :
    ∀ y ∈ s.iq.slots, y.ix ≠ x.ix → y.granule = x.granule → x.pos < y.pos := by
  intro y hy hne hg
  refine Nat.lt_of_le_of_ne (ho y hy hg) (fun hp => hne ?_)
  rw [k.pos_unique hx hy hp]

theorem State.IntakeOk.self {s : State} (k : s.IntakeOk) {x : Slot} (hx : x ∈ s.iq.slots) :
    ∀ y ∈ s.iq.slots, y.ix = x.ix → y.granule = x.granule ∧ y.duty = x.duty ∧ y.epoch = x.epoch := by
  intro y hy h
  rw [k.unique hy hx h]
  exact ⟨rfl, rfl, rfl⟩

theorem State.answerDecided_guards {s : State} (k : s.IntakeOk) {x : Slot} (hx : x ∈ s.iq.slots) (ho : s.Oldest x)
    (o : Decided) : Guards s (s.answerDecided x o) := (s.answerDecided_parts x o).guards (k.front hx ho) (k.self hx)

theorem State.tripAnswered_guards {s : State} (k : s.IntakeOk) {x : Slot} (hx : x ∈ s.iq.slots) (ho : s.Oldest x) :
    Guards s ((s.decideTripped x).answerDecided x .tripped) := by
  have hplain : Plain s (s.decideTripped x) :=
    (Plain.setSlot s x.ix (f := fun y => { y with outcome := some .tripped, atPoint := false })
      (fun _ _ _ => ⟨rfl, rfl, rfl, rfl, rfl, fun _ => rfl, id⟩)).trans (.of_slots rfl rfl)
  refine (Guards.of_plain hplain (.of_table rfl)).trans (((s.decideTripped x).answerDecided_parts x .tripped).guards ?_ ?_)
  · intro z hz hne hg
    obtain ⟨y, hy, hyz⟩ := hplain.into z hz
    rw [Slot.pos_of_key hyz.key]
    exact k.front hx ho y hy (Slot.ix_of_key hyz.key ▸ hne) (hyz.granule.symm.trans hg)
  · intro z hz hix
    obtain ⟨y, hy, hyz⟩ := hplain.into z hz
    obtain ⟨hg, hd, he⟩ := k.self hx y hy ((Slot.ix_of_key hyz.key).symm.trans hix)
    exact ⟨hyz.granule.trans hg, hyz.duty.trans hd, hyz.epoch.trans he⟩

theorem State.beginCapture_guards (s : State) (x : Slot) (e : EpochNo) (n : Nat) : Guards s (s.beginCapture x e n) := by
  have hplain : Plain s (s.beginCapture x e n) :=
    .map (f := fun z => if z.ix == x.ix then { z with state := .capturing, atPoint := false } else z) rfl (fun z _ => by
      split
      · exact ⟨rfl, rfl, rfl, rfl, rfl, id, fun h => SlotState.noConfusion h⟩
      · exact .refl z) rfl
  exact .of_plain hplain (.of_table rfl)

theorem State.examine_guards {s : State} (k : s.IntakeOk) {x : Slot} (hx : x ∈ s.iq.slots) (ho : s.Oldest x) (e : EpochNo)
    (n : Nat) : Guards s (s.examine x e n) := by
  unfold State.examine
  split
  · exact State.tripAnswered_guards k hx ho
  · split
    · exact s.askForward_guards x.ix
    · split
      · exact ((s.markBroken_calm e _).guards (s.markBroken_ages e _)).trans (State.askForward_guards _ x.ix)
      · split
        · exact .of_plain (Plain.setSlot s x.ix (f := fun z => { z with atPoint := true })
            (fun _ _ _ => ⟨rfl, rfl, rfl, rfl, rfl, id, id⟩)) (.of_table rfl)
        · exact s.beginCapture_guards x e n

theorem State.dealHead_guards {s : State} (k : s.IntakeOk) {x : Slot} (hx : x ∈ s.iq.slots) (ho : s.Oldest x) (n : Nat) :
    Guards s (s.dealHead x n) := by
  unfold State.dealHead
  split
  · exact State.answerDecided_guards k hx ho _
  · split
    · exact .refl s
    · split
      · split
        · exact .refl s
        · exact State.examine_guards k hx ho _ n
      · exact s.askForward_guards x.ix

theorem State.dealSlot_guarded (s : State) (n : Nat) (q : SlotIx) : Guarded s (s.dealSlot n q) := by
  refine .of_within (s.dealSlot_within n q) (fun k _ => ?_)
  unfold State.dealSlot
  cases hx : s.slot? q with
  | none => exact .refl s
  | some x =>
    dsimp only
    split
    · rename_i hw
      have hm := (State.mem_of_slot? hx).1
      exact State.dealHead_guards k hm (State.isHead_oldest k hm hw.2) n
    · exact .refl s

theorem State.serve_guarded (s : State) : Guarded s s.serve := Guarded.foldl (fun t q => t.dealSlot_guarded s.nextGroup q) _ s

end Sys2Proof.Machine

/-! The assignment of a write to the OPEN epoch loses no duty (R60 to R63). -/
namespace Sys2Proof.Machine

/-! ## What an assignment leaves of the other writes -/

/-- From `s` to `t` the records change in epoch `n` and granule `g₀` alone. -/
structure State.Joins (s t : State) (n : EpochNo) (g₀ : Granule) : Prop where
  into    : ∀ z ∈ t.iq.slots, ∃ y ∈ s.iq.slots, z.key = y.key ∧ z.captureEnded = y.captureEnded ∧
              (y.Kept z ∨ (z.epoch = some n ∧ z.granule = g₀))
  onto    : ∀ y ∈ s.iq.slots, y.epoch.isSome = true → (∃ z ∈ t.iq.slots, y.Kept z) ∨ (y.epoch = some n ∧ y.granule = g₀)
  touched : ∀ g ∈ t.cu.touched, g ∈ s.cu.touched ∨ g = g₀

theorem State.Joins.guards {s t : State} {n : EpochNo} {g₀ : Granule} (h : s.Joins t n g₀) (ha : Ages s t)
    (hn : s.openEpoch? = some n) (hown : s.Safe g₀ n → t.Safe g₀ n) : Guards s t where
  ages := ha
  safe := by
    intro g e hs
    by_cases heg : e = n ∧ g = g₀
    · rw [heg.1, heg.2] at hs ⊢
      exact hown hs
    obtain hb | ⟨y, hy, hd, he, hg⟩ | ⟨hb, hu⟩ := hs
    · exact .inl (ha.broken e hb)
    · obtain ⟨z, hz, k⟩ | ⟨hye, hyg⟩ := h.onto y hy (by rw [he]; rfl)
      · exact .inr (.inl ⟨z, hz, k.duty.trans hd, k.epoch.trans he, k.granule.trans hg⟩)
      · exact absurd ⟨Option.some.inj (he.symm.trans hye), hg.symm.trans hyg⟩ heg
    · refine .inr (.inr ⟨?_, fun ho hg => ?_⟩)
      · intro z hz hg he hm
        obtain ⟨y, hy, -, -, k | ⟨hze, hzg⟩⟩ := h.into z hz
        · exact k.decided (hb y hy (k.granule.symm.trans hg) (k.epoch.symm.trans he) (k.marking.symm.trans hm))
        · exact absurd ⟨Option.some.inj (he.symm.trans hze), hg.symm.trans hzg⟩ heg
      · have hos := ha.opens.symm.trans ho
        obtain hg | rfl := h.touched g hg
        · exact hu hos hg
        · exact heg ⟨Option.some.inj (hos.symm.trans hn), rfl⟩
  bare := by
    intro e ho hb g z hz hg he hm
    obtain ⟨y, hy, -, -, k | ⟨hze, -⟩⟩ := h.into z hz
    · exact k.decided (hb g y hy (k.granule.symm.trans hg) (k.epoch.symm.trans he) (k.marking.symm.trans hm))
    · exact absurd (hn.trans (hze.symm.trans he)) ho
  held := by
    intro z hz hh e he
    obtain ⟨y, hy, -, -, k | ⟨hze, -⟩⟩ := h.into z hz
    · exact .inl ⟨y, hy, k.held hh, k.epoch.symm.trans he⟩
    · exact .inr (hn.trans (hze.symm.trans he))
  ended := by
    intro z hz hc
    obtain ⟨y, hy, hkey, hended, -⟩ := h.into z hz
    exact ⟨y, hy, hkey.symm, hended.symm.trans hc⟩

theorem State.Joins.setSlot {s t : State} {n : EpochNo} {g₀ : Granule} (h : s.Joins t n g₀) {r : SlotIx} {f : Slot → Slot}
    (hr : ∀ z ∈ t.iq.slots, z.ix = r → z.epoch = some n ∧ z.granule = g₀)
    (hf : ∀ z, (f z).key = z.key ∧ (f z).captureEnded = z.captureEnded ∧ (f z).epoch = z.epoch) :
    s.Joins (t.setSlot r f) n g₀ where
  into := by
    intro z hz
    obtain ⟨w, hw, rfl⟩ := List.mem_map.1 (show z ∈ t.iq.slots.map _ from hz)
    obtain ⟨y, hy, hkey, hended, hk⟩ := h.into w hw
    by_cases hwr : w.ix = r
    · rw [if_pos (by simpa using hwr)]
      obtain ⟨hfk, hfc, hfe⟩ := hf w
      obtain ⟨hwe, hwg⟩ := hr w hw hwr
      exact ⟨y, hy, hfk.trans hkey, hfc.trans hended, .inr ⟨hfe.trans hwe, (Slot.granule_of_key hfk).trans hwg⟩⟩
    · rw [if_neg (by simpa using hwr)]
      exact ⟨y, hy, hkey, hended, hk⟩
  onto := by
    intro y hy he
    obtain ⟨z, hz, k⟩ | hn := h.onto y hy he
    · by_cases hzr : z.ix = r
      · obtain ⟨hze, hzg⟩ := hr z hz hzr
        exact .inr ⟨k.epoch.symm.trans hze, k.granule.symm.trans hzg⟩
      · refine .inl ⟨_, List.mem_map_of_mem hz, ?_⟩
        rw [if_neg (by simpa using hzr)]
        exact k
    · exact .inr hn
  touched := h.touched

/-- From `s` to `t` the records of the slots other than `q` are kept. -/
structure State.Beside (s t : State) (q : SlotIx) : Prop where
  into : ∀ z ∈ t.iq.slots, z.ix ≠ q → ∃ y ∈ s.iq.slots, y.Kept z
  onto : ∀ y ∈ s.iq.slots, y.ix ≠ q → ∃ z ∈ t.iq.slots, y.Kept z
  own  : ∀ z ∈ t.iq.slots, z.ix = q → ∃ y ∈ s.iq.slots, z.key = y.key ∧ z.captureEnded = y.captureEnded

theorem State.Beside.refl (s : State) (q : SlotIx) : s.Beside s q :=
  ⟨fun z hz _ => ⟨z, hz, .refl z⟩, fun z hz _ => ⟨z, hz, .refl z⟩, fun z hz _ => ⟨z, hz, rfl, rfl⟩⟩

theorem State.Beside.plain {s t u : State} {q : SlotIx} (h : s.Beside t q) (k : Plain t u) : s.Beside u q where
  into := by
    intro z hz hne
    obtain ⟨w, hw, hwz⟩ := k.into z hz
    obtain ⟨y, hy, hyw⟩ := h.into w hw (Slot.ix_of_key hwz.key ▸ hne)
    exact ⟨y, hy, hyw.trans hwz⟩
  onto := by
    intro y hy hne
    obtain ⟨w, hw, hyw⟩ := h.onto y hy hne
    obtain ⟨z, hz, hwz⟩ := k.onto w hw
    exact ⟨z, hz, hyw.trans hwz⟩
  own := by
    intro z hz hq
    obtain ⟨w, hw, hwz⟩ := k.into z hz
    obtain ⟨y, hy, hkey, hended⟩ := h.own w hw ((Slot.ix_of_key hwz.key).symm.trans hq)
    exact ⟨y, hy, hwz.key.trans hkey, hwz.ended.trans hended⟩

theorem State.Beside.setSlot {s t : State} {q : SlotIx} (h : s.Beside t q) {f : Slot → Slot}
    (hf : ∀ z, (f z).key = z.key ∧ (f z).captureEnded = z.captureEnded) : s.Beside (t.setSlot q f) q := by
  have hmem {z : Slot} (hz : z ∈ (t.setSlot q f).iq.slots) : (z.ix ≠ q ∧ z ∈ t.iq.slots) ∨
      ∃ w ∈ t.iq.slots, w.ix = q ∧ z = f w := by
    obtain ⟨w, hw, rfl⟩ := List.mem_map.1 (show z ∈ t.iq.slots.map _ from hz)
    by_cases hq : w.ix = q
    · rw [if_pos (by simpa using hq)]
      exact .inr ⟨w, hw, hq, rfl⟩
    · rw [if_neg (by simpa using hq)]
      exact .inl ⟨hq, hw⟩
  constructor
  case into =>
    intro z hz hne
    obtain ⟨-, hzt⟩ | ⟨w, -, hwq, rfl⟩ := hmem hz
    · exact h.into z hzt hne
    · exact absurd ((Slot.ix_of_key (hf w).1).trans hwq) hne
  case onto =>
    intro y hy hne
    obtain ⟨z, hz, k⟩ := h.onto y hy hne
    have hzq : z.ix ≠ q := fun hz => hne ((Slot.ix_of_key k.key).symm.trans hz)
    refine ⟨_, List.mem_map_of_mem hz, ?_⟩
    rw [if_neg (by simpa using hzq)]
    exact k
  case own =>
    intro z hz hq
    obtain ⟨hne, -⟩ | ⟨w, hw, hwq, rfl⟩ := hmem hz
    · exact absurd hq hne
    · obtain ⟨y, hy, hkey, hended⟩ := h.own w hw hwq
      exact ⟨y, hy, (hf w).1.trans hkey, (hf w).2.trans hended⟩

theorem State.Beside.joins {s t : State} {q : SlotIx} {x : Slot} {n : EpochNo} {g₀ : Granule} (h : s.Beside t q)
    (hd : (s.iq.slots.map (·.ix)).Nodup) (hx : s.slot? q = some x) (hxe : x.epoch = none)
    (hown : ∀ z ∈ t.iq.slots, z.ix = q → z.epoch = some n ∧ z.granule = g₀)
    (htouched : ∀ g ∈ t.cu.touched, g ∈ s.cu.touched ∨ g = g₀) : s.Joins t n g₀ where
  into := by
    intro z hz
    by_cases hq : z.ix = q
    · obtain ⟨y, hy, hkey, hended⟩ := h.own z hz hq
      exact ⟨y, hy, hkey, hended, .inr (hown z hz hq)⟩
    · obtain ⟨y, hy, k⟩ := h.into z hz hq
      exact ⟨y, hy, k.key, k.ended, .inl k⟩
  onto := by
    intro y hy he
    refine .inl (h.onto y hy (fun hq => ?_))
    obtain ⟨hxm, hxq⟩ := State.mem_of_slot? hx
    obtain rfl := eq_of_nodup_map hd hy hxm (hq.trans hxq.symm)
    rw [hxe] at he
    exact Bool.false_ne_true he
  touched := htouched

end Sys2Proof.Machine

/-! The assignments of a write accepted and of the writes released lose no duty (R60 to R63). -/
namespace Sys2Proof.Machine

theorem State.AllBroken.of_isBroken {s : State} (hn : s.NumbersOk) {e : EpochNo} (h : s.isBroken e = true) : s.AllBroken e := by
  intro y hy he
  have hy' := State.entry?_of_mem hn hy
  rw [he] at hy'
  rw [State.isBroken, hy', Option.bind_some] at h
  exact h

theorem State.markBroken_allBroken {s : State} (hn : s.NumbersOk) (e : EpochNo) (r : Reason) :
    (s.markBroken e r).AllBroken e := by
  unfold State.markBroken
  split
  · rename_i h
    exact .of_isBroken hn h
  · intro y hy he
    obtain ⟨z, hz, rfl⟩ := List.mem_map.1 (show y ∈ s.ec.table.map _ from hy)
    by_cases hze : z.number = e
    · rw [if_pos (by simpa using hze)]
      rfl
    · rw [if_neg (by simpa using hze)] at he
      exact absurd he hze

theorem State.AllBroken.of_entry {s : State} (hn : s.NumbersOk) {y : Entry} (hy : y ∈ s.ec.table)
    (hb : y.broken.isSome = true) : s.AllBroken y.number := by
  intro z hz he
  have hz' := State.entry?_of_mem hn hz
  rw [he, State.entry?_of_mem hn hy] at hz'
  rwa [← Option.some.inj hz']

/-- Where the one record that changed does not rest on a duty, what was safe stays so. -/
theorem State.Beside.safe {s t : State} {q : SlotIx} {x : Slot} (h : s.Beside t q) (ha : Ages s t)
    (hd : (s.iq.slots.map (·.ix)).Nodup) (hx : s.slot? q = some x) (hxe : x.epoch = none)
    (htouched : t.cu.touched = s.cu.touched)
    (hrests : ∀ z ∈ t.iq.slots, z.ix = q → z.marking = some .noCapture → z.outcome.isSome = true) {g : Granule} {e : EpochNo}
    (hs : s.Safe g e) : t.Safe g e := by
  obtain hb | ⟨y, hy, hdu, he, hg⟩ | ⟨hb, hu⟩ := hs
  · exact .inl (ha.broken e hb)
  · have hyq : y.ix ≠ q := by
      intro hq
      obtain ⟨hxm, hxq⟩ := State.mem_of_slot? hx
      obtain rfl := eq_of_nodup_map hd hy hxm (hq.trans hxq.symm)
      rw [hxe] at he
      exact absurd he (by simp)
    obtain ⟨z, hz, k⟩ := h.onto y hy hyq
    exact .inr (.inl ⟨z, hz, k.duty.trans hdu, k.epoch.trans he, k.granule.trans hg⟩)
  · refine .inr (.inr ⟨fun z hz hg he hm => ?_, fun ho => ?_⟩)
    · by_cases hzq : z.ix = q
      · exact hrests z hz hzq hm
      · obtain ⟨y, hy, k⟩ := h.into z hz hzq
        exact k.decided (hb y hy (k.granule.symm.trans hg) (k.epoch.symm.trans he) (k.marking.symm.trans hm))
    · rw [htouched]
      exact hu (ha.opens.symm.trans ho)

/-- The write `x` in slot `q` of `s` stands assigned to epoch `n` in `t`, its marking still to come. -/
structure State.Assigned (s t : State) (q : SlotIx) (x : Slot) (n : EpochNo) : Prop where
  beside  : s.Beside t q
  ages    : Ages s t
  touched : t.cu.touched = s.cu.touched
  own     : ∀ z ∈ t.iq.slots, z.ix = q → z.epoch = some n ∧ z.granule = x.granule ∧
              (x.outcome.isSome = true → z.outcome.isSome = true)
  there   : ∃ z ∈ t.iq.slots, z.ix = q

theorem State.taken_assigned {s : State} {q : SlotIx} {x : Slot} (hd : (s.iq.slots.map (·.ix)).Nodup)
    (hx : s.slot? q = some x) (n : EpochNo) : s.Assigned (s.taken q x n) q x n := by
  obtain ⟨hec, -, hcu, hiq⟩ := s.taken_frame q x n
  obtain ⟨hxm, hxq⟩ := State.mem_of_slot? hx
  generalize s.taken q x n = t at *
  have hset : s.Beside (s.setSlot q (fun z => { z with epoch := some n })) q :=
    (State.Beside.refl s q).setSlot (f := fun z => { z with epoch := some n }) (fun _ => ⟨rfl, rfl⟩)
  have htouched : t.cu.touched = s.cu.touched := congrArg CaptureUnit.touched hcu
  have hslots : t.iq.slots = (s.setSlot q (fun z => { z with epoch := some n })).iq.slots := congrArg Intake.slots hiq
  constructor
  case beside => exact hset.plain (.of_slots hslots htouched)
  case ages => exact .of_table (congrArg EpochController.table hec)
  case touched => exact htouched
  case own =>
    intro z hz hq
    rw [hslots] at hz
    obtain ⟨w, hw, rfl⟩ := List.mem_map.1 (show z ∈ s.iq.slots.map _ from hz)
    by_cases hwq : w.ix = q
    · obtain rfl := eq_of_nodup_map hd hw hxm (hwq.trans hxq.symm)
      rw [if_pos (by simpa using hwq)]
      exact ⟨rfl, rfl, id⟩
    · rw [if_neg (by simpa using hwq)] at hq
      exact absurd hq hwq
  case there =>
    rw [hslots]
    refine ⟨_, List.mem_map_of_mem hxm, ?_⟩
    rw [if_pos (by simpa using hxq)]
    exact hxq

section
variable {s t : State} {q : SlotIx} {x : Slot} {n : EpochNo}

theorem State.Assigned.own' (h : s.Assigned t q x n) : ∀ z ∈ t.iq.slots, z.ix = q → z.epoch = some n ∧ z.granule = x.granule :=
  fun z hz hq => ⟨(h.own z hz hq).1, (h.own z hz hq).2.1⟩

theorem State.Assigned.plain {u : State} (h : s.Assigned t q x n) (k : Plain t u) (ha : Ages t u) : s.Assigned u q x n where
  beside := h.beside.plain k
  ages := h.ages.trans ha
  touched := k.touched.trans h.touched
  own := by
    intro z hz hq
    obtain ⟨w, hw, hwz⟩ := k.into z hz
    obtain ⟨he, hg, ho⟩ := h.own w hw ((Slot.ix_of_key hwz.key).symm.trans hq)
    exact ⟨hwz.epoch.trans he, hwz.granule.trans hg, fun hx => hwz.decided (ho hx)⟩
  there := by
    obtain ⟨w, hw, hq⟩ := h.there
    obtain ⟨z, hz, hwz⟩ := k.onto w hw
    exact ⟨z, hz, (Slot.ix_of_key hwz.key).trans hq⟩

/-- Its marking set, the write is as `f` says, and the others are kept. -/
theorem State.Assigned.mark (h : s.Assigned t q x n) {f : Slot → Slot}
    (hf : ∀ z, (f z).key = z.key ∧ (f z).captureEnded = z.captureEnded ∧ (f z).epoch = z.epoch ∧ (f z).outcome = z.outcome) :
    s.Assigned (t.setSlot q f) q x n ∧ ∀ z ∈ (t.setSlot q f).iq.slots, z.ix = q → ∃ w, z = f w := by
  have hmem {z : Slot} (hz : z ∈ (t.setSlot q f).iq.slots) (hq : z.ix = q) : ∃ w ∈ t.iq.slots, w.ix = q ∧ z = f w := by
    obtain ⟨w, hw, rfl⟩ := List.mem_map.1 (show z ∈ t.iq.slots.map _ from hz)
    by_cases hwq : w.ix = q
    · rw [if_pos (by simpa using hwq)]
      exact ⟨w, hw, hwq, rfl⟩
    · rw [if_neg (by simpa using hwq)] at hq
      exact absurd hq hwq
  refine ⟨⟨h.beside.setSlot (fun z => ⟨(hf z).1, (hf z).2.1⟩), h.ages.trans (.of_table rfl), h.touched, ?_, ?_⟩,
    fun z hz hq => ?_⟩
  · intro z hz hq
    obtain ⟨w, hw, hwq, rfl⟩ := hmem hz hq
    obtain ⟨hkey, -, hepoch, hout⟩ := hf w
    obtain ⟨he, hg, ho⟩ := h.own w hw hwq
    rw [hout]
    exact ⟨hepoch.trans he, (Slot.granule_of_key hkey).trans hg, ho⟩
  · obtain ⟨w, hw, hwq⟩ := h.there
    refine ⟨_, List.mem_map_of_mem hw, ?_⟩
    rw [if_pos (by simpa using hwq)]
    exact (Slot.ix_of_key (hf w).1).trans hwq
  · obtain ⟨w, -, -, rfl⟩ := hmem hz hq
    exact ⟨w, rfl⟩

theorem State.Assigned.guards (h : s.Assigned t q x n) (hd : (s.iq.slots.map (·.ix)).Nodup) (hx : s.slot? q = some x)
    (hxe : x.epoch = none) (hn : s.openEpoch? = some n) (hown : s.Safe x.granule n → t.Safe x.granule n) : Guards s t :=
  (h.beside.joins hd hx hxe h.own' (fun _ hg => .inl (h.touched ▸ hg))).guards h.ages hn hown

/-- A record at `q` set to carry the duty covers the granule. -/
theorem State.Joins.covers {m : State} (h : s.Joins m n x.granule) (ha : Ages s m) (hn : s.openEpoch? = some n)
    (hq : ∀ z ∈ m.iq.slots, z.ix = q → z.epoch = some n ∧ z.granule = x.granule) (hex : ∃ z ∈ m.iq.slots, z.ix = q) :
    Guards s (m.setSlot q (fun z => { z with marking := some .capture, duty := true })) := by
  refine (h.setSlot hq (f := fun z => { z with marking := some .capture, duty := true }) (fun _ => ⟨rfl, rfl, rfl⟩)).guards
    (ha.trans (.of_table rfl)) hn (fun _ => ?_)
  obtain ⟨z, hz, hzq⟩ := hex
  obtain ⟨he, hg⟩ := hq z hz hzq
  refine .inr (.inl ⟨_, List.mem_map_of_mem hz, ?_⟩)
  rw [if_pos (by simpa using hzq)]
  exact ⟨rfl, he, hg⟩

/-- The duty passes to the write from one behind it. -/
theorem State.Assigned.takes (h : s.Assigned t q x n) (hj : s.Joins t n x.granule) (htd : (t.iq.slots.map (·.ix)).Nodup)
    (hn : s.openEpoch? = some n) {y : Slot} (hy : y ∈ t.iq.slots) (hye : y.epoch = some n) (hyg : y.granule = x.granule) :
    Guards s ((t.setSlot y.ix (fun z => { z with marking := some .noCapture, duty := false })).setSlot q
      (fun z => { z with marking := some .capture, duty := true })) := by
  have hat : ∀ z ∈ t.iq.slots, z.ix = y.ix → z.epoch = some n ∧ z.granule = x.granule := by
    intro z hz hzy
    rw [eq_of_nodup_map htd hz hy hzy]
    exact ⟨hye, hyg⟩
  have hkeep (w : Slot) : (if w.ix == y.ix then { w with marking := some Marking.noCapture, duty := false } else w).key = w.key ∧
      (if w.ix == y.ix then { w with marking := some Marking.noCapture, duty := false } else w).epoch = w.epoch := by
    split <;> exact ⟨rfl, rfl⟩
  refine (hj.setSlot hat (f := fun z => { z with marking := some .noCapture, duty := false })
    (fun _ => ⟨rfl, rfl, rfl⟩)).covers (h.ages.trans (.of_table rfl)) hn (fun z hz hzq => ?_) ?_
  · obtain ⟨w, hw, rfl⟩ := List.mem_map.1 (show z ∈ t.iq.slots.map _ from hz)
    obtain ⟨hkey, hepoch⟩ := hkeep w
    obtain ⟨he, hg⟩ := h.own' w hw ((Slot.ix_of_key hkey).symm.trans hzq)
    exact ⟨hepoch.trans he, (Slot.granule_of_key hkey).trans hg⟩
  · obtain ⟨w, hw, hwq⟩ := h.there
    exact ⟨_, List.mem_map_of_mem hw, (Slot.ix_of_key (hkeep w).1).trans hwq⟩

/-- The write is looked up. -/
theorem State.Assigned.lookup (h : s.Assigned t q x n) (hd : (s.iq.slots.map (·.ix)).Nodup) (hx : s.slot? q = some x)
    (hxe : x.epoch = none) (hn : s.openEpoch? = some n) (htd : (t.iq.slots.map (·.ix)).Nodup) {e : Entry} (he : e.number = n) :
    Guards s (t.lookup x e) := by
  obtain ⟨hxm, hxq⟩ := State.mem_of_slot? hx
  have hjoins : s.Joins t n x.granule := h.beside.joins hd hx hxe h.own' (fun g hg => .inl (h.touched ▸ hg))
  unfold State.lookup
  split
  · rename_i hin
    have hin : x.granule ∈ s.cu.touched := h.touched ▸ hin
    unfold State.takeDuty
    split
    · rw [hxq]
      obtain ⟨hm, -⟩ := h.mark (f := fun z => { z with marking := some .noCapture }) (fun _ => ⟨rfl, rfl, rfl, rfl⟩)
      refine hm.guards hd hx hxe hn (fun hs => ?_)
      obtain hb | ⟨y, hy, hdu, hye, hyg⟩ | ⟨-, hu⟩ := hs
      · exact .inl (hm.ages.broken n hb)
      · have hyq : y.ix ≠ q := by
          intro hyq
          obtain rfl := eq_of_nodup_map hd hy hxm (hyq.trans hxq.symm)
          rw [hxe] at hye
          exact absurd hye (by simp)
        obtain ⟨z, hz, k⟩ := hm.beside.onto y hy hyq
        exact .inr (.inl ⟨z, hz, k.duty.trans hdu, k.epoch.trans hye, k.granule.trans hyg⟩)
      · exact absurd hin (hu hn)
    · rename_i y hy
      have hp := List.find?_some hy
      simp only [Bool.and_eq_true, beq_iff_eq, decide_eq_true_eq] at hp
      obtain ⟨⟨⟨hyg, -⟩, hye⟩, -⟩ := hp
      rw [hxq]
      exact h.takes hjoins htd hn (List.mem_of_find?_eq_some hy) (he ▸ hye) hyg
  · split
    · rw [hxq]
      have hj : s.Joins { t with cu := { t.cu with touched := x.granule :: t.cu.touched } } n x.granule := by
        refine ⟨hjoins.into, hjoins.onto, fun g hg => ?_⟩
        obtain rfl | hg := List.mem_cons.1 hg
        · exact .inr rfl
        · exact hjoins.touched g hg
      exact hj.covers (h.ages.trans (.of_table rfl)) hn h.own' h.there
    · let u : State := t.setEntry e.number (fun y => { y with overflow := satInc Config.overflowMax y.overflow })
      have hu : s.Assigned u q x n := h.plain (.of_slots rfl rfl)
        (Ages.setEntry t e.number (f := fun y => { y with overflow := satInc Config.overflowMax y.overflow }) (fun _ => rfl)
          (fun _ hb => hb))
      obtain ⟨hm, hshape⟩ := hu.mark (f := fun z => { z with marking := some .captureDup }) (fun _ => ⟨rfl, rfl, rfl, rfl⟩)
      have hg : Guards s (u.setSlot q (fun z => { z with marking := some .captureDup })) := by
        refine hm.guards hd hx hxe hn (hm.beside.safe hm.ages hd hx hxe hm.touched (fun z hz hzq hmk => ?_))
        obtain ⟨w, rfl⟩ := hshape z hz hzq
        exact absurd (Option.some.inj (show some Marking.captureDup = some .noCapture from hmk)) (by decide)
      unfold State.overflowLookup
      rw [hxq]
      dsimp only
      split
      · exact hg.trans (.same rfl rfl rfl)
      · exact hg

end

theorem State.unlookedMark_ages (s : State) (e : EpochNo) : Ages s (s.unlookedMark e) := by
  unfold State.unlookedMark
  split
  · exact s.markBroken_ages e _
  · exact .refl s

theorem State.assignWrite_guards {s : State} {q : SlotIx} {x : Slot} (hd : (s.iq.slots.map (·.ix)).Nodup) (hn : s.NumbersOk)
    (hx : s.slot? q = some x) (hxe : x.epoch = none) : Guards s (s.assignWrite q) := by
  obtain ⟨-, hxq⟩ := State.mem_of_slot? hx
  cases hy : s.openEntry? with
  | none =>
    unfold State.assignWrite
    rw [hx, hy]
    exact .refl s
  | some y =>
    have hopen : s.openEpoch? = some y.number := by rw [State.openEpoch?, hy]; rfl
    have hassigned := State.taken_assigned hd hx y.number
    obtain ⟨htec, htjw, -, htiq⟩ := s.taken_frame q x y.number
    rw [State.assignWrite_of hx hy]
    generalize s.taken q x y.number = t at *
    by_cases hwhy : t.jw.pressure = .suspended ∨ y.broken.isSome ∨ x.outcome.isSome
    · rw [State.markWrite_unlooked hwhy, hxq]
      have hbroken : (t.unlookedMark y.number).AllBroken y.number ∨ x.outcome.isSome = true := by
        have htn : t.NumbersOk := by rw [State.NumbersOk, htec]; exact hn
        obtain hp | hb | ho := hwhy
        · rw [State.unlookedMark, if_pos hp]
          exact .inl (State.markBroken_allBroken htn _ _)
        · have hmem : y ∈ t.ec.table := by rw [htec]; exact State.openEntry?_mem hy
          exact .inl ((t.unlookedMark_ages y.number).broken _ (.of_entry htn hmem hb))
        · exact .inr ho
      have hu := hassigned.plain (t.unlookedMark_calm y.number).plain (t.unlookedMark_ages y.number)
      generalize t.unlookedMark y.number = u at hu hbroken
      obtain ⟨hm, -⟩ := hu.mark (f := fun z => { z with marking := some .noCapture }) (fun _ => ⟨rfl, rfl, rfl, rfl⟩)
      refine hm.guards hd hx hxe hopen (fun hs => ?_)
      obtain hb | ho := hbroken
      · exact .inl hb
      · exact hm.beside.safe hm.ages hd hx hxe hm.touched (fun z hz hzq _ => (hm.own z hz hzq).2.2 ho) hs
    · obtain ⟨hp, hrest⟩ := not_or.1 hwhy
      obtain ⟨hb, ho⟩ := not_or.1 hrest
      have htd : (t.iq.slots.map (·.ix)).Nodup := by
        have hkeyed : Keyed (fun z : Slot => if z.ix == q then { z with epoch := some y.number } else z) := fun z => by
          dsimp only
          split <;> rfl
        rw [congrArg Intake.slots htiq, State.setSlot_iq, hkeyed.map_ix]
        exact hd
      rw [State.markWrite_looks hp (by simpa using hb) (by simpa using ho)]
      exact hassigned.lookup hd hx hxe hopen htd rfl

theorem State.assignReleased_guarded (s : State) (q : SlotIx) : Guarded s (s.assignReleased q) := by
  refine .of_within (s.assignReleased_within q) (fun k hn => ?_)
  cases hx : s.slot? q with
  | none =>
    unfold State.assignReleased
    rw [hx]
    exact .refl s
  | some x =>
    rw [State.assignReleased_of hx]
    split
    · rename_i hw
      exact State.assignWrite_guards k.distinct hn hx (Option.isNone_iff_eq_none.1 hw.2)
    · exact .refl s

end Sys2Proof.Machine

/-! The start of a seal and the end of DRAIN but for FINISH lose no duty (R97, R147, R149). -/
namespace Sys2Proof.Machine

/-! ## The start of a seal (R97) -/

theorem State.sealing_not_open {s : State} (hn : s.NumbersOk) {e : Entry} (he : s.sealingEntry? = some e) :
    s.openEpoch? ≠ some e.number := by
  intro ho
  obtain ⟨y, hy, hye⟩ := Option.map_eq_some_iff.1 (show s.openEntry?.map _ = some e.number from ho)
  have hym := State.entry?_of_mem hn (State.openEntry?_mem hy)
  have hem := State.entry?_of_mem hn (List.mem_of_find?_eq_some he)
  rw [hye, hem] at hym
  have hsealing : e.state = .sealing := by simpa using List.find?_some he
  rw [Option.some.inj hym, State.openEntry?_state hy] at hsealing
  exact absurd hsealing (by decide)

/-- The HELD writes of an epoch whose writes are done lose their assignments. -/
theorem State.loseAssignments_guards {s : State} {e : EpochNo} (ho : s.openEpoch? ≠ some e) (hw : s.writesDone e = true) :
    Guards s (s.loseAssignments e) := by
  have hinto {z : Slot} (hz : z ∈ (s.loseAssignments e).iq.slots) :
      ∃ y ∈ s.iq.slots, z.key = y.key ∧ z.captureEnded = y.captureEnded ∧ (z.epoch.isSome = true → z = y) ∧
        z.epoch ≠ some e := by
    obtain ⟨y, hy, rfl⟩ := List.mem_map.1 (show z ∈ s.iq.slots.map _ from hz)
    refine ⟨y, hy, ?_⟩
    split
    · exact ⟨rfl, rfl, fun h => absurd (show (none : Option EpochNo).isSome = true from h) (by decide),
        fun h => absurd (show none = some e from h) (by simp)⟩
    · rename_i hlost
      exact ⟨rfl, rfl, fun _ => rfl, fun he => hlost ⟨(s.writesDone_iff e).1 hw y hy he, he⟩⟩
  constructor
  case ages => exact .of_table rfl
  case safe =>
    intro g e' hs
    by_cases hee : e' = e
    · refine .inr (.inr ⟨fun z hz _ hze _ => ?_, fun hopen => absurd (hee ▸ hopen) ho⟩)
      obtain ⟨-, -, -, -, -, hne⟩ := hinto hz
      exact absurd (hee ▸ hze) hne
    · obtain hb | ⟨y, hy, hd, he, hg⟩ | ⟨hb, hu⟩ := hs
      · exact .inl hb
      · refine .inr (.inl ⟨_, List.mem_map_of_mem hy, ?_⟩)
        rw [if_neg (fun h => hee (Option.some.inj (he.symm.trans h.2)))]
        exact ⟨hd, he, hg⟩
      · refine .inr (.inr ⟨fun z hz hg he hm => ?_, hu⟩)
        obtain ⟨y, hy, -, -, heq, -⟩ := hinto hz
        obtain rfl := heq (by rw [he]; rfl)
        exact hb z hy hg he hm
  case bare =>
    intro e' _ hb g z hz hg he hm
    obtain ⟨y, hy, -, -, heq, -⟩ := hinto hz
    obtain rfl := heq (by rw [he]; rfl)
    exact hb g z hy hg he hm
  case held =>
    intro z hz hh e' he
    obtain ⟨y, hy, -, -, heq, -⟩ := hinto hz
    obtain rfl := heq (by rw [he]; rfl)
    exact .inl ⟨z, hy, hh, he⟩
  case ended =>
    intro z hz hc
    obtain ⟨y, hy, hkey, hended, -⟩ := hinto hz
    exact ⟨y, hy, hkey.symm, hended.symm.trans hc⟩

theorem State.SealsOnly.guards {s t : State} (h : s.SealsOnly t) : Guards s t := by
  have h : t = { s with su := t.su, wu := t.wu, eq := t.eq } := h
  exact .same (by rw [h]) (by rw [h]) (by rw [h])

theorem State.makeRecord_plain (s : State) (w : RecordReq) : Plain s (s.makeRecord w) := by
  unfold State.makeRecord
  split <;> exact .of_slots rfl rfl

theorem State.placeSeal_plain (s : State) (e : EpochNo) (sigs : List SigEntry) : Plain s (s.placeSeal e sigs) := by
  unfold State.placeSeal
  extract_lets len t job
  have hpad : Plain s (s.makePad e len) := by
    unfold State.makePad
    split
    · exact .refl s
    · exact s.makeRecord_plain _
  let m : State := ((s.makePad e len).advanceHead len).setEntry e (fun x => { x with sealLine := some (s.placeLine len) })
  have hm : Plain (s.makePad e len) m := .of_slots rfl rfl
  have hjob : Plain t { t with jw := { t.jw with sealJob := some job } } := .of_slots rfl rfl
  exact (((hpad.trans hm).trans (m.makeRecord_plain _)).trans hjob).trans (State.evaluate_calm _).plain

theorem State.reserveSeal_guards (s : State) (e : EpochNo) (sigs : List SigEntry) : Guards s (s.reserveSeal e sigs) := by
  refine .of_plain ?_ (s.reserveSeal_ages e sigs)
  unfold State.reserveSeal
  split
  · exact s.placeSeal_plain e sigs
  · exact (s.reservationFails_calm e).plain.trans (State.placeSeal_plain _ e sigs)

theorem State.startSeal_guarded (s : State) : Guarded s s.startSeal := by
  refine .of_within s.startSeal_within (fun k hn => ?_)
  unfold State.startSeal
  cases he : s.sealingEntry? with
  | none => exact .refl s
  | some e =>
    dsimp only
    split
    · rename_i hdue
      exact ((State.loseAssignments_guards (State.sealing_not_open hn he) hdue.2).trans (State.sealWork_seals _ _).guards).trans
        (State.reserveSeal_guards _ _ _)
    · exact .refl s

/-! ## The end of DRAIN, but for FINISH (R147, R149) -/

theorem Slot.Kept.released (x : Slot) : x.Kept (x.released id) := by
  by_cases h : x.state = .held
  · rw [Slot.released_held h]
    exact ⟨rfl, rfl, rfl, rfl, rfl, id, fun hh => SlotState.noConfusion hh⟩
  · rw [Slot.released_unheld h]
    exact .refl x

theorem State.assignAll_guarded (l : List SlotIx) (s : State) : Guarded s (l.foldl (fun t q => t.assignReleased q) s) :=
  Guarded.foldl (fun t q => t.assignReleased_guarded q) l s

theorem State.unrolled_guarded (s : State) : Guarded s s.unrolled := by
  have hresumed : Guards s s.resumed := .same rfl rfl rfl
  refine .of_within ((s.ended_within .journaling).trans (State.commitExcess_within _ _)) (fun _ _ => ?_)
  exact hresumed.trans ((State.commitExcess_calm _ _).guards (State.commitN_ages _ _ _))

theorem State.released_guarded (s : State) : Guarded s (s.mapSlots (Slot.released id)) := by
  refine .of_within (Within.release (f := fun x => (id x).unheld) (fun x hx => ?_)) (fun _ _ => ?_)
  · have hu : x.unheld = { x with state := .waiting, holdEntry := none } := if_pos hx
    show (x.unheld).key = x.key ∧ _
    rw [id, hu]
    exact ⟨rfl, rfl, rfl, .inl rfl⟩
  · exact .of_plain (.map (f := Slot.released id) rfl (fun x _ => .released x) rfl) (.of_table rfl)

theorem State.refuse_guarded (s : State) (t : EpochNo) : Guarded s (s.refuse t) := by
  have hraise (u : State) (ev : Event) : Guarded u (u.raise ev) := .of_within (u.raise_within ev) (fun _ _ => .same rfl rfl rfl)
  rw [State.refuse_eq, State.releaseJournaling_eq]
  exact ((s.unrolled_guarded.trans (State.released_guarded _)).trans (State.assignAll_guarded _ _)).trans (hraise _ _)

theorem State.readRecord_guarded (s : State) (e : EpochNo) (l : Nat) : Guarded s (s.readRecord e l) :=
  .of_within (s.readRecord_within e l) (fun _ _ => .same rfl rfl rfl)

end Sys2Proof.Machine

/-! What is followed through an action: the duties, the captures and the epochs of the state it began in (R65, R89). -/
namespace Sys2Proof.Machine

/-! ## Before an epoch is added -/

/-- The table holds epoch `e`. -/
def State.Knows (s : State) (e : EpochNo) : Prop := ∃ y ∈ s.ec.table, y.number = e

/-- A write of `s` carries the duty for granule `g` in epoch `e`, and it is not the one of slot `ack`. -/
def State.Duty (s : State) (ack : Option SlotIx) (g : Granule) (e : EpochNo) : Prop :=
  ∃ x ∈ s.iq.slots, x.duty = true ∧ x.epoch = some e ∧ x.granule = g ∧ ack ≠ some x.ix

/-- The capture of `z` had ended in `s`, or ends by the acknowledgment for slot `ack`, or is of an epoch that is broken in `a`. -/
def State.Excuses (s : State) (ack : Option SlotIx) (a : State) (z : Slot) : Prop :=
  (∃ x ∈ s.iq.slots, x.key = z.key ∧ x.captureEnded = true) ∨ ack = some z.ix ∨
    ∃ e, s.Knows e ∧ a.AllBroken e ∧ ∃ x ∈ s.iq.slots, x.key = z.key ∧ x.epoch = some e

/-- In `a`, which an action from `s` has reached, the duties of `s` are safe, and no epoch has been added. -/
structure State.Tracks (s : State) (ack : Option SlotIx) (a : State) : Prop where
  intake  : a.IntakeOk
  numbers : a.NumbersOk
  last    : (a.ec.table.map (·.state)).Pairwise (fun c _ => c ≠ .opened)
  opens   : a.openEpoch? = s.openEpoch?
  held    : ∀ x ∈ a.iq.slots, x.state = .held → ∀ y ∈ a.ec.table, x.epoch = some y.number → y.state ≠ .sealed
  known   : ∀ e, a.Knows e → s.Knows e
  bare    : ∀ e, ¬ s.Knows e → ∀ g, a.Bare g e
  safe    : ∀ g e, s.Duty ack g e → s.Knows e → a.Safe g e
  ended   : ∀ z ∈ a.iq.slots, z.captureEnded = true → s.Excuses ack a z

/-- In `a`, which an action from `s` has reached, the duties of `s` are safe. -/
structure State.Covers (s : State) (ack : Option SlotIx) (a : State) : Prop where
  intake  : a.IntakeOk
  numbers : a.NumbersOk
  safe    : ∀ g e, s.Duty ack g e → a.Safe g e
  ended   : ∀ z ∈ a.iq.slots, z.captureEnded = true → s.Excuses ack a z

theorem Ages.knows {s t : State} (h : Ages s t) {e : EpochNo} (hk : t.Knows e) : s.Knows e := by
  obtain ⟨y, hy, rfl⟩ := hk
  obtain ⟨x, hx, hxy⟩ := List.mem_map.1 (h.faces.mem (List.mem_map_of_mem hy))
  exact ⟨x, hx, congrArg Prod.fst hxy⟩

theorem State.AllBroken.of_unknown {s : State} {e : EpochNo} (h : ¬ s.Knows e) : s.AllBroken e :=
  fun y hy he => absurd ⟨y, hy, he⟩ h

section
variable {s a b : State} {ack : Option SlotIx}

theorem Guards.excuses (g : Guards a b) (h : ∀ z ∈ a.iq.slots, z.captureEnded = true → s.Excuses ack a z) :
    ∀ z ∈ b.iq.slots, z.captureEnded = true → s.Excuses ack b z := by
  intro z hz hc
  obtain ⟨x, hx, hkey, hxc⟩ := g.ended z hz hc
  obtain ⟨w, hw, hwk, hwc⟩ | ho | ⟨e, he, hb, w, hw, hwk, hwe⟩ := h x hx hxc
  · exact .inl ⟨w, hw, hwk.trans hkey, hwc⟩
  · exact .inr (.inl (by rw [ho, Slot.ix_of_key hkey]))
  · exact .inr (.inr ⟨e, he, g.ages.broken e hb, w, hw, hwk.trans hkey, hwe⟩)

theorem State.Tracks.step (h : s.Tracks ack a) (g : Guarded a b) : s.Tracks ack b := by
  obtain ⟨hi, g⟩ := g h.intake h.numbers
  have hstates : (b.ec.table.map (·.state)).Sublist (a.ec.table.map (·.state)) := by
    have hs := g.ages.faces.map Prod.snd
    rw [List.map_map, List.map_map] at hs
    exact hs
  have hface {y : Entry} (hy : y ∈ b.ec.table) : ∃ x ∈ a.ec.table, x.number = y.number ∧ x.state = y.state := by
    obtain ⟨x, hx, hxy⟩ := List.mem_map.1 (g.ages.faces.mem (List.mem_map_of_mem hy))
    exact ⟨x, hx, congrArg Prod.fst hxy, congrArg Prod.snd hxy⟩
  constructor
  case intake => exact hi
  case numbers => exact g.ages.numbersOk h.numbers
  case last => exact h.last.sublist hstates
  case opens => exact g.ages.opens.trans h.opens
  case held =>
    intro z hz hh y hy he
    obtain ⟨x, hx, hxn, hxs⟩ := hface hy
    rw [← hxs]
    obtain ⟨w, hw, hwh, hwe⟩ | ho := g.held z hz hh y.number he
    · exact h.held w hw hwh x hx (hwe.trans (congrArg some hxn.symm))
    · obtain ⟨v, hv, hvn⟩ := Option.map_eq_some_iff.1 (show a.openEntry?.map _ = some y.number from ho)
      have hvx : v = x := eq_of_nodup_map h.numbers (State.openEntry?_mem hv) hx (hvn.trans hxn.symm)
      rw [← hvx, State.openEntry?_state hv]
      exact fun hc => EpochState.noConfusion hc
  case known => exact fun e he => h.known e (g.ages.knows he)
  case bare =>
    intro e he
    refine g.bare e (fun ho => he ?_) (h.bare e he)
    obtain ⟨v, hv, hvn⟩ := Option.map_eq_some_iff.1 (show a.openEntry?.map _ = some e from ho)
    exact h.known e ⟨v, State.openEntry?_mem hv, hvn⟩
  case safe => exact fun g' e hd he => g.safe g' e (h.safe g' e hd he)
  case ended => exact g.excuses h.ended

theorem State.Covers.step (h : s.Covers ack a) (g : Guarded a b) : s.Covers ack b := by
  obtain ⟨hi, g⟩ := g h.intake h.numbers
  exact ⟨hi, g.ages.numbersOk h.numbers, fun g' e hd => g.safe g' e (h.safe g' e hd), g.excuses h.ended⟩

theorem State.Tracks.covers (h : s.Tracks ack a) : s.Covers ack a where
  intake := h.intake
  numbers := h.numbers
  safe := fun g e hd => by
    by_cases he : s.Knows e
    · exact h.safe g e hd he
    · exact .inl (.of_unknown (fun hk => he (h.known e hk)))
  ended := h.ended

/-! ## An epoch is added -/

/-- From `a` to `c` epoch `n` may be added, with the touched set emptied. -/
structure State.Begins (a c : State) (n : EpochNo) : Prop where
  plain   : ∀ z ∈ c.iq.slots, ∃ x ∈ a.iq.slots, x.Kept z
  onto    : ∀ x ∈ a.iq.slots, ∃ z ∈ c.iq.slots, x.Kept z
  touched : c.cu.touched = []
  table   : ∀ e, e ≠ n → a.AllBroken e → c.AllBroken e
  known   : ∀ e, c.Knows e → e = n ∨ a.Knows e

theorem State.Begins.bare {n : EpochNo} (h : a.Begins b n) {g : Granule} {e : EpochNo} (hb : a.Bare g e) : b.Bare g e := by
  intro z hz hg he hm
  obtain ⟨x, hx, k⟩ := h.plain z hz
  exact k.decided (hb x hx (k.granule.symm.trans hg) (k.epoch.symm.trans he) (k.marking.symm.trans hm))

theorem State.Begins.untouched {n : EpochNo} (h : a.Begins b n) (g : Granule) (e : EpochNo) :
    b.openEpoch? = some e → g ∉ b.cu.touched := by
  intro _
  rw [h.touched]
  exact List.not_mem_nil

theorem State.Begins.safe {n : EpochNo} (h : a.Begins b n) {g : Granule} {e : EpochNo} (he : e ≠ n) (hs : a.Safe g e) :
    b.Safe g e := by
  obtain hb | ⟨x, hx, hd, hxe, hg⟩ | ⟨hb, -⟩ := hs
  · exact .inl (h.table e he hb)
  · obtain ⟨z, hz, k⟩ := h.onto x hx
    exact .inr (.inl ⟨z, hz, k.duty.trans hd, k.epoch.trans hxe, k.granule.trans hg⟩)
  · exact .inr (.inr ⟨h.bare hb, h.untouched g e⟩)

theorem State.Begins.excuses {n : EpochNo} (h : a.Begins b n) (hn : ¬ s.Knows n)
    (he : ∀ z ∈ a.iq.slots, z.captureEnded = true → s.Excuses ack a z) :
    ∀ z ∈ b.iq.slots, z.captureEnded = true → s.Excuses ack b z := by
  intro z hz hc
  obtain ⟨x, hx, k⟩ := h.plain z hz
  obtain ⟨w, hw, hwk, hwc⟩ | ho | ⟨e, hk, hb, w, hw, hwk, hwe⟩ := he x hx (k.ended.symm.trans hc)
  · exact .inl ⟨w, hw, hwk.trans k.key.symm, hwc⟩
  · exact .inr (.inl (by rw [ho, Slot.ix_of_key k.key]))
  · exact .inr (.inr ⟨e, hk, h.table e (fun hen => hn (hen ▸ hk)) hb, w, hw, hwk.trans k.key.symm, hwe⟩)

theorem State.Tracks.begins {n : EpochNo} (h : s.Tracks ack a) (hb : a.Begins b n) (hn : ¬ s.Knows n) (hi : b.IntakeOk)
    (hnum : b.NumbersOk) : s.Covers ack b where
  intake := hi
  numbers := hnum
  safe := fun g e hd => by
    by_cases hk : s.Knows e
    · exact hb.safe (fun hen => hn (hen ▸ hk)) (h.safe g e hd hk)
    · by_cases hen : e = n
      · exact .inr (.inr ⟨hb.bare (h.bare e hk g), hb.untouched g e⟩)
      · refine .inl (.of_unknown (fun hbk => ?_))
        obtain he | ha := hb.known e hbk
        · exact hen he
        · exact hk (h.known e ha)
  ended := hb.excuses hn h.ended

end

end Sys2Proof.Machine

/-! A boundary and FINISH lose no duty of the epochs that stay (R84, R94, R154). -/
namespace Sys2Proof.Machine

/-! ## The number of the epoch added (R89) -/

/-- The OPEN epoch is the newest. -/
theorem State.newest_open {a : State} (hl : (a.ec.table.map (·.state)).Pairwise (fun c _ => c ≠ .opened)) {o : EpochNo}
    (ho : a.openEpoch? = some o) : a.nextNumber = o + 1#32 := by
  obtain ⟨v, hv, rfl⟩ := Option.map_eq_some_iff.1 (show a.openEntry?.map _ = some o from ho)
  have hstate := State.openEntry?_state hv
  obtain ⟨pre, post, hsplit⟩ := List.append_of_mem (State.openEntry?_mem hv)
  have hpost : post = [] := by
    cases post with
    | nil => rfl
    | cons w post =>
      rw [hsplit, List.map_append, List.map_cons, List.map_cons] at hl
      exact absurd hstate ((List.pairwise_cons.1 (List.pairwise_append.1 hl).2.1).1 w.state List.mem_cons_self)
  rw [State.nextNumber, hsplit, hpost, List.getLast?_concat]
  rfl

section
variable {s a b c : State} {ack : Option SlotIx} {n : EpochNo}

theorem State.Begins.then (h : a.Begins b n) (k : Plain b c) (ha : Ages b c) : a.Begins c n where
  plain := fun z hz => by
    obtain ⟨y, hy, hyz⟩ := k.into z hz
    obtain ⟨x, hx, hxy⟩ := h.plain y hy
    exact ⟨x, hx, hxy.trans hyz⟩
  onto := fun x hx => by
    obtain ⟨y, hy, hxy⟩ := h.onto x hx
    obtain ⟨z, hz, hyz⟩ := k.onto y hy
    exact ⟨z, hz, hxy.trans hyz⟩
  touched := k.touched.trans h.touched
  table := fun e he hb => ha.broken e (h.table e he hb)
  known := fun e he => h.known e (ha.knows he)

/-- A table with its entries changed, but for faces' numbers and marks, and a new entry. -/
theorem State.Begins.of_table (hslots : b.iq.slots.map Slot.reexamined = a.iq.slots.map Slot.reexamined)
    (htouched : b.cu.touched = [])
    (htable : ∀ y ∈ b.ec.table, y.number = n ∨ ∃ x ∈ a.ec.table, x.number = y.number ∧
      (x.broken.isSome = true → y.broken.isSome = true)) :
    a.Begins b n where
  plain := fun z hz => by
    obtain ⟨x, hx, hxz⟩ := mem_of_reexamined hslots.symm hz
    exact ⟨x, hx, .of_reexamined hxz.symm⟩
  onto := fun x hx => by
    obtain ⟨z, hz, hzx⟩ := mem_of_reexamined hslots hx
    exact ⟨z, hz, .of_reexamined hzx⟩
  touched := htouched
  table := fun e he hb y hy hye => by
    obtain hyn | ⟨x, hx, hxn, hxb⟩ := htable y hy
    · exact absurd (hye.symm.trans hyn) he
    · exact hxb (hb x hx (hxn.trans hye))
  known := fun e ⟨y, hy, hye⟩ => by
    obtain hyn | ⟨x, hx, hxn, -⟩ := htable y hy
    · exact .inl (hye.symm.trans hyn)
    · exact .inr ⟨x, hx, hxn.trans hye⟩

/-! ## Boundaries (R84, R94) -/

theorem Entry.closed_same (y : Entry) : y.closed.number = y.number ∧ y.closed.broken = y.broken := by
  unfold Entry.closed
  split <;> exact ⟨rfl, rfl⟩

theorem State.applyArmed_guards (s : State) (e : Option EpochNo) : Guards s (s.applyArmed e) := by
  unfold State.applyArmed
  split
  · exact .same rfl rfl rfl
  · exact .refl s

/-- The table closed and a new epoch behind it. -/
def State.reopened (s : State) (n : EpochNo) : State := (s.closeOpen.addEpoch n).clearTouched

theorem State.reopened_within (s : State) (n : EpochNo) : Within s (s.reopened n) :=
  ((s.closeOpen_within).trans (State.addEpoch_within _ _)).trans (State.clearTouched_within _)

theorem State.reopened_begins (s : State) (n : EpochNo) : s.Begins (s.reopened n) n := by
  refine .of_table rfl rfl (fun y hy => ?_)
  obtain hy | hy := List.mem_append.1 (show y ∈ s.ec.table.map Entry.closed ++ [Entry.fresh n] from hy)
  · obtain ⟨x, hx, rfl⟩ := List.mem_map.1 hy
    exact .inr ⟨x, hx, x.closed_same.1.symm, fun hb => by rw [x.closed_same.2]; exact hb⟩
  · rw [List.mem_singleton.1 hy]
    exact .inl rfl

theorem State.reopened_numbers (hn : a.NumbersOk) (hk : ¬ a.Knows n) : (a.reopened n).NumbersOk := by
  show ((a.ec.table.map Entry.closed ++ [Entry.fresh n]).map (·.number)).Nodup
  rw [List.map_append, List.map_map, show (fun y : Entry => y.number) ∘ Entry.closed = fun y => y.number from
    funext fun y => y.closed_same.1]
  refine List.nodup_append.2 ⟨hn, by simp, fun x hx y hy hxy => hk ?_⟩
  obtain ⟨z, hz, rfl⟩ := List.mem_map.1 hx
  rw [List.map_singleton, List.mem_singleton] at hy
  exact ⟨z, hz, hxy.trans hy⟩

theorem State.makeRoom_guarded (s : State) : Guarded s s.makeRoom := by
  refine .of_within s.makeRoom_within (fun _ _ => s.makeRoom_calm.guards ?_)
  unfold State.makeRoom
  split
  · exact s.commitOldest_ages _
  · exact .refl s

theorem State.filled_guarded (s : State) (e : Option EpochNo) : Guarded s ((s.exchangeBanks.applyArmed e).fillOpenBank e) := by
  have h1 : Guards s s.exchangeBanks := .same rfl rfl rfl
  have h2 (u : State) : Guards u (u.fillOpenBank e) := .same rfl rfl rfl
  refine .of_within ((s.exchangeBanks_within.trans (State.applyArmed_within _ _)).trans (State.fillOpenBank_within _ _))
    (fun _ _ => (h1.trans (State.applyArmed_guards _ e)).trans (h2 _))

theorem State.Tracks.boundary (h : s.Tracks ack a) (hfree : ∀ o, s.openEpoch? = some o → ¬ s.Knows (o + 1#32)) :
    s.Covers ack a.boundary := by
  unfold State.boundary
  cases ho : a.openEpoch? with
  | none => exact h.covers
  | some o =>
    have hk : ¬ s.Knows (o + 1#32) := hfree o (h.opens.symm.trans ho)
    have hroom := h.step a.makeRoom_guarded
    have hnew : s.Covers ack (a.makeRoom.reopened (o + 1#32)) :=
      hroom.begins (a.makeRoom.reopened_begins _) hk ((a.makeRoom.reopened_within _).intake hroom.intake)
        (State.reopened_numbers hroom.numbers (fun hka => hk (hroom.known _ hka)))
    have htimer (u : State) : Guarded u u.startTimer := .of_within u.startTimer_within (fun _ _ => .same rfl rfl rfl)
    exact (hnew.step (State.filled_guarded _ _)).step (htimer _)

theorem State.Tracks.closingBoundary (h : s.Tracks ack a) (hk : ¬ s.Knows n) : s.Covers ack a.closingBoundary := by
  let c : State := (a.closeOpen.setBridge .closing).clearTouched
  have hc : a.Begins c n := by
    refine .of_table rfl rfl (fun y hy => ?_)
    obtain ⟨x, hx, rfl⟩ := List.mem_map.1 (show y ∈ a.ec.table.map Entry.closed from hy)
    exact .inr ⟨x, hx, x.closed_same.1.symm, fun hb => by rw [x.closed_same.2]; exact hb⟩
  have hwithin : Within a c := (a.closeOpen_within.trans (State.setBridge_within _ _)).trans (State.clearTouched_within _)
  have hnumbers : c.NumbersOk := by
    show ((a.ec.table.map Entry.closed).map (·.number)).Nodup
    rw [List.map_map, show (fun y : Entry => y.number) ∘ Entry.closed = fun y => y.number from
      funext fun y => y.closed_same.1]
    exact h.numbers
  have htimer (u : State) : Guarded u u.stopTimer := .of_within u.stopTimer_within (fun _ _ => .same rfl rfl rfl)
  exact ((h.begins hc hk (hwithin.intake h.intake) hnumbers).step (c.filled_guarded none)).step (htimer _)

end

end Sys2Proof.Machine

/-! FINISH and what follows an action lose no duty (R144 to R149, R154). -/
namespace Sys2Proof.Machine

section
variable {s a b : State} {ack : Option SlotIx} {n : EpochNo}

/-! ## The cut (R154) -/

theorem State.placeOpen_plain (s : State) (e : EpochNo) : Plain s (s.placeOpen e) :=
  .of_marks (s.placeOpen_sameMarks e).1 (congrArg CaptureUnit.touched (s.placeOpen_frame e).2.1)

theorem State.reserveOpen_plain (s : State) (e : EpochNo) : Plain s (s.reserveOpen e) := by
  unfold State.reserveOpen
  split
  · exact s.placeOpen_plain e
  · exact (s.reservationFails_calm e).plain.trans (State.placeOpen_plain _ e)

theorem State.reserveOpen_guards (s : State) (e : EpochNo) : Guards s (s.reserveOpen e) :=
  .of_plain (s.reserveOpen_plain e) (s.reserveOpen_ages e)

theorem State.applyArmed_plain (s : State) (e : Option EpochNo) : Plain s (s.applyArmed e) := by
  unfold State.applyArmed
  split <;> exact .of_slots rfl rfl

theorem State.applyArmed_ages (s : State) (e : Option EpochNo) : Ages s (s.applyArmed e) := by
  unfold State.applyArmed
  split <;> exact .of_table rfl

theorem State.cutTo_table (s : State) (t n : EpochNo) :
    (s.cutTo t n).ec.table = s.ec.table.takeWhile (fun y => y.number != t) ++ [Entry.fresh n] := by
  have h : (s.cutHead t).ec = s.ec := State.evaluate_ec { s with jw := { s.jw with head := (s.openLineOf t).getD s.jw.head } }
  show (s.cutHead t).ec.table.takeWhile _ ++ _ = _
  rw [h]

theorem State.cutTo_slots (s : State) (t n : EpochNo) :
    (s.cutTo t n).iq.slots.map Slot.reexamined = s.iq.slots.map Slot.reexamined :=
  (State.evaluate_calm { s with jw := { s.jw with head := (s.openLineOf t).getD s.jw.head } }).slots

theorem State.cutTo_begins (s : State) (t n : EpochNo) : s.Begins (s.cutTo t n) n := by
  refine .of_table (s.cutTo_slots t n) rfl (fun y hy => ?_)
  rw [s.cutTo_table] at hy
  obtain hy | hy := List.mem_append.1 hy
  · exact .inr ⟨y, (List.takeWhile_prefix _).subset hy, rfl, id⟩
  · rw [List.mem_singleton.1 hy]
    exact .inl rfl

theorem State.cutTo_within (s : State) (t n : EpochNo) : Within s (s.cutTo t n) :=
  (((s.cutHead_within t).trans (State.cutTable_within _ _)).trans (State.clearTouched_within _)).trans
    (State.addEpoch_within _ _)

/-- The cut from its new table on. -/
theorem State.cut_rest (s : State) (t n : EpochNo) : Plain (s.cutTo t n) (s.cut t n) ∧ Ages (s.cutTo t n) (s.cut t n) ∧
    Within (s.cutTo t n) (s.cut t n) := by
  unfold State.cut
  generalize s.cutTo t n = c
  have hopen := c.reserveOpen_plain n
  have hages := c.reserveOpen_ages n
  have hwithin := c.reserveOpen_within n
  generalize c.reserveOpen n = u at hopen hages hwithin
  have hreset : Plain u u.resetBanks := .of_slots rfl rfl
  have hresetAges : Ages u u.resetBanks := .of_table rfl
  have hfill := u.resetBanks.applyArmed_plain (some n)
  have hfillAges := u.resetBanks.applyArmed_ages (some n)
  have hfillWithin := u.resetBanks.applyArmed_within (some n)
  generalize u.resetBanks.applyArmed (some n) = v at hfill hfillAges hfillWithin
  have hstart : Plain v (v.fillOpenBank (some n)).startTimer := .of_slots rfl rfl
  have hstartAges : Ages v (v.fillOpenBank (some n)).startTimer := .of_table rfl
  have hstartWithin : Within v (v.fillOpenBank (some n)).startTimer :=
    (v.fillOpenBank_within _).trans (State.startTimer_within _)
  generalize (v.fillOpenBank (some n)).startTimer = w at hstart hstartAges hstartWithin
  exact ⟨(((hopen.trans hreset).trans hfill).trans hstart).trans (w.commitExcess_calm _).plain,
    (((hages.trans hresetAges).trans hfillAges).trans hstartAges).trans (w.commitN_ages _ _),
    (((hwithin.trans u.resetBanks_within).trans hfillWithin).trans hstartWithin).trans (w.commitExcess_within _)⟩

theorem State.cut_begins (s : State) (t n : EpochNo) : s.Begins (s.cut t n) n :=
  (s.cutTo_begins t n).then (s.cut_rest t n).1 (s.cut_rest t n).2.1

theorem State.cut_knows {t e : EpochNo} (h : (s.cut t n).Knows e) :
    e = n ∨ ∃ y ∈ s.ec.table.takeWhile (fun y => y.number != t), y.number = e := by
  obtain ⟨y, hy, hye⟩ := (s.cut_rest t n).2.1.knows h
  rw [s.cutTo_table] at hy
  obtain hy | hy := List.mem_append.1 hy
  · exact .inr ⟨y, hy, hye⟩
  · rw [List.mem_singleton.1 hy] at hye
    exact .inl hye.symm

theorem State.cut_numbers (hn : s.NumbersOk) {t : EpochNo} (hk : ¬ s.Knows n) : (s.cut t n).NumbersOk := by
  refine (s.cut_rest t n).2.1.numbersOk ?_
  rw [State.NumbersOk, s.cutTo_table, List.map_append]
  refine List.nodup_append.2 ⟨((List.takeWhile_sublist _).map _).nodup hn, by simp, fun x hx y hy hxy => hk ?_⟩
  obtain ⟨z, hz, rfl⟩ := List.mem_map.1 hx
  rw [List.map_singleton, List.mem_singleton] at hy
  exact ⟨z, (List.takeWhile_prefix _).subset hz, hxy.trans hy⟩

/-! ## The release of FINISH (R14, R154) -/

theorem Slot.released_unassigned (x : Slot) : (x.released Slot.unassigned).key = x.key ∧
    (x.released Slot.unassigned).captureEnded = x.captureEnded ∧
    ((x.released Slot.unassigned).epoch.isSome = true → x.released Slot.unassigned = x ∧ x.state ≠ .held) := by
  by_cases h : x.state = .held
  · have hx : x.released Slot.unassigned = { x.unassigned with state := .waiting, holdEntry := none } := by
      unfold Slot.released
      rw [if_pos h]
      exact if_pos h
    rw [hx]
    exact ⟨rfl, rfl, fun hh => absurd (show (none : Option EpochNo).isSome = true from hh) (by decide)⟩
  · have hx : x.released Slot.unassigned = x := if_neg h
    rw [hx]
    exact ⟨rfl, rfl, fun _ => ⟨rfl, h⟩⟩

/-- The epochs of the HELD requests but `n` are gone, and epoch `n` has no write that rests on a duty: with the HELD requests
released and their assignments cleared the duties are safe. -/
theorem State.Begins.released (h : a.Begins b n) (ht : s.Tracks ack a) (hn : ¬ s.Knows n)
    (hheld : ∀ x ∈ b.iq.slots, x.state = .held → ∀ e, x.epoch = some e → b.Knows e → e = n)
    (hi : (b.mapSlots (Slot.released Slot.unassigned)).IntakeOk) (hnum : b.NumbersOk) :
    s.Covers ack (b.mapSlots (Slot.released Slot.unassigned)) := by
  have hinto {z : Slot} (hz : z ∈ (b.mapSlots (Slot.released Slot.unassigned)).iq.slots) (he : z.epoch.isSome = true) :
      z ∈ b.iq.slots := by
    obtain ⟨x, hx, rfl⟩ := List.mem_map.1 (show z ∈ b.iq.slots.map _ from hz)
    rw [(x.released_unassigned.2.2 he).1]
    exact hx
  have hbare {g : Granule} {e : EpochNo} (hb : b.Bare g e) : (b.mapSlots (Slot.released Slot.unassigned)).Bare g e :=
    fun z hz hg he hm => hb z (hinto hz (by rw [he]; rfl)) hg he hm
  have huntouched : ∀ g e, (b.mapSlots (Slot.released Slot.unassigned)).openEpoch? = some e →
      g ∉ (b.mapSlots (Slot.released Slot.unassigned)).cu.touched := fun g e ho => h.untouched g e ho
  constructor
  case intake => exact hi
  case numbers => exact hnum
  case safe =>
    intro g e hd
    by_cases hen : e = n
    · have hbn : b.Bare g e := h.bare (ht.bare e (hen ▸ hn) g)
      exact .inr (.inr ⟨hbare hbn, huntouched g e⟩)
    by_cases hk : b.Knows e
    · have hsafe : b.Safe g e := by
        obtain hen' | hka := h.known e hk
        · exact absurd hen' hen
        · exact h.safe hen (ht.safe g e hd (ht.known e hka))
      obtain hb | ⟨x, hx, hxd, hxe, hxg⟩ | ⟨hb, -⟩ := hsafe
      · exact .inl hb
      · have hxh : x.state ≠ .held := fun hh => hen (hheld x hx hh e hxe hk)
        refine .inr (.inl ⟨_, List.mem_map_of_mem hx, ?_⟩)
        rw [show x.released Slot.unassigned = x from if_neg hxh]
        exact ⟨hxd, hxe, hxg⟩
      · exact .inr (.inr ⟨hbare hb, huntouched g e⟩)
    · exact .inl (.of_unknown hk)
  case ended =>
    intro z hz hc
    obtain ⟨x, hx, rfl⟩ := List.mem_map.1 (show z ∈ b.iq.slots.map _ from hz)
    obtain ⟨hkey, hended, -⟩ := x.released_unassigned
    obtain ⟨w, hw, hwk, hwc⟩ | ho | ⟨e, he, hb, w, hw, hwk, hwe⟩ := h.excuses hn ht.ended x hx (hended.symm.trans hc)
    · exact .inl ⟨w, hw, hwk.trans hkey.symm, hwc⟩
    · exact .inr (.inl (by rw [ho, Slot.ix_of_key hkey]))
    · exact .inr (.inr ⟨e, he, hb, w, hw, hwk.trans hkey.symm, hwe⟩)

/-- FINISH, with no epoch SEALING and the target in the table. -/
theorem State.Tracks.finish (h : s.Tracks ack a) {t o : EpochNo} (ho : s.openEpoch? = some o) (hk : ¬ s.Knows (o + 1#32))
    (hseal : a.sealingEntry? = none) (ht : a.Knows t) : s.Covers ack (a.finish t) := by
  have hn : a.nextNumber = o + 1#32 := State.newest_open h.last (h.opens.trans ho)
  rw [State.finish_closedOff, hn, State.releaseJournaling_eq]
  generalize o + 1#32 = n at hk
  have hka : ¬ a.Knows n := fun hka => hk (h.known n hka)
  have hbegins := a.cut_begins t n
  have hwithin : Within a (a.cut t n) := (a.cutTo_within t n).trans (a.cut_rest t n).2.2
  have hnumbers : (a.cut t n).NumbersOk := State.cut_numbers h.numbers hka
  have hknows {e : EpochNo} (he : (a.cut t n).Knows e) := State.cut_knows he
  generalize a.cut t n = b at *
  -- a HELD request is not of an epoch that stays: those are SEALED
  have hheld : ∀ x ∈ b.iq.slots, x.state = .held → ∀ e, x.epoch = some e → b.Knows e → e = n := by
    intro z hz hh e he hkb
    obtain hen | ⟨y, hy, rfl⟩ := hknows hkb
    · exact hen
    exfalso
    obtain ⟨x, hx, k⟩ := hbegins.plain z hz
    have hya : y ∈ a.ec.table := (List.takeWhile_prefix _).subset hy
    have hsealed := h.held x hx (k.held hh) y hya (k.epoch.symm.trans he)
    have hopened : y.state ≠ .opened := by
      obtain ⟨v, hv, hvt⟩ := ht
      have hsplit := List.takeWhile_append_dropWhile (p := fun y : Entry => y.number != t) (l := a.ec.table)
      have hvd : v ∈ a.ec.table.dropWhile (fun y => y.number != t) := by
        rw [← hsplit] at hv
        refine (List.mem_append.1 hv).resolve_left (fun hvk => ?_)
        exact takeWhile_number_ne v hvk hvt
      have hl := h.last
      rw [← hsplit, List.map_append] at hl
      exact (List.pairwise_append.1 hl).2.2 y.state (List.mem_map_of_mem hy) v.state (List.mem_map_of_mem hvd)
    have hsealing : y.state ≠ .sealing := by
      intro hs
      exact List.find?_eq_none.1 hseal y hya (by simpa using hs)
    cases hs : y.state with
    | opened => exact hopened hs
    | sealing => exact hsealing hs
    | sealed => exact hsealed hs
  have hrelease : Within b (b.mapSlots (Slot.released Slot.unassigned)) := by
    refine Within.release (f := fun x => x.unassigned.unheld) (fun x hx => ?_)
    simp only [Slot.unheld, Slot.unassigned, hx, if_true]
    exact ⟨rfl, trivial, trivial, .inl trivial⟩
  have hcovers := hbegins.released h hk hheld (hrelease.intake (hwithin.intake h.intake)) hnumbers
  have hclosed (u : State) (ev : Event) : Guarded u (u.closedOff ev) :=
    .of_within ((u.raise_within ev).trans (State.ended_within _ .journaling)) (fun _ _ => .same rfl rfl rfl)
  exact (hcovers.step (State.assignAll_guarded _ _)).step (hclosed _ _)

end

end Sys2Proof.Machine

/-! What follows an action loses no duty (R7, R66, R97, R144). -/
namespace Sys2Proof.Machine

/-! ## The walk's state through what follows an action -/

theorem State.placeSeal_re (s : State) (e : EpochNo) (sigs : List SigEntry) : (s.placeSeal e sigs).re = s.re := by
  rw [s.placeSeal_eq, (State.evaluate_calm (s.sealPlaced e sigs)).re]
  rfl

theorem State.reserveSeal_re (s : State) (e : EpochNo) (sigs : List SigEntry) : (s.reserveSeal e sigs).re = s.re := by
  unfold State.reserveSeal
  split
  · exact s.placeSeal_re e sigs
  · exact (State.placeSeal_re _ e sigs).trans (s.reservationFails_calm e).re

theorem State.startSeal_re (s : State) : s.startSeal.re = s.re := by
  unfold State.startSeal
  split
  · rfl
  · split
    · exact (State.reserveSeal_re _ _ _).trans (State.sealWork_seals _ _).kept.1
    · rfl

section
variable {s u : State} {ack : Option SlotIx} {n : EpochNo}

/-- The next epoch number is free in `s`. -/
def State.Roomy (s : State) : Prop := ∀ o, s.openEpoch? = some o → ¬ s.Knows (o + 1#32)

theorem State.entry?_knows {t : EpochNo} (h : (s.entry? t).isSome = true) : s.Knows t := by
  obtain ⟨y, hy⟩ := Option.isSome_iff_exists.1 h
  exact ⟨y, State.entry?_mem hy, by simpa using List.find?_some hy⟩

theorem State.Tracks.walkOn (h : s.Tracks ack u) (hfree : s.Roomy) (hopen : s.openEpoch?.isSome = true)
    (hseal : u.sealingEntry? = none) {t : EpochNo} (ht : u.Knows t) (es : List Entry) : s.Covers ack (u.walkOn t es) := by
  unfold State.walkOn
  split
  · exact (h.step (u.readRecord_guarded _ _)).covers
  · obtain ⟨o, ho⟩ := Option.isSome_iff_exists.1 hopen
    exact h.finish ho (hfree o ho) hseal ht

theorem State.Tracks.judge (h : s.Tracks ack u) (hfree : s.Roomy) (hopen : s.openEpoch?.isSome = true)
    (hseal : u.sealingEntry? = none) (t : EpochNo) : s.Covers ack (u.judge t) := by
  unfold State.judge
  split
  · rename_i hjudged
    exact h.walkOn hfree hopen hseal (State.entry?_knows hjudged.1) _
  · exact (h.step (u.refuse_guarded t)).covers

theorem State.Tracks.testDrain (h : s.Tracks ack u) (hfree : s.Roomy) (hopen : u.re.phase ≠ .idle → s.openEpoch?.isSome = true) :
    s.Covers ack u.testDrain := by
  by_cases hp : u.re.phase = .drain
  · unfold State.testDrain
    split
    · split
      · rename_i hdone
        obtain ⟨-, hseal, -, -⟩ := u.drainDone_iff.1 hdone
        refine h.judge hfree (hopen (by rw [hp]; decide)) hseal _
      · exact h.covers
    · exact h.covers
  · rw [State.testDrain_self hp]
    exact h.covers

theorem State.Tracks.settle (h : s.Tracks ack u) (hfree : s.Roomy) (hopen : u.re.phase ≠ .idle → s.openEpoch?.isSome = true) :
    s.Covers ack u.settle := by
  have hre : u.serve.startSeal.serve.re = u.re := by
    rw [(State.serve_serves _).re, State.startSeal_re, u.serve_serves.re]
  have hserved := ((h.step u.serve_guarded).step (State.startSeal_guarded _)).step (State.serve_guarded _)
  unfold State.settle
  generalize u.serve.startSeal.serve = v at hre hserved
  exact (hserved.testDrain hfree (hre ▸ hopen)).step (State.serve_guarded _)

theorem State.Covers.settle (h : s.Covers ack u) (hp : u.re.phase ≠ .drain) : s.Covers ack u.settle := by
  have hre : u.serve.startSeal.serve.re = u.re := by
    rw [(State.serve_serves _).re, State.startSeal_re, u.serve_serves.re]
  have hserved := ((h.step u.serve_guarded).step (State.startSeal_guarded _)).step (State.serve_guarded _)
  unfold State.settle
  generalize u.serve.startSeal.serve = v at hre hserved
  rw [State.testDrain_self (hre ▸ hp)]
  exact hserved.step (State.serve_guarded _)

theorem State.withAnswer_guarded (u : State) (m : Mdo) : Guarded u (u.withAnswer m) :=
  .of_sound (u.withAnswer_steady m).sound (fun _ _ => .same rfl rfl rfl)

end

/-! ## Where an action begins -/

/-- One entry at most is OPEN, the last (R87). -/
theorem State.TableShape.split {s : State} (h : s.TableShape) : ∃ first new : List Entry, s.ec.table = first ++ new ∧
    (∀ y ∈ first, y.state ≠ .opened) ∧ new.length ≤ 1 := by
  obtain ⟨old, mid, new, htable, hold, hmid, -, -, hm⟩ := h
  refine ⟨old ++ mid, new, htable, fun y hy ho => ?_, ?_⟩
  · obtain hy | hy := List.mem_append.1 hy
    · exact EpochState.noConfusion ((hold y hy).symm.trans ho)
    · exact EpochState.noConfusion ((hmid y hy).symm.trans ho)
  · cases hb : s.ec.bridge with
    | passthrough =>
      rw [hb] at hm
      rw [hm.2.2]
      exact Nat.zero_le 1
    | journaling | rolling =>
      rw [hb] at hm
      exact Nat.le_of_eq hm
    | closing =>
      rw [hb] at hm
      rw [hm.2]
      exact Nat.zero_le 1
    | halted =>
      rw [hb] at hm
      exact Nat.le_of_eq hm.2

theorem State.TableOk.last {s : State} (h : s.TableOk) : (s.ec.table.map (·.state)).Pairwise (fun c _ => c ≠ .opened) := by
  obtain ⟨first, new, htable, hfirst, hnew⟩ := h.shape.split
  rw [htable, List.pairwise_map]
  refine List.pairwise_append.2 ⟨List.Pairwise.imp_of_mem (R := fun _ _ => True) (fun ha _ _ => hfirst _ ha)
    (List.pairwise_of_forall (fun _ _ => trivial)), ?_, fun y hy _ _ => hfirst y hy⟩
  match new, hnew with
  | [], _ => exact .nil
  | [y], _ => exact List.pairwise_singleton _ y

theorem State.TableOk.numbers {s : State} (h : s.TableOk) : s.NumbersOk := by
  unfold State.NumbersOk
  cases ht : s.ec.table with
  | nil => exact List.nodup_nil
  | cons first rest =>
    have ho := h.order first rest ht
    rw [← ht]
    exact List.pairwise_map.2 (ho.imp (fun {x y} hlt (heq : x.number = y.number) => by
      rw [heq] at hlt
      exact Nat.lt_irrefl _ hlt))

theorem State.TableOk.tracks {s : State} (k : s.IntakeOk) (h : s.TableOk) (ack : Option SlotIx) : s.Tracks ack s where
  intake := k
  numbers := h.numbers
  last := h.last
  opens := rfl
  held := fun x hx hh y hy he => by
    have hlive : x.Live := ⟨by rw [he]; rfl, .inr (by rw [hh]; decide)⟩
    obtain ⟨z, hz, hze, hsealed, -⟩ := h.live x hx hlive
    rw [eq_of_nodup_map h.numbers hy hz (Option.some.inj (he.symm.trans hze))]
    exact hsealed
  known := fun _ he => he
  bare := fun e he g z hz _ hze _ => by
    refine Classical.byContradiction (fun ho => ?_)
    have hlive : z.Live := ⟨by rw [hze]; rfl, .inl (by simpa using ho)⟩
    obtain ⟨y, hy, hye, -, -⟩ := h.live z hz hlive
    exact he ⟨y, hy, Option.some.inj (hye.symm.trans hze)⟩
  safe := fun g e hd _ => by
    obtain ⟨x, hx, hxd, hxe, hxg, -⟩ := hd
    exact .inr (.inl ⟨x, hx, hxd, hxe, hxg⟩)
  ended := fun z hz hc => .inl ⟨z, hz, rfl, hc⟩

theorem State.TableOk.roomy {s : State} (h : s.TableOk) (hleft : s.NumberLeft) : s.Roomy := by
  intro o ho ⟨y, hy, hn⟩
  exact hleft y hy (hn.trans (State.newest_open h.last ho).symm)

end Sys2Proof.Machine

/-! How a command keeps the duties: the forms an action takes (R64, R65). -/
namespace Sys2Proof.Machine

/-- What a command finds: the parts of the invariant that the duties rest on. -/
structure State.Starts (s : State) : Prop where
  intake : s.IntakeOk
  table  : s.TableOk
  ahead  : s.AheadOk
  left   : s.NumberLeft

/-- An action from `s` to `t` keeps the duties, but for that of slot `ack`, or leaves the table empty. -/
def State.Leads (ack : Option SlotIx) (s t : State) : Prop := s.Starts → s.Covers ack t ∨ t.ec.table = []

theorem State.TableOk.begin {s : State} (h : s.TableOk) : s.begin.TableOk where
  few := h.few
  shape := h.shape
  order := h.order
  depth := h.depth
  pending := h.pending
  closing := h.closing
  phase := h.phase
  target := h.target
  live := h.live
  capture := h.capture
  sealOnce := h.sealOnce
  sealJob := h.sealJob
  walk := h.walk
  walking := h.walking
  walkPort := h.walkPort
  quiet := h.quiet
  done := h.done

theorem State.begin_steady (s : State) : Sound s s.begin := Sound.of_same rfl rfl rfl rfl rfl rfl rfl rfl rfl rfl

theorem State.Starts.begin {s : State} (h : s.Starts) : s.begin.Starts where
  intake := s.begin_steady.intake h.intake
  table := h.table.begin
  ahead := ⟨h.ahead.duty, h.ahead.sent, h.ahead.ended⟩
  left := h.left

section
variable {s t u : State} {ack : Option SlotIx}

theorem State.Starts.tracks (h : s.Starts) (ack : Option SlotIx) : s.Tracks ack s := State.TableOk.tracks h.intake h.table ack

theorem State.Starts.roomy (h : s.Starts) : s.Roomy := h.table.roomy h.left

/-- Outside IDLE an epoch is OPEN (R87). -/
theorem State.TableOk.open_of_phase (h : s.TableOk) (hp : s.re.phase ≠ .idle) : s.openEpoch?.isSome = true := by
  have hb := h.phase.1 hp
  obtain ⟨old, mid, new, htable, -, -, hnew, -, hm⟩ := h.shape
  rw [hb] at hm
  obtain ⟨y, rfl⟩ := List.length_eq_one_iff.1 hm
  have hy : y ∈ s.ec.table := by
    rw [htable]
    exact List.mem_append_right _ List.mem_cons_self
  have hfound : s.openEntry?.isSome = true :=
    List.find?_isSome.2 ⟨y, hy, by simpa using hnew y List.mem_cons_self⟩
  rwa [State.openEpoch?, Option.isSome_map]

/-! ## The forms of an action -/

theorem State.Leads.refl (s : State) : s.Leads ack s := fun h => .inl (h.tracks ack).covers

/-- An effect that adds no epoch, with what follows it. -/
theorem State.Leads.settle (hs : Steady s u) (hg : s.IntakeOk → s.NumbersOk → Guards s u) (hre : u.re.phase = s.re.phase) :
    s.Leads ack u.settle := by
  intro h
  have hu := (h.tracks ack).step (Guarded.of_sound hs.sound hg)
  refine .inl (hu.settle h.roomy (fun hp => h.table.open_of_phase (hre ▸ hp)))

/-- The same with nothing behind it. -/
theorem State.Leads.quiet (hs : Steady s t) (hg : s.IntakeOk → s.NumbersOk → Guards s t) : s.Leads ack t :=
  fun h => .inl ((h.tracks ack).step (Guarded.of_sound hs.sound hg)).covers

theorem State.Leads.same (hs : Steady s t) (hslots : t.iq.slots = s.iq.slots) (htouched : t.cu.touched = s.cu.touched)
    (htable : t.ec.table = s.ec.table) : s.Leads ack t :=
  .quiet hs (fun _ _ => .same hslots htouched htable)

theorem State.Leads.withAnswer (h : s.Leads ack t) (m : Mdo) : s.Leads ack (t.withAnswer m) :=
  fun hs => (h hs).imp (fun hc => hc.step (t.withAnswer_guarded m)) id

/-- With no epoch in the table nothing that follows adds one. -/
theorem State.settle_noEpoch (hi : u.IntakeOk) (ht : u.ec.table = []) (hp : u.re.phase ≠ .drain) : u.settle.ec.table = [] := by
  have hn : u.NumbersOk := by
    rw [State.NumbersOk, ht]
    exact List.nodup_nil
  have hserved : Guarded u u.serve.startSeal.serve :=
    (u.serve_guarded.trans (State.startSeal_guarded _)).trans (State.serve_guarded _)
  have hre : u.serve.startSeal.serve.re = u.re := by
    rw [(State.serve_serves _).re, State.startSeal_re, u.serve_serves.re]
  have hsettle : Guarded u u.settle := by
    unfold State.settle
    generalize u.serve.startSeal.serve = v at hserved hre
    rw [State.testDrain_self (hre ▸ hp)]
    exact hserved.trans v.serve_guarded
  obtain ⟨-, hg⟩ := hsettle hi hn
  have hfaces := hg.ages.faces
  rwa [ht, List.map_nil, List.sublist_nil, List.map_eq_nil_iff] at hfaces

/-- An effect that leaves no epoch. -/
theorem State.Leads.empty (hs : Steady s u) (ht : u.ec.table = []) (hp : u.re.phase ≠ .drain) : s.Leads ack u.settle :=
  fun h => .inr (State.settle_noEpoch (hs.sound.intake h.intake) ht hp)

/-- A frame leads where its command does. -/
theorem State.frame_leads (s : State) (n : Nat) {f : State → Reply} (hf : ∀ t : State, t.Leads ack (f t).1) :
    s.begin.Leads ack (s.frame n f) := by
  have hzero : Steady s.begin { s.begin with noFrame := false, mdo := .zeros } :=
    Steady.of_same rfl rfl rfl rfl rfl rfl rfl rfl rfl rfl rfl
  unfold State.frame
  dsimp only
  split
  · exact .refl _
  · split
    · exact .same hzero rfl rfl rfl
    · exact (hf s.begin).withAnswer _

theorem State.frame_row_leads {n : Nat} {f : State → Reply}
    (h : (.next (s.frame n f) : Host.Outcome State Fault Refusal) = .next t) (hf : ∀ t : State, t.Leads ack (f t).1) :
    s.begin.Leads ack t := by
  obtain rfl := Host.Outcome.next.inj h
  exact s.frame_leads n hf

end

end Sys2Proof.Machine

/-! A grant keeps the duties (R166, R167). -/
namespace Sys2Proof.Machine

/-- From `s` to `t` each record is kept, and the table and the walk's phase with them. -/
structure Sends (s t : State) : Prop where
  plain : Plain s t
  table : t.ec.table = s.ec.table
  phase : t.re.phase = s.re.phase

section
variable {s t u : State} {ack : Option SlotIx}

theorem Sends.refl (s : State) : Sends s s := ⟨.refl s, rfl, rfl⟩

theorem Sends.trans (h : Sends s t) (k : Sends t u) : Sends s u :=
  ⟨h.plain.trans k.plain, k.table.trans h.table, k.phase.trans h.phase⟩

theorem Sends.of_same (hslots : t.iq.slots = s.iq.slots) (htouched : t.cu.touched = s.cu.touched)
    (htable : t.ec.table = s.ec.table) (hre : t.re.phase = s.re.phase) : Sends s t :=
  ⟨.of_slots hslots htouched, htable, hre⟩

theorem Sends.guards (h : Sends s t) : Guards s t := .of_plain h.plain (.of_table h.table)

theorem Sends.leads (h : Sends s u) (hs : Steady s u) : s.Leads ack u.settle :=
  .settle hs (fun _ _ => h.guards) h.phase

theorem State.setSlot_sends (s : State) (q : SlotIx) {f : Slot → Slot} (hf : ∀ x : Slot, x.Kept (f x)) : Sends s (s.setSlot q f) :=
  ⟨.setSlot s q (fun x _ _ => hf x), rfl, rfl⟩

theorem State.decideTripped_sends (s : State) (x : Slot) : Sends s (s.decideTripped x) :=
  (s.setSlot_sends x.ix (f := fun y => { y with outcome := some .tripped, atPoint := false })
    (fun _ => ⟨rfl, rfl, rfl, rfl, rfl, fun _ => rfl, id⟩)).trans (.of_same rfl rfl rfl rfl)

theorem State.pruneForward_sends (qs : List SlotIx) (s : State) : Sends s (s.pruneForward qs) := by
  induction qs generalizing s with
  | nil => exact .refl s
  | cons q rest ih =>
    have hw : Sends s (s.withdraw q) := .of_same rfl rfl rfl rfl
    unfold State.pruneForward
    split
    · exact hw.trans (ih _)
    · split
      · exact (hw.trans (State.decideTripped_sends _ _)).trans (ih _)
      · exact .refl s

theorem State.prune_sends (s : State) (c : Claimant) : Sends s (s.prune c) := by
  cases c with
  | forwardPath => exact s.pruneForward_sends _
  | capturePath | sealWriter | rollbackEngine => exact .refl s

theorem State.sendForward_sends (s : State) (p : PortIx) (x : Slot) : Sends s (s.sendForward p x) := by
  have hw : Sends s (s.withdraw x.ix) := .of_same rfl rfl rfl rfl
  have hi := (s.withdraw x.ix).setSlot_sends x.ix (f := fun z => { z with state := .issued })
    (fun _ => ⟨rfl, rfl, rfl, rfl, rfl, id, fun h => SlotState.noConfusion h⟩)
  exact (hw.trans hi).trans (.of_same rfl rfl rfl rfl)

theorem State.sendCapture_sends {p : PortIx} {r : CaptureReq} (h : s.sendCapture p r = some t) : Sends s t := by
  cases r with
  | oldRead q =>
    obtain ⟨c, -, rfl⟩ := Option.map_eq_some_iff.1 (show (s.capture? q).map _ = some t from h)
    exact .of_same rfl rfl rfl rfl
  | undoWrite q =>
    obtain ⟨c, -, rfl⟩ := Option.map_eq_some_iff.1 (show (s.capture? q).map _ = some t from h)
    exact .of_same rfl rfl rfl rfl

theorem State.sendRecord_sends {p : PortIx} {w : RecordReq} (h : s.sendRecord p w = some t) : Sends s t := by
  unfold State.sendRecord at h
  split at h
  · obtain rfl := Option.some.inj h
    exact .of_same rfl rfl rfl rfl
  · obtain rfl := Option.some.inj h
    exact .of_same rfl rfl rfl rfl
  · split at h
    · simp at h
    · obtain rfl := Option.some.inj h
      exact .of_same rfl rfl rfl rfl

theorem State.sendWalk_sends (s : State) (p : PortIx) (w : WalkReq) : Sends s (s.sendWalk p w) := by
  cases w <;> exact .of_same rfl rfl rfl rfl

theorem State.grantTo_sends {p : PortIx} {c : Claimant} (h : s.grantTo p c = some t) : Sends s t := by
  unfold State.grantTo at h
  cases c with
  | forwardPath =>
    dsimp only at h
    split at h
    · simp at h
    · obtain ⟨x, -, rfl⟩ := Option.map_eq_some_iff.1 h
      exact s.sendForward_sends p x
  | capturePath =>
    dsimp only at h
    split at h
    · simp at h
    · rename_i r rest _
      exact (Sends.of_same rfl rfl rfl rfl : Sends s { s with da := { s.da with capture := rest } }).trans
        (State.sendCapture_sends h)
  | sealWriter =>
    dsimp only at h
    split at h
    · simp at h
    · rename_i w rest _
      exact (Sends.of_same rfl rfl rfl rfl : Sends s { s with da := { s.da with sealWriter := rest } }).trans
        (State.sendRecord_sends h)
  | rollbackEngine =>
    dsimp only at h
    split at h
    · simp at h
    · split at h
      · simp at h
      · obtain rfl := Option.some.inj h
        exact (Sends.of_same rfl rfl rfl rfl : Sends s { s with da := { s.da with rollback := none } }).trans
          (State.sendWalk_sends _ p _)

theorem State.grantAlong_sends (p : PortIx) (cs : List Claimant) (s : State) : Sends s (State.grantAlong p cs s) := by
  induction cs generalizing s with
  | nil => exact .refl s
  | cons c rest ih =>
    unfold State.grantAlong
    split
    · rename_i t ht
      exact ((s.prune_sends c).trans (State.grantTo_sends ht)).trans (.of_same rfl rfl rfl rfl)
    · exact (s.prune_sends c).trans (ih _)

theorem execDaGrant_leads (p : PortIx) (h : execDaGrant p s = .next t) : s.begin.Leads ack t := by
  unfold execDaGrant at h
  dsimp only at h
  split at h
  · obtain rfl := Host.Outcome.next.inj h
    exact .refl _
  · rename_i hp
    obtain rfl := Host.Outcome.next.inj h
    have hfree : s.begin.da.slots[p] = none := by
      simpa [State.portSlot?] using (not_or.1 hp).2
    exact (State.grantAlong_sends p _ _).leads (State.grantAlong_steady p _ _ hfree)

/-! ## Flagged acknowledgments, the hold limit (R17, R168, R172) -/

theorem State.dropAck_sends (s : State) (p : PortIx) : Sends s (s.dropAck p) := by
  have hp : Sends s (s.freePort p) := .of_same rfl rfl rfl rfl
  refine hp.trans (show Sends (s.freePort p) (s.freePort p).releaseRecords from ?_)
  unfold State.releaseRecords
  split
  · exact .refl _
  · exact .of_same rfl rfl rfl rfl

theorem State.expireSlot_sends (s : State) (q : SlotIx) : Sends s (s.expireSlot q) := by
  unfold State.expireSlot
  split
  · exact .refl s
  · split
    · refine (s.setSlot_sends _ (f := fun z => { z with
        state := .waiting, holdEntry := none, outcome := some .heldTimeout }) (fun _ => ?_)).trans (.of_same rfl rfl rfl rfl)
      exact ⟨rfl, rfl, rfl, rfl, rfl, fun _ => rfl, fun h => SlotState.noConfusion h⟩
    · exact .refl s

theorem State.expireAll_sends (s : State) : Sends s s.expireAll := by
  unfold State.expireAll
  generalize s.iq.slots.map (·.ix) = l
  induction l generalizing s with
  | nil => exact .refl s
  | cons q l ih => exact (s.expireSlot_sends q).trans (ih _)

end

end Sys2Proof.Machine

/-! The end of a capture discharges its duty, or its epoch is broken (R72, R75, R76). -/
namespace Sys2Proof.Machine

/-- From `x` to `z` the record keeps its key, assignment and marking and what is decided of it; it does not become HELD. -/
structure Slot.Near (x z : Slot) : Prop where
  key     : z.key = x.key
  epoch   : z.epoch = x.epoch
  marking : z.marking = x.marking
  decided : x.outcome.isSome = true → z.outcome.isSome = true
  held    : z.state = .held → x.state = .held

section
variable {s a b t : State} {ack k : Option SlotIx} {q : SlotIx}

theorem State.Tracks.moved (h : s.Tracks ack a) (hi : b.IntakeOk) (ha : Ages a b)
    (hinto : ∀ z ∈ b.iq.slots, ∃ x ∈ a.iq.slots, x.Near z) (hsafe : ∀ g e, s.Duty ack g e → s.Knows e → b.Safe g e)
    (hended : ∀ z ∈ b.iq.slots, z.captureEnded = true → s.Excuses ack b z) : s.Tracks ack b := by
  have hface {y : Entry} (hy : y ∈ b.ec.table) : ∃ x ∈ a.ec.table, x.number = y.number ∧ x.state = y.state := by
    obtain ⟨x, hx, hxy⟩ := List.mem_map.1 (ha.faces.mem (List.mem_map_of_mem hy))
    exact ⟨x, hx, congrArg Prod.fst hxy, congrArg Prod.snd hxy⟩
  constructor
  case intake => exact hi
  case numbers => exact ha.numbersOk h.numbers
  case last =>
    have hs := ha.faces.map Prod.snd
    rw [List.map_map, List.map_map] at hs
    exact h.last.sublist hs
  case opens => exact ha.opens.trans h.opens
  case held =>
    intro z hz hh y hy he
    obtain ⟨x, hx, hn⟩ := hinto z hz
    obtain ⟨w, hw, hwn, hws⟩ := hface hy
    rw [← hws]
    exact h.held x hx (hn.held hh) w hw (hn.epoch.symm.trans (he.trans (congrArg some hwn.symm)))
  case known => exact fun e he => h.known e (ha.knows he)
  case bare =>
    intro e he g z hz hg hze hm
    obtain ⟨x, hx, hn⟩ := hinto z hz
    exact hn.decided (h.bare e he g x hx ((Slot.granule_of_key hn.key).symm.trans hg) (hn.epoch.symm.trans hze)
      (hn.marking.symm.trans hm))
  case safe => exact hsafe
  case ended => exact hended

/-! ## A capture ends -/

/-- The record of a request that leaves CAPTURING. -/
def Slot.left (q : SlotIx) (x : Slot) : Slot := if x.ix == q then { x with state := .waiting, captureEnded := true } else x

theorem State.leaveCapture_slots (a : State) (q : SlotIx) : (a.leaveCapture q).iq.slots = a.iq.slots.map (Slot.left q) := rfl

theorem Slot.left_near (q : SlotIx) (x : Slot) : x.Near (x.left q) ∧ (x.left q).duty = x.duty := by
  unfold Slot.left
  split
  · exact ⟨⟨rfl, rfl, rfl, id, fun h => SlotState.noConfusion h⟩, rfl⟩
  · exact ⟨⟨rfl, rfl, rfl, id, id⟩, rfl⟩

theorem State.leaveCapture_safe {g : Granule} {e : EpochNo} (h : a.Safe g e) : (a.leaveCapture q).Safe g e := by
  obtain hb | ⟨x, hx, hd, he, hg⟩ | ⟨hb, hu⟩ := h
  · exact .inl hb
  · obtain ⟨hn, hduty⟩ := x.left_near q
    exact .inr (.inl ⟨x.left q, List.mem_map_of_mem hx, hduty.trans hd, hn.epoch.trans he, (Slot.granule_of_key hn.key).trans hg⟩)
  · refine .inr (.inr ⟨fun z hz hg he hm => ?_, hu⟩)
    obtain ⟨x, hx, rfl⟩ := List.mem_map.1 (a.leaveCapture_slots q ▸ hz)
    obtain ⟨hn, -⟩ := x.left_near q
    exact hn.decided (hb x hx ((Slot.granule_of_key hn.key).symm.trans hg) (hn.epoch.symm.trans he) (hn.marking.symm.trans hm))

theorem State.proceed_sends (a : State) (x : Slot) : Sends a (a.proceed x) := by
  unfold State.proceed
  split
  · exact .refl a
  · split
    · exact a.decideTripped_sends x
    · unfold State.askForward
      split
      · exact .refl a
      · exact .of_same rfl rfl rfl rfl

theorem State.endCapture_sends (a : State) (q : SlotIx) : Sends (a.leaveCapture q) (a.endCapture q) := by
  unfold State.endCapture
  show Sends (a.leaveCapture q) (match (a.leaveCapture q).slot? q with
    | none => a.leaveCapture q
    | some x => (a.leaveCapture q).proceed x)
  split
  · exact .refl _
  · exact State.proceed_sends _ _

/-- A capture ends that may end. -/
theorem State.Tracks.endCapture (h : s.Tracks ack a) {c : Capture} (hc : a.capture? q = some c)
    (hex : ∀ z ∈ a.iq.slots, z.ix = q → s.Excuses ack a z) : s.Tracks ack (a.endCapture q) := by
  have hleft : s.Tracks ack (a.leaveCapture q) := by
    refine h.moved ((a.leaveCapture_steady q hc).sound.intake h.intake) (.of_table rfl) (fun z hz => ?_)
      (fun g e hd he => State.leaveCapture_safe (h.safe g e hd he)) (fun z hz hzc => ?_)
    · obtain ⟨x, hx, rfl⟩ := List.mem_map.1 (a.leaveCapture_slots q ▸ hz)
      exact ⟨x, hx, (x.left_near q).1⟩
    · obtain ⟨x, hx, rfl⟩ := List.mem_map.1 (a.leaveCapture_slots q ▸ hz)
      by_cases hxq : x.ix = q
      · have hxl : x.left q = { x with state := .waiting, captureEnded := true } := if_pos (by simpa using hxq)
        rw [hxl]
        exact hex x hx hxq
      · have hxl : x.left q = x := if_neg (by simpa using hxq)
        rw [hxl] at hzc ⊢
        exact h.ended x hx hzc
  have hi := (a.endCapture_steady q hc).sound.intake h.intake
  exact hleft.step (fun _ _ => ⟨hi, (a.endCapture_sends q).guards⟩)

theorem State.endCapture_phase (a : State) (q : SlotIx) : (a.endCapture q).re.phase = a.re.phase := (a.endCapture_sends q).phase

/-- The capture of a broken epoch ends. -/
theorem State.Tracks.endBroken (hs : s.Starts) (h : s.Tracks none a)
    (hkeys : (a.iq.slots.map Slot.key).Sublist (s.iq.slots.map Slot.key))
    {c : Capture} (hsc : s.capture? q = some c) (hac : a.capture? q = some c) (hb : a.AllBroken c.epoch) :
    s.Tracks none (a.endCapture q) := by
  have hcm : c ∈ s.cu.captures := List.mem_of_find?_eq_some hsc
  obtain ⟨⟨x, hx, hxc, hxe⟩, y, hy, hye, -⟩ := hs.table.capture c hcm
  refine h.endCapture hac (fun z hz hzq => .inr (.inr ⟨c.epoch, ⟨y, hy, hye⟩, hb, ?_⟩))
  obtain ⟨w, hw, hwz⟩ := List.mem_map.1 (hkeys.mem (List.mem_map_of_mem hz))
  have hwx : w = x := by
    refine hs.intake.unique hw hx ?_
    rw [Slot.ix_of_key hwz, hzq, hxc, State.capture?_slot hsc]
  exact ⟨w, hw, hwz, hwx ▸ hxe⟩

end

end Sys2Proof.Machine

/-! The rows of a capture, and of the acknowledgments of a forwarded request and of a record (R9, R46, R70 to R76, R170). -/
namespace Sys2Proof.Machine

section
variable {s t u f : State} {ack : Option SlotIx} {q : SlotIx} {c : Capture}

theorem State.Leads.of_tracks (h : s.Starts → s.Tracks ack u) (hre : u.re.phase = s.re.phase) : s.Leads ack u.settle :=
  fun hs => .inl ((h hs).settle hs.roomy (fun hp => hs.table.open_of_phase (hre ▸ hp)))

/-! ## The epoch of a failed capture is broken (R75, R76) -/

/-- From `f` to `t` nothing changes but marks, commits and the ring's state, and epoch `e` is broken. -/
structure State.Voids (f t : State) (e : EpochNo) : Prop where
  calm   : Calm f t
  ages   : Ages f t
  within : Within f t
  broken : f.NumbersOk → t.AllBroken e

theorem State.markBroken_voids (f : State) (e : EpochNo) (r : Reason) : f.Voids (f.markBroken e r) e :=
  ⟨f.markBroken_calm e r, f.markBroken_ages e r, f.markBroken_within e r, fun hn => State.markBroken_allBroken hn e r⟩

theorem State.Voids.then {e : EpochNo} (h : f.Voids t e) (hc : Calm t u) (ha : Ages t u) (hw : Within t u) : f.Voids u e :=
  ⟨h.calm.trans hc, h.ages.trans ha, h.within.trans hw, fun hn => ha.broken e (h.broken hn)⟩

theorem State.Voids.suspended {e : EpochNo} (h : f.Voids t e) (r : Reason) : f.Voids (t.enterSuspended r) e :=
  h.then (t.enterSuspended_calm r) (t.enterSuspended_ages r) (t.enterSuspended_within r)

theorem State.Voids.raised {e : EpochNo} (h : f.Voids t e) (ev : Event) : f.Voids (t.raise ev) e :=
  h.then (t.raise_calm ev) (t.raise_ages ev) (t.raise_within ev)

/-- The end of a capture whose epoch is broken for it, from a state `f` with the requests and captures of `s`. -/
theorem State.Voids.endCapture (hs : s.Starts) (hf : s.Tracks none f) (hslots : f.iq.slots = s.iq.slots) (hcu : f.cu = s.cu)
    (hc : s.capture? q = some c) (h : f.Voids t c.epoch) : s.Tracks none (t.endCapture q) := by
  have ht : s.Tracks none t := hf.step (.of_within h.within (fun _ _ => h.calm.guards h.ages))
  refine ht.endBroken hs (hslots ▸ h.within.keys) hc ?_ (h.broken hf.numbers)
  rw [State.capture?_congr (h.calm.cu.trans hcu)]
  exact hc

theorem State.Voids.endPhase {e : EpochNo} (h : f.Voids t e) (q : SlotIx) : (t.endCapture q).re.phase = f.re.phase := by
  rw [t.endCapture_phase, h.calm.re]

/-! ## UNDO_RESERVATION (R69, R75) -/

theorem State.forcedCommit_ages (s : State) : Ages s s.forcedCommit := by
  unfold State.forcedCommit
  split
  · exact s.commitOldest_ages _
  · exact .refl s

theorem State.undoPlaced_guards (s : State) (c : Capture) : Guards s (s.undoPlaced c) := by
  refine .of_plain (.of_slots rfl rfl) (.map (f := fun x => if x.number == c.epoch then Entry.undoAt s.undoLine x else x) rfl
    (fun y => ?_) (fun y hb => ?_))
  · split <;> rfl
  · split <;> exact hb

theorem State.placeUndo_guards (s : State) (c : Capture) :
    Guards s (s.placeUndo c) ∧ (s.placeUndo c).re = s.re := by
  have hplaced := s.undoPlaced_guards c
  have hre : (s.undoPlaced c).re = s.re := rfl
  rw [s.placeUndo_eq]
  generalize s.undoPlaced c = v at hplaced hre
  have hcalm : Calm v v.evaluate.forcedCommit := v.evaluate_calm.trans (State.forcedCommit_calm _)
  have hages : Ages v v.evaluate.forcedCommit := v.evaluate_ages.trans (State.forcedCommit_ages _)
  generalize v.evaluate.forcedCommit = w at hcalm hages
  exact ⟨(hplaced.trans (hcalm.guards hages)).trans (.same rfl rfl rfl), hcalm.re.trans hre⟩

theorem State.reserveUndo_leads (hc : s.capture? q = some c) : s.Leads none (s.reserveUndo c).settle := by
  have hq := State.capture?_slot hc
  by_cases hp : s.jw.pressure = .suspended
  · have hvoids := s.markBroken_voids c.epoch (s.jw.reason.getD .pressure)
    rw [State.reserveUndo, if_pos hp, hq]
    exact .of_tracks (fun hs => hvoids.endCapture hs (hs.tracks none) rfl rfl hc) (hvoids.endPhase q)
  · by_cases hr : s.undoRoom = true
    · obtain ⟨hg, hre⟩ := s.placeUndo_guards c
      rw [State.reserveUndo, if_neg hp, if_pos hr]
      exact .settle (s.placeUndo_within c).steady (fun _ _ => hg) (congrArg RollbackEngine.phase hre)
    · have hvoids := (s.markBroken_voids c.epoch .pressure).suspended .pressure
      rw [State.reserveUndo, if_neg hp, if_neg hr, hq]
      exact .of_tracks (fun hs => hvoids.endCapture hs (hs.tracks none) rfl rfl hc) (hvoids.endPhase q)

theorem execUndoReservation_leads (q : SlotIx) (h : execUndoReservation q s = .next t) : s.begin.Leads none t := by
  unfold execUndoReservation at h
  dsimp only at h
  split at h
  · obtain rfl := Host.Outcome.next.inj h
    exact .refl _
  · rename_i c hc
    split at h <;> obtain rfl := Host.Outcome.next.inj h
    · exact State.reserveUndo_leads hc
    · exact .refl _

/-! ## The acknowledgments of a capture's requests (R70 to R72, R76) -/

theorem State.freePort_tracks (hs : s.Starts) {p : PortIx} (hn : s.NoForward p) (ack : Option SlotIx) :
    s.Tracks ack (s.freePort p) :=
  (hs.tracks ack).step (.of_sound (s.freePort_steady p (fun _ => hn)).sound (fun _ _ => .same rfl rfl rfl))

theorem State.captureFault_leads {p : PortIx} (hn : s.NoForward p) (hc : s.capture? q = some c) (k : FaultKind) :
    s.Leads none ((s.freePort p).captureFault c k).settle := by
  have hvoids := (((s.freePort p).markBroken_voids c.epoch .media).raised
    { code := .mediaFault, win := c.win, epoch := some c.epoch, arg := packLine (c.undoLine.getD 0) k.code }).suspended .media
  rw [State.captureFault, State.capture?_slot hc]
  exact .of_tracks (fun hs => hvoids.endCapture hs (State.freePort_tracks hs hn none) rfl rfl hc) (hvoids.endPhase q)

theorem State.storeOld_sends (s : State) (q : SlotIx) (data : List Byte) : Sends s (s.storeOld q data) := by
  unfold State.storeOld
  extract_lets t u
  split <;> exact .of_same rfl rfl rfl rfl

theorem State.ackOldRead_leads {p : PortIx} (hn : s.NoForward p) (hc : s.capture? q = some c) (res : AckResult) :
    s.Leads none (s.ackOldRead p c res).settle := by
  cases res with
  | ok data =>
    have hsends : Sends s (s.freePort p) := .of_same rfl rfl rfl rfl
    exact (hsends.trans (State.storeOld_sends _ c.slot data)).leads (State.ackOldRead_steady s p (.ok data) hn hc)
  | error => exact State.captureFault_leads hn hc _

/-- The write whose UNDO record is written has no duty left. -/
theorem State.Tracks.discharged (hf : s.Tracks (some q) f) (hslots : f.iq.slots = s.iq.slots) :
    s.Tracks (some q) (f.setSlot q (fun z => { z with duty := false })) := by
  have hmem {z : Slot} (hz : z ∈ (f.setSlot q (fun z => { z with duty := false })).iq.slots) :
      ∃ x ∈ f.iq.slots, x.Near z ∧ z.captureEnded = x.captureEnded := by
    obtain ⟨x, hx, rfl⟩ := List.mem_map.1 (show z ∈ f.iq.slots.map _ from hz)
    refine ⟨x, hx, ?_⟩
    split <;> exact ⟨⟨rfl, rfl, rfl, id, id⟩, rfl⟩
  have hwithin : Within f (f.setSlot q (fun z => { z with duty := false })) :=
    Within.setSlot_mild _ (fun _ => ⟨rfl, rfl, rfl, rfl⟩)
  refine hf.moved (hwithin.intake hf.intake) (.of_table rfl) (fun z hz => ?_) (fun g e hd _ => ?_) (fun z hz hc => ?_)
  · obtain ⟨x, hx, hn, -⟩ := hmem hz
    exact ⟨x, hx, hn⟩
  · obtain ⟨x, hx, hxd, hxe, hxg, hne⟩ := hd
    refine .inr (.inl ⟨_, List.mem_map_of_mem (hslots ▸ hx), ?_⟩)
    rw [if_neg (fun hq => hne (congrArg some (by simpa using hq : x.ix = q).symm))]
    exact ⟨hxd, hxe, hxg⟩
  · obtain ⟨x, hx, hn, hxc⟩ := hmem hz
    exact .inl ⟨x, hslots ▸ hx, hn.key.symm, hxc.symm.trans hc⟩

theorem State.ackUndoWrite_leads {p : PortIx} (hn : s.NoForward p) (hc : s.capture? q = some c) (data : List Byte) :
    s.Leads (some q) (s.ackUndoWrite p c (.ok data)).settle := by
  have hq := State.capture?_slot hc
  have hv (v : State) (h : v.re = s.re) : (v.endCapture q).re.phase = s.re.phase := by rw [v.endCapture_phase, h]
  show s.Leads (some q) (((s.freePort p).setSlot c.slot (fun z => { z with duty := false })).endCapture c.slot).settle
  rw [hq]
  refine .of_tracks (fun hs => ?_) (hv _ rfl)
  have hf := (State.freePort_tracks hs hn (some q)).discharged rfl
  exact hf.endCapture (c := c) hc (fun z _ hz => .inr (.inl (by rw [hz])))

/-! ## The records' acknowledgments (R170) -/

theorem State.faultOnError_guards (s : State) (l : Nat × EpochNo) (k : FaultKind) (res : AckResult) :
    Guards s (s.faultOnError l k res) ∧ (s.faultOnError l k res).re = s.re := by
  cases res with
  | ok data => exact ⟨.refl s, rfl⟩
  | error =>
    have h := ((s.markBroken_voids l.2 .media).raised
      { code := .mediaFault, epoch := some l.2, arg := packLine l.1 k.code }).suspended .media
    exact ⟨h.calm.guards h.ages, h.calm.re⟩

theorem State.recordAck_leads {p : PortIx} (hn : s.NoForward p) (l : Nat × EpochNo) (k : FaultKind) (res : AckResult) :
    s.Leads ack ((s.freePort p).faultOnError l k res).settle := by
  obtain ⟨hg, hre⟩ := (s.freePort p).faultOnError_guards l k res
  have hf : Guards s (s.freePort p) := .same rfl rfl rfl
  exact .settle ((s.freePort_steady p fun _ => hn).trans (State.faultOnError_within _ l _ res).steady)
    (fun _ _ => hf.trans hg) (congrArg RollbackEngine.phase hre)

/-! ## FORWARDED_ACK (R9) -/

/-- What the effect of a forwarded request's acknowledgment is, but for the request that leaves. -/
theorem State.feed_kept (v : State) (x : Slot) : (v.feed x).iq = v.iq ∧ Ages v (v.feed x) ∧ (v.feed x).re = v.re := by
  unfold State.feed
  split
  · rename_i e i _ _ _
    have hbank (g : Bank → Bank) : (v.setBank e g).iq = v.iq ∧ (v.setBank e g).ec = v.ec ∧ (v.setBank e g).re = v.re := by
      unfold State.setBank
      split
      · exact ⟨rfl, rfl, rfl⟩
      · split <;> exact ⟨rfl, rfl, rfl⟩
    obtain ⟨hiq, hec, hre⟩ := hbank (fun b => b.update i (BankEntry.feed x.req))
    generalize v.setBank e (fun b => b.update i (BankEntry.feed x.req)) = w at hiq hec hre
    exact ⟨hiq, (Ages.of_table (congrArg EpochController.table hec)).trans
      (Ages.setEntry w e (f := fun t => { t with written := setBit t.written i }) (fun _ => rfl) (fun _ h => h)), hre⟩
  · exact ⟨rfl, .refl v, rfl⟩

theorem State.ackForward_parts (s : State) (p : PortIx) (x : Slot) (res : AckResult) :
    (s.ackForward p x res).iq.slots = s.iq.slots.filter (fun y => y.ix != x.ix) ∧ Ages s (s.ackForward p x res) ∧
      (s.ackForward p x res).re = s.re := by
  unfold State.ackForward
  dsimp only
  split
  · exact ⟨rfl, .of_table rfl, rfl⟩
  · obtain ⟨hiq, hages, hre⟩ := (s.freePort p).feed_kept x
    generalize (s.freePort p).feed x = w at hiq hages hre
    refine ⟨?_, ((Ages.of_table rfl : Ages s (s.freePort p)).trans hages).trans (.of_table rfl), hre⟩
    show w.iq.slots.filter _ = _
    rw [hiq]
    rfl
  · exact ⟨rfl, .of_table rfl, rfl⟩

/-- A request on the D-port has no duty left, or its epoch is broken (R64). -/
theorem State.Starts.issued_duty (hs : s.Starts) {x : Slot} (hx : x ∈ s.iq.slots) (hi : x.state = .issued) (hd : x.duty = true)
    {e : EpochNo} (he : x.epoch = some e) : s.AllBroken e := by
  intro y hy hye
  refine Classical.byContradiction (fun hb => ?_)
  obtain ⟨-, hnone⟩ := hs.ahead.sent x hx (.inr hi) y hy (he.trans (congrArg some hye.symm)) (by simpa using hb)
  exact Bool.noConfusion (hd.symm.trans hnone)

theorem State.ackForward_leads {p : PortIx} {x : Slot} {k : PortSlot} (hk : s.da.slots[p] = some k)
    (hq : k.kind.forwardOwner? = some x.ix) (hx : x ∈ s.iq.slots) (res : AckResult) :
    s.Leads ack (s.ackForward p x res).settle := by
  obtain ⟨hslots, hages, hre⟩ := s.ackForward_parts p x res
  have hsteady := State.ackForward_steady s p x res hk hq hx
  generalize s.ackForward p x res = u at hslots hages hre hsteady
  have hin {z : Slot} (hz : z ∈ u.iq.slots) : z ∈ s.iq.slots := by
    rw [hslots] at hz
    exact (List.mem_filter.1 hz).1
  refine .of_tracks (fun hs => ?_) (congrArg RollbackEngine.phase hre)
  obtain ⟨-, v, hv, hvx, hissued⟩ := hs.intake.sent p k x.ix hk hq
  obtain rfl := hs.intake.unique hv hx hvx
  refine (hs.tracks ack).moved (hsteady.sound.intake hs.intake) hages (fun z hz => ⟨z, hin hz, rfl, rfl, rfl, id, id⟩)
    (fun g e hd _ => ?_) (fun z hz hc => .inl ⟨z, hin hz, rfl, hc⟩)
  obtain ⟨w, hw, hwd, hwe, hwg, -⟩ := hd
  by_cases hwv : w.ix = v.ix
  · obtain rfl := hs.intake.unique hw hv hwv
    exact .inl (hages.broken e (hs.issued_duty hv hissued hwd hwe))
  · refine .inr (.inl ⟨w, ?_, hwd, hwe, hwg⟩)
    rw [hslots]
    exact List.mem_filter.2 ⟨hw, by simpa using hwv⟩

theorem execForwardedAck_leads (p : PortIx) (res : AckResult) (h : execForwardedAck p res s = .next t) :
    s.begin.Leads ack t := by
  unfold execForwardedAck at h
  dsimp only at h
  split at h
  · obtain rfl := Host.Outcome.next.inj h
    exact .refl _
  · rename_i x hx
    obtain rfl := Host.Outcome.next.inj h
    obtain ⟨q, hq, hx⟩ := Option.bind_eq_some_iff.1 hx
    obtain ⟨k, hk, hq⟩ := Option.bind_eq_some_iff.1 hq
    obtain ⟨hm, rfl⟩ := State.mem_of_slot? hx
    exact State.ackForward_leads hk hq hm res

end

end Sys2Proof.Machine

/-! The acknowledgment of a SEAL write (R86, R98, R99). -/
namespace Sys2Proof.Machine

section
variable {s t u v a : State} {ack : Option SlotIx} {e : EpochNo}

/-! ## An epoch becomes SEALED (R98) -/

/-- An entry as the SEALED mark of epoch `e` leaves it. -/
def State.asSealed (a : State) (e : EpochNo) (y : Entry) : Entry := if y.number == e then a.sealedEntry e y else y

theorem State.asSealed_same (a : State) (e : EpochNo) (y : Entry) : (a.asSealed e y).number = y.number ∧
    (a.asSealed e y).broken = y.broken ∧ (y.number ≠ e → (a.asSealed e y).state = y.state) ∧
    (y.number = e → (a.asSealed e y).state = .sealed) := by
  by_cases h : y.number = e
  · rw [State.asSealed, if_pos (by simpa using h)]
    exact ⟨rfl, rfl, fun hn => absurd h hn, fun _ => rfl⟩
  · rw [State.asSealed, if_neg (by simpa using h)]
    exact ⟨rfl, rfl, fun _ => rfl, fun he => absurd he h⟩

/-- The OPEN epoch stays where another becomes SEALED. -/
theorem State.becomeSealed_openEpoch? (hopen : ∀ y ∈ a.ec.table, y.number = e → y.state ≠ .opened) :
    (a.becomeSealed e).openEpoch? = a.openEpoch? := by
  have hstate : ∀ y ∈ a.ec.table, ((a.asSealed e y).state == .opened) = (y.state == .opened) := by
    intro y hy
    obtain ⟨-, -, hother, hself⟩ := a.asSealed_same e y
    by_cases h : y.number = e
    · rw [hself h, beq_eq_false_iff_ne.2 (hopen y hy h)]
      rfl
    · rw [hother h]
  have hfind : ∀ l : List Entry, (∀ y ∈ l, ((a.asSealed e y).state == .opened) = (y.state == .opened)) →
      ((l.map (a.asSealed e)).find? (fun y => y.state == .opened)).map (·.number) =
        (l.find? (fun y => y.state == .opened)).map (·.number) := by
    intro l hl
    induction l with
    | nil => rfl
    | cons y l ih =>
      have hy := hl y List.mem_cons_self
      have ih := ih (fun z hz => hl z (List.mem_cons_of_mem _ hz))
      rw [List.map_cons, List.find?_cons, List.find?_cons, hy]
      cases y.state == .opened with
      | true => exact congrArg some (a.asSealed_same e y).1
      | false => exact ih
  exact hfind a.ec.table hstate

theorem State.Tracks.becomeSealed (h : s.Tracks ack a) (hopen : ∀ y ∈ a.ec.table, y.number = e → y.state ≠ .opened)
    (hheld : ∀ x ∈ a.iq.slots, x.state = .held → x.epoch ≠ some e) : s.Tracks ack (a.becomeSealed e) := by
  have htable : (a.becomeSealed e).ec.table = a.ec.table.map (a.asSealed e) := rfl
  have hopens := State.becomeSealed_openEpoch? hopen
  have hbroken {n : EpochNo} (hb : a.AllBroken n) : (a.becomeSealed e).AllBroken n := by
    intro y hy hn
    rw [htable] at hy
    obtain ⟨x, hx, rfl⟩ := List.mem_map.1 hy
    obtain ⟨hnum, hbr, -, -⟩ := a.asSealed_same e x
    rw [hbr]
    exact hb x hx (hnum.symm.trans hn)
  constructor
  case intake => exact (a.becomeSealed_within e).intake h.intake
  case numbers =>
    rw [State.NumbersOk, htable, List.map_map, show (fun y : Entry => y.number) ∘ a.asSealed e = fun y => y.number from
      funext fun y => (a.asSealed_same e y).1]
    exact h.numbers
  case last =>
    rw [htable, List.map_map, List.pairwise_map]
    refine (List.pairwise_map.1 h.last).imp (fun {x y} hx hs => ?_)
    obtain ⟨-, -, hother, hself⟩ := a.asSealed_same e x
    by_cases hn : x.number = e
    · exact EpochState.noConfusion ((hself hn).symm.trans hs)
    · exact hx ((hother hn).symm.trans hs)
  case opens => exact hopens.trans h.opens
  case held =>
    intro x hx hh y hy hxe
    rw [htable] at hy
    obtain ⟨w, hw, rfl⟩ := List.mem_map.1 hy
    obtain ⟨hnum, -, hother, -⟩ := a.asSealed_same e w
    rw [hnum] at hxe
    rw [hother (fun hn => hheld x hx hh (hxe.trans (congrArg some hn)))]
    exact h.held x hx hh w hw hxe
  case known =>
    rintro n ⟨y, hy, hyn⟩
    rw [htable] at hy
    obtain ⟨w, hw, rfl⟩ := List.mem_map.1 hy
    exact h.known n ⟨w, hw, (a.asSealed_same e w).1.symm.trans hyn⟩
  case bare => exact h.bare
  case safe =>
    intro g n hd hk
    obtain hb | hc | ⟨hb, hu⟩ := h.safe g n hd hk
    · exact .inl (hbroken hb)
    · exact .inr (.inl hc)
    · exact .inr (.inr ⟨hb, fun ho => hu (hopens.symm.trans ho)⟩)
  case ended =>
    intro z hz hc
    obtain hw | ho | ⟨n, hn, hb, hw⟩ := h.ended z hz hc
    · exact .inl hw
    · exact .inr (.inl ho)
    · exact .inr (.inr ⟨n, hn, hbroken hb, hw⟩)

end

end Sys2Proof.Machine

/-! What follows an epoch's SEALED mark loses no duty (R86, R98, R99). -/
namespace Sys2Proof.Machine

section
variable {s t u v a : State} {ack : Option SlotIx} {e : EpochNo}

/-! ## A seal is completed (R98, R99) -/

theorem State.commitBroken_ages (s : State) (e : EpochNo) : Ages s (s.commitBroken e) := by
  unfold State.commitBroken
  split
  · exact s.commitN_ages _ _
  · exact .refl s

theorem State.openNext_guards (s : State) : Guards s s.openNext := by
  unfold State.openNext
  split
  · exact .refl s
  · exact s.reserveOpen_guards _

theorem State.depthCommit_ages (s : State) : Ages s s.depthCommit := by
  unfold State.depthCommit
  split
  · exact s.commitOldest_ages _
  · exact .refl s

theorem State.recover_ages (s : State) : Ages s s.recover := by
  unfold State.recover
  split
  · exact (s.setPressure_ages _ _).trans (State.raise_ages _ _)
  · exact .refl s

theorem State.sealing_guarded (s : State) (e : EpochNo) : Guarded s (s.sealing e) := by
  have hbroken (u : State) : Guarded u (u.commitBroken e) :=
    .of_within (u.commitBroken_within e) (fun _ _ => (u.commitBroken_calm e).guards (u.commitBroken_ages e))
  have hnext (u : State) : Guarded u u.openNext := .of_within u.openNext_within (fun _ _ => u.openNext_guards)
  have hdepth (u : State) : Guarded u u.depthCommit :=
    .of_within u.depthCommit_within (fun _ _ => u.depthCommit_calm.guards u.depthCommit_ages)
  have hrecover (u : State) : Guarded u u.recover :=
    .of_within u.recover_within (fun _ _ => u.recover_calm.guards u.recover_ages)
  exact ((((hbroken s).trans (hnext _)).trans (State.serve_guarded _)).trans (hdepth _)).trans (hrecover _)

/-- The next epoch's number is none that `s` knows. -/
theorem State.Starts.free (h : s.Starts) : ¬ s.Knows s.nextNumber := fun ⟨y, hy, hn⟩ => h.left y hy hn

theorem State.makeRoom_re (s : State) : s.makeRoom.re = s.re := by
  unfold State.makeRoom
  split
  · exact (s.commitOldest_calm _).re
  · rfl

theorem State.applyArmed_re (s : State) (e : Option EpochNo) : (s.applyArmed e).re = s.re := by
  unfold State.applyArmed
  split <;> rfl

theorem State.boundary_re (s : State) : s.boundary.re = s.re := by
  unfold State.boundary
  split
  · rfl
  · exact (State.applyArmed_re _ _).trans s.makeRoom_re

theorem State.closingBoundary_re (s : State) : s.closingBoundary.re = s.re := State.applyArmed_re _ none

/-- The boundary that waited is taken, or none waits. -/
theorem State.Tracks.takePending (h : s.Tracks ack a) (hs : s.Starts) (hre : a.re.phase = s.re.phase)
    (hpending : a.ec.pending = s.ec.pending) : s.Covers ack a.takePending.settle := by
  unfold State.takePending
  by_cases hp : a.ec.pending = true
  · have hidle : s.re.phase = .idle := by
      refine Classical.byContradiction (fun hne => ?_)
      have hb := (hs.table.pending (hpending.symm.trans hp)).1
      rw [hs.table.phase.1 hne] at hb
      exact Bridge.noConfusion hb
    have hnot {w : State} (hw : w.re = a.re) : w.re.phase ≠ .drain := by
      rw [hw, hre, hidle]
      decide
    let c : State := { a with ec := { a.ec with pending := false, closing := false } }
    have hc : s.Tracks ack c := h.step (fun k _ => ⟨k.congr rfl rfl rfl rfl rfl rfl, .same rfl rfl rfl⟩)
    rw [if_pos hp]
    show s.Covers ack (if a.ec.closing then c.closingBoundary else c.boundary).settle
    have hcre : c.re = a.re := rfl
    generalize c = w at hc hcre
    split
    · exact (hc.closingBoundary hs.free).settle (hnot (w.closingBoundary_re.trans hcre))
    · exact (hc.boundary hs.roomy).settle (hnot (w.boundary_re.trans hcre))
  · rw [if_neg hp]
    exact h.settle hs.roomy (fun hne => hs.table.open_of_phase (hre ▸ hne))

theorem State.Tracks.completeSeal (h : s.Tracks ack a) (hs : s.Starts) (hre : a.re.phase = s.re.phase)
    (hpending : a.ec.pending = s.ec.pending) (e : EpochNo) : s.Covers ack (a.completeSeal e).settle := by
  have htends := a.sealing_tends e
  have hsealed := h.step (a.sealing_guarded e)
  rw [a.completeSeal_eq]
  generalize a.sealing e = w at htends hsealed
  refine hsealed.takePending hs (by rw [htends.re, hre]) ?_
  rw [htends.ec]
  exact hpending

/-! ## The SEALING epoch (R97) -/

/-- A SEAL write that is out is the SEALING epoch's, whose record is reserved. -/
theorem State.Starts.sealStarted (h : s.Starts) {p : PortIx} {l : Nat} (hp : s.Outstanding p (.sealWrite l e)) :
    s.SealStarted e := by
  refine h.table.sealOnce.2 e (List.mem_append_left _ (List.mem_filterMap.2
    ⟨some { kind := .sealWrite l e, discard := false }, ?_, rfl⟩))
  have hmem : s.da.slots[p] ∈ s.da.slots.toList := Vector.mem_toList_iff.2 (Vector.getElem_mem _)
  rw [show s.da.slots[p] = _ from hp] at hmem
  exact hmem

/-- No HELD request is of an epoch whose seal has started. -/
theorem State.Starts.unheld (h : s.Starts) (hst : s.SealStarted e) {x : Slot} (hx : x ∈ s.iq.slots) (hh : x.state = .held) :
    x.epoch ≠ some e := by
  intro he
  obtain ⟨y, hy, hye, -, hline⟩ := hst
  have hlive : x.Live := ⟨by rw [he]; rfl, .inr (by rw [hh]; decide)⟩
  obtain ⟨w, hw, hwe, -, hnone⟩ := h.table.live x hx hlive
  rw [eq_of_nodup_map h.table.numbers hw hy ((Option.some.inj (hwe.symm.trans he)).trans hye.symm)] at hnone
  rw [hnone] at hline
  exact Bool.noConfusion hline

theorem State.Starts.sealing_entry (h : s.Starts) (hst : s.SealStarted e) {y : Entry} (hy : y ∈ s.ec.table)
    (hye : y.number = e) : y.state = .sealing := by
  obtain ⟨w, hw, hwe, hws, -⟩ := hst
  rw [eq_of_nodup_map h.table.numbers hy hw (hye.trans hwe.symm)]
  exact hws

theorem State.Starts.not_open (h : s.Starts) (hst : s.SealStarted e) : s.openEpoch? ≠ some e := by
  intro ho
  obtain ⟨y, hy, hye⟩ := Option.map_eq_some_iff.1 (show s.openEntry?.map _ = some e from ho)
  have hs := h.sealing_entry hst (State.openEntry?_mem hy) hye
  rw [State.openEntry?_state hy] at hs
  exact EpochState.noConfusion hs

/-- In CLOSING every other epoch is SEALED. -/
theorem State.Starts.closing_entry (h : s.Starts) (hst : s.SealStarted e) (hb : s.ec.bridge = .closing) {y : Entry}
    (hy : y ∈ s.ec.table) : y.number = e ∨ y.state = .sealed := by
  obtain ⟨old, mid, new, htable, hold, hmid, -, -, hm⟩ := h.table.shape
  rw [hb] at hm
  obtain ⟨w, rfl⟩ := List.length_eq_one_iff.1 hm.1
  rw [hm.2, List.append_nil] at htable
  have hsplit {z : Entry} (hz : z ∈ s.ec.table) : z ∈ old ∨ z = w := by
    rw [htable] at hz
    exact (List.mem_append.1 hz).imp id List.mem_singleton.1
  obtain ⟨v, hv, hve, hvs, -⟩ := hst
  obtain hvo | rfl := hsplit hv
  · exact EpochState.noConfusion ((hold v hvo).symm.trans hvs)
  · obtain hyo | rfl := hsplit hy
    · exact .inr (hold y hyo)
    · exact .inl hve

end

end Sys2Proof.Machine

/-! The rows of the SEAL write and of the walk (R86, R98, R148 to R156). -/
namespace Sys2Proof.Machine

section
variable {s t u v a : State} {ack : Option SlotIx} {e : EpochNo}

/-! ## SEAL_WRITE_ACK (R86, R98, R99) -/

/-- The seal of `e` ends, from a state `v` that the freed port and a fault leave. -/
theorem State.Tracks.ackSeal (h : s.Tracks ack v) (hs : s.Starts) (hg : Guards s v) (hec : v.ec = { s.ec with table := v.ec.table })
    (hre : v.re = s.re) (hst : s.SealStarted e) : s.Covers ack (v.ackSeal e).settle ∨ (v.ackSeal e).settle.ec.table = [] := by
  have hface {y : Entry} (hy : y ∈ v.ec.table) : ∃ x ∈ s.ec.table, x.number = y.number ∧ x.state = y.state := by
    obtain ⟨x, hx, hxy⟩ := List.mem_map.1 (hg.ages.faces.mem (List.mem_map_of_mem hy))
    exact ⟨x, hx, congrArg Prod.fst hxy, congrArg Prod.snd hxy⟩
  have hopen : ∀ y ∈ v.ec.table, y.number = e → y.state ≠ .opened := by
    intro y hy hye ho
    obtain ⟨x, hx, hxn, hxs⟩ := hface hy
    exact EpochState.noConfusion ((hs.sealing_entry hst hx (hxn.trans hye)).symm.trans (hxs.trans ho))
  have hheld : ∀ x ∈ v.iq.slots, x.state = .held → x.epoch ≠ some e := by
    intro x hx hh he
    obtain ⟨w, hw, hwh, hwe⟩ | ho := hg.held x hx hh e he
    · exact hs.unheld hst hw hwh hwe
    · exact hs.not_open hst ho
  have hb := h.becomeSealed hopen hheld
  have hbec : (v.becomeSealed e).ec.bridge = s.ec.bridge ∧ (v.becomeSealed e).ec.pending = s.ec.pending :=
    ⟨show v.ec.bridge = _ by rw [hec], show v.ec.pending = _ by rw [hec]⟩
  have hbre : (v.becomeSealed e).re = s.re := hre
  have hall (hcl : s.ec.bridge = .closing) : ∀ y ∈ (v.becomeSealed e).ec.table, y.state = .sealed :=
    State.becomeSealed_allSealed (fun y hy => by
      obtain ⟨x, hx, hxn, hxs⟩ := hface hy
      rw [← hxn, ← hxs]
      exact hs.closing_entry hst hcl hx)
  unfold State.ackSeal
  generalize v.becomeSealed e = w at hb hbec hbre hall
  dsimp only
  split
  · rename_i hcl
    have hcloses := State.endClosing_closes (hall (hbec.1.symm.trans hcl)) e
    refine .inr (State.settle_noEpoch ((w.endClosing_within e).intake hb.intake) (by rw [hcloses.ec]) ?_)
    have hidle : s.re.phase = .idle := by
      refine Classical.byContradiction (fun hne => ?_)
      rw [hs.table.phase.1 hne] at hbec
      exact Bridge.noConfusion (hbec.1.symm.trans hcl)
    rw [hcloses.re, hbre, hidle]
    decide
  · exact .inl (hb.completeSeal hs (congrArg RollbackEngine.phase hbre) hbec.2 e)

theorem State.sealAck_leads {p : PortIx} {l : Nat} (hn : s.NoForward p) (hp : s.Outstanding p (.sealWrite l e)) (res : AckResult) :
    s.Leads ack (((s.freePort p).faultOnError (l, e) .sealWrite res).ackSeal e).settle := by
  intro hs
  obtain ⟨hg, hre⟩ := (s.freePort p).faultOnError_guards (l, e) .sealWrite res
  have hf : Guards s (s.freePort p) := .same rfl rfl rfl
  have hwithin := State.faultOnError_within (s.freePort p) (l, e) .sealWrite res
  have hec := (State.faultOnError_calm (s.freePort p) (l, e) .sealWrite res).ec
  generalize (s.freePort p).faultOnError (l, e) .sealWrite res = v at hg hre hwithin hec
  have hsteady : Steady s v := (s.freePort_steady p (fun _ => hn)).trans hwithin.steady
  have hv := (hs.tracks ack).step (.of_sound hsteady.sound (fun _ _ => hf.trans hg))
  exact hv.ackSeal hs (hf.trans hg) hec hre (hs.sealStarted hp)

/-! ## The walk fails (R156) -/

theorem Slot.haltHeld_kept (x : Slot) : x.Kept x.haltHeld := by
  by_cases h : x.state = .held
  · have hx : x.haltHeld = { x with state := .waiting, holdEntry := none, outcome := some .halted } := by
      rw [Slot.haltHeld, if_pos h, Slot.unheld, if_pos h]
    rw [hx]
    exact ⟨rfl, rfl, rfl, rfl, rfl, fun _ => rfl, fun hh => SlotState.noConfusion hh⟩
  · rw [show x.haltHeld = x from if_neg h]
    exact .refl x

theorem State.failWalk_guards (s : State) (w : WalkFailure) : Guards s (s.failWalk w) ∧ (s.failWalk w).re.phase = .idle :=
  ⟨.of_plain (.map (f := Slot.haltHeld) rfl (fun x _ => x.haltHeld_kept) rfl) (.of_table rfl), rfl⟩

theorem State.ackRecord_guards (s : State) (res : AckResult) : Guards s (s.ackRecord res) ∧
    ((s.ackRecord res).re.phase = .idle ∨ (s.ackRecord res).re.phase = s.re.phase) := by
  have hfail (w : WalkFailure) : Guards s (s.failWalk w) ∧ ((s.failWalk w).re.phase = .idle ∨
      (s.failWalk w).re.phase = s.re.phase) := ⟨(s.failWalk_guards w).1, .inl (s.failWalk_guards w).2⟩
  unfold State.ackRecord
  split
  · exact hfail .read
  · split
    · exact ⟨.same rfl rfl rfl, .inr rfl⟩
    · exact hfail .corrupt

theorem State.recordAck_walk_leads {p : PortIx} (hn : s.NoForward p) (res : AckResult) :
    s.Leads ack ((s.freePort p).ackRecord res).settle := by
  have hf : Guards s (s.freePort p) := .same rfl rfl rfl
  have hsteady := (s.freePort_steady p fun _ => hn).trans (State.ackRecord_within _ res).steady
  obtain ⟨hg, hphase⟩ := (s.freePort p).ackRecord_guards res
  generalize (s.freePort p).ackRecord res = u at hg hphase hsteady
  refine fun hs => .inl ((((hs.tracks ack).step (.of_sound hsteady.sound (fun _ _ => hf.trans hg)))).settle hs.roomy
    (fun hne => ?_))
  obtain hidle | hsame := hphase
  · exact absurd hidle hne
  · exact hs.table.open_of_phase (hsame ▸ hne)

/-! ## RESTORE_WRITE_ACK (R148, R149) -/

/-- While a restore write is out the bridge walks (R149). -/
theorem State.Starts.walks (h : s.Starts) {p : PortIx} (hp : s.Outstanding p .restoreWrite) : s.re.phase = .walk := by
  refine h.table.walking.2 (Nat.le_antisymm h.table.walking.1 ?_)
  refine Nat.le_add_right_of_le (List.countP_pos_iff.2 ⟨some { kind := .restoreWrite, discard := false }, ?_, rfl⟩)
  have hmem : s.da.slots[p] ∈ s.da.slots.toList := Vector.mem_toList_iff.2 (Vector.getElem_mem _)
  rw [show s.da.slots[p] = _ from hp] at hmem
  exact hmem

theorem State.walkOn_phase (s : State) (t : EpochNo) (es : List Entry) : (s.walkOn t es).re.phase ≠ .drain := by
  unfold State.walkOn
  split
  · exact fun h => Phase.noConfusion h
  · rw [State.finish_closedOff]
    exact fun h => Phase.noConfusion h

theorem State.Tracks.followLink (h : s.Tracks ack a) (hs : s.Starts) (hre : a.re.phase = .walk) (hseal : a.sealingEntry? = none)
    (hopen : s.openEpoch?.isSome = true) (ht : ∀ t, a.re.target = some t → a.Knows t) :
    s.Covers ack a.followLink ∧ a.followLink.re.phase ≠ .drain := by
  unfold State.followLink
  split
  · rename_i t e htarget _
    split
    · exact ⟨(h.step (a.readRecord_guarded _ _)).covers, fun hp => Phase.noConfusion hp⟩
    · let c : State := { a with re := { a.re with inHand := none } }
      have hc : s.Tracks ack c := h.step (fun k _ => ⟨k.congr rfl rfl rfl rfl rfl rfl, .same rfl rfl rfl⟩)
      exact ⟨hc.walkOn hs.roomy hopen hseal (ht t htarget) _, State.walkOn_phase c t _⟩
  · refine ⟨h.covers, ?_⟩
    rw [hre]
    decide

theorem State.ackRestore_leads {p : PortIx} (hn : s.NoForward p) (hp : s.Outstanding p .restoreWrite) (res : AckResult) :
    s.Leads ack ((s.freePort p).ackRestore res).settle := by
  intro hs
  have hf := State.freePort_tracks hs hn ack
  have hwalk := hs.walks hp
  cases res with
  | error =>
    obtain ⟨hg, hidle⟩ := (s.freePort p).failWalk_guards .write
    have hv := hf.step (.of_within ((s.freePort p).failWalk_within .write) (fun _ _ => hg))
    show s.Covers ack ((s.freePort p).failWalk .write).settle ∨ _
    refine .inl (hv.covers.settle (by rw [hidle]; decide))
  | ok data =>
    let c : State := { s.freePort p with
      re := { (s.freePort p).re with applied := satInc Config.count24Max (s.freePort p).re.applied } }
    have hc : s.Tracks ack c := hf.step (fun k _ => ⟨k.congr rfl rfl rfl rfl rfl rfl, .same rfl rfl rfl⟩)
    obtain ⟨hseal, ⟨y, hy, htarget⟩, -⟩ := hs.table.walk hwalk
    have hopen := hs.table.open_of_phase (by rw [hwalk]; decide)
    obtain ⟨hcov, hphase⟩ := hc.followLink hs hwalk hseal hopen
      (fun t ht => ⟨y, hy, Option.some.inj (htarget.symm.trans ht)⟩)
    show s.Covers ack c.followLink.settle ∨ _
    exact .inl (hcov.settle hphase)

end

end Sys2Proof.Machine

/-! Boundary requests, ENABLE, ROLLBACK and the settings keep the duties (R81 to R102, R140). -/
namespace Sys2Proof.Machine

section
variable {s t u a : State} {ack : Option SlotIx}

/-! ## Boundary requests (R83, R90 to R93, R96) -/

theorem State.recordBoundary_same (s : State) (src : Source) : Guards s (s.recordBoundary src) ∧
    (s.recordBoundary src).re = s.re := by
  unfold State.recordBoundary
  dsimp only
  split <;> exact ⟨.same rfl rfl rfl, rfl⟩

theorem State.Tracks.requestBoundary (h : s.Tracks ack a) (hs : s.Starts) (hidle : a.re.phase = .idle) (src : Source) :
    s.Covers ack (a.requestBoundary src).settle := by
  have hnot {w : State} (hw : w.re = a.re) : w.re.phase ≠ .drain := by
    rw [hw, hidle]
    decide
  unfold State.requestBoundary
  split
  · obtain ⟨hg, hre⟩ := a.recordBoundary_same src
    have hi := (State.recordBoundary_steady a src).sound
    exact (h.step (.of_sound hi (fun _ _ => hg))).covers.settle (hnot hre)
  · split
    · exact (h.closingBoundary hs.free).settle (hnot a.closingBoundary_re)
    · exact (h.boundary hs.roomy).settle (hnot a.boundary_re)

theorem State.Starts.idle (h : s.Starts) (hb : s.ec.bridge ≠ .rolling) : s.re.phase = .idle := by
  refine Classical.byContradiction (fun hne => ?_)
  exact hb (h.table.phase.1 hne)

theorem State.requestBoundary_leads (hb : s.ec.bridge = .journaling) (src : Source) :
    s.Leads ack (s.requestBoundary src).settle :=
  fun hs => .inl ((hs.tracks ack).requestBoundary hs (hs.idle (by rw [hb]; decide)) src)

theorem State.discardBoundary_sends (s : State) : Sends s s.discardBoundary := .of_same rfl rfl rfl rfl

theorem State.startTimer_tracks (hs : s.Starts) (ack : Option SlotIx) : s.Tracks ack s.startTimer :=
  (hs.tracks ack).step (.of_within s.startTimer_within (fun _ _ => .same rfl rfl rfl))

theorem execEpochTimerExpiry_leads (h : execEpochTimerExpiry s = .next t) : s.begin.Leads ack t := by
  unfold execEpochTimerExpiry at h
  dsimp only at h
  split at h <;> obtain rfl := Host.Outcome.next.inj h
  · have hsteady := s.begin.expireTimer_steady
    generalize s.begin = v at hsteady ⊢
    unfold State.expireTimer at hsteady ⊢
    split
    · rename_i hb
      exact fun hs => .inl ((v.startTimer_tracks hs ack).requestBoundary hs (hs.idle (by rw [hb]; decide)) .timer)
    · rename_i hb
      rw [hb] at hsteady
      exact (Sends.of_same rfl rfl rfl rfl : Sends v v.startTimer.discardBoundary).leads hsteady
    all_goals exact .settle (.refl v) (fun _ _ => .refl v) rfl
  · exact .refl _

theorem execEpochInEdge_leads (e : Edge) (h : execEpochInEdge e s = .next t) : s.begin.Leads ack t := by
  unfold execEpochInEdge at h
  dsimp only at h
  split at h <;> obtain rfl := Host.Outcome.next.inj h
  · have hsteady := s.begin.strobe_steady
    generalize s.begin = v at hsteady ⊢
    unfold State.strobe at hsteady ⊢
    split
    · rename_i hb
      exact State.requestBoundary_leads hb _
    · rename_i hb
      rw [hb] at hsteady
      exact v.discardBoundary_sends.leads hsteady
    · rename_i hb
      rw [hb] at hsteady
      exact v.discardBoundary_sends.leads hsteady
    all_goals exact .settle (.refl v) (fun _ _ => .refl v) rfl
  · exact .refl _

theorem State.disable_leads (s : State) : s.Leads ack s.disable.1 := by
  unfold State.disable
  split
  · exact .refl s
  · rename_i hb
    exact State.requestBoundary_leads hb _
  all_goals exact .refl s

theorem State.sealCommand_leads (s : State) : s.Leads ack s.sealCommand.1 := by
  unfold State.sealCommand
  split
  · rename_i hb
    exact State.requestBoundary_leads hb _
  all_goals exact .refl s

/-! ## ENABLE (R81) -/

/-- ENABLE from the state with its new table on. -/
theorem State.startJournaling_rest (s : State) (start : EpochNo) :
    Plain (s.enabling start) (s.startJournaling start) ∧ Ages (s.enabling start) (s.startJournaling start) := by
  rw [State.startJournaling_eq]
  generalize s.enabling start = v
  have hfill : Plain v (v.applyFill (some start)) ∧ Ages v (v.applyFill (some start)) := by
    have h : v.applyFill (some start) = (v.applyArmed (some start)).fillOpenBank (some start) := rfl
    have hlast (w : State) : Plain w (w.fillOpenBank (some start)) ∧ Ages w (w.fillOpenBank (some start)) :=
      ⟨.of_slots rfl rfl, .of_table rfl⟩
    rw [h]
    exact ⟨(v.applyArmed_plain _).trans (hlast _).1, (v.applyArmed_ages _).trans (hlast _).2⟩
  obtain ⟨hplain, hages⟩ := hfill
  generalize v.applyFill (some start) = w at hplain hages
  have hplain := hplain.trans (w.reserveOpen_plain start)
  have hages := hages.trans (w.reserveOpen_ages start)
  generalize w.reserveOpen start = z at hplain hages
  exact ⟨hplain.trans (.of_slots rfl rfl), hages.trans (.of_table rfl)⟩

theorem State.enabling_begins (s : State) (start : EpochNo) : s.Begins (s.enabling start) start := by
  have hmarks := State.setPressure_calm (((s.clearTable.addEpoch start).setBridge .journaling).zeroRing) .normal none
  have hspec := s.enabling_spec start
  refine .of_table hmarks.slots (by rw [hspec.cu]) (fun y hy => ?_)
  rw [hspec.ec] at hy
  rw [List.mem_singleton.1 hy]
  exact .inl rfl

theorem State.enable_leads (s : State) (start : EpochNo) : s.Leads ack (s.enable start).1 := by
  unfold State.enable
  split
  · rename_i hb
    split
    · exact .refl s
    · intro hs
      have hempty : s.ec.table = [] := by
        obtain ⟨old, mid, new, htable, -, -, -, -, hm⟩ := hs.table.shape
        rw [hb] at hm
        rw [htable, hm.1, hm.2.1, hm.2.2]
        rfl
      have hknows : ¬ s.Knows start := by
        rintro ⟨y, hy, -⟩
        rw [hempty] at hy
        exact List.not_mem_nil hy
      obtain ⟨hplain, hages⟩ := s.startJournaling_rest start
      have hnumbers : (s.enabling start).NumbersOk := by
        rw [State.NumbersOk, (s.enabling_spec start).ec]
        exact List.pairwise_singleton _ _
      exact .inl ((hs.tracks ack).begins ((s.enabling_begins start).then hplain hages) hknows
        ((s.startJournaling_within start).intake hs.intake) (hages.numbersOk hnumbers))
  all_goals exact .refl s

/-! ## ROLLBACK (R139, R140) -/

theorem State.rollbackRefusal_none {e : EpochNo} (h : s.rollbackRefusal e = none) :
    s.ec.bridge = .journaling ∨ s.ec.bridge = .halted := by
  unfold State.rollbackRefusal at h
  split at h
  · simp at h
  · simp at h
  · simp at h
  · rename_i hb
    exact .inl hb
  · rename_i hb
    exact .inr hb

/-- In JOURNALING and HALTED an epoch is OPEN (R87). -/
theorem State.TableOk.open_of_bridge (h : s.TableOk) (hb : s.ec.bridge = .journaling ∨ s.ec.bridge = .halted) :
    s.openEpoch?.isSome = true := by
  obtain ⟨old, mid, new, htable, -, -, hnew, -, hm⟩ := h.shape
  have hone : new.length = 1 := by
    obtain hb | hb := hb
    · rw [hb] at hm
      exact hm
    · rw [hb] at hm
      exact hm.2
  obtain ⟨y, rfl⟩ := List.length_eq_one_iff.1 hone
  have hy : y ∈ s.ec.table := by
    rw [htable]
    exact List.mem_append_right _ List.mem_cons_self
  have hfound : s.openEntry?.isSome = true :=
    List.find?_isSome.2 ⟨y, hy, by simpa using hnew y List.mem_cons_self⟩
  rwa [State.openEpoch?, Option.isSome_map]

theorem Slot.heldAt_same (x : Slot) (now : Word32) : (x.heldAt now).key = x.key ∧ (x.heldAt now).epoch = x.epoch ∧
    (x.heldAt now).marking = x.marking ∧ (x.heldAt now).duty = x.duty ∧ (x.heldAt now).outcome = x.outcome ∧
    (x.heldAt now).captureEnded = x.captureEnded := ⟨rfl, rfl, rfl, rfl, rfl, rfl⟩

/-- The requests that an acceptance moves to HELD are not done with their epochs. -/
theorem State.rollback_tracks (hs : s.Starts) (ack : Option SlotIx) (e : EpochNo)
    (hi : (s.rollingTo e).holdWaiting.IntakeOk) : s.Tracks ack (s.rollingTo e).holdWaiting := by
  have h := hs.tracks ack
  have hd : ((s.rollingTo e).iq.slots.map (·.ix)).Nodup := hs.intake.distinct
  rw [State.holdWaiting_eq hd] at hi ⊢
  let f : Slot → Slot := fun x => if x.toHold then x.heldAt s.eq.time else x
  have hsame (x : Slot) : (f x).key = x.key ∧ (f x).epoch = x.epoch ∧ (f x).marking = x.marking ∧ (f x).duty = x.duty ∧
      (f x).outcome = x.outcome ∧ (f x).captureEnded = x.captureEnded := by
    by_cases hx : x.toHold = true
    · rw [show f x = x.heldAt s.eq.time from if_pos hx]
      exact x.heldAt_same _
    · rw [show f x = x from if_neg hx]
      exact ⟨rfl, rfl, rfl, rfl, rfl, rfl⟩
  constructor
  case intake => exact hi
  case numbers => exact h.numbers
  case last => exact h.last
  case opens => exact h.opens
  case held =>
    intro z hz hh y hy he
    obtain ⟨x, hx, rfl⟩ := List.mem_map.1 (show z ∈ s.iq.slots.map f from hz)
    by_cases hm : x.toHold = true
    · obtain ⟨-, -, hout, -⟩ := x.toHold_iff.1 hm
      have hxe : x.epoch = some y.number := (hsame x).2.1.symm.trans he
      obtain ⟨w, hw, hwe, hws, -⟩ := hs.table.live x hx ⟨by rw [hxe]; rfl, .inl hout⟩
      rw [eq_of_nodup_map hs.table.numbers (show y ∈ s.ec.table from hy) hw (Option.some.inj (hxe.symm.trans hwe))]
      exact hws
    · rw [show f x = x from if_neg hm] at hh he
      exact h.held x hx hh y hy he
  case known => exact h.known
  case bare =>
    intro n hn g z hz hg hze hmk
    obtain ⟨x, hx, rfl⟩ := List.mem_map.1 (show z ∈ s.iq.slots.map f from hz)
    obtain ⟨hkey, hepoch, hmark, -, hout, -⟩ := hsame x
    rw [hout]
    exact h.bare n hn g x hx ((Slot.granule_of_key hkey).symm.trans hg) (hepoch.symm.trans hze) (hmark.symm.trans hmk)
  case safe =>
    intro g n hd _
    obtain ⟨x, hx, hxd, hxe, hxg, -⟩ := hd
    obtain ⟨hkey, hepoch, -, hduty, -⟩ := hsame x
    exact .inr (.inl ⟨f x, List.mem_map_of_mem (f := f) hx, hduty.trans hxd, hepoch.trans hxe,
      (Slot.granule_of_key hkey).trans hxg⟩)
  case ended =>
    intro z hz hc
    obtain ⟨x, hx, rfl⟩ := List.mem_map.1 (show z ∈ s.iq.slots.map f from hz)
    obtain ⟨hkey, -, -, -, -, hended⟩ := hsame x
    exact .inl ⟨x, hx, hkey.symm, hended.symm.trans hc⟩

theorem State.acceptRollback_leads {e : EpochNo} (h : s.rollbackRefusal e = none) : s.Leads ack (s.acceptRollback e) := by
  have hr : Within s ((s.freshRollback.enterRolling e).dropPending) :=
    (s.freshRollback_within.trans (State.enterRolling_within _ e)).trans (State.dropPending_within _)
  unfold State.acceptRollback
  rw [State.rollingTo_eq] at hr ⊢
  intro hs
  have hi := (hr.steady.trans (State.holdWaiting_steady _)).sound.intake hs.intake
  exact .inl ((State.rollback_tracks hs ack e hi).settle hs.roomy
    (fun _ => hs.table.open_of_bridge (State.rollbackRefusal_none h)))

theorem execRollback_leads (e : EpochNo) (h : execRollback e s = .next t) : s.begin.Leads ack t := by
  refine State.frame_row_leads h (fun t => ?_)
  cases hr : t.rollbackRefusal e with
  | some status => exact .refl t
  | none =>
    dsimp only [Reply.done]
    exact State.acceptRollback_leads hr

/-! ## RELEASE and JOURNAL RESET (R159, R199) -/

theorem State.releaseJournal_table (s : State) : s.releaseJournal.ec.table = [] := by
  show s.clearTable.emptyRing.normalize.ec.table = []
  rw [State.normalize_ec]
  rfl

theorem execRelease_leads (h : execRelease s = .next t) : s.begin.Leads ack t := by
  refine State.frame_row_leads h (fun t => ?_)
  by_cases hb : t.ec.bridge = .halted
  · rw [if_pos hb]
    exact fun _ => .inr t.releaseJournal_table
  · rw [if_neg hb]
    exact .refl t

theorem State.journalReset_leads (s : State) : s.Leads ack (Reply.done s.journalReset.settle []).1 := by
  rw [Reply.done_fst]
  have hsteady := s.journalReset_steady
  have htable : s.journalReset.ec.table = [] := rfl
  have hphase : s.journalReset.re.phase ≠ .drain := by
    obtain ⟨evs, -, hframe⟩ := s.journalReset_frame
    rw [show s.journalReset.re = { RollbackEngine.reset with failures := s.re.failures } from congrArg State.re hframe]
    exact fun h => Phase.noConfusion h
  generalize s.journalReset = u at hsteady htable hphase
  exact .empty hsteady htable hphase

end

end Sys2Proof.Machine

/-! Acceptance and the settings keep the duties; every command keeps them (R4, R5, R11, R64, R65). -/
namespace Sys2Proof.Machine

section
variable {s t u : State} {ack : Option SlotIx}

/-! ## Acceptance (R4, R5, R11, R12) -/

/-- A request accepted carries no assignment yet. -/
theorem State.accepted_guards (s : State) (q : SlotIx) (r : Request) : Guards s (s.accepted q r) := by
  have hslots : (s.accepted q r).iq.slots = s.iq.slots ++ [s.newSlot q r] := by
    rw [s.accepted_eq]
    rfl
  have htouched : (s.accepted q r).cu.touched = s.cu.touched := by
    rw [s.accepted_eq]
    rfl
  have hages : Ages s (s.accepted q r) := .of_table (by rw [s.accepted_bridge])
  generalize s.accepted q r = v at hslots htouched hages
  have hmem {z : Slot} (hz : z ∈ v.iq.slots) : z ∈ s.iq.slots ∨ (z.epoch = none ∧ z.captureEnded = false) := by
    rw [hslots] at hz
    refine (List.mem_append.1 hz).imp id (fun hz => ?_)
    rw [List.mem_singleton.1 hz]
    exact ⟨rfl, rfl⟩
  have hold {z : Slot} (hz : z ∈ v.iq.slots) {e : EpochNo} (he : z.epoch = some e) : z ∈ s.iq.slots :=
    (hmem hz).resolve_right (fun h => Option.some_ne_none e (he.symm.trans h.1))
  have hbare {g : Granule} {e : EpochNo} (hb : s.Bare g e) : v.Bare g e :=
    fun z hz hg he hm => hb z (hold hz he) hg he hm
  constructor
  case ages => exact hages
  case safe =>
    rintro g e (hb | ⟨x, hx, hd⟩ | ⟨hb, hu⟩)
    · exact .inl (hages.broken e hb)
    · exact .inr (.inl ⟨x, by rw [hslots]; exact List.mem_append_left _ hx, hd⟩)
    · refine .inr (.inr ⟨hbare hb, fun ho => ?_⟩)
      rw [htouched]
      exact hu (hages.opens.symm.trans ho)
  case bare => exact fun e _ hb g => hbare (hb g)
  case held => exact fun z hz hh e he => .inl ⟨z, hold hz he, hh, he⟩
  case ended =>
    intro z hz hc
    refine ⟨z, (hmem hz).resolve_right (fun h => Bool.noConfusion (h.2.symm.trans hc)), rfl, hc⟩

/-- A request without an assignment becomes HELD. -/
theorem State.hold_guards {q : SlotIx} (h : ∀ x ∈ s.iq.slots, x.ix = q → x.epoch = none) : Guards s (s.hold q) := by
  let f : Slot → Slot := fun z =>
    if z.ix == q then { z with state := .held, holdEntry := some s.eq.time, atPoint := false } else z
  have hsame (x : Slot) : (f x).key = x.key ∧ (f x).epoch = x.epoch ∧ (f x).marking = x.marking ∧ (f x).duty = x.duty ∧
      (f x).outcome = x.outcome ∧ (f x).captureEnded = x.captureEnded ∧ (x.ix ≠ q → f x = x) := by
    by_cases hx : x.ix = q
    · rw [show f x = _ from if_pos (by simpa using hx)]
      exact ⟨rfl, rfl, rfl, rfl, rfl, rfl, fun hne => absurd hx hne⟩
    · rw [show f x = x from if_neg (by simpa using hx)]
      exact ⟨rfl, rfl, rfl, rfl, rfl, rfl, fun _ => rfl⟩
  have hmem {z : Slot} (hz : z ∈ (s.hold q).iq.slots) : ∃ x ∈ s.iq.slots, f x = z :=
    List.mem_map.1 (show z ∈ s.iq.slots.map f from hz)
  have hbare {g : Granule} {e : EpochNo} (hb : s.Bare g e) : (s.hold q).Bare g e := by
    intro z hz hg he hm
    obtain ⟨x, hx, rfl⟩ := hmem hz
    obtain ⟨hkey, hepoch, hmark, -, hout, -⟩ := hsame x
    rw [hout]
    exact hb x hx ((Slot.granule_of_key hkey).symm.trans hg) (hepoch.symm.trans he) (hmark.symm.trans hm)
  constructor
  case ages => exact .of_table rfl
  case safe =>
    rintro g e (hb | ⟨x, hx, hd, he, hg⟩ | ⟨hb, hu⟩)
    · exact .inl hb
    · obtain ⟨hkey, hepoch, -, hduty, -⟩ := hsame x
      exact .inr (.inl ⟨f x, List.mem_map_of_mem (f := f) hx, hduty.trans hd, hepoch.trans he,
        (Slot.granule_of_key hkey).trans hg⟩)
    · exact .inr (.inr ⟨hbare hb, hu⟩)
  case bare => exact fun e _ hb g => hbare (hb g)
  case held =>
    intro z hz hh e he
    obtain ⟨x, hx, rfl⟩ := hmem hz
    obtain ⟨-, hepoch, -, -, -, -, hother⟩ := hsame x
    have hxq : x.ix ≠ q := by
      intro hq
      rw [hepoch, h x hx hq] at he
      exact Option.some_ne_none e he.symm
    rw [hother hxq] at hh he
    exact .inl ⟨x, hx, hh, he⟩
  case ended =>
    intro z hz hc
    obtain ⟨x, hx, rfl⟩ := hmem hz
    obtain ⟨hkey, -, -, -, -, hended, -⟩ := hsame x
    exact ⟨x, hx, hkey.symm, hended.symm.trans hc⟩

theorem State.assignWrite_re (s : State) (q : SlotIx) : (s.assignWrite q).re = s.re := by
  rw [(s.assignWrite_assigns q).frame]

/-- The request in slot `q`, which carries no assignment, enters by the state of the bridge. -/
theorem State.enter_guards {x : Slot} (hd : (s.iq.slots.map (·.ix)).Nodup) (hn : s.NumbersOk) (hx : s.slot? x.ix = some x)
    (hxe : x.epoch = none) : Guards s (s.enter x) ∧ (s.enter x).re = s.re := by
  have hassign : Guards s (s.assignWrite x.ix) ∧ (s.assignWrite x.ix).re = s.re :=
    ⟨State.assignWrite_guards hd hn hx hxe, s.assignWrite_re x.ix⟩
  have hkept : Guards s s ∧ s.re = s.re := ⟨.refl s, rfl⟩
  unfold State.enter
  split
  · split
    · split
      · exact hassign
      · exact hkept
    · split
      · exact hkept
      · exact hassign
      · refine ⟨State.hold_guards (fun y hy hyx => ?_), rfl⟩
        rw [eq_of_nodup_map hd hy (State.mem_of_slot? hx).1 hyx]
        exact hxe
      · exact ⟨(s.setSlot_sends x.ix (f := fun z => { z with outcome := some .halted })
          (fun _ => ⟨rfl, rfl, rfl, rfl, rfl, fun _ => rfl, id⟩)).guards, rfl⟩
  · exact hkept

theorem State.accepted_distinct {q : SlotIx} (k : s.IntakeOk) (hq : s.freeSlot? = some q) (r : Request) :
    ((s.accepted q r).iq.slots.map (·.ix)).Nodup := by
  have hslots : (s.accepted q r).iq.slots = s.iq.slots ++ [s.newSlot q r] := by
    rw [s.accepted_eq]
    rfl
  rw [hslots, List.map_append, List.map_singleton]
  refine List.nodup_append.2 ⟨k.distinct, List.pairwise_singleton _ _, fun a ha b hb hab => ?_⟩
  obtain ⟨y, hy, rfl⟩ := List.mem_map.1 ha
  exact State.freeSlot?_free hq y hy (hab.trans (List.mem_singleton.1 hb))

theorem State.accept_guards {q : SlotIx} (k : s.IntakeOk) (hn : s.NumbersOk) (hq : s.freeSlot? = some q) (r : Request) :
    Guards s (s.accept q r) ∧ (s.accept q r).re = s.re := by
  have hg := s.accepted_guards q r
  have hre : (s.accepted q r).re = s.re := by
    rw [s.accepted_eq]
    rfl
  have hx := State.accepted_slot? hq r
  have hd := State.accepted_distinct k hq r
  have hnum : (s.accepted q r).NumbersOk := hg.ages.numbersOk hn
  rw [State.accept_eq]
  generalize s.accepted q r = v at hg hre hx hd hnum
  obtain ⟨he, here⟩ := State.enter_guards (x := s.newSlot q r) hd hnum hx rfl
  exact ⟨hg.trans he, here.trans hre⟩

theorem State.takePort_guards (k : s.IntakeOk) (hn : s.NumbersOk) : Guards s s.takePort ∧ s.takePort.re = s.re := by
  obtain h | ⟨r, rest, q, -, hq, ⟨-, h⟩ | ⟨-, h⟩⟩ := s.takePort_cases
  · rw [h]
    exact ⟨.refl s, rfl⟩
  · rw [h]
    exact ⟨.same rfl rfl rfl, rfl⟩
  · let c : State := { s with port := rest }
    have hc : Guards s c := .same rfl rfl rfl
    have hk : c.IntakeOk := k.congr rfl rfl rfl rfl rfl rfl
    obtain ⟨hg, hre⟩ := State.accept_guards (s := c) hk hn hq r
    rw [h]
    exact ⟨hc.trans hg, hre⟩

theorem execUportRequest_leads (r : Request) (h : exec (.uportRequest r) s = .next t) : s.begin.Leads ack t := by
  obtain rfl := Host.Outcome.next.inj ((exec_uportRequest r s).symm.trans h)
  have hport : Sound s.begin (s.present r) := Sound.of_same rfl rfl rfl rfl rfl rfl rfl rfl rfl rfl
  have hsame : Guards s.begin (s.present r) := .same rfl rfl rfl
  have hre : (s.present r).re = s.begin.re := rfl
  generalize s.present r = v at hport hsame hre
  intro hs
  have hv := (hs.tracks ack).step (.of_sound hport (fun _ _ => hsame))
  obtain ⟨hg, htre⟩ := State.takePort_guards hv.intake hv.numbers
  have ht := hv.step (.of_sound v.takePort_sound (fun _ _ => hg))
  refine .inl (ht.settle hs.roomy (fun hne => hs.table.open_of_phase ?_))
  rwa [htre, hre] at hne

end

end Sys2Proof.Machine

/-! Every command keeps the duties (R64, R65). -/
namespace Sys2Proof.Machine

section
variable {s t u : State} {ack : Option SlotIx}

/-! ## The settings (R24, R43, R102) -/

theorem State.refence_sends (s : State) (q : SlotIx) : Sends s (s.refence q) := by
  unfold State.refence
  split
  · exact .refl s
  · split
    · have hkept (x : Slot) : x.Kept { x.unheld with outcome := some .fenced, atPoint := false } := by
        by_cases h : x.state = .held
        · rw [show x.unheld = { x with state := .waiting, holdEntry := none } from if_pos h]
          exact ⟨rfl, rfl, rfl, rfl, rfl, fun _ => rfl, fun hh => SlotState.noConfusion hh⟩
        · rw [show x.unheld = x from if_neg h]
          exact ⟨rfl, rfl, rfl, rfl, rfl, fun _ => rfl, id⟩
      have hw : Sends s (s.withdraw q) := .of_same rfl rfl rfl rfl
      exact (hw.trans (State.setSlot_sends _ q hkept)).trans (.of_same rfl rfl rfl rfl)
    · exact .refl s

theorem State.refenceAll_sends (s : State) : Sends s s.refenceAll := by
  unfold State.refenceAll
  generalize s.iq.slots.map (·.ix) = l
  induction l generalizing s with
  | nil => exact .refl s
  | cons q l ih => exact (s.refence_sends q).trans (ih _)

theorem State.journalSetup_leads (s : State) (base pages : Word32) : s.Leads ack (s.journalSetup base pages).1 := by
  unfold State.journalSetup
  split
  · exact .refl s
  · split
    · exact .refl s
    · split
      · exact .refl s
      · dsimp only [Reply.done]
        have hsteady := s.setRegion_steady base pages
        let v : State :=
          { s with jw := { s.jw with region := some { base := base.toNat, pages := pages.toNat }, head := 0, tail := 0 } }
        have hv : Guards s v := .same rfl rfl rfl
        have hregion : Guards s (s.setRegion base pages) := hv.trans (v.evaluate_calm.guards v.evaluate_ages)
        have hre : (s.setRegion base pages).re = s.re := v.evaluate_calm.re
        generalize s.setRegion base pages = w at hsteady hregion hre
        have hall := w.refenceAll_sends
        exact .settle hsteady (fun _ _ => hregion.trans hall.guards) (hall.phase.trans (congrArg RollbackEngine.phase hre))

theorem State.retentionSet_leads (s : State) (depth : Byte) : s.Leads ack (s.retentionSet depth).1 := by
  unfold State.retentionSet
  split
  · exact .refl s
  · split
    · exact .refl s
    · have hsteady := (s.setRetention_steady depth.toNat (by omega)).trans (State.commitExcess_within _ .depth).steady
      have hset : Guards s (s.setRetention depth.toNat) := .same rfl rfl rfl
      have hre : (s.setRetention depth.toNat).re = s.re := rfl
      generalize s.setRetention depth.toNat = w at hsteady hset hre
      have hcalm := w.commitExcess_calm .depth
      exact .settle hsteady (fun _ _ => hset.trans (hcalm.guards (w.commitN_ages _ _)))
        (congrArg RollbackEngine.phase (hcalm.re.trans hre))

end

end Sys2Proof.Machine

/-! Every command keeps the duties, row by row (R64, R65, R72). -/
namespace Sys2Proof.Machine

section
variable {s t u : State} {ack : Option SlotIx}

/-! ## The acknowledgments of the other claimants -/

/-- An acknowledgment leads where its effect on a request of another claimant than the forward path does. -/
theorem State.ackRow_leads {α : Type} {p : PortIx} {own : PortKind → Option α} {act : α → Option State}
    (hown : ∀ k a, own k = some a → k.forwardOwner? = none)
    (hact : ∀ k a u, s.NoForward p → s.Outstanding p k → own k = some a → act a = some u → s.Leads ack u.settle) :
    s.Leads ack (s.ackRow p own act) := by
  unfold State.ackRow
  split
  · exact .refl s
  · rename_i k hk
    split
    · exact .refl s
    · rename_i hd
      exact (s.dropAck_sends p).leads (s.dropAck_steady p (fun h => h.noForward_flagged hk hd))
    · rename_i a ho hd
      cases hu : act a with
      | none => exact .refl s
      | some u =>
        have hout : s.Outstanding p k.kind := by
          show s.da.slots[p] = _
          rw [show s.da.slots[p] = some k from hk, ← hd]
        exact hact k.kind a u (State.noForward_of_kind hk (hown _ a ho)) hout ho hu

theorem execUndoWriteAck_error_leads (p : PortIx) (h : execUndoWriteAck p .error s = .next t) : s.begin.Leads none t := by
  obtain rfl := Host.Outcome.next.inj ((execUndoWriteAck_eq p .error s).symm.trans h)
  refine State.ackRow_leads (fun k a ha => PortKind.not_forward (by simp [ha])) (fun k q u hn _ _ hu => ?_)
  obtain ⟨c, hc, rfl⟩ := Option.map_eq_some_iff.1 hu
  exact State.captureFault_leads hn hc .undoWrite

theorem PortKind.undoWrite_of_owner {k : PortKind} {q : SlotIx} (h : k.undoWriteOwner? = some q) : k = .undoWrite q := by
  cases k with
  | undoWrite r => rw [Option.some.inj (show some r = some q from h)]
  | oldRead _ | fwdRead _ | fwdWrite _ | padWrite _ _ | sealWrite _ _ | openWrite _ _ | recordRead | restoreWrite =>
    exact absurd (show none = some q from h) (by simp)

theorem PortKind.sealWrite_of {k : PortKind} {l : Nat × EpochNo} (h : k.seal? = some l) : k = .sealWrite l.1 l.2 := by
  cases k with
  | sealWrite n e => rw [← Option.some.inj (show some (n, e) = some l from h)]
  | oldRead _ | fwdRead _ | fwdWrite _ | padWrite _ _ | undoWrite _ | openWrite _ _ | recordRead | restoreWrite =>
    exact absurd (show none = some l from h) (by simp)

/-- With an UNDO write acknowledged, its slot's duty alone is excepted. -/
theorem execUndoWriteAck_ok_leads (p : PortIx) (data : List Byte) (h : execUndoWriteAck p (.ok data) s = .next t) :
    ∃ ack, s.begin.Leads ack t ∧ ∀ q, ack = some q → s.Outstanding p (.undoWrite q) := by
  obtain rfl := Host.Outcome.next.inj ((execUndoWriteAck_eq p (.ok data) s).symm.trans h)
  by_cases hout : ∃ q, s.begin.Outstanding p (.undoWrite q)
  · obtain ⟨q, hq⟩ := hout
    refine ⟨some q, State.ackRow_leads (fun k a ha => PortKind.not_forward (by simp [ha])) (fun k r u hn hk hr hu => ?_),
      fun r hr => Option.some.inj hr ▸ hq⟩
    obtain ⟨c, hc, rfl⟩ := Option.map_eq_some_iff.1 hu
    have hkind : PortKind.undoWrite q = k := congrArg PortSlot.kind (Option.some.inj (hq.symm.trans hk))
    rw [← hkind] at hr
    rw [Option.some.inj (show some q = some r from hr)]
    exact State.ackUndoWrite_leads hn hc data
  · refine ⟨none, State.ackRow_leads (fun k a ha => PortKind.not_forward (by simp [ha])) (fun k r u _ hk hr _ => ?_),
      fun q hq => absurd hq (by simp)⟩
    exact absurd ⟨r, PortKind.undoWrite_of_owner hr ▸ hk⟩ hout

/-! ## The rows that add nothing -/

theorem execDiscardedAck_leads (p : PortIx) (res : AckResult) (h : execDiscardedAck p res s = .next t) :
    s.begin.Leads ack t := by
  unfold execDiscardedAck at h
  dsimp only at h
  split at h <;> obtain rfl := Host.Outcome.next.inj h
  · rename_i hd
    obtain ⟨k, hk, hd⟩ := Option.any_eq_true _ _ |>.1 hd
    exact (State.dropAck_sends _ p).leads (State.dropAck_steady _ p (fun k' => k'.noForward_flagged hk hd))
  · exact .refl _

/-- A command whose effect keeps the requests, the touched set and the table. -/
theorem State.Ends.leads (h : s.Ends t) (hiq : t.iq.slots = s.iq.slots) (hcu : t.cu.touched = s.cu.touched)
    (hec : t.ec.table = s.ec.table) : s.Leads ack t := .same h.steady hiq hcu hec

theorem execResetEnd_leads (b : Bool) (h : execResetEnd b s = .next t) : s.begin.Leads ack t := by
  have hends := execResetEnd_ends b h
  unfold execResetEnd at h
  dsimp only at h
  split at h <;> obtain rfl := Host.Outcome.next.inj h <;> exact hends.leads rfl rfl rfl

theorem execFrameEndedEarly_leads (l : List Byte) (h : execFrameEndedEarly l s = .next t) : s.begin.Leads ack t := by
  have hends := execFrameEndedEarly_ends l h
  unfold execFrameEndedEarly at h
  dsimp only at h
  split at h <;> obtain rfl := Host.Outcome.next.inj h <;> exact hends.leads rfl rfl rfl

theorem State.windowWrite_leads (s : State) (ix kind : Byte) (base mask : Word32) (flags quiet : Byte) :
    s.Leads ack (s.windowWrite ix kind base mask flags quiet).1 := by
  unfold State.windowWrite
  split
  · exact .refl s
  · exact .same (Steady.wu s _) rfl rfl rfl

theorem State.windowRead_leads (s : State) (sel ix : Byte) : s.Leads ack (s.windowRead sel ix).1 := by
  unfold State.windowRead
  split <;> exact .refl s

theorem State.applyCommand_leads (s : State) : s.Leads ack s.applyCommand := by
  unfold State.applyCommand
  split
  · exact .same (s.applyTable_within none).steady rfl rfl rfl
  · exact .same (Steady.wu s _) rfl rfl rfl

theorem State.timerSet_leads (s : State) (interval : BitVec 16) (enable : Byte) :
    s.Leads ack (s.timerSet interval enable).1 := by
  unfold State.timerSet
  split
  · exact .refl s
  · split
    · exact .refl s
    · refine .same (s.setTimer_steady interval _) ?_ ?_ ?_ <;> (unfold Reply.done State.setTimer; dsimp only; split <;> rfl)

theorem State.strobeSet_leads (s : State) (enable polarity : Byte) : s.Leads ack (s.strobeSet enable polarity).1 := by
  unfold State.strobeSet
  split
  · exact .same (s.setStrobe_steady _ _) rfl rfl rfl
  · exact .refl s

theorem State.armExpected_leads (s : State) (ix : Byte) (v : Word32) : s.Leads ack (s.armExpected ix v).1 := by
  unfold State.armExpected
  split
  · exact .refl s
  · split
    · exact .refl s
    · split
      · exact .same (s.arm_steady _ v) rfl rfl rfl
      · exact .refl s

theorem State.epochRead_leads (s : State) (start count : Byte) : s.Leads ack (s.epochRead start count).1 := by
  unfold State.epochRead
  split <;> exact .refl s

theorem State.signatureRead_leads (s : State) (e : EpochNo) : s.Leads ack (s.signatureRead e).1 := by
  unfold State.signatureRead
  split <;> exact .refl s

theorem State.eventRead_leads (s : State) (count : Byte) : s.Leads ack (s.eventRead count).1 := by
  unfold State.eventRead
  split
  · exact .refl s
  · exact .same (Steady.eq s _ (fun h => h.remove _)) rfl rfl rfl

/-! ## Every command -/

/-- What every command but the acknowledgment of an UNDO write does. -/
theorem exec_leads {c : Instr} (h : exec c s = .next t) (hu : ∀ p data, c ≠ .undoWriteAck p (.ok data)) :
    s.begin.Leads none t := by
  cases c with
  | uportRequest r => exact execUportRequest_leads r h
  | powerOnReset =>
    obtain rfl := Host.Outcome.next.inj h
    exact fun _ => .inr rfl
  | daGrant p => exact execDaGrant_leads p h
  | forwardedAck p res => exact execForwardedAck_leads p res h
  | undoReservation q => exact execUndoReservation_leads q h
  | oldGranuleReadAck p res =>
    obtain rfl := Host.Outcome.next.inj ((execOldGranuleReadAck_eq p res s).symm.trans h)
    refine State.ackRow_leads (fun k a ha => PortKind.not_forward (by simp [ha])) (fun _ q u hn _ _ hu => ?_)
    obtain ⟨c, hc, rfl⟩ := Option.map_eq_some_iff.1 hu
    exact State.ackOldRead_leads hn hc res
  | undoWriteAck p res =>
    cases res with
    | ok data => exact absurd rfl (hu p data)
    | error => exact execUndoWriteAck_error_leads p h
  | padWriteAck p res =>
    obtain rfl := Host.Outcome.next.inj ((execPadWriteAck_eq p res s).symm.trans h)
    refine State.ackRow_leads (fun k a ha => PortKind.not_forward (by simp [ha])) (fun _ l u hn _ _ hu => ?_)
    obtain rfl := Option.some.inj hu
    exact State.recordAck_leads hn l _ res
  | sealWriteAck p res =>
    obtain rfl := Host.Outcome.next.inj ((execSealWriteAck_eq p res s).symm.trans h)
    refine State.ackRow_leads (fun k a ha => PortKind.not_forward (by simp [ha])) (fun k l u hn hk hl hu => ?_)
    obtain rfl := Option.some.inj hu
    exact State.sealAck_leads hn (PortKind.sealWrite_of hl ▸ hk) res
  | openWriteAck p res =>
    obtain rfl := Host.Outcome.next.inj ((execOpenWriteAck_eq p res s).symm.trans h)
    refine State.ackRow_leads (fun k a ha => PortKind.not_forward (by simp [ha])) (fun _ l u hn _ _ hu => ?_)
    obtain rfl := Option.some.inj hu
    exact State.recordAck_leads hn l _ res
  | recordReadAck p res =>
    obtain rfl := Host.Outcome.next.inj ((execRecordReadAck_eq p res s).symm.trans h)
    refine State.ackRow_leads (fun k a ha => PortKind.not_forward (by simp [PortKind.eq_of_is ha])) (fun _ l u hn _ _ hu => ?_)
    obtain rfl := Option.some.inj hu
    exact State.recordAck_walk_leads hn res
  | restoreWriteAck p res =>
    obtain rfl := Host.Outcome.next.inj ((execRestoreWriteAck_eq p res s).symm.trans h)
    refine State.ackRow_leads (fun k a ha => PortKind.not_forward (by simp [PortKind.eq_of_is ha])) (fun k l u hn hk hl hu => ?_)
    obtain rfl := Option.some.inj hu
    exact State.ackRestore_leads hn (PortKind.eq_of_is hl ▸ hk) res
  | discardedAck p res => exact execDiscardedAck_leads p res h
  | strayAck p res =>
    obtain rfl := Host.Outcome.next.inj h
    exact .refl _
  | holdLimitReached q =>
    obtain rfl := Host.Outcome.next.inj h
    exact (State.expireSlot_sends _ q).leads (State.expireSlot_within _ q).steady
  | epochTimerExpiry => exact execEpochTimerExpiry_leads h
  | epochInEdge e => exact execEpochInEdge_leads e h
  | resetEnd b => exact execResetEnd_leads b h
  | frameEndedEarly l => exact execFrameEndedEarly_leads l h
  | unknownCommand _ => exact State.frame_row_leads h (fun t => .refl t)
  | statusRead => exact State.frame_row_leads h (fun t => .refl t)
  | windowWrite ix k b m f q => exact State.frame_row_leads h (fun t => t.windowWrite_leads ix k b m f q)
  | windowRead sel ix => exact State.frame_row_leads h (fun t => t.windowRead_leads sel ix)
  | apply => exact State.frame_row_leads h (fun t => t.applyCommand_leads)
  | applyCancel => exact State.frame_row_leads h (fun t => .same (Steady.wu t _) rfl rfl rfl)
  | clearTrip set => exact State.frame_row_leads h (fun t => .same (Steady.wu t _) rfl rfl rfl)
  | journalSetup b pg => exact State.frame_row_leads h (fun t => t.journalSetup_leads b pg)
  | retentionSet d => exact State.frame_row_leads h (fun t => t.retentionSet_leads d)
  | timerSet i e => exact State.frame_row_leads h (fun t => t.timerSet_leads i e)
  | strobeSet e pl => exact State.frame_row_leads h (fun t => t.strobeSet_leads e pl)
  | holdLimitSet l =>
    refine State.frame_row_leads h (fun t => ?_)
    have hset : Sends t (t.setHoldLimit l) := .of_same rfl rfl rfl rfl
    exact (hset.trans (State.expireAll_sends _)).leads ((t.setHoldLimit_steady l).trans (State.expireAll_within _).steady)
  | enable e => exact State.frame_row_leads h (fun t => t.enable_leads e)
  | disable => exact State.frame_row_leads h (fun t => t.disable_leads)
  | sealNow => exact State.frame_row_leads h (fun t => t.sealCommand_leads)
  | rollback e => exact execRollback_leads e h
  | release => exact execRelease_leads h
  | journalReset => exact State.frame_row_leads h State.journalReset_leads
  | armExpected ix v => exact State.frame_row_leads h (fun t => t.armExpected_leads ix v)
  | epochRead a b => exact State.frame_row_leads h (fun t => t.epochRead_leads a b)
  | signatureRead e => exact State.frame_row_leads h (fun t => t.signatureRead_leads e)
  | eventRead n => exact State.frame_row_leads h (fun t => t.eventRead_leads n)
  | eventMaskSet m => exact State.frame_row_leads h (fun t => .same (Steady.eq t _ (fun k => k.setMask m)) rfl rfl rfl)
  | clearCounters => exact State.frame_row_leads h (fun t => .same t.clearMerged_steady rfl rfl rfl)

end

end Sys2Proof.Machine

/-! What a grant sends (R7, R24, R64, R166, R167), and the requests of a forbidden kind that never are (R65). -/
namespace Sys2Proof.Machine

section
variable {s t u : State} {p : PortIx} {q : SlotIx}

/-! ## The request that the forward path sends -/

/-- Slot `q` asks for the forward path, its request is outside the region and not a write of a tripped window. -/
def State.Forwards (s : State) (q : SlotIx) : Prop :=
  ∃ x ∈ s.iq.slots, x.ix = q ∧ q ∈ s.da.forward ∧ (x.req.dir = .write → s.tripped x.win = false) ∧
    s.inRegion x.req.addr = false

/-- What the withdrawals of a grant leave as it was. -/
structure State.Prunes (s t : State) : Prop where
  into    : ∀ z ∈ t.iq.slots, ∃ x ∈ s.iq.slots, x.key = z.key
  wu      : t.wu = s.wu
  forward : ∀ r ∈ t.da.forward, r ∈ s.da.forward

theorem State.Prunes.refl (s : State) : s.Prunes s := ⟨fun z hz => ⟨z, hz, rfl⟩, rfl, fun _ h => h⟩

theorem State.Prunes.trans (h : s.Prunes t) (k : t.Prunes u) : s.Prunes u where
  into := fun z hz => by
    obtain ⟨y, hy, hyz⟩ := k.into z hz
    obtain ⟨x, hx, hxy⟩ := h.into y hy
    exact ⟨x, hx, hxy.trans hyz⟩
  wu := k.wu.trans h.wu
  forward := fun r hr => h.forward r (k.forward r hr)

theorem State.withdraw_prunes (s : State) (q : SlotIx) : s.Prunes (s.withdraw q) :=
  ⟨fun z hz => ⟨z, hz, rfl⟩, rfl, fun _ h => (List.mem_filter.1 h).1⟩

theorem State.decideTripped_prunes (s : State) (x : Slot) : s.Prunes (s.decideTripped x) :=
  ⟨fun z hz => by
    obtain ⟨y, hy, hk⟩ := (s.decideTripped_sends x).plain.into z hz
    exact ⟨y, hy, hk.key.symm⟩, rfl, fun _ h => h⟩

theorem State.pruneForward_prunes (qs : List SlotIx) (s : State) : s.Prunes (s.pruneForward qs) := by
  induction qs generalizing s with
  | nil => exact .refl s
  | cons q rest ih =>
    have hw := s.withdraw_prunes q
    unfold State.pruneForward
    split
    · exact hw.trans (ih _)
    · split
      · exact (hw.trans (State.decideTripped_prunes _ _)).trans (ih _)
      · exact .refl s

theorem State.prune_prunes (s : State) (c : Claimant) : s.Prunes (s.prune c) := by
  cases c with
  | forwardPath => exact s.pruneForward_prunes _
  | capturePath | sealWriter | rollbackEngine => exact .refl s

/-- A request withdrawn from the front of the list leaves the rest of it. -/
theorem State.withdraw_front {rest : List SlotIx} (h : s.da.forward = q :: rest) (hd : s.da.forward.Nodup) :
    (s.withdraw q).da.forward = rest := by
  show s.da.forward.filter (fun x => x != q) = rest
  rw [h] at hd ⊢
  rw [List.filter_cons_of_neg (by simp)]
  exact List.filter_eq_self.2 (fun r hr => by simpa using fun hrq : r = q => (List.nodup_cons.1 hd).1 (hrq ▸ hr))

/-- The withdrawals stop at a request that is no write of a tripped window. -/
theorem State.pruneForward_front (qs : List SlotIx) (s : State) (hqs : s.da.forward = qs) (hd : s.da.forward.Nodup)
    {rest : List SlotIx} (hf : (s.pruneForward qs).da.forward = q :: rest) {x : Slot}
    (hx : (s.pruneForward qs).slot? q = some x) (hw : x.isWrite = true) : (s.pruneForward qs).tripped x.win = false := by
  induction qs generalizing s with
  | nil =>
    have hnil : s.da.forward = q :: rest := hf
    rw [hqs] at hnil
    exact absurd hnil (by simp)
  | cons r qs ih =>
    have hfront := State.withdraw_front hqs hd
    have hnodup : (s.withdraw r).da.forward.Nodup := hfront ▸ (List.nodup_cons.1 (hqs ▸ hd)).2
    unfold State.pruneForward at hf hx ⊢
    split at hf
    · rename_i hr
      rw [hr] at hx
      exact ih (s.withdraw r) hfront hnodup hf hx
    · rename_i y hy
      rw [hy] at hx
      dsimp only at hx ⊢
      split at hf
      · rename_i hgo
        rw [if_pos hgo] at hx ⊢
        exact ih ((s.withdraw r).decideTripped y) hfront hnodup hf hx
      · rename_i hstop
        rw [if_neg hstop] at hx ⊢
        obtain rfl : r = q := (List.cons.inj (hqs.symm.trans hf)).1
        obtain rfl := Option.some.inj (hy.symm.trans hx)
        exact Bool.eq_false_iff.2 (fun ht => hstop ⟨hw, ht⟩)

theorem State.inRegion_of_jw (h : t.jw.region = s.jw.region) (a : Addr) : t.inRegion a = s.inRegion a := by
  unfold State.inRegion
  rw [h]

theorem Slot.isWrite_of_dir {x : Slot} (h : x.req.dir = .write) : x.isWrite = true := beq_iff_eq.2 h

/-- What a claimant sends for a master is the request at the front of the forward path. -/
theorem State.grantTo_forwards {v : State} {c : Claimant} (k : s.IntakeOk)
    (ht : (s.prune c).grantTo p c = some v) {ps : PortSlot} (hp : v.da.slots[p] = some ps)
    (ho : ps.kind.forwardOwner? = some q) : s.Forwards q := by
  have hsent (w : State) (kind : PortKind) (r : PortReq) : (w.send p kind r).da.slots[p] = some { kind := kind, discard := false } :=
    Vector.getElem_set_self _
  have hother {w : State} {kind : PortKind} {r : PortReq} (hv : v = w.send p kind r) (hk : kind.forwardOwner? = none) : False := by
    rw [hv, hsent w kind r] at hp
    rw [← Option.some.inj hp, hk] at ho
    exact absurd ho (by simp)
  have hwithin := s.prune_within c k
  have hprunes := s.prune_prunes c
  unfold State.grantTo at ht
  cases c with
  | forwardPath =>
    dsimp only at ht
    split at ht
    · simp at ht
    · rename_i r rest hf
      obtain ⟨x, hx, rfl⟩ := Option.map_eq_some_iff.1 ht
      obtain ⟨hxm, hxr⟩ := State.mem_of_slot? hx
      have hkind : (forwardKind x).forwardOwner? = some x.ix := by
        unfold forwardKind
        split <;> rfl
      have hps : ps.kind = forwardKind x :=
        congrArg PortSlot.kind (Option.some.inj (hp.symm.trans (hsent _ (forwardKind x) (forwardReq p x.req))))
      obtain rfl : x.ix = q := Option.some.inj (hkind.symm.trans (hps ▸ ho))
      obtain rfl := hxr
      have hasked : x.ix ∈ (s.prune .forwardPath).da.forward := by
        rw [hf]
        exact List.mem_cons_self
      have hi := hwithin.intake k
      obtain ⟨z, hz, hzx, hwaiting, hundecided, -⟩ := hi.asked x.ix hasked
      obtain rfl := hi.unique hz hxm hzx
      obtain ⟨y, hy, hyz⟩ := hprunes.into z hxm
      have hreq : y.req = z.req := congrArg (fun t => t.2.1) hyz
      have hwin : y.win = z.win := congrArg (fun t => t.2.2.2.1) hyz
      refine ⟨y, hy, Slot.ix_of_key hyz, hprunes.forward _ hasked, fun hw => ?_, ?_⟩
      · rw [hwin, ← State.tripped_of_wu hprunes.wu]
        exact State.pruneForward_front s.da.forward s rfl k.once hf hx (Slot.isWrite_of_dir (hreq ▸ hw))
      · rw [hreq, ← State.inRegion_of_jw hwithin.keeps.region]
        exact hi.fenced z hxm (by rw [hwaiting]; decide) hundecided
  | capturePath =>
    dsimp only at ht
    split at ht
    · simp at ht
    · rename_i r rest _
      cases r with
      | oldRead n =>
        obtain ⟨c, -, hv⟩ := Option.map_eq_some_iff.1 ht
        exact (hother hv.symm rfl).elim
      | undoWrite n =>
        obtain ⟨c, -, hv⟩ := Option.map_eq_some_iff.1 ht
        exact (hother hv.symm rfl).elim
  | sealWriter =>
    dsimp only at ht
    split at ht
    · simp at ht
    · unfold State.sendRecord at ht
      split at ht
      · exact (hother (Option.some.inj ht).symm rfl).elim
      · exact (hother (Option.some.inj ht).symm rfl).elim
      · split at ht
        · simp at ht
        · exact (hother (Option.some.inj ht).symm rfl).elim
  | rollbackEngine =>
    dsimp only at ht
    split at ht
    · simp at ht
    · rename_i w _
      split at ht
      · simp at ht
      · cases w with
        | recordRead line => exact (hother (Option.some.inj ht).symm rfl).elim
        | restore r => exact (hother (Option.some.inj ht).symm rfl).elim

theorem State.Prunes.forwards (h : s.Prunes t) (hr : t.jw.region = s.jw.region) (hf : t.Forwards q) : s.Forwards q := by
  obtain ⟨z, hz, hzq, hq, htrip, hregion⟩ := hf
  obtain ⟨y, hy, hyz⟩ := h.into z hz
  have hreq : y.req = z.req := congrArg (fun t => t.2.1) hyz
  have hwin : y.win = z.win := congrArg (fun t => t.2.2.2.1) hyz
  refine ⟨y, hy, (Slot.ix_of_key hyz).trans hzq, h.forward q hq, fun hw => ?_, ?_⟩
  · rw [hwin, ← State.tripped_of_wu h.wu]
    exact htrip (hreq ▸ hw)
  · rw [hreq, ← State.inRegion_of_jw hr]
    exact hregion

theorem State.grantAlong_forwards (cs : List Claimant) (s : State) (k : s.IntakeOk) (hfree : s.da.slots[p] = none)
    {ps : PortSlot} (hp : (s.grantAlong p cs).da.slots[p] = some ps) (ho : ps.kind.forwardOwner? = some q) : s.Forwards q := by
  induction cs generalizing s with
  | nil =>
    rw [show s.grantAlong p [] = s from rfl, hfree] at hp
    exact absurd hp (by simp)
  | cons c rest ih =>
    have hwithin := s.prune_within c k
    cases hv : (s.prune c).grantTo p c with
    | some v =>
      have hgrant := State.grantAlong_some hv rest
      have hp : v.da.slots[p] = some ps := by
        rw [hgrant] at hp
        exact hp
      exact State.grantTo_forwards k hv hp ho
    | none =>
      have hskip : s.grantAlong p (c :: rest) = (s.prune c).grantAlong p rest := by simp only [State.grantAlong, hv]
      rw [hskip] at hp
      exact (s.prune_prunes c).forwards hwithin.keeps.region
        (ih (s.prune c) (hwithin.intake k) (by rw [hwithin.keeps.ports]; exact hfree) hp)

/-- What a grant sends for a master. -/
theorem exec_daGrant_forwards (k : s.IntakeOk) (hg : s.Grantable p) : ∃ t, exec (.daGrant p) s = .next t ∧
    ∀ ps q, t.da.slots[p] = some ps → ps.kind.forwardOwner? = some q → s.Forwards q := by
  refine ⟨_, exec_daGrant hg, fun ps q hp ho => ?_⟩
  have hk : s.begin.IntakeOk := s.begin_sound.intake k
  have hfree : s.begin.da.slots[p] = none := hg.2
  rw [(State.settle_within _).keeps.ports] at hp
  exact State.grantAlong_forwards (s := s.begin) _ hk hfree hp ho

/-! ## What a step makes of the duties -/

/-- The acknowledgment of an UNDO write of `x`. -/
def State.Acknowledges (s : State) (c : Instr) (x : Slot) : Prop :=
  ∃ p data, c = .undoWriteAck p (.ok data) ∧ s.Outstanding p (.undoWrite x.ix)

theorem exec_keeps_duties {c : Instr} (hs : s.Starts) (h : exec c s = .next t) : ∃ ack,
    (s.begin.Covers ack t ∨ t.ec.table = []) ∧ ∀ x : Slot, ack = some x.ix → s.Acknowledges c x := by
  by_cases hu : ∃ p data, c = .undoWriteAck p (.ok data)
  · obtain ⟨p, data, rfl⟩ := hu
    obtain ⟨ack, hl, hack⟩ := execUndoWriteAck_ok_leads p data h
    exact ⟨ack, hl hs.begin, fun x hx => ⟨p, data, rfl, hack x.ix hx⟩⟩
  · exact ⟨none, exec_leads h (fun p data hc => hu ⟨p, data, hc⟩) hs.begin, fun x hx => absurd hx (by simp)⟩

/-- In a table that holds epoch `e` unbroken, a duty in `e` has been carried on, rested on by nothing, or acknowledged; a capture
in `e` has ended by its acknowledgment alone. -/
theorem State.Covers.duties {ack : Option SlotIx} (hs : s.Starts) (h : s.begin.Covers ack t) {x : Slot} {e : EpochNo}
    (hx : x ∈ s.iq.slots) (hxe : x.epoch = some e) (hb : ¬ t.AllBroken e) :
    (∀ z ∈ t.iq.slots, z.key = x.key → x.captureEnded = false → z.captureEnded = true → ack = some x.ix) ∧
    (x.duty = true → t.Covered x.granule e ∨ t.Bare x.granule e ∨ ack = some x.ix) := by
  refine ⟨fun z hz hzx hxc hzc => ?_, fun hd => ?_⟩
  · have hown {w : Slot} (hw : w ∈ s.iq.slots) (hwz : w.key = z.key) : w = x :=
      hs.intake.unique hw hx (Slot.ix_of_key (hwz.trans hzx))
    obtain ⟨w, hw, hwz, hwc⟩ | ho | ⟨n, -, hn, w, hw, hwz, hwe⟩ := h.ended z hz hzc
    · rw [hown hw hwz, hxc] at hwc
      exact absurd hwc (by decide)
    · rw [ho, Slot.ix_of_key hzx]
    · rw [hown hw hwz, hxe] at hwe
      exact absurd (Option.some.inj hwe ▸ hn) hb
  · by_cases ho : ack = some x.ix
    · exact .inr (.inr ho)
    · obtain hbr | hc | ⟨hbare, -⟩ := h.safe x.granule e ⟨x, hx, hd, hxe, rfl, ho⟩
      · exact absurd hbr hb
      · exact .inl hc
      · exact .inr (.inl hbare)

end

/-- Settles O26: a grant sends what asks for the forward path, which the invariant keeps clear of the region, of tripped windows
and of records to wait for; the duties are followed through each command. -/
theorem noFencedRequestIsIssued : Obligations.NoFencedRequestIsIssued := by
  unfold Obligations.NoFencedRequestIsIssued
  refine ⟨fun s p k hg => ?granted, fun s p k he hg => ?ahead, fun s t c x e y k he hleft h hx hxe hy hb => ?duty⟩
  case granted =>
    obtain ⟨t, ht, hf⟩ := exec_daGrant_forwards k hg
    refine ⟨t, ht, fun ps q hp ho => ?_⟩
    obtain ⟨x, hx, hxq, -, htrip, hregion⟩ := hf ps q hp ho
    exact ⟨x, hx, hxq, htrip, hregion⟩
  case ahead =>
    obtain ⟨t, ht, hf⟩ := exec_daGrant_forwards k.intake hg
    refine ⟨t, ht, fun ps q hp ho => ?_⟩
    obtain ⟨x, hx, hxq, hasked, -⟩ := hf ps q hp ho
    refine ⟨x, hx, hxq, fun y hy hxy hyb => ?_⟩
    obtain ⟨hneeds, hduty⟩ := he.ahead.sent x hx (.inl (hxq ▸ hasked)) y hy hxy hyb
    refine ⟨hduty, fun hm => ?_⟩
    have hmark : (x.marking == some .capture || x.marking == some .captureDup) = true := by
      obtain hm | hm := hm <;> rw [hm] <;> rfl
    rw [Slot.needsCapture, hmark, Bool.true_and] at hneeds
    simpa using hneeds
  case duty =>
    have hs : s.Starts := ⟨k.intake, he.table, he.ahead, hleft⟩
    obtain ⟨ack, hcov | hempty, hack⟩ := exec_keeps_duties hs h
    · have hunbroken : ¬ t.AllBroken e := by
        intro hall
        have hsome := hall y (State.entry?_mem hy) (State.entry?_number hy)
        rw [hb] at hsome
        exact absurd hsome (by decide)
      obtain ⟨hended, hduty⟩ := hcov.duties hs hx hxe hunbroken
      refine ⟨fun z hz hzx _ hxc hzc => hack x (hended z hz hzx hxc hzc), fun hd => ?_⟩
      obtain ⟨z, hz, hzd, hze, hzg⟩ | hbare | ho := hduty hd
      · exact .inl ⟨z, hz, hzd, hze, hzg⟩
      · exact .inr (.inl hbare)
      · exact .inr (.inr (hack x ho))
    · have hmem := State.entry?_mem hy
      rw [hempty] at hmem
      exact absurd hmem List.not_mem_nil

end Sys2Proof.Machine
